-- ==== Sys2Proof/Word.lean ====
section
/-! DEFINITION. The two word types of the block: a byte and a 16-bit half (00_scope.md R14). -/

namespace Sys2Proof

/-- `u8`: the width of every access at the block's interface (R14, R56). -/
abbrev Byte := BitVec 8

/-- `u16`: the width of a bank register, SPI_CNT, SEG_MASK and an EEPROM word (R14, R21, R34). -/
abbrev Half := BitVec 16

end Sys2Proof
end

