-- ==== Sys2Proof/Machine/Bytes.lean ====
section
/-! DEFINITION. Byte order, once (20_memory.md R55): `BE` and `LE` of 00_scope.md R15, and the bytes of a number. -/

namespace Sys2Proof

/-- `BE(b1, b2, b3)`: a flash address (R55, R65). -/
def be24 (b1 b2 b3 : Byte) : BitVec 24 := b1 ++ b2 ++ b3

/-- The three bytes of a flash address, most significant first (R65). -/
def be24Bytes (a : BitVec 24) : List Byte := [a.extractLsb' 16 8, a.extractLsb' 8 8, a.extractLsb' 0 8]

/-- `BE(b3, b2, b1, b0)`: a card argument or a bootloader address (R55, R67, R74). -/
def be32 (b3 b2 b1 b0 : Byte) : BitVec 32 := b3 ++ b2 ++ b1 ++ b0

/-- The four bytes of a 32-bit number, most significant first (R67, R74). -/
def be32Bytes (a : BitVec 32) : List Byte :=
  [a.extractLsb' 24 8, a.extractLsb' 16 8, a.extractLsb' 8 8, a.extractLsb' 0 8]

/-- `BE(b1, b0)`: a bootloader count or sector index (R74). -/
def be16 (b1 b0 : Byte) : Half := b1 ++ b0

/-- The two bytes of a 16-bit number, most significant first (R74). -/
def be16Bytes (a : Half) : List Byte := [a.extractLsb' 8 8, a.extractLsb' 0 8]

/-- `LE(b0, b1)`: an MCU command word, a word address (R55, R71). -/
def le16 (b0 b1 : Byte) : Half := b1 ++ b0

/-- The two bytes of a 16-bit number, least significant first: a register, a tag, an EEPROM word (R55). -/
def le16Bytes (a : Half) : List Byte := [a.extractLsb' 0 8, a.extractLsb' 8 8]

/-- Sector indices as bytes, each big-endian (R74, BL-EIDX). -/
def indexBytes (l : List Half) : List Byte := l.flatMap be16Bytes

/-- Bytes as sector indices, in pairs, each big-endian (R74, BL-EIDX); a last odd byte is dropped. -/
def indexWords : List Byte → List Half
  | b1 :: b0 :: rest => be16 b1 b0 :: indexWords rest
  | _ => []

end Sys2Proof
end

