-- ==== Sys2Proof/Config.lean ====
section
/-! DEFINITION. What an implementation fixes: the parameters of 00_scope.md R12 and R13, the host inputs of R11,
and the free values (the draws of R9, R10, R40 and R135) as constants without a body. -/

namespace Sys2Proof

/-- The byte arrays of R17 and R37. `rom` is the cartridge ROM image, read-only to the block. -/
inductive Region where
  | psram | sram | ipc | tx | rx | rom | flash | card
  deriving DecidableEq, Repr

/-- The three 16-bit bank selectors (R21): BANK_RAM, BANK_ROM0, BANK_ROM1. -/
inductive BankReg where
  | ram | rom0 | rom1
  deriving DecidableEq, Repr

/-- A byte of a 16-bit register: `lo` is bits 7:0, `hi` is bits 15:8 (R13). -/
inductive BytePort where
  | lo | hi
  deriving DecidableEq, Repr

/-- A port of a 16-bit bank register; `narrow` is an 8-bit-only port (R13, R23). -/
inductive BankPort where
  | lo | hi | narrow
  deriving DecidableEq, Repr

/-- A register byte that `reg_map` can place at an offset (R13, R21). An 8-bit register has its one port. -/
inductive RegPort where
  | flashEn
  | bankLinear
  | bank (r : BankReg) (p : BankPort)
  | spiCnt (p : BytePort)
  | powCnt
  | segMask (p : BytePort)
  | warmboot
  | emuCnt
  | boardRev
  deriving DecidableEq, Repr

/-- A gate of a `reg_map` entry or of the RTC forwarding: `always`, or a POW_CNT bit (R12, R13). -/
inductive Gate where
  | always
  | powBit (k : Fin 8)
  deriving DecidableEq, Repr, Inhabited

/-- One entry of `reg_map` (R13): the offset, the register byte it reaches, its gate. -/
structure RegEntry where
  off : Byte
  port : RegPort
  gate : Gate
  deriving DecidableEq, Repr

/-- The OPEN parameters of R12 and the sizes of the host inputs of R11, one field each.
The values the spec decides are definitions of Machine/Operands.lean and of the peripherals' files. -/
structure Board where
  /-- `reg_map` (R13). -/
  regMap : List RegEntry
  /-- `board_rev_value` (R29). -/
  boardRevValue : Byte
  /-- `rtc_ports`: the offsets of `which = 0` and `which = 1` (R10, R80). -/
  rtcPort0 : Byte
  rtcPort1 : Byte
  /-- `rtc_gate` (R80). -/
  rtcGate : Gate
  /-- POW_CNT flag positions (R25). -/
  powClock : Fin 8
  powCard : Fin 8
  powMcuReset : Fin 8
  powMcuBoot : Fin 8
  powSram : Fin 8
  /-- `pow_bits_io_compat`: the POW_CNT bits that may gate `reg_map` entries (R25). -/
  powIoCompat : List (Fin 8)
  /-- `emu_bit_flash_fsm` (R27). -/
  emuFlashFsm : Fin 8
  /-- `emu_field_sram_size`: the field `EMU_CNT[hi:lo]` (R27). -/
  emuSramHi : Fin 8
  emuSramLo : Fin 8
  /-- The lock-bit positions of SEG_MASK, each 9..15 or absent (R26). -/
  lockRam : Option (Fin 16)
  lockRom0 : Option (Fin 16)
  lockRom1 : Option (Fin 16)
  lockLinear : Option (Fin 16)
  /-- `psram_banks` (R37, R49). -/
  psramBanks : Nat
  /-- `sram_banks(mode)`, the entry of index `mode` (R37, R48). -/
  sramBanks : List Nat
  /-- Bank numbers of the IPC, TX and RX segments, or none (R48, R49). -/
  ipcBankRam : Option (Fin 16)
  ipcBankRom : Option (Fin 512)
  /-- `ipc_size` is two to this power (R12: a power of two, at most 65536). -/
  ipcSizeLog : Fin 17
  txBankRam : Option (Fin 16)
  txBankRom : Option (Fin 512)
  rxBankRom : Option (Fin 512)
  /-- `wait_read_limit` (R101). -/
  waitReadLimit : Nat
  /-- `fifo_cap` (R31, R89). -/
  fifoCap : Nat
  /-- `flash_size`, or absent (R11). -/
  flashSize : Option Nat
  /-- `flash_resp_mfr_dev`, `flash_resp_jedec`, `flash_resp_uuid` (R124 to R126). -/
  flashRespMfrDev : List Byte
  flashRespJedec : List Byte
  flashRespUuid : List Byte
  /-- `flash_erase_fills` (R115). -/
  flashEraseFills : Bool
  /-- `card_size`, or absent (R11). -/
  cardSize : Option Nat
  /-- `card_read_gap` (R68). -/
  cardReadGap : Nat
  /-- `card_stop_busy` (R69). -/
  cardStopBusy : List Byte
  /-- `card_ifcond_tail` (R69). -/
  cardIfcondTail : List Byte
  /-- The six MCU opcodes (R73). -/
  mcuOpEcho : BitVec 7
  mcuOpEepromModeSet : BitVec 7
  mcuOpEepromModeGet : BitVec 7
  mcuOpEepromRead : BitVec 7
  mcuOpUsbRead : BitVec 7
  mcuOpUsbWrite : BitVec 7
  /-- `eeprom_words` (R34). -/
  eepromWords : Nat
  /-- `rom_size` (R11). -/
  romSize : Nat
  deriving DecidableEq, Repr, Inhabited

/-- The other byte of the 16-bit register a port belongs to, with the distance to its offset (R13:
"A two-byte register occupies offsets `o` (bits 7:0) and `o+1` (bits 15:8)"). -/
def RegPort.partner : RegPort → Option (RegPort × Byte)
  | .bank r .lo => some (.bank r .hi, 1)
  | .bank r .hi => some (.bank r .lo, 0xFF)
  | .spiCnt .lo => some (.spiCnt .hi, 1)
  | .spiCnt .hi => some (.spiCnt .lo, 0xFF)
  | .segMask .lo => some (.segMask .hi, 1)
  | .segMask .hi => some (.segMask .lo, 0xFF)
  | _ => none

/-- `reg_map` is a map from offsets, its gates are compatibility bits, its two-byte registers lie at `o`, `o+1` (R13). -/
def Board.regMapWf (b : Board) : Bool :=
  decide (b.regMap.map (·.off)).Nodup
  && b.regMap.all (fun e =>
      (match e.gate with
       | .always => true
       | .powBit k => b.powIoCompat.contains k)
      && (match e.port.partner with
          | none => true
          | some (p, d) => b.regMap.contains ⟨e.off + d, p, e.gate⟩))

/-- A lock bit lies in 9..15 or is absent (R26). -/
def Board.lockWf (l : Option (Fin 16)) : Bool :=
  match l with
  | none => true
  | some k => decide (9 ≤ k.val)

/-- The constraints R12, R13 and D24, D50, D58 put on the parameters. -/
def Board.wf (b : Board) : Bool :=
  b.regMapWf
  && decide [b.powClock, b.powCard, b.powMcuReset, b.powMcuBoot, b.powSram].Nodup
  && decide (b.emuSramLo ≤ b.emuSramHi)
  && Board.lockWf b.lockRam && Board.lockWf b.lockRom0 && Board.lockWf b.lockRom1 && Board.lockWf b.lockLinear
  && decide (1 ≤ b.psramBanks ∧ b.psramBanks ≤ 511)
  && b.sramBanks.all (fun n => decide (n ≤ 16))
  && decide (1 ≤ b.waitReadLimit)
  && decide (1024 ≤ b.fifoCap)
  && decide (b.cardReadGap + 514 ≤ b.fifoCap)
  && (match b.flashSize with
      | none => true
      | some n => decide (n ≤ 16777216))
  && decide (b.flashRespUuid.length = 8)
  && decide (b.cardIfcondTail.length = 4)
  && decide [b.mcuOpEcho, b.mcuOpEepromModeSet, b.mcuOpEepromModeGet, b.mcuOpEepromRead, b.mcuOpUsbRead,
      b.mcuOpUsbWrite].Nodup
  && decide (1 ≤ b.eepromWords)

/-- The illustration instance P of 95_test_vectors.md, with a register map and image sizes of the model's own
(the spec gives P none). It is no claim about the board: the tests run on it, and it is the fallback that keeps
`Config.board` well formed. -/
def Board.illustration : Board where
  regMap := [
    ⟨0xC0, .bankLinear, .always⟩,
    ⟨0xC1, .bank .ram .narrow, .always⟩, ⟨0xC2, .bank .rom0 .narrow, .always⟩, ⟨0xC3, .bank .rom1 .narrow, .always⟩,
    ⟨0xCE, .flashEn, .always⟩,
    ⟨0xD0, .bank .ram .lo, .always⟩, ⟨0xD1, .bank .ram .hi, .always⟩,
    ⟨0xD2, .bank .rom0 .lo, .always⟩, ⟨0xD3, .bank .rom0 .hi, .always⟩,
    ⟨0xD4, .bank .rom1 .lo, .always⟩, ⟨0xD5, .bank .rom1 .hi, .always⟩,
    ⟨0xE0, .spiCnt .lo, .always⟩, ⟨0xE1, .spiCnt .hi, .always⟩,
    ⟨0xE2, .powCnt, .always⟩,
    ⟨0xE4, .segMask .lo, .always⟩, ⟨0xE5, .segMask .hi, .always⟩,
    ⟨0xE6, .warmboot, .always⟩, ⟨0xE7, .emuCnt, .always⟩, ⟨0xE8, .boardRev, .always⟩,
    ⟨0xF0, .bankLinear, .powBit 7⟩]
  boardRevValue := 0x07
  rtcPort0 := 0xCA
  rtcPort1 := 0xCB
  rtcGate := .always
  powClock := 0
  powCard := 1
  powSram := 2
  powMcuReset := 3
  powMcuBoot := 4
  powIoCompat := [7]
  emuFlashFsm := 0
  emuSramHi := 2
  emuSramLo := 1
  lockRam := none
  lockRom0 := none
  lockRom1 := none
  lockLinear := none
  psramBanks := 256
  sramBanks := [8, 8, 8, 8]
  ipcBankRam := some 0xE
  ipcBankRom := none
  ipcSizeLog := 9
  txBankRam := some 0xF
  txBankRom := none
  rxBankRom := some 0x1FE
  waitReadLimit := 8
  fifoCap := 1024
  flashSize := some 16777216
  flashRespMfrDev := [0xEF, 0x17]
  flashRespJedec := [0xEF, 0x40, 0x18]
  flashRespUuid := [0x01, 0x02, 0x03, 0x04, 0x05, 0x06, 0x07, 0x08]
  flashEraseFills := true
  cardSize := some 65536
  cardReadGap := 1
  cardStopBusy := [0x00, 0xFF]
  cardIfcondTail := [0x00, 0x00, 0x01, 0xAA]
  mcuOpEcho := 0
  mcuOpEepromModeSet := 1
  mcuOpEepromModeGet := 2
  mcuOpEepromRead := 3
  mcuOpUsbRead := 4
  mcuOpUsbWrite := 5
  eepromWords := 1024
  romSize := 65536

/-- The parameters of this machine: OPEN, so nothing is known of them (R12; log entry 1). -/
opaque Config.boardChoice : Board

/-- The parameters the machine is reset with: any choice that meets the constraints (log entry 1). -/
def Config.board : Board :=
  if Config.boardChoice.wf then Config.boardChoice else Board.illustration

/-- What a byte of an array holds while nothing has been written to it: a draw of the first power-up for
PSRAM, SRAM, IPC, TX and RX, the host's input for the images (R11, R40, R196; log entry 2). -/
opaque Config.powerUpByte : Region → Nat → Byte

/-- The n-th draw as an answer of `UsbRecv`, before it is cut to `max` bytes (R9; log entry 3). -/
opaque Config.usbRecv : Nat → List Byte

/-- The n-th draw as an answer of `UsbSend`, before it is bounded by the length (R9; log entry 3). -/
opaque Config.usbSend : Nat → Nat

/-- The n-th draw as an answer of `RtcRead(which)` (R10; log entry 3). -/
opaque Config.rtcRead : Nat → Fin 2 → Byte

/-- The n-th draw as a card data byte when no image is attached: `card_nostore_byte` (R12, R135; log entry 3). -/
opaque Config.cardNoStoreByte : Nat → Byte

end Sys2Proof
end

