-- ==== Sys2Proof/Syntax.lean ====
section
/-! DEFINITION. The operations of the block as syntax: one constructor of `Instr` per row of spec/opcode_table.json,
the frames they are encoded in (30_encoding.md), and the reasons a frame is no operation. -/

namespace Sys2Proof

/-- The formats of 30_encoding.md: bus records (R62), SPI control words (R63), flash frames (R65), card frames (R67, R68),
MCU normal-mode frames (R71), bootloader frames (R74), legacy flash-FSM bytes (R76). -/
inductive Format where
  | bus | spicnt | flash | card | mcu | boot | legacy
  deriving DecidableEq, Repr

/-- A frame the console issues: its format and its bytes in the order they are sent. -/
structure Frame where
  fmt : Format
  bytes : List Byte
  deriving DecidableEq, Repr

/-- The flash commands of R66. -/
inductive FlashOp where
  | read | program | erase4k | erase32k | erase64k
  | rdsr1 | rdsr2 | rdsr3 | mfrid | jedecid | uuid | wake | sleep | wren | wrdi
  deriving DecidableEq, Repr

/-- The card commands of R70; `init1` and `init41` are the two indices of CD.INIT. -/
inductive CardOp where
  | reset | init1 | init41 | ifcond | stop | setblklen | read1 | readn | write1 | writen
  deriving DecidableEq, Repr

/-- The MCU normal-mode commands of R73. -/
inductive McuOp where
  | echo | eemodeset | eemodeget | eeread | usbread | usbwrite
  deriving DecidableEq, Repr

/-- The bootloader commands of R75. -/
inductive BootOp where
  | erase | write | go
  deriving DecidableEq, Repr

/-- The operands common to every card command frame (R67): the unchecked bit 6 of the command byte, the argument,
the ignored CRC byte. -/
structure CardArgs where
  bit6 : BitVec 1
  arg : BitVec 32
  crc : Byte
  deriving DecidableEq, Repr

/-- One constructor per row of spec/opcode_table.json; the docstring of a group cites the rules of its rows. -/
inductive Instr where
  -- BUS (R82, R83, R86 to R88, R196, R197)
  | busRegread (off : Byte)
  | busRegwrite (off : Byte) (v : Byte)
  | busCartread (addr : BitVec 20)
  | busCartwrite (addr : BitVec 20) (v : Byte)
  | busProberead (addr : BitVec 20)
  | busProbewrite (addr : BitVec 20) (v : Byte)
  | busColdreset
  | busWarmreset
  -- SPICNT (R63, R96, R104 to R107)
  | spiCtrl (bufidx : BitVec 1) (dev : BitVec 2) (clk390 : BitVec 1) (mode : BitVec 2) (len : BitVec 9)
  | spiWrite (bufidx : BitVec 1) (dev : BitVec 2) (clk390 : BitVec 1) (len : BitVec 9)
  | spiRead (bufidx : BitVec 1) (dev : BitVec 2) (clk390 : BitVec 1) (len : BitVec 9)
  | spiExch (bufidx : BitVec 1) (dev : BitVec 2) (clk390 : BitVec 1) (len : BitVec 9)
  | spiWaitread (bufidx : BitVec 1) (dev : BitVec 2) (clk390 : BitVec 1) (len : BitVec 9)
  -- FL-4 (R116 to R120); `data` is the FL-DATA phase of R65
  | flRead (a : BitVec 24) (data : List Byte)
  | flProgram (a : BitVec 24) (data : List Byte)
  | flErase4k (a : BitVec 24)
  | flErase32k (a : BitVec 24)
  | flErase64k (a : BitVec 24)
  -- FL-1 (R113, R121 to R130)
  | flRdsr1
  | flRdsr2
  | flRdsr3
  | flMfrid
  | flJedecid
  | flUuid
  | flWake
  | flSleep
  | flWren
  | flWrdi
  | flUnknown (op : Byte)
  -- CD-CMD (R139 to R148); `data` is the CD-WDATA phase of R68
  | cdReset (f : CardArgs)
  | cdInit1 (f : CardArgs)
  | cdInit41 (f : CardArgs)
  | cdIfcond (f : CardArgs)
  | cdStop (f : CardArgs)
  | cdSetblklen (f : CardArgs)
  | cdRead1 (f : CardArgs)
  | cdReadn (f : CardArgs)
  | cdWrite1 (f : CardArgs) (data : List Byte)
  | cdWriten (f : CardArgs) (data : List Byte)
  | cdIllegal (idx : BitVec 6) (f : CardArgs)
  -- MC-CMD (R154 to R160)
  | mcEcho (arg : BitVec 9) (bytes : List Byte)
  | mcEemodeset (arg : BitVec 9)
  | mcEemodeget (arg : BitVec 9)
  | mcEeread (arg : BitVec 9) (addr : Half)
  | mcUsbread (arg : BitVec 9)
  | mcUsbwrite (arg : BitVec 9) (bytes : List Byte)
  | mcUnknown (op : BitVec 7) (arg : BitVec 9)
  -- BL-SYNC, BL-ACKBYTE, BL-CMD (R162, R163, R166 to R170)
  | blSync
  | blAckbyte
  | blErase (dest : BitVec 32) (indices : List Half)
  | blWrite (dest : BitVec 32) (data : List Byte)
  | blGo (dest : BitVec 32)
  | blNack (op : Byte)
  | blParity (op : Byte) (par : Byte)
  -- LF (R175 to R180); `o` is the offset in the snoop window, CPU bank 1
  | lfUnlock1 (o : Half)
  | lfUnlock2 (o : Half)
  | lfFast (o : Half)
  | lfWrite (o : Half) (x : Byte)
  | lfErase (o : Half) (b5 : BitVec 1)
  | lfFastwrite (o : Half) (x : Byte)
  | lfFastexit (o : Half)
  deriving DecidableEq, Repr

/-- Why a frame is no operation of its format. -/
inductive DecodeError where
  /-- The frame has no bytes, or too few or too many for its format or command. -/
  | badLength
  /-- A bus record whose kind is none of the eight of R62. -/
  | badKind
  /-- A bus record whose `where` field is out of the range of its kind (R62). -/
  | badWhere
  /-- A bus record with a datum where its kind has none (R62: only writes have a value). -/
  | valueNotUsed
  /-- A card frame whose first byte has bit 7 set: idle-line filler, never a frame start (R67). -/
  | notFrameStart
  /-- A bootloader frame that begins with neither 0x5A nor, alone, 0x79 (R74). -/
  | notBootByte
  /-- A legacy byte that is no command byte of R76. -/
  | notLegacyByte
  deriving DecidableEq, Repr

end Sys2Proof
end

