-- ==== Sys2Proof/Machine/Opcodes.lean ====
section
/-! DEFINITION. The opcode maps of 30_encoding.md (R66, R70, R73, R75) and the frames of each command, shared by the
decoder, the encoder and the peripherals' own command decoding. -/

namespace Sys2Proof

/-- The opcode byte of a flash command (R66). -/
def flashCode : FlashOp → Byte
  | .read => 0x03
  | .program => 0x02
  | .erase4k => 0x20
  | .erase32k => 0x52
  | .erase64k => 0xD8
  | .rdsr1 => 0x05
  | .rdsr2 => 0x35
  | .rdsr3 => 0x15
  | .mfrid => 0x90
  | .jedecid => 0x9F
  | .uuid => 0x4B
  | .wake => 0xAB
  | .sleep => 0xB9
  | .wren => 0x06
  | .wrdi => 0x04

/-- Every flash command, in the order of R66. -/
def flashOps : List FlashOp :=
  [.read, .program, .erase4k, .erase32k, .erase64k, .rdsr1, .rdsr2, .rdsr3, .mfrid, .jedecid, .uuid, .wake, .sleep,
   .wren, .wrdi]

/-- The flash command of an opcode byte, or none: an unknown opcode (R66, R113). -/
def flashOpOf (b : Byte) : Option FlashOp := flashOps.find? (fun op => flashCode op == b)

/-- Whether a flash command has a 4-byte frame with an address (format FL-4, R65, R66). -/
def flashAddressed : FlashOp → Bool
  | .read | .program | .erase4k | .erase32k | .erase64k => true
  | _ => false

/-- The command index of a card command (R70). -/
def cardIndex : CardOp → BitVec 6
  | .reset => 0
  | .init1 => 1
  | .init41 => 41
  | .ifcond => 8
  | .stop => 12
  | .setblklen => 16
  | .read1 => 17
  | .readn => 18
  | .write1 => 24
  | .writen => 25

/-- Every card command, in the order of R70. -/
def cardOps : List CardOp :=
  [.reset, .init1, .init41, .ifcond, .stop, .setblklen, .read1, .readn, .write1, .writen]

/-- The card command of an index, or none: an illegal command (R70, R148). -/
def cardOpOf (idx : BitVec 6) : Option CardOp := cardOps.find? (fun op => cardIndex op == idx)

/-- The opcode of an MCU normal-mode command, a parameter (R73). -/
def mcuCode (b : Board) : McuOp → BitVec 7
  | .echo => b.mcuOpEcho
  | .eemodeset => b.mcuOpEepromModeSet
  | .eemodeget => b.mcuOpEepromModeGet
  | .eeread => b.mcuOpEepromRead
  | .usbread => b.mcuOpUsbRead
  | .usbwrite => b.mcuOpUsbWrite

/-- Every MCU normal-mode command, in the order of R73. -/
def mcuOps : List McuOp := [.echo, .eemodeset, .eemodeget, .eeread, .usbread, .usbwrite]

/-- The MCU command of an opcode, or none: an unknown opcode (R73, R160). -/
def mcuOpOf (b : Board) (op : BitVec 7) : Option McuOp := mcuOps.find? (fun c => mcuCode b c == op)

/-- The opcode byte of a bootloader command (R75). -/
def bootCode : BootOp → Byte
  | .erase => 0x44
  | .write => 0x31
  | .go => 0x21

/-- Every bootloader command, in the order of R75. -/
def bootOps : List BootOp := [.erase, .write, .go]

/-- The bootloader command of an opcode byte, or none: answered NACK (R75, R169). -/
def bootOpOf (b : Byte) : Option BootOp := bootOps.find? (fun c => bootCode c == b)

/-- `N = (arg == 0 ? 512 : arg)` (R73, R153). -/
def countOf (arg : BitVec 9) : Nat := if arg = 0 then 512 else arg.toNat

/-- `Extra(op, arg)`: the bytes that follow an MCU command word (R73, R153). -/
def mcuExtra (op : McuOp) (arg : BitVec 9) : Nat :=
  match op with
  | .echo | .usbwrite => countOf arg
  | .eeread => 2
  | _ => 0

/-- `0x5A`: the sync byte and the first byte of a bootloader frame (R74). -/
def bootStart : Byte := 0x5A

/-- `0x79`: ACK in both directions (R74). -/
def bootAck : Byte := 0x79

/-- `0x1F`: NACK (R74). -/
def bootNack : Byte := 0x1F

/-- `op XOR 0xFF`: the parity byte of a bootloader frame (R74). -/
def bootParity (op : Byte) : Byte := op ^^^ 0xFF

/-- An FL-4 frame (R65). -/
def flashFrame4 (op : FlashOp) (a : BitVec 24) : List Byte := flashCode op :: be24Bytes a

/-- The command byte of a card frame: bit 7 is 0, bit 6 unchecked, bits 5:0 the index (R67). -/
def cardCommandByte (bit6 : BitVec 1) (idx : BitVec 6) : Byte := (0#1 ++ bit6) ++ idx

/-- A CD-CMD frame (R67). -/
def cardFrame (idx : BitVec 6) (f : CardArgs) : List Byte := cardCommandByte f.bit6 idx :: (be32Bytes f.arg ++ [f.crc])

/-- The MC-CMD word: opcode in bits 6:0, argument in bits 15:7 (R71). -/
def mcuWord (op : BitVec 7) (arg : BitVec 9) : Half := arg ++ op

/-- An MC-CMD word as sent, `w0` then `w1` (R71). -/
def mcuFrame (op : BitVec 7) (arg : BitVec 9) : List Byte := le16Bytes (mcuWord op arg)

/-- A BL-CMD frame with the right parity byte (R74). -/
def bootFrame (op : Byte) : List Byte := [bootStart, op, bootParity op]

/-- The address of an offset in the snoop window, CPU bank 1 (R76). -/
def windowAddr (o : Half) : BitVec 20 := 1#4 ++ o

/-- The fields of the SPI control word (R63). -/
structure SpiFields where
  busy : BitVec 1
  bufidx : BitVec 1
  dev : BitVec 2
  clk390 : BitVec 1
  mode : BitVec 2
  len : BitVec 9
  deriving DecidableEq, Repr

/-- The SPI control word of its fields (R63). -/
def spiWord (f : SpiFields) : Half := f.busy ++ f.bufidx ++ f.dev ++ f.clk390 ++ f.mode ++ f.len

/-- The fields of an SPI control word (R63). -/
def spiFields (w : Half) : SpiFields where
  busy := w.extractLsb' 15 1
  bufidx := w.extractLsb' 14 1
  dev := w.extractLsb' 12 2
  clk390 := w.extractLsb' 11 1
  mode := w.extractLsb' 9 2
  len := w.extractLsb' 0 9

end Sys2Proof
end

