-- ==== Sys2Proof/Machine/State.lean ====
section
/-! DEFINITION. The state of the block as plain data (10_state.md), the fault and refusal reasons, and the state after
reset (10_state.md R40, 70_reset_and_hazards.md R196). -/

namespace Sys2Proof.Machine

/-- A byte array: the bytes written to it, at strictly rising offsets. An offset that is not listed holds no written
byte: it reads as what the array held at power-up (R37, R40; log entry 2). -/
structure Memory where
  cells : List Host.Cell
  deriving DecidableEq, Repr

/-- The one form of a memory: its offsets strictly rise. -/
def Memory.wf (m : Memory) : Bool := decide (m.cells.Pairwise (fun c d => c.1 < d.1))

/-- The byte arrays of R17 and R37. `tx` and `rx` hold `buf[h][i]` at offset `512 * h + i`. -/
structure Arrays where
  psram : Memory
  sram : Memory
  ipc : Memory
  tx : Memory
  rx : Memory
  rom : Memory
  flash : Memory
  card : Memory
  deriving DecidableEq, Repr

/-- The register file (R21). BOARD_REV has no storage: it reads as a parameter (R29). -/
structure Regs where
  flashEn : Byte
  bankLinear : Byte
  bankRam : Half
  bankRom0 : Half
  bankRom1 : Half
  spiCnt : Half
  powCnt : Byte
  segMask : Half
  warmboot : Byte
  emuCnt : Byte
  deriving DecidableEq, Repr

/-- The flash `mode` (R32). -/
inductive FlashMode where
  | idle | read | write | erase
  | status (k : Fin 3)
  deriving DecidableEq, Repr

/-- The flash peripheral (R32). A byte FIFO is the list of its bytes, head first; its count is the length (R31). -/
structure FlashState where
  mode : FlashMode
  cursor : Nat
  sr0 : Byte
  sr1 : Byte
  sr2 : Byte
  sleeping : Bool
  cmd : List Byte
  reply : List Byte
  deriving DecidableEq, Repr

/-- The card `wcap` (R33). -/
inductive Capture where
  | none | single | multi
  deriving DecidableEq, Repr

/-- The card `wphase` (R33). -/
inductive CapturePhase where
  | waitToken
  | data (k : Nat)
  | crc (k : Nat)
  deriving DecidableEq, Repr

/-- The card peripheral (R33). -/
structure CardState where
  status : Byte
  streaming : Bool
  pos : Nat
  wcap : Capture
  wphase : CapturePhase
  wblock : List Byte
  wpos : Nat
  cmd : List Byte
  reply : List Byte
  deriving DecidableEq, Repr

/-- The MCU peripheral (R34). `blCmd` is `bl_cmd`, with `none` for `None`. -/
structure McuState where
  bootMode : Bool
  cmd : List Byte
  reply : List Byte
  started : Bool
  waitingAck : Bool
  blCmd : Option BootOp
  step : Nat
  eraseCount : Half
  dest : BitVec 32
  need : Nat
  eeprom : List Half
  eepromMode : Byte
  deriving DecidableEq, Repr

/-- The legacy flash-FSM state (R35). -/
inductive Legacy where
  | read | unlock1 | unlock2 | fast | fastWrite | write | erase
  deriving DecidableEq, Repr

/-- The three SPI peripherals, as a fault names them (R182). -/
inductive Periph where
  | flash | card | mcu
  deriving DecidableEq, Repr

/-- The two byte FIFOs of a peripheral (R31). -/
inductive FifoId where
  | cmd | reply
  deriving DecidableEq, Repr

/-- A diagnostic event (R16). -/
inductive Event where
  | busyWriteConflict
  | waitReadSkipped (n : Nat)
  | waitReadTimeout
  | flashAsleepReject (tx : Byte)
  | flashUnknownOpcode (op : Byte)
  | cardUnexpectedToken (b : Byte)
  | mcuUnknownOpcode (op : BitVec 7)
  | bootloaderStub (cmd : BootOp)
  | bootloaderParityError
  deriving DecidableEq, Repr

/-- The fault reasons (R182). -/
inductive Fault where
  /-- `FifoOverflow(dev, which)`, code 1: a push that would pass `fifo_cap` (R89). The push that raises it halts the
  block in a next state that records it; the machine then answers this fault to every later operation (R181). Safe: it
  is the spec's own halt. -/
  | fifoOverflow (dev : Periph) (which : FifoId)
  deriving DecidableEq, Repr

/-- Why a step has no meaning. -/
inductive Refusal where
  /-- Raised by an arm of `exec` for an instruction without a meaning yet. No arm raises it. Safe. -/
  | notModelled (mnemonic : String)
  /-- Raised by `step` when the frame the console issues is no operation of its format (R62, R77). Safe: the console
  bus issues no such record. -/
  | undecodable (e : DecodeError)
  deriving DecidableEq, Repr

/-- A byte the block forwarded to the RTC: `RtcWrite(which, v)` (R10). -/
structure RtcWrite where
  which : Fin 2
  v : Byte
  deriving DecidableEq, Repr

/-- The state of the block. The last six fields are the model's own (log entries 3, 4, 7, 8): they are not the spec's. -/
structure State where
  /-- The parameters of R12, fixed for a session. No operation writes them. -/
  board : Board
  /-- The register file (R21). -/
  regs : Regs
  /-- The flash peripheral (R32). -/
  flash : FlashState
  /-- The card peripheral (R33). -/
  card : CardState
  /-- The MCU peripheral (R34). -/
  mcu : McuState
  /-- The legacy flash FSM (R35). -/
  fsm : Legacy
  /-- The byte arrays (R17, R37). -/
  arrays : Arrays
  /-- The diagnostic log, oldest first (R16). -/
  log : List Event
  /-- The fault that halted the block, or none (R38). -/
  fault : Option Fault
  /-- The frames the console is still to issue, next first: the input of the block (R7, R8). -/
  script : List Frame
  /-- The bytes the last operation returned to the console, in order: `none` of R82 is the empty list. -/
  out : List Byte
  /-- How many draws have been made: the next one is the draw of this number. -/
  draws : Nat
  /-- What was forwarded to the RTC, oldest first (R10: "recorded"). -/
  rtcLog : List RtcWrite
  /-- What the USB channel took, oldest first (R9). -/
  usbSent : List Byte
  /-- Whether the session has had its first power-up (R197). -/
  poweredUp : Bool
  deriving DecidableEq, Repr

/-- Nothing written. -/
def Memory.blank : Memory := ⟨[]⟩

/-- Every array as at power-up. -/
def Arrays.blank : Arrays :=
  ⟨Memory.blank, Memory.blank, Memory.blank, Memory.blank, Memory.blank, Memory.blank, Memory.blank, Memory.blank⟩

/-- The register file after a reset: zero, but for BANK_LINEAR (R22 to R28, R40). -/
def Regs.reset : Regs where
  flashEn := 0x00
  bankLinear := 0xFF
  bankRam := 0x0000
  bankRom0 := 0x0000
  bankRom1 := 0x0000
  spiCnt := 0x0000
  powCnt := 0x00
  segMask := 0x0000
  warmboot := 0x00
  emuCnt := 0x00

/-- The flash after a system reset (R40). -/
def FlashState.reset : FlashState where
  mode := .idle
  cursor := 0
  sr0 := 0x00
  sr1 := 0x00
  sr2 := 0x00
  sleeping := false
  cmd := []
  reply := []

/-- The card after the first power-up (R40, R149). The spec gives `wblock` no reset value: zeros (log entry 9). -/
def CardState.reset : CardState where
  status := 0x01
  streaming := false
  pos := 0
  wcap := .none
  wphase := .waitToken
  wblock := List.replicate 512 0x00
  wpos := 0
  cmd := []
  reply := []

/-- The MCU after the first power-up, with its cleared EEPROM (R40, R196). -/
def McuState.reset (eepromWords : Nat) : McuState where
  bootMode := false
  cmd := []
  reply := []
  started := false
  waitingAck := false
  blCmd := none
  step := 0
  eraseCount := 0
  dest := 0
  need := 0
  eeprom := List.replicate eepromWords 0x0000
  eepromMode := 0x00

/-- The state after the first power-up of a block with the parameters `b` (R40, R196). -/
def State.resetOn (b : Board) : State where
  board := b
  regs := Regs.reset
  flash := FlashState.reset
  card := CardState.reset
  mcu := McuState.reset b.eepromWords
  fsm := .read
  arrays := Arrays.blank
  log := []
  fault := none
  script := []
  out := []
  draws := 0
  rtcLog := []
  usbSent := []
  poweredUp := true

/-- The machine right after reset: "The model's initial state is the state after `ColdReset`" (R196). -/
def State.reset : State := State.resetOn Config.board

end Sys2Proof.Machine
end

