-- ==== Sys2Proof/Machine/Ops.lean ====
section
/-! DEFINITION. The operations every meaning is written over: an update per piece of state, the result of a piece of an
operation, taking the fault (60_exceptions.md R181), byte FIFOs (41_fifo.md), byte arrays, and the resets
(70_reset_and_hazards.md). -/

namespace Sys2Proof.Machine

/-! ## One update per piece of state -/

/-- Replaces the register file. -/
def State.setRegs (s : State) (r : Regs) : State := { s with regs := r }

/-- Replaces the flash peripheral. -/
def State.setFlash (s : State) (f : FlashState) : State := { s with flash := f }

/-- Replaces the card peripheral. -/
def State.setCard (s : State) (c : CardState) : State := { s with card := c }

/-- Replaces the MCU peripheral. -/
def State.setMcu (s : State) (m : McuState) : State := { s with mcu := m }

/-- Sets the legacy FSM state. -/
def State.setFsm (s : State) (f : Legacy) : State := { s with fsm := f }

/-- Replaces the byte arrays. -/
def State.setArrays (s : State) (a : Arrays) : State := { s with arrays := a }

/-- `Log(event)` (R16): appends to the diagnostic log and changes nothing else. -/
def State.addLog (s : State) (e : Event) : State := { s with log := s.log ++ [e] }

/-- Records the fault (R38, R181). -/
def State.setFault (s : State) (f : Fault) : State := { s with fault := some f }

/-- Replaces the frames still to be issued. -/
def State.setScript (s : State) (l : List Frame) : State := { s with script := l }

/-- Sets what the operation returns to the console. -/
def State.setOut (s : State) (l : List Byte) : State := { s with out := l }

/-- Returns one more byte to the console. -/
def State.addOut (s : State) (b : Byte) : State := { s with out := s.out ++ [b] }

/-- Makes `n` draws. -/
def State.addDraws (s : State) (n : Nat) : State := { s with draws := s.draws + n }

/-- Records a byte forwarded to the RTC (R10). -/
def State.addRtc (s : State) (w : RtcWrite) : State := { s with rtcLog := s.rtcLog ++ [w] }

/-- Records the bytes the USB channel took (R9). -/
def State.addUsb (s : State) (l : List Byte) : State := { s with usbSent := s.usbSent ++ l }

/-! ## Pieces of an operation -/

/-- How a piece of an operation ends: with a value and the state so far, or halted by the fault, with the state the
effects before the fault have left (R181). -/
inductive Res (α : Type) where
  | ok (a : α) (s : State)
  | halt (s : State)
  deriving DecidableEq, Repr

/-- Runs the next piece unless the fault has halted the block (R181, R186). -/
def Res.bind {α β : Type} (r : Res α) (f : α → State → Res β) : Res β :=
  match r with
  | .ok a s => f a s
  | .halt s => .halt s

/-- The state a piece of an operation leaves. -/
def Res.state {α : Type} (r : Res α) : State :=
  match r with
  | .ok _ s => s
  | .halt s => s

/-- A piece that only changes the state. -/
def done (s : State) : Res Unit := .ok () s

/-! ## The fault (R181, R187)

Taking the fault is one operation: the current operation stops, its effects so far remain, the reason is recorded, the
log is unchanged. There is no return from it (R188). -/

/-- `raise Fault(reason)` (R181). -/
def raiseFault {α : Type} (f : Fault) (s : State) : Res α := .halt (s.setFault f)

/-- The code of a fault reason (R182). -/
def faultCode : Fault → Nat
  | .fifoOverflow _ _ => 1

/-- One whole operation of the console: refused while the block is halted, with the fault reason reported (R181);
otherwise it runs to completion, returning at first nothing to the console (R7, R57). -/
def operate (s : State) (f : State → Res Unit) : Host.Outcome State Fault Refusal :=
  match s.fault with
  | some r => .fault r
  | none => .next (f (s.setOut [])).state

/-- Nothing is issued: nothing happens between operations (R185), and a halted block stays halted (R181). -/
def idle (s : State) : Host.Outcome State Fault Refusal :=
  match s.fault with
  | some r => .fault r
  | none => .next s

/-! ## Byte FIFOs (41_fifo.md) -/

/-- The fill byte (R89, R90). -/
def fillByte : Byte := 0xFF

/-- `n` fill bytes: the source `fill` of R89. -/
def fill (n : Nat) : List Byte := List.replicate n fillByte

/-- What `pop` gives (R90): the bytes, whether any was removed, the FIFO after it. -/
structure Popped where
  out : List Byte
  any : Bool
  rest : List Byte
  deriving DecidableEq, Repr

/-- `pop(F, length)` (R90): up to `n` bytes from the head, padded with 0xFF to `n`. -/
def popFifo (data : List Byte) (n : Nat) : Popped where
  out := data.take n ++ fill (n - data.length)
  any := decide (0 < min n data.length)
  rest := data.drop n

/-- `pop1(F)`: the head byte if any, else 0xFF (R91). -/
def pop1 (data : List Byte) : Byte := data.headD fillByte

/-- The FIFO after `pop1` (R91). -/
def pop1Rest (data : List Byte) : List Byte := data.tail

/-- The i-th byte of a popped frame. -/
def byteOf (l : List Byte) (i : Nat) : Byte := l.getD i fillByte

/-- A FIFO of a peripheral (R31). -/
def State.fifo (s : State) (d : Periph) (w : FifoId) : List Byte :=
  match d, w with
  | .flash, .cmd => s.flash.cmd
  | .flash, .reply => s.flash.reply
  | .card, .cmd => s.card.cmd
  | .card, .reply => s.card.reply
  | .mcu, .cmd => s.mcu.cmd
  | .mcu, .reply => s.mcu.reply

/-- Replaces the contents of a FIFO of a peripheral. -/
def State.setFifo (s : State) (d : Periph) (w : FifoId) (l : List Byte) : State :=
  match d, w with
  | .flash, .cmd => s.setFlash { s.flash with cmd := l }
  | .flash, .reply => s.setFlash { s.flash with reply := l }
  | .card, .cmd => s.setCard { s.card with cmd := l }
  | .card, .reply => s.setCard { s.card with reply := l }
  | .mcu, .cmd => s.setMcu { s.mcu with cmd := l }
  | .mcu, .reply => s.setMcu { s.mcu with reply := l }

/-- `push(F, src, length)` (R89): appends, or raises FifoOverflow with the FIFO unchanged. -/
def push (d : Periph) (w : FifoId) (bytes : List Byte) (s : State) : Res Unit :=
  if s.board.fifoCap < (s.fifo d w).length + bytes.length then raiseFault (.fifoOverflow d w) s
  else done (s.setFifo d w (s.fifo d w ++ bytes))

/-! ## Byte arrays (R15, R17, R37) -/

/-- The byte written at an offset, if any. -/
def Memory.read (m : Memory) (a : Nat) : Option Byte := m.cells.lookup a

/-- Writes bytes at consecutive offsets from `lo`, keeping the offsets rising. -/
def Memory.write (m : Memory) (lo : Nat) (bytes : List Byte) : Memory :=
  ⟨m.cells.filter (fun c => decide (c.1 < lo))
    ++ (bytes.zipIdx lo).map (fun p => (p.2, p.1))
    ++ m.cells.filter (fun c => decide (lo + bytes.length ≤ c.1))⟩

/-- One array (R17). -/
def Arrays.get (a : Arrays) (r : Region) : Memory :=
  match r with
  | .psram => a.psram
  | .sram => a.sram
  | .ipc => a.ipc
  | .tx => a.tx
  | .rx => a.rx
  | .rom => a.rom
  | .flash => a.flash
  | .card => a.card

/-- Replaces one array. -/
def Arrays.set (a : Arrays) (r : Region) (m : Memory) : Arrays :=
  match r with
  | .psram => { a with psram := m }
  | .sram => { a with sram := m }
  | .ipc => { a with ipc := m }
  | .tx => { a with tx := m }
  | .rx => { a with rx := m }
  | .rom => { a with rom := m }
  | .flash => { a with flash := m }
  | .card => { a with card := m }

/-- The byte at an offset of an array: the byte written there, else what the array held at power-up (R37, R40). -/
def State.readCell (s : State) (r : Region) (a : Nat) : Byte :=
  ((s.arrays.get r).read a).getD (Config.powerUpByte r a)

/-- Writes bytes at consecutive offsets of an array. -/
def State.writeCells (s : State) (r : Region) (lo : Nat) (bytes : List Byte) : State :=
  s.setArrays (s.arrays.set r ((s.arrays.get r).write lo bytes))

/-- The offset of `buf[h][i]` in the `tx` or `rx` array (R37: two halves of 512 bytes). -/
def bufOffset (h : BitVec 1) (i : Nat) : Nat := 512 * h.toNat + i

/-! ## Resets (R40, R114, R149, R151, R196 to R198) -/

/-- `FlashResetTransient()` (R114): `sr` and `sleeping` are kept. -/
def flashResetTransient (f : FlashState) : FlashState :=
  { f with mode := .idle, cursor := 0, cmd := [], reply := [] }

/-- The card at a system reset (R149); `wblock`, which R149 does not name, is kept. -/
def cardReset (c : CardState) : CardState := { CardState.reset with wblock := c.wblock }

/-- `McuResetTransient()` (R151): `eeprom` and `eeprom_mode` are kept, and `boot_mode`, which the caller sets. -/
def mcuResetTransient (m : McuState) : McuState :=
  { m with cmd := [], reply := [], started := false, waitingAck := false, blCmd := none, step := 0, need := 0,
           eraseCount := 0, dest := 0 }

/-- The RAM-like arrays as at power-up; the images of the host are kept (R11, R40). -/
def powerUpArrays (a : Arrays) : Arrays :=
  { a with psram := Memory.blank, sram := Memory.blank, ipc := Memory.blank, tx := Memory.blank, rx := Memory.blank }

/-- `WarmReset` (R197): the EEPROM and its mode byte, the memory arrays and the log are kept, and so is `fault` (R40). -/
def warmReset (s : State) : State :=
  { s with
    regs := Regs.reset
    flash := FlashState.reset
    card := cardReset s.card
    mcu := { mcuResetTransient s.mcu with bootMode := false }
    fsm := .read }

/-- `ColdReset` as the first power-up of a session (R196). -/
def coldReset (s : State) : State :=
  { s with
    regs := Regs.reset
    flash := FlashState.reset
    card := cardReset s.card
    mcu := McuState.reset s.board.eepromWords
    fsm := .read
    arrays := powerUpArrays s.arrays
    log := []
    fault := none
    poweredUp := true }

end Sys2Proof.Machine
end

