-- ==== Sys2Proof/Machine/Flags.lean ====
section
/-! DEFINITION. The status flags and control fields of the block (10_state.md R24 to R30), each computed in one place. -/

namespace Sys2Proof.Machine

/-! ## SPI_CNT (R24) -/

/-- BUSY: bit 15. -/
def Regs.busy (r : Regs) : Bool := r.spiCnt.getLsbD 15

/-- BUFIDX: bit 14. -/
def Regs.bufidx (r : Regs) : BitVec 1 := r.spiCnt.extractLsb' 14 1

/-- DEV: bits 13:12. -/
def Regs.dev (r : Regs) : BitVec 2 := r.spiCnt.extractLsb' 12 2

/-- CLK390: bit 11. -/
def Regs.clk390 (r : Regs) : Bool := r.spiCnt.getLsbD 11

/-- MODE: bits 10:9. -/
def Regs.mode (r : Regs) : BitVec 2 := r.spiCnt.extractLsb' 9 2

/-- LEN: bits 8:0. -/
def Regs.len (r : Regs) : BitVec 9 := r.spiCnt.extractLsb' 0 9

/-- `R.SPI_CNT.BUSY <- 0`; every other bit is kept (R102). -/
def Regs.clearBusy (r : Regs) : Regs := { r with spiCnt := r.spiCnt &&& 0x7FFF#16 }

/-! ## POW_CNT, FLASH_EN, EMU_CNT, SEG_MASK (R22, R25 to R27) -/

/-- A POW_CNT flag, at the position a parameter gives (R25). -/
def Regs.powBit (r : Regs) (k : Fin 8) : Bool := r.powCnt.getLsbD k

/-- Whether a gate holds: `always`, or its POW_CNT bit is 1 (R13, R80). -/
def Regs.gateOpen (r : Regs) : Gate → Bool
  | .always => true
  | .powBit k => r.powBit k

/-- `clocked()` (R97). -/
def clocked (b : Board) (r : Regs) : Bool := r.clk390 || r.powBit b.powClock

/-- FLASH_EN bit 0 (R22). -/
def Regs.flashEnable (r : Regs) : Bool := r.flashEn.getLsbD 0

/-- `EMU_CNT.flash_fsm` (R27). -/
def flashFsmOn (b : Board) (r : Regs) : Bool := r.emuCnt.getLsbD b.emuFlashFsm

/-- `EMU_CNT.sram_size`: the field `EMU_CNT[hi:lo]` as an unsigned number (R14, R27). -/
def sramMode (b : Board) (r : Regs) : Nat :=
  r.emuCnt.toNat / 2 ^ b.emuSramLo.val % 2 ^ (b.emuSramHi.val + 1 - b.emuSramLo.val)

/-- `snoop_active` (R81). -/
def snoopActive (b : Board) (r : Regs) : Bool := flashFsmOn b r && r.flashEnable

/-- Whether the lock bit of a segment is set; an absent one reads as clear (R26, R47). -/
def lockSet (r : Regs) (l : Option (Fin 16)) : Bool :=
  match l with
  | none => false
  | some k => r.segMask.getLsbD k

/-! ## Flash status registers (R32, R129 to R131) -/

/-- `sr[k]`. -/
def FlashState.srAt (f : FlashState) (k : Fin 3) : Byte :=
  match k with
  | 0 => f.sr0
  | 1 => f.sr1
  | 2 => f.sr2

/-- The write-enable latch WEL: `sr[0]` bit 1 (R32). -/
def FlashState.wel (f : FlashState) : Bool := f.sr0.getLsbD 1

/-! ## Card reply status (R69, R134) -/

/-- The idle/error status bit (R69). -/
def cardIdleStatus : Byte := 0x01

/-- The illegal-command flag (R69). -/
def cardIllegalFlag : Byte := 0x04

/-- The parameter-error flag (R69). -/
def cardParamFlag : Byte := 0x40

/-- `S = status OR flags` (R134). -/
def CardState.reply1 (c : CardState) (flags : Byte) : Byte := c.status ||| flags

end Sys2Proof.Machine
end

