-- ==== Sys2Proof/Machine/Card.lean ====
section
/-! DEFINITION. The SD-card command/response sequencer (44_card.md): one byte exchange, the command framer, write
capture, and the rule of each command. -/

namespace Sys2Proof.Machine

/-! ## The decided parameters of the card (R12) -/

/-- `card_read_crc_len`. -/
def cardReadCrcLen : Nat := 0

/-- `card_write_crc_len`. -/
def cardWriteCrcLen : Nat := 2

/-- `card_write_ack`. -/
def cardWriteAck : Byte := 0x05

/-- `card_fd_is_data`. -/
def cardFdIsData : Bool := true

/-- The data-start token of a read block and of a single-block write (R68). -/
def cardToken : Byte := 0xFE

/-- The size of a data block (R68). -/
def cardBlockSize : Nat := 512

/-! ## Read blocks (R135, R136) -/

/-- `CardByte(pos + j)` for j in 0..511: the image's bytes, 0xFF past its end, a draw each without an image (R135). -/
def cardBlock (s : State) : List Byte :=
  match s.board.cardSize with
  | some n =>
    (List.range cardBlockSize).map fun j =>
      if s.card.pos + j < n then s.readCell .card (s.card.pos + j) else 0xFF
  | none => (List.range cardBlockSize).map fun j => Config.cardNoStoreByte (s.draws + j)

/-- How many draws a block takes (R135). -/
def cardBlockDraws (s : State) : Nat :=
  match s.board.cardSize with
  | some _ => 0
  | none => cardBlockSize

/-- `CardQueueBlock()` (R135). -/
def cardQueueBlock (s : State) : Res Unit :=
  (push .card .reply (fill s.board.cardReadGap) s).bind fun _ s1 =>
  (push .card .reply [cardToken] s1).bind fun _ s2 =>
  (push .card .reply (cardBlock s2) (s2.addDraws (cardBlockDraws s2))).bind fun _ s3 =>
  (push .card .reply (fill cardReadCrcLen) s3).bind fun _ s4 =>
  done (s4.setCard { s4.card with pos := s4.card.pos + cardBlockSize })

/-! ## Commands (R139 to R148)

Each computes its status byte after its own update of `status` and of the per-command flags (R134). -/

/-- CD-R1: the status byte alone (R69). -/
def cardReplyStatus (flags : Byte) (s : State) : Res Unit := push .card .reply [s.card.reply1 flags] s

/-- CD.RESET (R139). -/
def cardCmdReset (s : State) : Res Unit := cardReplyStatus 0 (s.setCard { s.card with status := cardIdleStatus })

/-- CD.INIT (R140). -/
def cardCmdInit (s : State) : Res Unit := cardReplyStatus 0 (s.setCard { s.card with status := 0x00 })

/-- CD.IFCOND (R141). -/
def cardCmdIfcond (s : State) : Res Unit := push .card .reply (s.card.reply1 0 :: s.board.cardIfcondTail) s

/-- CD.STOP (R142). -/
def cardCmdStop (s : State) : Res Unit :=
  push .card .reply (s.card.reply1 0 :: s.board.cardStopBusy)
    (s.setCard { s.card with streaming := false, reply := [] })

/-- CD.SETBLKLEN (R143). -/
def cardCmdSetblklen (arg : BitVec 32) (s : State) : Res Unit :=
  cardReplyStatus (if arg.toNat = cardBlockSize then 0 else cardParamFlag) s

/-- CD.READ1 (R144). -/
def cardCmdRead1 (arg : BitVec 32) (s : State) : Res Unit :=
  (cardReplyStatus 0 (s.setCard { s.card with pos := arg.toNat })).bind fun _ s1 => cardQueueBlock s1

/-- CD.READN (R145). -/
def cardCmdReadn (arg : BitVec 32) (s : State) : Res Unit :=
  (cardReplyStatus 0 (s.setCard { s.card with pos := arg.toNat })).bind fun _ s1 =>
  (cardQueueBlock s1).bind fun _ s2 => done (s2.setCard { s2.card with streaming := true })

/-- CD.WRITE1 and CD.WRITEN: the reply, then the capture is armed (R146, R147). -/
def cardCmdWrite (w : Capture) (arg : BitVec 32) (s : State) : Res Unit :=
  (cardReplyStatus 0 s).bind fun _ s1 =>
  done (s1.setCard { s1.card with wcap := w, wphase := .waitToken, wpos := arg.toNat })

/-- An index outside R70 (R148). -/
def cardCmdIllegal (s : State) : Res Unit := cardReplyStatus cardIllegalFlag s

/-- `CardCommand(idx, arg)` (R134). -/
def cardCommand (idx : BitVec 6) (arg : BitVec 32) (s : State) : Res Unit :=
  match cardOpOf idx with
  | none => cardCmdIllegal s
  | some .reset => cardCmdReset s
  | some .init1 => cardCmdInit s
  | some .init41 => cardCmdInit s
  | some .ifcond => cardCmdIfcond s
  | some .stop => cardCmdStop s
  | some .setblklen => cardCmdSetblklen arg s
  | some .read1 => cardCmdRead1 arg s
  | some .readn => cardCmdReadn arg s
  | some .write1 => cardCmdWrite .single arg s
  | some .writen => cardCmdWrite .multi arg s

/-! ## The command framer (R133) -/

/-- `CardScan(tx)` (R133). -/
def cardScan (tx : Byte) (s : State) : Res Unit :=
  if s.card.cmd = [] ∧ tx.getLsbD 7 = true then done s
  else
    (push .card .cmd [tx] s).bind fun _ s1 =>
    if s1.card.cmd.length = 6 then
      let p := popFifo s1.card.cmd 6
      cardCommand ((byteOf p.out 0).extractLsb' 0 6)
        (be32 (byteOf p.out 1) (byteOf p.out 2) (byteOf p.out 3) (byteOf p.out 4))
        (s1.setCard { s1.card with cmd := p.rest })
    else done s1

/-! ## Write capture (R137, R138) -/

/-- The part of a block that lies inside the image: none of it without an image (R138). -/
def cardKept (b : Board) (wpos : Nat) (block : List Byte) : List Byte :=
  match b.cardSize with
  | none => []
  | some n => block.take (n - wpos)

/-- `CardCommit()` (R138). -/
def cardCommit (s : State) : Res Unit :=
  (push .card .reply [cardWriteAck]
    ((s.writeCells .card s.card.wpos (cardKept s.board s.card.wpos s.card.wblock)).setCard
      { s.card with wpos := s.card.wpos + cardBlockSize })).bind fun _ s1 =>
  done (s1.setCard { s1.card with
    wphase := .waitToken
    wcap := if s1.card.wcap = .single then .none else s1.card.wcap })

/-- Whether a byte is a data-start token of the capture (R68, R137). -/
def captureToken (w : Capture) (tx : Byte) : Bool :=
  match w with
  | .none => false
  | .single => tx == 0xFE
  | .multi => tx == 0xFC || (tx == 0xFD && cardFdIsData)

/-- `CardCapture(tx)` (R137). -/
def cardCapture (tx : Byte) (s : State) : Res Unit :=
  match s.card.wphase with
  | .waitToken =>
    if tx = 0xFF then done s
    else if captureToken s.card.wcap tx then done (s.setCard { s.card with wphase := .data 0 })
    else cardScan tx ((s.addLog (.cardUnexpectedToken tx)).setCard { s.card with wcap := .none })
  | .data k =>
    let s1 := s.setCard { s.card with
      wblock := s.card.wblock.set k tx
      wphase := if k < 511 then .data (k + 1) else .crc 0 }
    if k = 511 ∧ cardWriteCrcLen = 0 then cardCommit s1 else done s1
  | .crc k =>
    if k + 1 = cardWriteCrcLen then cardCommit s
    else done (s.setCard { s.card with wphase := .crc (k + 1) })

/-! ## The exchange (R132) -/

/-- The streaming refill at the start of an exchange (R132, R136). -/
def cardRefill (s : State) : Res Unit :=
  if s.card.streaming = true ∧ s.card.reply = [] ∧ s.card.cmd = [] ∧ s.card.wcap = .none then cardQueueBlock s
  else done s

/-- `CardExchange(tx)` (R132). -/
def cardExchange (tx : Byte) (s : State) : Res Byte :=
  (cardRefill s).bind fun _ s1 =>
  let s2 := s1.setCard { s1.card with reply := pop1Rest s1.card.reply }
  (if s2.card.wcap ≠ .none then cardCapture tx s2 else cardScan tx s2).bind fun _ s3 =>
  .ok (pop1 s1.card.reply) s3

end Sys2Proof.Machine
end

