-- ==== Sys2Proof/Machine/Flash.lean ====
section
/-! DEFINITION. The NOR flash JEDEC-command decoder (43_flash.md): one byte exchange, the data modes, and the rule of
each command as its decoding runs it. -/

namespace Sys2Proof.Machine

/-- The wake opcode, the one byte a sleeping flash takes (R112, R127). -/
def wakeByte : Byte := 0xAB

/-- The received byte of a read with no image attached (R110). -/
def flashNoStoreByte : Byte := 0x90

/-! ## Data modes (R110, R111) -/

/-- The byte a read returns: the image's, 0xFF past its end, 0x90 without an image (R110). -/
def flashByte (s : State) (cursor : Nat) : Byte :=
  match s.board.flashSize with
  | none => flashNoStoreByte
  | some n => if cursor < n then s.readCell .flash cursor else 0xFF

/-- The cursor after a programmed byte: bits 7:0 step modulo 256, the rest is kept (R111). -/
def pageStep (cursor : Nat) : Nat := cursor / 256 * 256 + (cursor + 1) % 256

/-- Stores a programmed byte; nothing is stored without an image or past its end (R110, R117). -/
def flashStore (s : State) (cursor : Nat) (v : Byte) : State :=
  match s.board.flashSize with
  | none => s
  | some n => if cursor < n then s.writeCells .flash cursor [v] else s

/-- An exchange in `Read` (R110). -/
def flashReadByte (s : State) : Byte × State :=
  (flashByte s s.flash.cursor, s.setFlash { s.flash with cursor := s.flash.cursor + 1 })

/-- An exchange in `Write` (R110, R111). -/
def flashWriteByte (tx : Byte) (s : State) : Byte × State :=
  (0xFF, (flashStore s s.flash.cursor tx).setFlash { s.flash with cursor := pageStep s.flash.cursor })

/-! ## Commands with an address (R109, R115 to R120) -/

/-- FL.READ on its fourth byte (R116). -/
def flashRead (a : BitVec 24) (s : State) : Res Unit :=
  done (s.setFlash { s.flash with cursor := a.toNat, mode := .read })

/-- FL.PROGRAM on its fourth byte (R117). -/
def flashProgram (a : BitVec 24) (s : State) : Res Unit :=
  done (s.setFlash { s.flash with cursor := a.toNat, mode := .write })

/-- `FlashErase(op, A)` for a block of `size` bytes: the part of the block inside the image becomes 0xFF, if erase fills
and an image is present (R115). -/
def flashErase (size : Nat) (a : BitVec 24) (s : State) : State :=
  match s.board.flashSize with
  | none => s
  | some n =>
    if s.board.flashEraseFills then
      s.writeCells .flash (a.toNat / size * size) (fill (min (a.toNat / size * size + size) n - a.toNat / size * size))
    else s

/-- An erase command on its fourth byte (R109, R118). -/
def flashEraseBlock (size : Nat) (a : BitVec 24) (s : State) : Res Unit :=
  done ((flashErase size a s).setFlash { s.flash with cursor := a.toNat, mode := .erase })

/-! ## One-byte commands (R121 to R130) -/

/-- FL.RDSR1 to FL.RDSR3 (R121 to R123). -/
def flashStatus (k : Fin 3) (s : State) : Res Unit := done (s.setFlash { s.flash with mode := .status k })

/-- FL.MFRID, FL.JEDECID, FL.UUID: queue a fixed response (R124 to R126). -/
def flashRespond (bytes : List Byte) (s : State) : Res Unit := push .flash .reply bytes s

/-- FL.WAKE and FL.SLEEP (R127, R128). -/
def flashSetSleep (sleeping : Bool) (s : State) : Res Unit := done (s.setFlash { s.flash with sleeping := sleeping })

/-- FL.WREN: sets WEL, `sr[0] OR 0x02` (R129). -/
def flashWren (s : State) : Res Unit := done (s.setFlash { s.flash with sr0 := s.flash.sr0 ||| 0x02 })

/-- FL.WRDI: clears WEL, `sr[0] AND NOT 0x02` (R130). -/
def flashWrdi (s : State) : Res Unit := done (s.setFlash { s.flash with sr0 := s.flash.sr0 &&& 0xFD })

/-- The rule of a command, run when its frame is complete; `a` is the address of an FL-4 frame (R109). -/
def flashCommand (op : FlashOp) (a : BitVec 24) (s : State) : Res Unit :=
  match op with
  | .read => flashRead a s
  | .program => flashProgram a s
  | .erase4k => flashEraseBlock 4096 a s
  | .erase32k => flashEraseBlock 32768 a s
  | .erase64k => flashEraseBlock 65536 a s
  | .rdsr1 => flashStatus 0 s
  | .rdsr2 => flashStatus 1 s
  | .rdsr3 => flashStatus 2 s
  | .mfrid => flashRespond s.board.flashRespMfrDev s
  | .jedecid => flashRespond s.board.flashRespJedec s
  | .uuid => flashRespond s.board.flashRespUuid s
  | .wake => flashSetSleep false s
  | .sleep => flashSetSleep true s
  | .wren => flashWren s
  | .wrdi => flashWrdi s

/-! ## The exchange (R108, R109, R112, R113) -/

/-- `FlashDecode()` (R109). -/
def flashDecode (s : State) : Res Unit :=
  match s.flash.cmd with
  | [] => done s
  | op :: _ =>
    match flashOpOf op with
    | none => done ((s.setFlash { s.flash with cmd := [] }).addLog (.flashUnknownOpcode op))
    | some c =>
      if flashAddressed c then
        if s.flash.cmd.length < 4 then done s
        else
          let p := popFifo s.flash.cmd 4
          flashCommand c (be24 (byteOf p.out 1) (byteOf p.out 2) (byteOf p.out 3))
            (s.setFlash { s.flash with cmd := p.rest })
      else flashCommand c 0 (s.setFlash { s.flash with cmd := (popFifo s.flash.cmd 1).rest })

/-- An exchange in `Idle` of a byte the flash takes (R108): the reply byte first, then the byte is decoded. -/
def flashIdle (tx : Byte) (s : State) : Res Byte :=
  (push .flash .cmd [tx] (s.setFlash { s.flash with reply := pop1Rest s.flash.reply })).bind fun _ s1 =>
  (flashDecode s1).bind fun _ s2 => .ok (pop1 s.flash.reply) s2

/-- `FlashExchange(tx)` (R108). -/
def flashExchange (tx : Byte) (s : State) : Res Byte :=
  match s.flash.mode with
  | .read => .ok (flashReadByte s).1 (flashReadByte s).2
  | .write => .ok (flashWriteByte tx s).1 (flashWriteByte tx s).2
  | .erase => .ok 0xFF s
  | .status k => .ok (s.flash.srAt k) s
  | .idle =>
    if s.flash.sleeping ∧ tx ≠ wakeByte then .ok 0xFF (s.addLog (.flashAsleepReject tx))
    else flashIdle tx s

end Sys2Proof.Machine
end

