-- ==== Sys2Proof/Machine/Mcu.lean ====
section
/-! DEFINITION. The MCU peripheral (45_mcu.md): one byte exchange, the normal-mode decoder with the rule of each command,
and the bootloader decoder. -/

namespace Sys2Proof.Machine

/-! ## Normal mode (R152 to R160) -/

/-- `Tag(len)`: `len << 1`, little-endian (R152). -/
def mcuTag (len : Nat) : List Byte := le16Bytes (BitVec.ofNat 16 (len <<< 1))

/-- A normal-mode reply (R72, R152): the tag, then the payload. -/
def mcuReply (len : Nat) (payload : List Byte) (s : State) : Res Unit := push .mcu .reply (mcuTag len ++ payload) s

/-- MC.ECHO (R154). -/
def mcuEcho (arg : BitVec 9) (bytes : List Byte) (s : State) : Res Unit := mcuReply (countOf arg) bytes s

/-- MC.EEMODESET: `eeprom_mode <- arg[7:0]` (R155). -/
def mcuModeSet (arg : BitVec 9) (s : State) : Res Unit :=
  mcuReply 0 [] (s.setMcu { s.mcu with eepromMode := arg.extractLsb' 0 8 })

/-- MC.EEMODEGET (R156). -/
def mcuModeGet (s : State) : Res Unit := mcuReply 1 [s.mcu.eepromMode] s

/-- An EEPROM word: 0xFFFF past the end (R157). -/
def eepromWord (s : State) (k : Nat) : Half := if k < s.board.eepromWords then s.mcu.eeprom.getD k 0x0000 else 0xFFFF

/-- MC.EEREAD: `N` words from word address `a` (R157). -/
def mcuEepromRead (n : Nat) (a : Nat) (s : State) : Res Unit :=
  mcuReply (2 * n) ((List.range n).flatMap fun j => le16Bytes (eepromWord s (a + j))) s

/-- `UsbRecv(max)`: a draw of at most `max` bytes (R9). -/
def usbRecv (max : Nat) (s : State) : List Byte := (Config.usbRecv s.draws).take max

/-- The most bytes MC.USBREAD asks for (R158). -/
def usbReadMax : Nat := 128

/-- MC.USBREAD (R158). -/
def mcuUsbRead (arg : BitVec 9) (s : State) : Res Unit :=
  let d := usbRecv (min (countOf arg) usbReadMax) s
  mcuReply d.length d (s.addDraws 1)

/-- `UsbSend(bytes)`: a draw of at most their number, the first so many taken (R9). -/
def usbSend (bytes : List Byte) (s : State) : Nat := min (Config.usbSend s.draws) bytes.length

/-- MC.USBWRITE (R159): the tag is the accepted count, without a payload. -/
def mcuUsbWrite (bytes : List Byte) (s : State) : Res Unit :=
  let n := usbSend bytes s
  mcuReply n [] ((s.addDraws 1).addUsb (bytes.take n))

/-- The rule of a command, with its argument and the bytes after its word (R153). -/
def mcuCommand (c : McuOp) (arg : BitVec 9) (bytes : List Byte) (s : State) : Res Unit :=
  match c with
  | .echo => mcuEcho arg bytes s
  | .eemodeset => mcuModeSet arg s
  | .eemodeget => mcuModeGet s
  | .eeread => mcuEepromRead arg.toNat (le16 (byteOf bytes 0) (byteOf bytes 1)).toNat s
  | .usbread => mcuUsbRead arg s
  | .usbwrite => mcuUsbWrite bytes s

/-- The decoding step of `McuByte`, after its push (R153, R160). -/
def mcuDecode (s : State) : Res Unit :=
  if s.mcu.cmd.length < 2 then done s
  else
    let w := le16 (byteOf s.mcu.cmd 0) (byteOf s.mcu.cmd 1)
    let op := w.extractLsb' 0 7
    let arg := w.extractLsb' 7 9
    match mcuOpOf s.board op with
    | none => done ((s.setMcu { s.mcu with cmd := [] }).addLog (.mcuUnknownOpcode op))
    | some c =>
      if s.mcu.cmd.length < 2 + mcuExtra c arg then done s
      else
        let p := popFifo s.mcu.cmd (2 + mcuExtra c arg)
        mcuCommand c arg (p.out.drop 2) (s.setMcu { s.mcu with cmd := p.rest })

/-- `McuByte(tx)` (R153). -/
def mcuByte (tx : Byte) (s : State) : Res Unit := (push .mcu .cmd [tx] s).bind fun _ s1 => mcuDecode s1

/-! ## Bootloader mode (R161 to R170) -/

/-- `BlAck()` (R161). -/
def blAck (s : State) : Res Unit :=
  (push .mcu .reply [bootAck] s).bind fun _ s1 => done (s1.setMcu { s1.mcu with waitingAck := true })

/-- `BlNack()` (R161). -/
def blNack (s : State) : Res Unit :=
  (push .mcu .reply [bootNack] s).bind fun _ s1 => done (s1.setMcu { s1.mcu with waitingAck := true })

/-- `BlExit()` (R168): the FIFOs are kept. -/
def blExit (s : State) : State :=
  s.setMcu { s.mcu with bootMode := false, started := false, blCmd := none, step := 0, need := 0 }

/-- A byte while an ACK or NACK is unacknowledged (R161, R162, R168). -/
def blAwaited (tx : Byte) (s : State) : Res Unit :=
  if tx = bootAck then
    let s1 := s.setMcu { s.mcu with waitingAck := false }
    if s1.mcu.blCmd = some .go ∧ s1.mcu.step = 0 then done (blExit s1) else done s1
  else done s

/-- A byte before the sync (R161, R163). -/
def blUnstarted (tx : Byte) (s : State) : Res Unit :=
  if tx = bootStart then blAck (s.setMcu { s.mcu with started := true }) else done s

/-- A complete 3-byte frame (R164, R169, R170). -/
def blSelect (op par : Byte) (s : State) : Res Unit :=
  if par ≠ bootParity op then done (s.addLog .bootloaderParityError)
  else
    match bootOpOf op with
    | none => blNack s
    | some c => blAck (s.setMcu { s.mcu with blCmd := some c, step := 1, need := 4 })

/-- `BlFrame(tx)` (R164). -/
def blFrame (tx : Byte) (s : State) : Res Unit :=
  if s.mcu.cmd = [] ∧ tx ≠ bootStart then done s
  else
    (push .mcu .cmd [tx] s).bind fun _ s1 =>
    if s1.mcu.cmd.length < 3 then done s1
    else
      let p := popFifo s1.mcu.cmd 3
      blSelect (byteOf p.out 1) (byteOf p.out 2) (s1.setMcu { s1.mcu with cmd := p.rest })

/-- `BlDone()` of the command `c` (R165). -/
def blDone (c : BootOp) (s : State) : Res Unit :=
  blAck ((s.addLog (.bootloaderStub c)).setMcu { s.mcu with blCmd := none, step := 0 })

/-- Step 1 of the command `c`: the address (R165). -/
def blStepAddress (c : BootOp) (tx : Byte) (s : State) : Res Unit :=
  (push .mcu .cmd [tx] s).bind fun _ s1 =>
  if s1.mcu.cmd.length < 4 then done s1
  else
    let p := popFifo s1.mcu.cmd 4
    let m := { s1.mcu with
      cmd := p.rest
      dest := be32 (byteOf p.out 0) (byteOf p.out 1) (byteOf p.out 2) (byteOf p.out 3) }
    match c with
    | .go => blAck ((s1.addLog (.bootloaderStub .go)).setMcu { m with step := 0 })
    | .write => blAck (s1.setMcu { m with step := 2, need := 1 })
    | .erase => blAck (s1.setMcu { m with step := 2, need := 2 })

/-- The header of step 2 read: the payload follows, if it is not empty (R165). -/
def blPayload (c : BootOp) (s : State) : Res Unit :=
  if s.mcu.need = 0 then blDone c s else done s

/-- Step 2 of the command `c`: the length or count (R165). -/
def blStepHeader (c : BootOp) (tx : Byte) (s : State) : Res Unit :=
  (push .mcu .cmd [tx] s).bind fun _ s1 =>
  if s1.mcu.cmd.length < s1.mcu.need then done s1
  else
    match c with
    | .write =>
      let p := popFifo s1.mcu.cmd 1
      blPayload c (s1.setMcu { s1.mcu with cmd := p.rest, need := (byteOf p.out 0).toNat, step := 3 })
    | .erase =>
      let p := popFifo s1.mcu.cmd 2
      let n := be16 (byteOf p.out 0) (byteOf p.out 1)
      blPayload c (s1.setMcu { s1.mcu with cmd := p.rest, eraseCount := n, need := 2 * n.toNat, step := 3 })
    | .go => blPayload c (s1.setMcu { s1.mcu with step := 3 })

/-- Step 3 of the command `c`: a payload byte is counted and discarded (R165). -/
def blStepPayload (c : BootOp) (s : State) : Res Unit :=
  blPayload c (s.setMcu { s.mcu with need := s.mcu.need - 1 })

/-- `BlStep(tx)` of the command `c` (R165). -/
def blStep (c : BootOp) (tx : Byte) (s : State) : Res Unit :=
  match s.mcu.step with
  | 1 => blStepAddress c tx s
  | 2 => blStepHeader c tx s
  | 3 => blStepPayload c s
  | _ => done s

/-- `BlByte(tx)` (R161). -/
def blByte (tx : Byte) (s : State) : Res Unit :=
  if s.mcu.waitingAck then blAwaited tx s
  else if s.mcu.started = false then blUnstarted tx s
  else
    match s.mcu.blCmd with
    | none => blFrame tx s
    | some c => blStep c tx s

/-! ## The exchange and the reset (R150, R151) -/

/-- `McuExchange(tx)` (R150). -/
def mcuExchange (tx : Byte) (s : State) : Res Byte :=
  let s1 := s.setMcu { s.mcu with reply := pop1Rest s.mcu.reply }
  (if s.mcu.bootMode then blByte tx s1 else mcuByte tx s1).bind fun _ s2 => .ok (pop1 s.mcu.reply) s2

/-- The reset event of a POW_CNT write (R84): the transient state, and `boot_mode` from the boot-strap bit. -/
def mcuResetEvent (boot : Bool) (s : State) : State :=
  s.setMcu { mcuResetTransient s.mcu with bootMode := boot }

end Sys2Proof.Machine
end

