-- ==== Sys2Proof/Machine/Operands.lean ====
section
/-! DEFINITION. The two operand forms of a bus operation: a register offset, looked up in `reg_map` (40_bus_interface.md
R80), and a cartridge address, resolved by the bank translator (20_memory.md R42 to R52). -/

namespace Sys2Proof.Machine

/-! ## Register offsets (R13, R80, R82, R83) -/

/-- What an offset reaches: a register byte, or the RTC. -/
inductive Target where
  | reg (p : RegPort)
  | rtc (k : Fin 2)
  deriving DecidableEq, Repr

/-- `lookup(off)` (R80): the RTC where its gate holds and the offset is one of its two, else the `reg_map` entry of the
offset whose gate holds. -/
def lookup (b : Board) (r : Regs) (off : Byte) : Option Target :=
  if r.gateOpen b.rtcGate ∧ off = b.rtcPort0 then some (.rtc 0)
  else if r.gateOpen b.rtcGate ∧ off = b.rtcPort1 then some (.rtc 1)
  else (b.regMap.find? (fun e => e.off == off && r.gateOpen e.gate)).map (fun e => .reg e.port)

/-- An offset by which a register byte is reached as the gates stand (R79: "the offset reg_map gives that register byte"),
or none. -/
def portOffset (b : Board) (r : Regs) (p : RegPort) : Option Byte :=
  (b.regMap.map (·.off)).find? fun off => lookup b r off == some (.reg p)

/-- Bits 7:0 of a 16-bit register. -/
def loByte (v : Half) : Byte := v.extractLsb' 0 8

/-- Bits 15:8 of a 16-bit register. -/
def hiByte (v : Half) : Byte := v.extractLsb' 8 8

/-- `v` with bits 7:0 replaced (R83). -/
def withLo (v : Half) (b : Byte) : Half := hiByte v ++ b

/-- `v` with bits 15:8 replaced (R83). -/
def withHi (v : Half) (b : Byte) : Half := b ++ loByte v

/-- A byte of a 16-bit register (R82). -/
def Half.byteAt (v : Half) : BytePort → Byte
  | .lo => loByte v
  | .hi => hiByte v

/-- A 16-bit register with one byte replaced (R83). -/
def Half.withByte (v : Half) (p : BytePort) (b : Byte) : Half :=
  match p with
  | .lo => withLo v b
  | .hi => withHi v b

/-- A bank selector (R21). -/
def Regs.bank (r : Regs) : BankReg → Half
  | .ram => r.bankRam
  | .rom0 => r.bankRom0
  | .rom1 => r.bankRom1

/-- Replaces a bank selector. -/
def Regs.setBank (r : Regs) (k : BankReg) (v : Half) : Regs :=
  match k with
  | .ram => { r with bankRam := v }
  | .rom0 => { r with bankRom0 := v }
  | .rom1 => { r with bankRom1 := v }

/-- A bank selector written through a port: a narrow port clears bits 15:8 (R23, R83). -/
def bankWritten (old : Half) (p : BankPort) (v : Byte) : Half :=
  match p with
  | .lo => withLo old v
  | .hi => withHi old v
  | .narrow => v.setWidth 16

/-- A bank selector read through a port: lo and narrow read bits 7:0 (R82). -/
def bankRead (v : Half) (p : BankPort) : Byte :=
  match p with
  | .lo => loByte v
  | .hi => hiByte v
  | .narrow => loByte v

/-- The value of a register byte (R82). -/
def readPort (b : Board) (r : Regs) : RegPort → Byte
  | .flashEn => r.flashEn
  | .bankLinear => r.bankLinear
  | .bank k p => bankRead (r.bank k) p
  | .spiCnt p => Half.byteAt r.spiCnt p
  | .powCnt => r.powCnt
  | .segMask p => Half.byteAt r.segMask p
  | .warmboot => r.warmboot
  | .emuCnt => r.emuCnt
  | .boardRev => b.boardRevValue

/-! ## Cartridge addresses (R42 to R52) -/

/-- A region tag with its offset (R43). `boot i` is the byte `i` of the boot alias. -/
inductive Loc where
  | sram (off : Nat)
  | psram (off : Nat)
  | ipc (off : Nat)
  | tx (half : BitVec 1) (i : Nat)
  | rx (half : BitVec 1) (i : Nat)
  | boot (i : Nat)
  deriving DecidableEq, Repr

/-- `boot_bank_rom`, decided (R12, R49). -/
def bootBankRom : Nat := 0x1FF

/-- `console_half_xor`, decided (R12, R52). -/
def consoleHalfXor : BitVec 1 := 1

/-- `console_half` (R52). -/
def consoleHalf (r : Regs) : BitVec 1 := r.bufidx ^^^ consoleHalfXor

/-- `ipc_size` (R12). -/
def ipcSize (b : Board) : Nat := 2 ^ b.ipcSizeLog.val

/-- `sram_banks(EMU_CNT.sram_size)` (R37, R48). -/
def sramBanksNow (b : Board) (r : Regs) : Nat := b.sramBanks.getD (sramMode b r) 0

/-- The CPU bank of an address (R44). -/
def cpuBank (addr : BitVec 20) : BitVec 4 := addr.extractLsb' 16 4

/-- The in-bank offset of an address (R44). -/
def bankOffset (addr : BitVec 20) : Half := addr.extractLsb' 0 16

/-- RAM space or ROM space (R45). -/
inductive Space where
  | ram | rom
  deriving DecidableEq, Repr

/-- The space of an access (R45). -/
def spaceOf (r : Regs) (cb : BitVec 4) : Space := if cb = 1 ∧ r.flashEnable = false then .ram else .rom

/-- The raw bank of an access (R45, R46). -/
def rawBank (r : Regs) (cb : BitVec 4) : Half :=
  if cb = 1 then r.bankRam
  else if cb = 2 then r.bankRom0
  else if cb = 3 then r.bankRom1
  else (r.bankLinear.setWidth 16 <<< 4) ||| cb.setWidth 16

/-- The lock bit of an access (R45). -/
def lockOf (b : Board) (cb : BitVec 4) : Option (Fin 16) :=
  if cb = 1 then b.lockRam
  else if cb = 2 then b.lockRom0
  else if cb = 3 then b.lockRom1
  else b.lockLinear

/-- The physical bank: the raw bank under the mask of its space, or under the space's full range when its lock is clear
or absent (R47). -/
def physBank (b : Board) (r : Regs) (cb : BitVec 4) : Nat :=
  match spaceOf r cb with
  | .ram =>
    (rawBank r cb &&& (if lockSet r (lockOf b cb) then (r.segMask.extractLsb' 0 4).setWidth 16 else 0x00F#16)).toNat
  | .rom =>
    (rawBank r cb &&& (if lockSet r (lockOf b cb) then (r.segMask.extractLsb' 0 9).setWidth 16 else 0x1FF#16)).toNat

/-- Whether an optional bank number is this bank. -/
def isBank {n : Nat} (k : Option (Fin n)) (pb : Nat) : Bool :=
  match k with
  | none => false
  | some k => k.val == pb

/-- The index in a TX or RX half, or in the boot alias: `o[8:0]` (R48, R49). -/
def halfIndex (o : Half) : Nat := (o.extractLsb' 0 9).toNat

/-- RAM-space resolution (R48). -/
def resolveRam (b : Board) (r : Regs) (pb : Nat) (o : Half) (isWrite isProbe : Bool) : Option Loc :=
  if r.powBit b.powSram ∧ pb < sramBanksNow b r then some (.sram (pb * 65536 + o.toNat))
  else if isBank b.ipcBankRam pb then some (.ipc (o.toNat % ipcSize b))
  else if isBank b.txBankRam pb then
    if isWrite ∨ isProbe then some (.tx (consoleHalf r) (halfIndex o)) else none
  else none

/-- ROM-space resolution (R49). -/
def resolveRom (b : Board) (r : Regs) (pb : Nat) (o : Half) (isWrite isProbe : Bool) : Option Loc :=
  if pb < b.psramBanks then some (.psram (pb * 65536 + o.toNat))
  else if isBank b.ipcBankRom pb then some (.ipc (o.toNat % ipcSize b))
  else if isBank b.txBankRom pb then
    if isWrite ∨ isProbe then some (.tx (consoleHalf r) (halfIndex o)) else none
  else if pb = bootBankRom then
    if isWrite then none else some (.boot (halfIndex o))
  else if isBank b.rxBankRom pb then
    if isWrite = false ∨ isProbe then some (.rx (consoleHalf r) (halfIndex o)) else none
  else none

/-- `resolve(addr, is_write, is_probe)` (R42): a function of the parameters, the register file and its arguments;
`none` is `unmapped`. -/
def resolve (b : Board) (r : Regs) (addr : BitVec 20) (isWrite isProbe : Bool) : Option Loc :=
  match spaceOf r (cpuBank addr) with
  | .ram => resolveRam b r (physBank b r (cpuBank addr)) (bankOffset addr) isWrite isProbe
  | .rom => resolveRom b r (physBank b r (cpuBank addr)) (bankOffset addr) isWrite isProbe

/-- The array and offset a location stands for: the boot alias is the last 512 bytes of the ROM image, and has no byte
where that index is negative (R43, R50). -/
def Loc.cell (b : Board) : Loc → Option (Region × Nat)
  | .sram off => some (.sram, off)
  | .psram off => some (.psram, off)
  | .ipc off => some (.ipc, off)
  | .tx h i => some (.tx, bufOffset h i)
  | .rx h i => some (.rx, bufOffset h i)
  | .boot i => if 512 ≤ b.romSize + i then some (.rom, b.romSize + i - 512) else none

/-- `MemRead(loc)` (R43), 0xFF for a byte the boot alias does not have (R50). -/
def memRead (s : State) (l : Loc) : Byte :=
  match l.cell s.board with
  | some (r, a) => s.readCell r a
  | none => 0xFF

/-- `MemWrite(loc, v)` (R43); the boot alias is never written (R50). -/
def memWrite (s : State) (l : Loc) (v : Byte) : State :=
  match l with
  | .boot _ => s
  | l =>
    match l.cell s.board with
    | some (r, a) => s.writeCells r a [v]
    | none => s

/-- A read through the translator: `unmapped` reads 0xFF (R51, R86). -/
def readThrough (s : State) (addr : BitVec 20) (isProbe : Bool) : Byte :=
  match resolve s.board s.regs addr false isProbe with
  | none => 0xFF
  | some l => memRead s l

/-- A write through the translator: an `unmapped` write changes nothing (R51, R87). -/
def writeThrough (s : State) (addr : BitVec 20) (v : Byte) (isProbe : Bool) : State :=
  match resolve s.board s.regs addr true isProbe with
  | none => s
  | some l => memWrite s l v

end Sys2Proof.Machine
end

