-- ==== Sys2Proof/Machine/Spi.lean ====
section
/-! DEFINITION. The SPI bus engine (42_spi_engine.md): the peripheral multiplexer, the transfer loop, wait-read, and the
writes of SPI_CNT. -/

namespace Sys2Proof.Machine

/-- `Exchange(dev, tx)` (R99). -/
def exchange (dev : BitVec 2) (tx : Byte) (s : State) : Res Byte :=
  if dev = 1 then cardExchange tx s
  else if dev = 2 then flashExchange tx s
  else if dev = 3 then mcuExchange tx s
  else .ok 0xFF s

/-- The byte sent at a position of a transfer: the TX buffer's in the modes that write, 0xFF otherwise (R64, R100). -/
def transferTx (mode : BitVec 2) (h : BitVec 1) (i : Nat) (s : State) : Byte :=
  if mode = 0 ∨ mode = 2 then s.readCell .tx (bufOffset h i) else 0xFF

/-- What a position does with the received byte: kept in the RX buffer in every mode but write (R64, R100). -/
def transferRx (mode : BitVec 2) (h : BitVec 1) (i : Nat) (rx : Byte) (s : State) : State :=
  if mode = 0 then s else s.writeCells .rx (bufOffset h i) [rx]

/-- The loop of R100: `k` positions from position `i` on. -/
def transferLoop (dev : BitVec 2) (mode : BitVec 2) (h : BitVec 1) : Nat → Nat → State → Res Unit
  | 0, _, s => done s
  | k + 1, i, s =>
    (exchange dev (transferTx mode h i s) s).bind fun rx s1 =>
    transferLoop dev mode h k (i + 1) (transferRx mode h i rx s1)

/-- `WaitRead(dev, h)` (R101), with `left` dummy exchanges still allowed and `skipped` made; true when a byte other than
0xFF came. -/
def waitRead (dev : BitVec 2) (h : BitVec 1) : Nat → Nat → State → Res Bool
  | 0, _, s => .ok false (s.addLog .waitReadTimeout)
  | left + 1, skipped, s =>
    (exchange dev 0xFF s).bind fun rx s1 =>
    if rx ≠ 0xFF then .ok true ((s1.writeCells .rx (bufOffset h 0) [rx]).addLog (.waitReadSkipped skipped))
    else waitRead dev h left (skipped + 1) s1

/-- `R.SPI_CNT.BUSY <- 0` (R102). -/
def finishTransfer (s : State) : State := s.setRegs s.regs.clearBusy

/-- `Transfer()` (R100). -/
def transfer (s : State) : Res Unit :=
  let n := s.regs.len.toNat + 1
  let h := s.regs.bufidx
  let dev := s.regs.dev
  let m := s.regs.mode
  if m = 3 then
    (waitRead dev h s.board.waitReadLimit 0 s).bind fun got s1 =>
    if got then (transferLoop dev m h (n - 1) 1 s1).bind fun _ s2 => done (finishTransfer s2)
    else done s1
  else (transferLoop dev m h n 0 s).bind fun _ s1 => done (finishTransfer s1)

/-- The reset of the flash on a deselect: DEV was 2 and is not 2 now (R96, R98). -/
def deselect (oldDev : BitVec 2) (s : State) : State :=
  if oldDev = 2 ∧ s.regs.dev ≠ 2 then s.setFlash (flashResetTransient s.flash) else s

/-- The engine after a write of the high byte is stored (R96, R97). -/
def runEngine (oldDev : BitVec 2) (s : State) : Res Unit :=
  if clocked s.board s.regs = false then done s
  else if s.regs.busy then transfer (deselect oldDev s)
  else done (deselect oldDev s)

/-- A write of a byte of SPI_CNT: rejected while BUSY (R94), the low byte only stores (R95), the high byte runs the
engine (R96). -/
def spiCntWrite (p : BytePort) (v : Byte) (s : State) : Res Unit :=
  if s.regs.busy then done (s.addLog .busyWriteConflict)
  else
    match p with
    | .lo => done (s.setRegs { s.regs with spiCnt := withLo s.regs.spiCnt v })
    | .hi => runEngine s.regs.dev (s.setRegs { s.regs with spiCnt := withHi s.regs.spiCnt v })

/-! ## Frames of a peripheral, byte by byte -/

/-- The DEV value of a peripheral (R63). -/
def periphDev : Periph → BitVec 2
  | .card => 1
  | .flash => 2
  | .mcu => 3

/-- Exchanges bytes with a device, one after another, each received byte returned to the console (R64, R99). -/
def exchangeAll (dev : BitVec 2) : List Byte → State → Res Unit
  | [], s => done s
  | tx :: rest, s => (exchange dev tx s).bind fun rx s1 => exchangeAll dev rest (s1.addOut rx)

/-- Exchanges bytes with a peripheral. -/
def feed (d : Periph) : List Byte → State → Res Unit := exchangeAll (periphDev d)

/-- Whether the console can have bytes exchanged with the selected device: a `RegWrite` can reach the high byte of SPI_CNT
(R80, R96), it is not rejected (R94), and the engine is clocked (R97). -/
def canTransfer (s : State) : Bool :=
  (portOffset s.board s.regs (.spiCnt .hi)).isSome && !s.regs.busy && clocked s.board s.regs

/-- The bytes of a frame sent on the SPI bus: to the device SPI_CNT.DEV selects (R99), or not at all where no transfer can
run (log entry 4). -/
def sendFrame (bytes : List Byte) (s : State) : Res Unit :=
  if canTransfer s then exchangeAll s.regs.dev bytes s else done s

end Sys2Proof.Machine
end

