-- ==== Sys2Proof/Machine/BootInstr.lean ====
section
/-! DEFINITION. The meanings of the BL rows (45_mcu.md): the frames sent on the SPI bus to the selected device (R74,
R99, R150; log entry 4). A command of several steps is exchanged step by step, the ACK of each step read and acknowledged
as the examples of R166 to R168 do (log entry 10). -/

namespace Sys2Proof.Machine

/-- The bytes of a step, then a dummy byte that reads the ACK and the byte that acknowledges it (R162, R166). -/
def acknowledged (bytes : List Byte) : List Byte := bytes ++ [0xFF, bootAck]

/-- BL.SYNC (R163). -/
def execBlSync (s : State) : Host.Outcome State Fault Refusal :=
  operate s fun s => sendFrame [bootStart] s

/-- BL.ACKBYTE (R162). -/
def execBlAckbyte (s : State) : Host.Outcome State Fault Refusal :=
  operate s fun s => sendFrame [bootAck] s

/-- BL.ERASE (R166): the frame, the address, the count with its sector indices. -/
def execBlErase (dest : BitVec 32) (indices : List Half) (s : State) : Host.Outcome State Fault Refusal :=
  operate s fun s =>
    sendFrame (acknowledged (bootFrame (bootCode .erase)) ++ acknowledged (be32Bytes dest)
      ++ acknowledged (be16Bytes (BitVec.ofNat 16 indices.length) ++ indexBytes indices)) s

/-- BL.WRITE (R167): the frame, the address, the length with its bytes. -/
def execBlWrite (dest : BitVec 32) (data : List Byte) (s : State) : Host.Outcome State Fault Refusal :=
  operate s fun s =>
    sendFrame (acknowledged (bootFrame (bootCode .write)) ++ acknowledged (be32Bytes dest)
      ++ acknowledged (BitVec.ofNat 8 data.length :: data)) s

/-- BL.GO (R168): the frame, the address. -/
def execBlGo (dest : BitVec 32) (s : State) : Host.Outcome State Fault Refusal :=
  operate s fun s =>
    sendFrame (acknowledged (bootFrame (bootCode .go)) ++ acknowledged (be32Bytes dest)) s

/-- BL.NACK (R169): an opcode outside R75 with its right parity byte. -/
def execBlNack (op : Byte) (s : State) : Host.Outcome State Fault Refusal :=
  operate s fun s => sendFrame (bootFrame op) s

/-- BL.PARITY (R170): a frame whose parity byte is wrong. -/
def execBlParity (op : Byte) (par : Byte) (s : State) : Host.Outcome State Fault Refusal :=
  operate s fun s => sendFrame [bootStart, op, par] s

end Sys2Proof.Machine
end

