-- ==== Sys2Proof/Machine/Legacy.lean ====
section
/-! DEFINITION. The legacy flash-FSM snoop (46_legacy_flash_fsm.md). -/

namespace Sys2Proof.Machine

/-- The next state of the FSM on a written byte (R171). -/
def fsmNext (f : Legacy) (v : Byte) : Legacy :=
  match f with
  | .read => if v = 0xAA then .unlock1 else .read
  | .unlock1 => if v = 0x55 then .unlock2 else .read
  | .unlock2 =>
    if v = 0x20 then .fast
    else if v = 0xA0 then .write
    else if v = 0x10 ∨ v = 0x30 then .erase
    else .read
  | .fast => if v = 0xA0 then .fastWrite else if v = 0x90 then .read else .fast
  | .fastWrite => .fast
  | .write => .read
  | .erase => .read

/-- Whether a written byte is data of a write or fast write (R171). -/
def fsmStores : Legacy → Bool
  | .fastWrite | .write => true
  | _ => false

/-- `FsmStore(addr, v)` (R171). -/
def fsmStore (addr : BitVec 20) (v : Byte) (s : State) : State := writeThrough s addr v false

/-- `FsmWrite(addr, v)` (R171): a data byte is stored, then the FSM moves. -/
def fsmWrite (addr : BitVec 20) (v : Byte) (s : State) : State :=
  (if fsmStores s.fsm then fsmStore addr v s else s).setFsm (fsmNext s.fsm v)

/-- Whether an address lies in the snoop window while the snoop is active: CPU bank 1 (R81). -/
def snooped (s : State) (addr : BitVec 20) : Bool := snoopActive s.board s.regs && cpuBank addr == 1

/-- The synthetic read of the window, if the FSM gives one: 0x00 in `Fast`, 0xFF in `Erase` (R172). -/
def fsmRead : Legacy → Option Byte
  | .fast => some 0x00
  | .erase => some 0xFF
  | _ => none

end Sys2Proof.Machine
end

