-- ==== Sys2Proof/Machine/Bus.lean ====
section
/-! DEFINITION. The bus operations (40_bus_interface.md): register reads and writes, cartridge and probe accesses. -/

namespace Sys2Proof.Machine

/-! ## Registers (R82 to R85) -/

/-- `RtcRead(which)`: a draw (R10). -/
def rtcRead (k : Fin 2) (s : State) : State := (s.setOut [Config.rtcRead s.draws k]).addDraws 1

/-- `RegRead(off)` (R82): what is returned to the console; an offset that is not answered returns nothing. -/
def regRead (off : Byte) (s : State) : State :=
  match lookup s.board s.regs off with
  | none => s.setOut []
  | some (.rtc k) => rtcRead k s
  | some (.reg p) => s.setOut [readPort s.board s.regs p]

/-- `PowWrite(v)` (R84). -/
def powWrite (v : Byte) (s : State) : State :=
  let s1 := s.setRegs { s.regs with powCnt := v }
  if s1.regs.powBit s.board.powMcuReset then mcuResetEvent (s1.regs.powBit s.board.powMcuBoot) s1 else s1

/-- A write to a register byte (R83). -/
def portWrite (p : RegPort) (v : Byte) (s : State) : Res Unit :=
  match p with
  | .boardRev => done s
  | .spiCnt b => spiCntWrite b v s
  | .powCnt => done (powWrite v s)
  | .bank k b => done (s.setRegs (s.regs.setBank k (bankWritten (s.regs.bank k) b v)))
  | .flashEn => done (s.setRegs { s.regs with flashEn := v })
  | .bankLinear => done (s.setRegs { s.regs with bankLinear := v })
  | .segMask b => done (s.setRegs { s.regs with segMask := Half.withByte s.regs.segMask b v })
  | .emuCnt => done (s.setRegs { s.regs with emuCnt := v })
  | .warmboot => done (s.setRegs { s.regs with warmboot := v })

/-- `RegWrite(off, v)` (R83). -/
def regWrite (off : Byte) (v : Byte) (s : State) : Res Unit :=
  match lookup s.board s.regs off with
  | none => done s
  | some (.rtc k) => done (s.addRtc ⟨k, v⟩)
  | some (.reg p) => portWrite p v s

/-- `W <reg>, <v8>` of R79: a `RegWrite` at an offset that reaches the register byte. Without one the console has no
operation that writes it (R8). -/
def writeRegByte (p : RegPort) (v : Byte) (s : State) : Res Unit :=
  match portOffset s.board s.regs p with
  | none => done s
  | some off => regWrite off v s

/-- The control word written as two `RegWrite`s, low byte first (R63, R79). -/
def spiWordWrite (w : Half) (s : State) : Res Unit :=
  (writeRegByte (.spiCnt .lo) (loByte w) s).bind fun _ s1 => writeRegByte (.spiCnt .hi) (hiByte w) s1

/-! ## Cartridge space (R86 to R88) -/

/-- The byte `CartRead(addr)` returns (R86). -/
def cartByte (s : State) (addr : BitVec 20) : Byte :=
  if snooped s addr then (fsmRead s.fsm).getD (readThrough s addr false) else readThrough s addr false

/-- `CartRead(addr)` (R86). -/
def cartRead (addr : BitVec 20) (s : State) : State := s.setOut [cartByte s addr]

/-- `CartWrite(addr, v)` (R87). -/
def cartWrite (addr : BitVec 20) (v : Byte) (s : State) : State :=
  if snooped s addr then fsmWrite addr v s else writeThrough s addr v false

/-- `ProbeRead(addr)` (R88). -/
def probeRead (addr : BitVec 20) (s : State) : State := s.setOut [readThrough s addr true]

/-- `ProbeWrite(addr, v)` (R88). -/
def probeWrite (addr : BitVec 20) (v : Byte) (s : State) : State := writeThrough s addr v true

end Sys2Proof.Machine
end

