-- ==== Sys2Proof/Machine/BusInstr.lean ====
section
/-! DEFINITION. The meanings of the BUS rows of the opcode table (40_bus_interface.md, 70_reset_and_hazards.md): each is one
whole operation of the console bus (R8). -/

namespace Sys2Proof.Machine

/-- BUS.REGREAD (R82). -/
def execBusRegread (off : Byte) (s : State) : Host.Outcome State Fault Refusal :=
  operate s fun s => done (regRead off s)

/-- BUS.REGWRITE (R83). -/
def execBusRegwrite (off : Byte) (v : Byte) (s : State) : Host.Outcome State Fault Refusal :=
  operate s fun s => regWrite off v s

/-- BUS.CARTREAD (R86). -/
def execBusCartread (addr : BitVec 20) (s : State) : Host.Outcome State Fault Refusal :=
  operate s fun s => done (cartRead addr s)

/-- BUS.CARTWRITE (R87). -/
def execBusCartwrite (addr : BitVec 20) (v : Byte) (s : State) : Host.Outcome State Fault Refusal :=
  operate s fun s => done (cartWrite addr v s)

/-- BUS.PROBEREAD (R88). -/
def execBusProberead (addr : BitVec 20) (s : State) : Host.Outcome State Fault Refusal :=
  operate s fun s => done (probeRead addr s)

/-- BUS.PROBEWRITE (R88). -/
def execBusProbewrite (addr : BitVec 20) (v : Byte) (s : State) : Host.Outcome State Fault Refusal :=
  operate s fun s => done (probeWrite addr v s)

/-- BUS.COLDRESET (R196); after the first of a session it is performed as a warm reset (R197). -/
def execBusColdreset (s : State) : Host.Outcome State Fault Refusal :=
  operate s fun s => done (if s.poweredUp then warmReset s else coldReset s)

/-- BUS.WARMRESET (R197). -/
def execBusWarmreset (s : State) : Host.Outcome State Fault Refusal :=
  operate s fun s => done (warmReset s)

end Sys2Proof.Machine
end

