-- ==== Sys2Proof/Machine/CardInstr.lean ====
section
/-! DEFINITION. The meanings of the CD rows (44_card.md): the six-byte frame sent on the SPI bus, byte by byte, to
the selected device (R67, R99, R132; log entry 4). -/

namespace Sys2Proof.Machine

/-- CD.RESET (R139). -/
def execCdReset (f : CardArgs) (s : State) : Host.Outcome State Fault Refusal :=
  operate s fun s => sendFrame (cardFrame (cardIndex .reset) f) s

/-- CD.INIT, index 1 (R140). -/
def execCdInit1 (f : CardArgs) (s : State) : Host.Outcome State Fault Refusal :=
  operate s fun s => sendFrame (cardFrame (cardIndex .init1) f) s

/-- CD.INIT, index 41 (R140). -/
def execCdInit41 (f : CardArgs) (s : State) : Host.Outcome State Fault Refusal :=
  operate s fun s => sendFrame (cardFrame (cardIndex .init41) f) s

/-- CD.IFCOND (R141). -/
def execCdIfcond (f : CardArgs) (s : State) : Host.Outcome State Fault Refusal :=
  operate s fun s => sendFrame (cardFrame (cardIndex .ifcond) f) s

/-- CD.STOP (R142). -/
def execCdStop (f : CardArgs) (s : State) : Host.Outcome State Fault Refusal :=
  operate s fun s => sendFrame (cardFrame (cardIndex .stop) f) s

/-- CD.SETBLKLEN (R143). -/
def execCdSetblklen (f : CardArgs) (s : State) : Host.Outcome State Fault Refusal :=
  operate s fun s => sendFrame (cardFrame (cardIndex .setblklen) f) s

/-- CD.READ1 (R144). -/
def execCdRead1 (f : CardArgs) (s : State) : Host.Outcome State Fault Refusal :=
  operate s fun s => sendFrame (cardFrame (cardIndex .read1) f) s

/-- CD.READN (R145). -/
def execCdReadn (f : CardArgs) (s : State) : Host.Outcome State Fault Refusal :=
  operate s fun s => sendFrame (cardFrame (cardIndex .readn) f) s

/-- CD.WRITE1 (R146): the CD-CMD frame, then the bytes of its CD-WDATA phase. -/
def execCdWrite1 (f : CardArgs) (data : List Byte) (s : State) : Host.Outcome State Fault Refusal :=
  operate s fun s => sendFrame (cardFrame (cardIndex .write1) f ++ data) s

/-- CD.WRITEN (R147): the CD-CMD frame, then the bytes of its CD-WDATA phase. -/
def execCdWriten (f : CardArgs) (data : List Byte) (s : State) : Host.Outcome State Fault Refusal :=
  operate s fun s => sendFrame (cardFrame (cardIndex .writen) f ++ data) s

/-- CD.ILLEGAL (R148): an index outside R70. -/
def execCdIllegal (idx : BitVec 6) (f : CardArgs) (s : State) : Host.Outcome State Fault Refusal :=
  operate s fun s => sendFrame (cardFrame idx f) s

end Sys2Proof.Machine
end

