-- ==== Sys2Proof/Machine/FlashInstr.lean ====
section
/-! DEFINITION. The meanings of the FL rows (43_flash.md): the frame sent on the SPI bus, byte by byte, to the
selected device (R65, R99, R108; log entry 4). What the frame does follows from the state of the flash: a sleeping flash
rejects it (R112), a data mode takes it as data (R110). -/

namespace Sys2Proof.Machine

/-- FL.READ (R116): the FL-4 frame, then the bytes of its data phase. -/
def execFlRead (a : BitVec 24) (data : List Byte) (s : State) : Host.Outcome State Fault Refusal :=
  operate s fun s => sendFrame (flashFrame4 .read a ++ data) s

/-- FL.PROGRAM (R117): the FL-4 frame, then the bytes of its data phase. -/
def execFlProgram (a : BitVec 24) (data : List Byte) (s : State) : Host.Outcome State Fault Refusal :=
  operate s fun s => sendFrame (flashFrame4 .program a ++ data) s

/-- FL.ERASE4K (R118). -/
def execFlErase4k (a : BitVec 24) (s : State) : Host.Outcome State Fault Refusal :=
  operate s fun s => sendFrame (flashFrame4 .erase4k a) s

/-- FL.ERASE32K (R119). -/
def execFlErase32k (a : BitVec 24) (s : State) : Host.Outcome State Fault Refusal :=
  operate s fun s => sendFrame (flashFrame4 .erase32k a) s

/-- FL.ERASE64K (R120). -/
def execFlErase64k (a : BitVec 24) (s : State) : Host.Outcome State Fault Refusal :=
  operate s fun s => sendFrame (flashFrame4 .erase64k a) s

/-- FL.RDSR1 (R121). -/
def execFlRdsr1 (s : State) : Host.Outcome State Fault Refusal :=
  operate s fun s => sendFrame [flashCode .rdsr1] s

/-- FL.RDSR2 (R122). -/
def execFlRdsr2 (s : State) : Host.Outcome State Fault Refusal :=
  operate s fun s => sendFrame [flashCode .rdsr2] s

/-- FL.RDSR3 (R123). -/
def execFlRdsr3 (s : State) : Host.Outcome State Fault Refusal :=
  operate s fun s => sendFrame [flashCode .rdsr3] s

/-- FL.MFRID (R124). -/
def execFlMfrid (s : State) : Host.Outcome State Fault Refusal :=
  operate s fun s => sendFrame [flashCode .mfrid] s

/-- FL.JEDECID (R125). -/
def execFlJedecid (s : State) : Host.Outcome State Fault Refusal :=
  operate s fun s => sendFrame [flashCode .jedecid] s

/-- FL.UUID (R126). -/
def execFlUuid (s : State) : Host.Outcome State Fault Refusal :=
  operate s fun s => sendFrame [flashCode .uuid] s

/-- FL.WAKE (R127). -/
def execFlWake (s : State) : Host.Outcome State Fault Refusal :=
  operate s fun s => sendFrame [flashCode .wake] s

/-- FL.SLEEP (R128). -/
def execFlSleep (s : State) : Host.Outcome State Fault Refusal :=
  operate s fun s => sendFrame [flashCode .sleep] s

/-- FL.WREN (R129). -/
def execFlWren (s : State) : Host.Outcome State Fault Refusal :=
  operate s fun s => sendFrame [flashCode .wren] s

/-- FL.WRDI (R130). -/
def execFlWrdi (s : State) : Host.Outcome State Fault Refusal :=
  operate s fun s => sendFrame [flashCode .wrdi] s

/-- FL.UNKNOWN (R113): an opcode byte outside R66. -/
def execFlUnknown (op : Byte) (s : State) : Host.Outcome State Fault Refusal :=
  operate s fun s => sendFrame [op] s

end Sys2Proof.Machine
end

