-- ==== Sys2Proof/Machine/LegacyInstr.lean ====
section
/-! DEFINITION. The meanings of the LF rows (46_legacy_flash_fsm.md): the bytes written by `CartWrite` at an offset of CPU bank 1
(R76, R171; log entry 4). What a byte does follows from the FSM state and from whether the snoop is active. -/

namespace Sys2Proof.Machine

/-- LF.UNLOCK1 (R175). -/
def execLfUnlock1 (o : Half) (s : State) : Host.Outcome State Fault Refusal :=
  operate s fun s => done (cartWrite (windowAddr o) 0xAA s)

/-- LF.UNLOCK2 (R175). -/
def execLfUnlock2 (o : Half) (s : State) : Host.Outcome State Fault Refusal :=
  operate s fun s => done (cartWrite (windowAddr o) 0x55 s)

/-- LF.FAST (R176). -/
def execLfFast (o : Half) (s : State) : Host.Outcome State Fault Refusal :=
  operate s fun s => done (cartWrite (windowAddr o) 0x20 s)

/-- LF.WRITE (R179): 0xA0, then the data byte. -/
def execLfWrite (o : Half) (x : Byte) (s : State) : Host.Outcome State Fault Refusal :=
  operate s fun s => done (cartWrite (windowAddr o) x (cartWrite (windowAddr o) 0xA0 s))

/-- LF.ERASE (R180): 0x10 or 0x30. -/
def execLfErase (o : Half) (b5 : BitVec 1) (s : State) : Host.Outcome State Fault Refusal :=
  operate s fun s => done (cartWrite (windowAddr o) (if b5 = 0 then 0x10 else 0x30) s)

/-- LF.FASTWRITE (R177): 0xA0, then the data byte. -/
def execLfFastwrite (o : Half) (x : Byte) (s : State) : Host.Outcome State Fault Refusal :=
  operate s fun s => done (cartWrite (windowAddr o) x (cartWrite (windowAddr o) 0xA0 s))

/-- LF.FASTEXIT (R178). -/
def execLfFastexit (o : Half) (s : State) : Host.Outcome State Fault Refusal :=
  operate s fun s => done (cartWrite (windowAddr o) 0x90 s)

end Sys2Proof.Machine
end

