-- ==== Sys2Proof/Machine/McuInstr.lean ====
section
/-! DEFINITION. The meanings of the MC rows (45_mcu.md): the command word and its bytes sent on the SPI bus to the selected
device (R71, R99, R150; log entry 4). -/

namespace Sys2Proof.Machine

/-- MC.ECHO (R154). -/
def execMcEcho (arg : BitVec 9) (bytes : List Byte) (s : State) : Host.Outcome State Fault Refusal :=
  operate s fun s => sendFrame (mcuFrame (mcuCode s.board .echo) arg ++ bytes) s

/-- MC.EEMODESET (R155). -/
def execMcEemodeset (arg : BitVec 9) (s : State) : Host.Outcome State Fault Refusal :=
  operate s fun s => sendFrame (mcuFrame (mcuCode s.board .eemodeset) arg) s

/-- MC.EEMODEGET (R156). -/
def execMcEemodeget (arg : BitVec 9) (s : State) : Host.Outcome State Fault Refusal :=
  operate s fun s => sendFrame (mcuFrame (mcuCode s.board .eemodeget) arg) s

/-- MC.EEREAD (R157). -/
def execMcEeread (arg : BitVec 9) (addr : Half) (s : State) : Host.Outcome State Fault Refusal :=
  operate s fun s => sendFrame (mcuFrame (mcuCode s.board .eeread) arg ++ le16Bytes addr) s

/-- MC.USBREAD (R158). -/
def execMcUsbread (arg : BitVec 9) (s : State) : Host.Outcome State Fault Refusal :=
  operate s fun s => sendFrame (mcuFrame (mcuCode s.board .usbread) arg) s

/-- MC.USBWRITE (R159). -/
def execMcUsbwrite (arg : BitVec 9) (bytes : List Byte) (s : State) : Host.Outcome State Fault Refusal :=
  operate s fun s => sendFrame (mcuFrame (mcuCode s.board .usbwrite) arg ++ bytes) s

/-- MC.UNKNOWN (R160): an opcode outside R73. -/
def execMcUnknown (op : BitVec 7) (arg : BitVec 9) (s : State) : Host.Outcome State Fault Refusal :=
  operate s fun s => sendFrame (mcuFrame op arg) s

end Sys2Proof.Machine
end

