-- ==== Sys2Proof/Machine/SpiInstr.lean ====
section
/-! DEFINITION. The meanings of the SPICNT rows (42_spi_engine.md): the control word written to SPI_CNT as two bytes, low
byte first (R63, R79). -/

namespace Sys2Proof.Machine

/-- SPI.CTRL (R96): a control word with BUSY = 0. -/
def execSpiCtrl (bufidx : BitVec 1) (dev : BitVec 2) (clk390 : BitVec 1) (mode : BitVec 2) (len : BitVec 9)
    (s : State) : Host.Outcome State Fault Refusal :=
  operate s fun s => spiWordWrite (spiWord ⟨0, bufidx, dev, clk390, mode, len⟩) s

/-- SPI.WRITE (R104): BUSY = 1, MODE = 0. -/
def execSpiWrite (bufidx : BitVec 1) (dev : BitVec 2) (clk390 : BitVec 1) (len : BitVec 9) (s : State) : Host.Outcome State Fault Refusal :=
  operate s fun s => spiWordWrite (spiWord ⟨1, bufidx, dev, clk390, 0, len⟩) s

/-- SPI.READ (R105): BUSY = 1, MODE = 1. -/
def execSpiRead (bufidx : BitVec 1) (dev : BitVec 2) (clk390 : BitVec 1) (len : BitVec 9) (s : State) : Host.Outcome State Fault Refusal :=
  operate s fun s => spiWordWrite (spiWord ⟨1, bufidx, dev, clk390, 1, len⟩) s

/-- SPI.EXCH (R106): BUSY = 1, MODE = 2. -/
def execSpiExch (bufidx : BitVec 1) (dev : BitVec 2) (clk390 : BitVec 1) (len : BitVec 9) (s : State) : Host.Outcome State Fault Refusal :=
  operate s fun s => spiWordWrite (spiWord ⟨1, bufidx, dev, clk390, 2, len⟩) s

/-- SPI.WAITREAD (R107): BUSY = 1, MODE = 3. -/
def execSpiWaitread (bufidx : BitVec 1) (dev : BitVec 2) (clk390 : BitVec 1) (len : BitVec 9) (s : State) : Host.Outcome State Fault Refusal :=
  operate s fun s => spiWordWrite (spiWord ⟨1, bufidx, dev, clk390, 3, len⟩) s

end Sys2Proof.Machine
end

