-- ==== Sys2Proof/Machine/Dispatch.lean ====
section
/-! DEFINITION. The dispatch: one arm per row of spec/opcode_table.json, each one call of its meaning. -/

namespace Sys2Proof.Machine

def exec (i : Instr) (s : State) : Host.Outcome State Fault Refusal :=
  match i with
  | .busRegread off => Sys2Proof.Machine.execBusRegread off s
  | .busRegwrite off v => Sys2Proof.Machine.execBusRegwrite off v s
  | .busCartread addr => Sys2Proof.Machine.execBusCartread addr s
  | .busCartwrite addr v => Sys2Proof.Machine.execBusCartwrite addr v s
  | .busProberead addr => Sys2Proof.Machine.execBusProberead addr s
  | .busProbewrite addr v => Sys2Proof.Machine.execBusProbewrite addr v s
  | .busColdreset => Sys2Proof.Machine.execBusColdreset s
  | .busWarmreset => Sys2Proof.Machine.execBusWarmreset s
  | .spiCtrl bufidx dev clk390 mode len => Sys2Proof.Machine.execSpiCtrl bufidx dev clk390 mode len s
  | .spiWrite bufidx dev clk390 len => Sys2Proof.Machine.execSpiWrite bufidx dev clk390 len s
  | .spiRead bufidx dev clk390 len => Sys2Proof.Machine.execSpiRead bufidx dev clk390 len s
  | .spiExch bufidx dev clk390 len => Sys2Proof.Machine.execSpiExch bufidx dev clk390 len s
  | .spiWaitread bufidx dev clk390 len => Sys2Proof.Machine.execSpiWaitread bufidx dev clk390 len s
  | .flRead a data => Sys2Proof.Machine.execFlRead a data s
  | .flProgram a data => Sys2Proof.Machine.execFlProgram a data s
  | .flErase4k a => Sys2Proof.Machine.execFlErase4k a s
  | .flErase32k a => Sys2Proof.Machine.execFlErase32k a s
  | .flErase64k a => Sys2Proof.Machine.execFlErase64k a s
  | .flRdsr1 => Sys2Proof.Machine.execFlRdsr1 s
  | .flRdsr2 => Sys2Proof.Machine.execFlRdsr2 s
  | .flRdsr3 => Sys2Proof.Machine.execFlRdsr3 s
  | .flMfrid => Sys2Proof.Machine.execFlMfrid s
  | .flJedecid => Sys2Proof.Machine.execFlJedecid s
  | .flUuid => Sys2Proof.Machine.execFlUuid s
  | .flWake => Sys2Proof.Machine.execFlWake s
  | .flSleep => Sys2Proof.Machine.execFlSleep s
  | .flWren => Sys2Proof.Machine.execFlWren s
  | .flWrdi => Sys2Proof.Machine.execFlWrdi s
  | .flUnknown op => Sys2Proof.Machine.execFlUnknown op s
  | .cdReset f => Sys2Proof.Machine.execCdReset f s
  | .cdInit1 f => Sys2Proof.Machine.execCdInit1 f s
  | .cdInit41 f => Sys2Proof.Machine.execCdInit41 f s
  | .cdIfcond f => Sys2Proof.Machine.execCdIfcond f s
  | .cdStop f => Sys2Proof.Machine.execCdStop f s
  | .cdSetblklen f => Sys2Proof.Machine.execCdSetblklen f s
  | .cdRead1 f => Sys2Proof.Machine.execCdRead1 f s
  | .cdReadn f => Sys2Proof.Machine.execCdReadn f s
  | .cdWrite1 f data => Sys2Proof.Machine.execCdWrite1 f data s
  | .cdWriten f data => Sys2Proof.Machine.execCdWriten f data s
  | .cdIllegal idx f => Sys2Proof.Machine.execCdIllegal idx f s
  | .mcEcho arg bytes => Sys2Proof.Machine.execMcEcho arg bytes s
  | .mcEemodeset arg => Sys2Proof.Machine.execMcEemodeset arg s
  | .mcEemodeget arg => Sys2Proof.Machine.execMcEemodeget arg s
  | .mcEeread arg addr => Sys2Proof.Machine.execMcEeread arg addr s
  | .mcUsbread arg => Sys2Proof.Machine.execMcUsbread arg s
  | .mcUsbwrite arg bytes => Sys2Proof.Machine.execMcUsbwrite arg bytes s
  | .mcUnknown op arg => Sys2Proof.Machine.execMcUnknown op arg s
  | .blSync => Sys2Proof.Machine.execBlSync s
  | .blAckbyte => Sys2Proof.Machine.execBlAckbyte s
  | .blErase dest indices => Sys2Proof.Machine.execBlErase dest indices s
  | .blWrite dest data => Sys2Proof.Machine.execBlWrite dest data s
  | .blGo dest => Sys2Proof.Machine.execBlGo dest s
  | .blNack op => Sys2Proof.Machine.execBlNack op s
  | .blParity op par => Sys2Proof.Machine.execBlParity op par s
  | .lfUnlock1 o => Sys2Proof.Machine.execLfUnlock1 o s
  | .lfUnlock2 o => Sys2Proof.Machine.execLfUnlock2 o s
  | .lfFast o => Sys2Proof.Machine.execLfFast o s
  | .lfWrite o x => Sys2Proof.Machine.execLfWrite o x s
  | .lfErase o b5 => Sys2Proof.Machine.execLfErase o b5 s
  | .lfFastwrite o x => Sys2Proof.Machine.execLfFastwrite o x s
  | .lfFastexit o => Sys2Proof.Machine.execLfFastexit o s

end Sys2Proof.Machine
end

