-- ==== Sys2Proof/Decode.lean ====
section
/-! DEFINITION. The decoder of the frames of 30_encoding.md, total on any bytes and rejecting by name; the encoder
after it; and the instruction a word of spec/opcode_table.json stands for. -/

namespace Sys2Proof

/-! ## Bus records (R62)

A record `(kind, where, value)` is five bytes: the kind in R62's order, `where` in three bytes, least significant first,
and `value`. A field the kind does not have is 0 (log entry 5). -/

/-- The address field of a bus record: bits 19:0 of its three bytes. -/
def busWhere (w0 w1 w2 : Byte) : BitVec 20 := (w2 ++ w1 ++ w0).extractLsb' 0 20

/-- Reads a bus record (R62). -/
def decodeBus (bytes : List Byte) : Except DecodeError Instr :=
  match bytes with
  | [kind, w0, w1, w2, v] =>
    if 8 ≤ kind.toNat then .error .badKind
    else if kind.toNat < 2 then
      if w1 ≠ 0 ∨ w2 ≠ 0 then .error .badWhere
      else if kind = 1 then .ok (.busRegwrite w0 v)
      else if v ≠ 0 then .error .valueNotUsed
      else .ok (.busRegread w0)
    else if kind.toNat < 6 then
      if 16 ≤ w2.toNat then .error .badWhere
      else if kind = 3 then .ok (.busCartwrite (busWhere w0 w1 w2) v)
      else if kind = 5 then .ok (.busProbewrite (busWhere w0 w1 w2) v)
      else if v ≠ 0 then .error .valueNotUsed
      else if kind = 2 then .ok (.busCartread (busWhere w0 w1 w2))
      else .ok (.busProberead (busWhere w0 w1 w2))
    else if w0 ≠ 0 ∨ w1 ≠ 0 ∨ w2 ≠ 0 then .error .badWhere
    else if v ≠ 0 then .error .valueNotUsed
    else if kind = 6 then .ok .busColdreset
    else .ok .busWarmreset
  | _ => .error .badLength

/-! ## SPI control words (R63) -/

/-- Reads an SPI control word, sent low byte first (R63); no word is illegal (R77). -/
def decodeSpi (bytes : List Byte) : Except DecodeError Instr :=
  match bytes with
  | [lo, hi] =>
    let f := spiFields (le16 lo hi)
    if f.busy = 0 then .ok (.spiCtrl f.bufidx f.dev f.clk390 f.mode f.len)
    else if f.mode = 0 then .ok (.spiWrite f.bufidx f.dev f.clk390 f.len)
    else if f.mode = 1 then .ok (.spiRead f.bufidx f.dev f.clk390 f.len)
    else if f.mode = 2 then .ok (.spiExch f.bufidx f.dev f.clk390 f.len)
    else .ok (.spiWaitread f.bufidx f.dev f.clk390 f.len)
  | _ => .error .badLength

/-! ## Flash frames (R65, R66) -/

/-- A frame of one byte (FL-1). -/
def decodeFlash1 (op : FlashOp) : Except DecodeError Instr :=
  match op with
  | .rdsr1 => .ok .flRdsr1
  | .rdsr2 => .ok .flRdsr2
  | .rdsr3 => .ok .flRdsr3
  | .mfrid => .ok .flMfrid
  | .jedecid => .ok .flJedecid
  | .uuid => .ok .flUuid
  | .wake => .ok .flWake
  | .sleep => .ok .flSleep
  | .wren => .ok .flWren
  | .wrdi => .ok .flWrdi
  | .read | .program | .erase4k | .erase32k | .erase64k => .error .badLength

/-- A frame of four bytes (FL-4), with the bytes of its data phase. -/
def decodeFlash4 (op : FlashOp) (a : BitVec 24) (data : List Byte) : Except DecodeError Instr :=
  match op, data with
  | .read, data => .ok (.flRead a data)
  | .program, data => .ok (.flProgram a data)
  | .erase4k, [] => .ok (.flErase4k a)
  | .erase32k, [] => .ok (.flErase32k a)
  | .erase64k, [] => .ok (.flErase64k a)
  | _, _ => .error .badLength

/-- Reads a flash frame (R65); a single byte outside R66 is an unknown opcode (R77). -/
def decodeFlash (bytes : List Byte) : Except DecodeError Instr :=
  match bytes with
  | [] => .error .badLength
  | b :: rest =>
    match flashOpOf b, rest with
    | none, [] => .ok (.flUnknown b)
    | some op, [] => decodeFlash1 op
    | some op, a2 :: a1 :: a0 :: data => decodeFlash4 op (be24 a2 a1 a0) data
    | _, _ => .error .badLength

/-! ## Card frames (R67, R68, R70) -/

/-- The card command of an index, with the bytes of its data phase. -/
def decodeCardOp (op : Option CardOp) (idx : BitVec 6) (f : CardArgs) (data : List Byte) : Except DecodeError Instr :=
  match op, data with
  | some .write1, data => .ok (.cdWrite1 f data)
  | some .writen, data => .ok (.cdWriten f data)
  | some .reset, [] => .ok (.cdReset f)
  | some .init1, [] => .ok (.cdInit1 f)
  | some .init41, [] => .ok (.cdInit41 f)
  | some .ifcond, [] => .ok (.cdIfcond f)
  | some .stop, [] => .ok (.cdStop f)
  | some .setblklen, [] => .ok (.cdSetblklen f)
  | some .read1, [] => .ok (.cdRead1 f)
  | some .readn, [] => .ok (.cdReadn f)
  | none, [] => .ok (.cdIllegal idx f)
  | _, _ => .error .badLength

/-- Reads a card frame: six bytes, then the data phase of a write (R67, R68). -/
def decodeCard (bytes : List Byte) : Except DecodeError Instr :=
  match bytes with
  | c0 :: a3 :: a2 :: a1 :: a0 :: crc :: data =>
    if c0.getLsbD 7 then .error .notFrameStart
    else decodeCardOp (cardOpOf (c0.extractLsb' 0 6)) (c0.extractLsb' 0 6)
      ⟨c0.extractLsb' 6 1, be32 a3 a2 a1 a0, crc⟩ data
  | _ => .error .badLength

/-! ## MCU normal-mode frames (R71, R73) -/

/-- The MCU command of an opcode, with the bytes after its command word. -/
def decodeMcuOp (op : McuOp) (arg : BitVec 9) (extra : List Byte) : Except DecodeError Instr :=
  match op with
  | .echo => .ok (.mcEcho arg extra)
  | .usbwrite => .ok (.mcUsbwrite arg extra)
  | .eeread =>
    match extra with
    | [a0, a1] => .ok (.mcEeread arg (le16 a0 a1))
    | _ => .error .badLength
  | .eemodeset => if extra = [] then .ok (.mcEemodeset arg) else .error .badLength
  | .eemodeget => if extra = [] then .ok (.mcEemodeget arg) else .error .badLength
  | .usbread => if extra = [] then .ok (.mcUsbread arg) else .error .badLength

/-- Reads an MCU normal-mode frame: the command word and the bytes its opcode asks for (R71, R73). -/
def decodeMcu (b : Board) (bytes : List Byte) : Except DecodeError Instr :=
  match bytes with
  | w0 :: w1 :: extra =>
    let op := (le16 w0 w1).extractLsb' 0 7
    let arg := (le16 w0 w1).extractLsb' 7 9
    match mcuOpOf b op with
    | none => if extra = [] then .ok (.mcUnknown op arg) else .error .badLength
    | some c => if extra.length = mcuExtra c arg then decodeMcuOp c arg extra else .error .badLength
  | _ => .error .badLength

/-! ## Bootloader frames (R74, R75) -/

/-- The operands of a bootloader command: BL-ADDR, then BL-ECOUNT and BL-EIDX, or BL-WDATA, or nothing (R74, R75). -/
def decodeBootOp (c : BootOp) (bytes : List Byte) : Except DecodeError Instr :=
  match c, bytes with
  | .go, [d3, d2, d1, d0] => .ok (.blGo (be32 d3 d2 d1 d0))
  | .write, d3 :: d2 :: d1 :: d0 :: n :: data =>
    if data.length = n.toNat then .ok (.blWrite (be32 d3 d2 d1 d0) data) else .error .badLength
  | .erase, d3 :: d2 :: d1 :: d0 :: c1 :: c0 :: idx =>
    if idx.length = 2 * (be16 c1 c0).toNat then .ok (.blErase (be32 d3 d2 d1 d0) (indexWords idx)) else .error .badLength
  | _, _ => .error .badLength

/-- Reads a bootloader frame: BL-SYNC and BL-ACKBYTE are one byte, every other begins with a BL-CMD (R74, R77). -/
def decodeBoot (bytes : List Byte) : Except DecodeError Instr :=
  match bytes with
  | [b] => if b = bootStart then .ok .blSync else if b = bootAck then .ok .blAckbyte else .error .notBootByte
  | b :: op :: par :: rest =>
    if b ≠ bootStart then .error .notBootByte
    else if par ≠ bootParity op then (if rest = [] then .ok (.blParity op par) else .error .badLength)
    else
      match bootOpOf op with
      | none => if rest = [] then .ok (.blNack op) else .error .badLength
      | some c => decodeBootOp c rest
  | _ => .error .badLength

/-! ## Legacy flash-FSM bytes (R76)

A frame is the offset in the window, least significant byte first, then the command byte and, for a write, its data byte
(log entry 5). `A0 X` is LF.FASTWRITE while the FSM is in `Fast`, LF.WRITE otherwise. -/

/-- Reads a legacy frame, `fast` saying whether the FSM is in `Fast` (R76). -/
def decodeLegacy (fast : Bool) (bytes : List Byte) : Except DecodeError Instr :=
  match bytes with
  | [o0, o1, v] =>
    let o := le16 o0 o1
    if v = 0xAA then .ok (.lfUnlock1 o)
    else if v = 0x55 then .ok (.lfUnlock2 o)
    else if v = 0x20 then .ok (.lfFast o)
    else if v = 0x10 then .ok (.lfErase o 0)
    else if v = 0x30 then .ok (.lfErase o 1)
    else if v = 0x90 then .ok (.lfFastexit o)
    else if v = 0xA0 then .error .badLength
    else .error .notLegacyByte
  | [o0, o1, v, x] =>
    if v = 0xA0 then .ok (if fast then .lfFastwrite (le16 o0 o1) x else .lfWrite (le16 o0 o1) x)
    else .error .notLegacyByte
  | _ => .error .badLength

/-- Reads a frame: the one decoder of the model. -/
def decode (b : Board) (fast : Bool) (f : Frame) : Except DecodeError Instr :=
  match f.fmt with
  | .bus => decodeBus f.bytes
  | .spicnt => decodeSpi f.bytes
  | .flash => decodeFlash f.bytes
  | .card => decodeCard f.bytes
  | .mcu => decodeMcu b f.bytes
  | .boot => decodeBoot f.bytes
  | .legacy => decodeLegacy fast f.bytes

/-! ## The encoder -/

/-- The bytes of a 20-bit `where` field, least significant first. -/
def whereBytes (a : BitVec 20) : List Byte :=
  [a.extractLsb' 0 8, a.extractLsb' 8 8, 0#4 ++ a.extractLsb' 16 4]

/-- A bus record (R62). -/
def busFrame (kind : Byte) (a : BitVec 20) (v : Byte) : Frame := ⟨.bus, kind :: (whereBytes a ++ [v])⟩

/-- An SPI control word, low byte first (R63). -/
def spiFrame (busy : BitVec 1) (bufidx : BitVec 1) (dev : BitVec 2) (clk390 : BitVec 1) (mode : BitVec 2)
    (len : BitVec 9) : Frame :=
  ⟨.spicnt, le16Bytes (spiWord ⟨busy, bufidx, dev, clk390, mode, len⟩)⟩

/-- A legacy frame: the offset, then the bytes written there (R76). -/
def legacyFrame (o : Half) (bytes : List Byte) : Frame := ⟨.legacy, le16Bytes o ++ bytes⟩

/-- The LF.ERASE byte: 0x10 or 0x30 by its free bit 5 (R76, R180). -/
def legacyEraseByte (b5 : BitVec 1) : Byte := if b5 = 0 then 0x10 else 0x30

/-- The frame of an instruction, from the encodings of 30_encoding.md. -/
def encode (b : Board) : Instr → Frame
  | .busRegread off => busFrame 0 (0#12 ++ off) 0
  | .busRegwrite off v => busFrame 1 (0#12 ++ off) v
  | .busCartread a => busFrame 2 a 0
  | .busCartwrite a v => busFrame 3 a v
  | .busProberead a => busFrame 4 a 0
  | .busProbewrite a v => busFrame 5 a v
  | .busColdreset => busFrame 6 0 0
  | .busWarmreset => busFrame 7 0 0
  | .spiCtrl bufidx dev clk390 mode len => spiFrame 0 bufidx dev clk390 mode len
  | .spiWrite bufidx dev clk390 len => spiFrame 1 bufidx dev clk390 0 len
  | .spiRead bufidx dev clk390 len => spiFrame 1 bufidx dev clk390 1 len
  | .spiExch bufidx dev clk390 len => spiFrame 1 bufidx dev clk390 2 len
  | .spiWaitread bufidx dev clk390 len => spiFrame 1 bufidx dev clk390 3 len
  | .flRead a data => ⟨.flash, flashFrame4 .read a ++ data⟩
  | .flProgram a data => ⟨.flash, flashFrame4 .program a ++ data⟩
  | .flErase4k a => ⟨.flash, flashFrame4 .erase4k a⟩
  | .flErase32k a => ⟨.flash, flashFrame4 .erase32k a⟩
  | .flErase64k a => ⟨.flash, flashFrame4 .erase64k a⟩
  | .flRdsr1 => ⟨.flash, [flashCode .rdsr1]⟩
  | .flRdsr2 => ⟨.flash, [flashCode .rdsr2]⟩
  | .flRdsr3 => ⟨.flash, [flashCode .rdsr3]⟩
  | .flMfrid => ⟨.flash, [flashCode .mfrid]⟩
  | .flJedecid => ⟨.flash, [flashCode .jedecid]⟩
  | .flUuid => ⟨.flash, [flashCode .uuid]⟩
  | .flWake => ⟨.flash, [flashCode .wake]⟩
  | .flSleep => ⟨.flash, [flashCode .sleep]⟩
  | .flWren => ⟨.flash, [flashCode .wren]⟩
  | .flWrdi => ⟨.flash, [flashCode .wrdi]⟩
  | .flUnknown op => ⟨.flash, [op]⟩
  | .cdReset f => ⟨.card, cardFrame (cardIndex .reset) f⟩
  | .cdInit1 f => ⟨.card, cardFrame (cardIndex .init1) f⟩
  | .cdInit41 f => ⟨.card, cardFrame (cardIndex .init41) f⟩
  | .cdIfcond f => ⟨.card, cardFrame (cardIndex .ifcond) f⟩
  | .cdStop f => ⟨.card, cardFrame (cardIndex .stop) f⟩
  | .cdSetblklen f => ⟨.card, cardFrame (cardIndex .setblklen) f⟩
  | .cdRead1 f => ⟨.card, cardFrame (cardIndex .read1) f⟩
  | .cdReadn f => ⟨.card, cardFrame (cardIndex .readn) f⟩
  | .cdWrite1 f data => ⟨.card, cardFrame (cardIndex .write1) f ++ data⟩
  | .cdWriten f data => ⟨.card, cardFrame (cardIndex .writen) f ++ data⟩
  | .cdIllegal idx f => ⟨.card, cardFrame idx f⟩
  | .mcEcho arg bytes => ⟨.mcu, mcuFrame (mcuCode b .echo) arg ++ bytes⟩
  | .mcEemodeset arg => ⟨.mcu, mcuFrame (mcuCode b .eemodeset) arg⟩
  | .mcEemodeget arg => ⟨.mcu, mcuFrame (mcuCode b .eemodeget) arg⟩
  | .mcEeread arg addr => ⟨.mcu, mcuFrame (mcuCode b .eeread) arg ++ le16Bytes addr⟩
  | .mcUsbread arg => ⟨.mcu, mcuFrame (mcuCode b .usbread) arg⟩
  | .mcUsbwrite arg bytes => ⟨.mcu, mcuFrame (mcuCode b .usbwrite) arg ++ bytes⟩
  | .mcUnknown op arg => ⟨.mcu, mcuFrame op arg⟩
  | .blSync => ⟨.boot, [bootStart]⟩
  | .blAckbyte => ⟨.boot, [bootAck]⟩
  | .blErase dest idx =>
    ⟨.boot, bootFrame (bootCode .erase) ++ be32Bytes dest ++ be16Bytes (BitVec.ofNat 16 idx.length) ++ indexBytes idx⟩
  | .blWrite dest data =>
    ⟨.boot, bootFrame (bootCode .write) ++ be32Bytes dest ++ [BitVec.ofNat 8 data.length] ++ data⟩
  | .blGo dest => ⟨.boot, bootFrame (bootCode .go) ++ be32Bytes dest⟩
  | .blNack op => ⟨.boot, bootFrame op⟩
  | .blParity op par => ⟨.boot, [bootStart, op, par]⟩
  | .lfUnlock1 o => legacyFrame o [0xAA]
  | .lfUnlock2 o => legacyFrame o [0x55]
  | .lfFast o => legacyFrame o [0x20]
  | .lfWrite o x => legacyFrame o [0xA0, x]
  | .lfErase o b5 => legacyFrame o [legacyEraseByte b5]
  | .lfFastwrite o x => legacyFrame o [0xA0, x]
  | .lfFastexit o => legacyFrame o [0x90]

/-! ## The words of spec/opcode_table.json -/

/-- Whether a byte starts a card frame of R70. -/
def startsCard (c : Byte) : Bool := !c.getLsbD 7 && (cardOpOf (c.extractLsb' 0 6)).isSome

/-- The frame of a one-byte table word, its operand bytes zero: a flash opcode (R66), else a card command byte (R70),
else a bootloader or legacy byte (R74, R76), else an unknown flash opcode (R113). The table's formats share byte values:
the order is log entry 6. -/
def byteFrame (c : Byte) : Frame :=
  match flashOpOf c with
  | some op => ⟨.flash, c :: (if flashAddressed op then [0, 0, 0] else [])⟩
  | none =>
    if startsCard c then ⟨.card, [c, 0, 0, 0, 0, 0]⟩
    else if c = bootStart ∨ c = bootAck then ⟨.boot, [c]⟩
    else if c = 0xA0 then ⟨.legacy, [0, 0, c, 0]⟩
    else if c = 0xAA ∨ c = 0x55 ∨ c = 0x30 then ⟨.legacy, [0, 0, c]⟩
    else ⟨.flash, [c]⟩

/-- The operand bytes of a bootloader command, all zero (R75): BL-ADDR, and a zero count or length. -/
def bootZeros (op : Byte) (par : Byte) : List Byte :=
  if par ≠ bootParity op then []
  else
    match bootOpOf op with
    | none => []
    | some .erase => [0, 0, 0, 0, 0, 0]
    | some .write => [0, 0, 0, 0, 0]
    | some .go => [0, 0, 0, 0]

/-- The frame of a table word of `nbits` bits. A 16-bit word is an SPI control word (R63); a 24-bit word is a BL-CMD,
which the table writes as one number with its first byte most significant (R74; log entry 6); an 8-bit word is a first
byte. No other width stands in the table as a number: it gives an empty frame, which the decoder refuses. -/
def tableFrame (nbits w : Nat) : Frame :=
  if nbits = 16 then ⟨.spicnt, le16Bytes (BitVec.ofNat 16 w)⟩
  else if nbits = 24 then
    let b0 := BitVec.ofNat 8 (w / 65536)
    let b1 := BitVec.ofNat 8 (w / 256)
    let b2 := BitVec.ofNat 8 w
    ⟨.boot, [b0, b1, b2] ++ bootZeros b1 b2⟩
  else if nbits = 8 then byteFrame (BitVec.ofNat 8 w)
  else ⟨.bus, []⟩

/-- The instruction the decoder reads from a table word, every operand byte above it zero. -/
def decodeTableWord (nbits w : Nat) : Option Instr :=
  match decode Config.board false (tableFrame nbits w) with
  | .ok i => some i
  | .error _ => none

end Sys2Proof
end

