-- ==== Sys2Proof/Machine/Fetch.lean ====
section
/-! DEFINITION. How the next operation reaches the block. The block fetches no instructions (10_state.md R20): the
console bus issues whole operations (00_scope.md R7, R8), and `script` holds the ones still to come (log entry 4). -/

namespace Sys2Proof.Machine

/-- What the console issues next, and the state in which it runs: nothing, an operation, or a frame that is none. -/
inductive Issued where
  | nothing
  | operation (i : Instr) (s : State)
  | malformed (e : DecodeError)
  deriving DecidableEq, Repr

/-- Takes the next frame off the script and decodes it; the operation runs with the frame taken. -/
def issue (s : State) : Issued :=
  match s.script with
  | [] => .nothing
  | f :: rest =>
    match decode s.board (s.fsm == .fast) f with
    | .ok i => .operation i (s.setScript rest)
    | .error e => .malformed e

/-- The state whose next frame is `f`. -/
def issueNext (s : State) (f : Frame) : State := s.setScript (f :: s.script)

end Sys2Proof.Machine
end

