-- ==== Sys2Proof/Machine/Step.lean ====
section
/-! DEFINITION. One step of the machine: the next operation the console issues, run to completion (00_scope.md R7). -/

namespace Sys2Proof.Machine

/-- One step (R7, R8): nothing happens while nothing is issued (R185). -/
def step (s : State) : Host.Outcome State Fault Refusal :=
  match issue s with
  | .nothing => idle s
  | .operation i s' => exec i s'
  | .malformed e => .refused (.undecodable e)

/-- `s` with the frame of a table word as the next operation of the console. -/
def State.withFetchWord (s : State) (nbits w : Nat) : State := issueNext s (tableFrame nbits w)

end Sys2Proof.Machine
end

