-- ==== Sys2Proof/Safety.lean ====
section
/-! DEFINITION. The words of the claims: the forms a run of the block keeps, a halted block, the states in which a
register offset answers or a peripheral stands ready for a command, and what a store leaves of memory. -/

namespace Sys2Proof.Machine

/-! ## Forms every run keeps -/

/-- Every byte array has its one form. -/
def Arrays.wf (a : Arrays) : Prop := ∀ r, (a.get r).wf = true

/-- `0 <= count <= fifo_cap` for every FIFO (R31). -/
def State.fifosBounded (s : State) : Prop := ∀ d w, (s.fifo d w).length ≤ s.board.fifoCap

/-- The flash between two operations (R109, R112, R128, R131): a pending command is an unfinished FL-4 frame; no frame is
pending in a data mode or asleep; a sleeping flash is idle; nothing but WEL is ever set in the status registers. -/
structure FlashState.Form (f : FlashState) : Prop where
  pending : ∀ op rest, f.cmd = op :: rest → op ∈ [0x03#8, 0x02#8, 0x20#8, 0x52#8, 0xD8#8]
  short : f.cmd.length ≤ 3
  dataMode : f.mode ≠ .idle → f.cmd = []
  asleep : f.sleeping = true → f.mode = .idle ∧ f.cmd = []
  onlyWel : f.sr0 &&& 0xFD = 0
  sr1Zero : f.sr1 = 0
  sr2Zero : f.sr2 = 0

/-- The card between two operations (R133, R137, R139, R140): a pending frame has at most five bytes and starts with bit 7
clear; the latched status is 0x00 or 0x01; a capture has no frame pending and its place in the block is in range. -/
structure CardState.Form (c : CardState) : Prop where
  short : c.cmd.length ≤ 5
  framed : ∀ b rest, c.cmd = b :: rest → b.getLsbD 7 = false
  status : c.status = 0x00 ∨ c.status = 0x01
  capturing : c.wcap ≠ .none → c.cmd = []
  notCapturing : c.wcap = .none → c.wphase = .waitToken
  block : c.wblock.length = 512
  dataPhase : ∀ k, c.wphase = .data k → k < 512
  crcPhase : ∀ k, c.wphase = .crc k → k < 2

/-- The MCU between two operations (R161 to R168): outside boot mode the bootloader is not started, waits for nothing and
has no command; a bootloader without a command is at step 0; the steps are 0 to 3; the EEPROM keeps its size. -/
structure McuState.Form (b : Board) (m : McuState) : Prop where
  normal : m.bootMode = false → m.started = false ∧ m.waitingAck = false ∧ m.blCmd = none
  unstarted : m.started = false → m.blCmd = none ∧ m.waitingAck = false
  idle : m.blCmd = none → m.step = 0
  steps : m.step ≤ 3
  eepromSize : m.eeprom.length = b.eepromWords

/-- The three peripherals between two operations. -/
structure State.peripheralsFormed (s : State) : Prop where
  flash : s.flash.Form
  card : s.card.Form
  mcu : s.mcu.Form s.board

/-! ## Faults -/

/-- The block has taken its fault (R181). -/
def State.halted (s : State) : Prop := s.fault ≠ none

/-- A run of `k` steps that ends in a next state without the fault: the safe runs of the block. -/
def safeRun (k : Nat) (s : State) : Prop := ∃ t, Host.Core.run Sys2Proof.core k s = .next t ∧ ¬ t.halted

/-- The block takes operations, on a board that meets the constraints of R12 and R13. -/
structure State.Running (s : State) : Prop where
  noFault : s.fault = none
  board : s.board.wf = true

/-! ## Register offsets (R13, R80) -/

/-- The offset is forwarded to the RTC port `k`; the first of two equal offsets counts (log entry 12). -/
def State.rtcAt (s : State) (off : Byte) (k : Fin 2) : Prop :=
  s.regs.gateOpen s.board.rtcGate = true ∧
    (if k = 0 then off = s.board.rtcPort0 else off = s.board.rtcPort1 ∧ off ≠ s.board.rtcPort0)

/-- The offset reaches a register byte: an entry of `reg_map` whose gate holds, not forwarded to the RTC. -/
def State.portAt (s : State) (off : Byte) (p : RegPort) : Prop :=
  (∃ g, (⟨off, p, g⟩ : RegEntry) ∈ s.board.regMap ∧ s.regs.gateOpen g = true) ∧ ∀ k, ¬ s.rtcAt off k

/-- The block does not answer the offset. -/
def State.unanswered (s : State) (off : Byte) : Prop :=
  (∀ e ∈ s.board.regMap, e.off = off → s.regs.gateOpen e.gate = false) ∧ ∀ k, ¬ s.rtcAt off k

/-! ## What a store leaves of memory -/

/-- Every byte of every array reads in `t` as in `s`, but for the bytes `stored` gives for offsets of the array `r`. -/
def State.storesOnly (s t : State) (r : Region) (stored : Nat → Option Byte) : Prop :=
  ∀ r' a, t.readCell r' a = if r' = r then (stored a).getD (s.readCell r a) else s.readCell r' a

/-- Every byte of every array reads in `t` as in `s`, but that the byte at `place`, if there is one, reads `v`. -/
def State.storesAt (s t : State) (place : Option (Region × Nat)) (v : Byte) : Prop :=
  ∀ r a, t.readCell r a = if place = some (r, a) then v else s.readCell r a

/-- The array and offset a cartridge address reaches, or none: unmapped, or no byte (R43, R50, R51). -/
def State.placeOf (s : State) (addr : BitVec 20) (isWrite isProbe : Bool) : Option (Region × Nat) :=
  (resolve s.board s.regs addr isWrite isProbe).bind (Loc.cell s.board)

/-- What a cartridge address reads: 0xFF where it reaches no byte (R43, R50, R51). -/
def State.byteThrough (s : State) (addr : BitVec 20) (isProbe : Bool) : Byte :=
  match s.placeOf addr false isProbe with
  | some (r, a) => s.readCell r a
  | none => 0xFF

/-! ## Ready peripherals -/

/-- The engine exchanges bytes with a peripheral: a `RegWrite` reaches the high byte of SPI_CNT (R80, R96) and is not
rejected (R94), the engine is clocked (R97), and DEV selects the peripheral (R99). -/
structure Exchanging (s : State) (d : Periph) : Prop where
  reached : ∃ off, s.portAt off (.spiCnt .hi)
  notBusy : s.regs.spiCnt.getLsbD 15 = false
  clocked : s.regs.spiCnt.getLsbD 11 = true ∨ s.regs.powCnt.getLsbD s.board.powClock = true
  selected : s.regs.spiCnt.extractLsb' 12 2 = periphDev d

/-- The flash is selected and takes a command: idle, no frame pending (R65, R99, R108). -/
structure FlashIdle (s : State) : Prop extends State.Running s, Exchanging s .flash where
  idle : s.flash.mode = .idle
  noFrame : s.flash.cmd = []

/-- The flash takes every command: idle and awake (R112). -/
structure FlashReady (s : State) : Prop extends FlashIdle s where
  awake : s.flash.sleeping = false

/-- The card scans for a command: no capture, no frame pending (R132, R133). -/
structure CardIdle (s : State) : Prop where
  notCapturing : s.card.wcap = .none
  noFrame : s.card.cmd = []

/-- The card is selected and scans for a command, no refill due at once; its reply FIFO is in bounds (R31, R99, R136). -/
structure CardReady (s : State) : Prop extends State.Running s, Exchanging s .card, CardIdle s where
  noRefill : s.card.streaming = true → s.card.reply ≠ []
  bounded : s.card.reply.length ≤ s.board.fifoCap

/-- The MCU is selected, in normal mode, with no command pending (R99, R153). -/
structure McuReady (s : State) : Prop extends State.Running s, Exchanging s .mcu where
  normal : s.mcu.bootMode = false
  noFrame : s.mcu.cmd = []

/-- The MCU is selected and in boot mode, its reply FIFO in bounds (R31, R99, R161). -/
structure BootMode (s : State) : Prop extends State.Running s, Exchanging s .mcu where
  boot : s.mcu.bootMode = true
  bounded : s.mcu.reply.length ≤ s.board.fifoCap

/-- The bootloader is started, between two commands, nothing to acknowledge (R164). -/
structure BootReady (s : State) : Prop extends BootMode s where
  started : s.mcu.started = true
  settled : s.mcu.waitingAck = false
  between : s.mcu.blCmd = none
  noFrame : s.mcu.cmd = []

/-- The snoop is active (R81). -/
structure SnoopActive (s : State) : Prop where
  noFault : s.fault = none
  fsmOn : s.regs.emuCnt.getLsbD s.board.emuFlashFsm = true
  flashEn : s.regs.flashEn.getLsbD 0 = true

/-! ## SPI transfers -/

/-- The engine runs the control word that a row of the SPICNT format writes: `RegWrite`s reach both bytes of SPI_CNT (R79,
R80), it is not busy (R94), and it is clocked by the word's own CLK390 or by POW_CNT (R97). -/
structure EngineReady (s : State) (clk390 : BitVec 1) : Prop extends State.Running s where
  low : ∃ off, s.portAt off (.spiCnt .lo)
  high : ∃ off, s.portAt off (.spiCnt .hi)
  notBusy : s.regs.spiCnt.getLsbD 15 = false
  clocked : clk390 = 1 ∨ s.regs.powCnt.getLsbD s.board.powClock = true

/-- The flash when SPI_CNT is written with a device: reset if the device changes away from flash (R98, R114). -/
def State.flashSelected (s : State) (dev : BitVec 2) : FlashState :=
  if s.regs.spiCnt.extractLsb' 12 2 = 2 ∧ dev ≠ 2 then
    { s.flash with mode := .idle, cursor := 0, cmd := [], reply := [] }
  else s.flash

/-- The state in which a transfer with the control word `w` and device `dev` begins (R96). -/
def State.transferStart (s : State) (w : Half) (dev : BitVec 2) : State :=
  { s with regs := { s.regs with spiCnt := w }, flash := s.flashSelected dev, out := [] }

end Sys2Proof.Machine
end

