-- ==== Sys2Proof/WellFormed.lean ====
section
/-! DEFINITION. Which terms of `Instr` are operations of 30_encoding.md: operands that fit their frame, and the
"any other" rows (R77) only with an opcode outside their map. -/

namespace Sys2Proof

/-- An instruction whose operands its frame can carry, on a board with the parameters `b`. -/
def Instr.wf (b : Board) : Instr → Bool
  | .busRegread _ => true
  | .busRegwrite _ _ => true
  | .busCartread _ => true
  | .busCartwrite _ _ => true
  | .busProberead _ => true
  | .busProbewrite _ _ => true
  | .busColdreset => true
  | .busWarmreset => true
  | .spiCtrl _ _ _ _ _ => true
  | .spiWrite _ _ _ _ => true
  | .spiRead _ _ _ _ => true
  | .spiExch _ _ _ _ => true
  | .spiWaitread _ _ _ _ => true
  | .flRead _ _ => true
  | .flProgram _ _ => true
  | .flErase4k _ => true
  | .flErase32k _ => true
  | .flErase64k _ => true
  | .flRdsr1 => true
  | .flRdsr2 => true
  | .flRdsr3 => true
  | .flMfrid => true
  | .flJedecid => true
  | .flUuid => true
  | .flWake => true
  | .flSleep => true
  | .flWren => true
  | .flWrdi => true
  | .flUnknown op => (flashOpOf op).isNone
  | .cdReset _ => true
  | .cdInit1 _ => true
  | .cdInit41 _ => true
  | .cdIfcond _ => true
  | .cdStop _ => true
  | .cdSetblklen _ => true
  | .cdRead1 _ => true
  | .cdReadn _ => true
  | .cdWrite1 _ _ => true
  | .cdWriten _ _ => true
  | .cdIllegal idx _ => (cardOpOf idx).isNone
  | .mcEcho arg bytes => bytes.length == countOf arg
  | .mcEemodeset _ => true
  | .mcEemodeget _ => true
  | .mcEeread _ _ => true
  | .mcUsbread _ => true
  | .mcUsbwrite arg bytes => bytes.length == countOf arg
  | .mcUnknown op _ => (mcuOpOf b op).isNone
  | .blSync => true
  | .blAckbyte => true
  | .blErase _ indices => decide (indices.length < 65536)
  | .blWrite _ data => decide (data.length < 256)
  | .blGo _ => true
  | .blNack op => (bootOpOf op).isNone
  | .blParity op par => par != bootParity op
  | .lfUnlock1 _ => true
  | .lfUnlock2 _ => true
  | .lfFast _ => true
  | .lfWrite _ _ => true
  | .lfErase _ _ => true
  | .lfFastwrite _ _ => true
  | .lfFastexit _ => true

/-- Whether an instruction can be read from its frame while the legacy FSM is (`fast = true`) or is not in `Fast`:
the bytes `A0 X` are LF.FASTWRITE in `Fast` and LF.WRITE otherwise (R76). Every other frame means one thing. -/
def Instr.fitsFast (fast : Bool) : Instr → Bool
  | .lfWrite _ _ => !fast
  | .lfFastwrite _ _ => fast
  | _ => true

end Sys2Proof
end

