-- ==== Sys2Proof/Certificates/Slice0/Obligations.lean ====
section
/-! DEFINITION. The statements for the provers. Each docstring names the rules of spec/ the statement formalises. A
statement about an operation gives the whole next state, so what it does not name is unchanged. That a row of a
peripheral's format (FL, CD, MC, BL) is its bytes sent on the SPI bus to the device SPI_CNT selects, one after another, and
nothing where no transfer can run, is the model's choice (log entry 4); every statement under Flash, Card and MCU rests on
it. -/

open Sys2Proof Sys2Proof.Machine

/-! ## Encodings and the step -/

/-- Decoding the frame of a well-formed instruction gives the instruction back, with every operand at every value its
frame carries (R62, R63, R65, R67, R71, R74, R76). `A0 X` reads as LF.FASTWRITE in `Fast` and as LF.WRITE otherwise. The
byte layout of bus records and legacy frames is the model's (log entry 5). -/
def Obligations.EveryEncodingDecodesBack : Prop :=
  ∀ (b : Board) (fast : Bool) (i : Instr), b.wf = true → i.wf b = true → i.fitsFast fast = true →
    decode b fast (encode b i) = .ok i

/-- A frame that decodes is the frame of the instruction it decodes to, and that instruction is well formed: no two frames
mean the same instruction, and no bit of a frame is dropped. The byte layout of bus records and legacy frames is the
model's (log entry 5). -/
def Obligations.DecodedFramesAreCanonical : Prop :=
  ∀ (b : Board) (fast : Bool) (f : Frame) (i : Instr), decode b fast f = .ok i →
    i.wf b = true ∧ i.fitsFast fast = true ∧ encode b i = f

/-- Frames written out from 30_encoding.md decode to the instruction they stand for, on every board. The layout of the two
legacy frames (the offset low byte first, `A0 X` read by the state of the FSM) is the model's (log entry 5). -/
def Obligations.WrittenOutFramesDecode : Prop :=
  ∀ b : Board,
    decode b false ⟨.spicnt, [0x01, 0x82]⟩ = .ok (.spiRead 0 0 0 1) ∧
    decode b false ⟨.spicnt, [0x00, 0xD6]⟩ = .ok (.spiWaitread 1 1 0 0) ∧
    decode b false ⟨.flash, [0x03, 0x00, 0x12, 0x34]⟩ = .ok (.flRead 0x001234 []) ∧
    decode b false ⟨.flash, [0x9F]⟩ = .ok .flJedecid ∧
    decode b false ⟨.card, [0x51, 0x00, 0x00, 0x00, 0x10, 0x55]⟩ = .ok (.cdRead1 ⟨1, 0x10, 0x55⟩) ∧
    decode b false ⟨.card, [0x69, 0x40, 0x00, 0x00, 0x00, 0x77]⟩ = .ok (.cdInit41 ⟨1, 0x40000000, 0x77⟩) ∧
    decode b false ⟨.boot, [0x5A, 0x21, 0xDE, 0x08, 0x00, 0x00, 0x00]⟩ = .ok (.blGo 0x08000000) ∧
    decode b false ⟨.boot, [0x79]⟩ = .ok .blAckbyte ∧
    decode b true ⟨.legacy, [0x10, 0x00, 0xA0, 0x5C]⟩ = .ok (.lfFastwrite 0x0010 0x5C) ∧
    decode b false ⟨.legacy, [0x10, 0x00, 0xA0, 0x5C]⟩ = .ok (.lfWrite 0x0010 0x5C)

/-- A step takes the next frame of the script and runs the instruction it decodes to; nothing else happens around it
(R7, R8; the script is the model's input, log entry 4). -/
def Obligations.StepRunsTheDecodedOperation : Prop :=
  ∀ (s : State) (f : Frame) (rest : List Frame) (i : Instr), s.script = f :: rest →
    decode s.board (decide (s.fsm = .fast)) f = .ok i → step s = exec i { s with script := rest }

/-- A halted block refuses every operation, resets included, and reports its fault reason (R181, R185, R197). A step with
nothing issued answers the fault (log entry 11) or changes nothing (log entry 4): the empty script is the model's, no notion
of the spec. -/
def Obligations.HaltedBlockRefusesEveryOperation : Prop :=
  (∀ (i : Instr) (s : State) (r : Fault), s.fault = some r → exec i s = .fault r) ∧
  (∀ (s : State) (r : Fault), s.fault = some r → s.script = [] → step s = .fault r) ∧
  (∀ s : State, s.fault = none → s.script = [] → step s = .next s)

/-! ## Registers -/

/-- RegWrite of every port that only stores: 8-bit registers, the bytes of a bank register and of SEG_MASK, and a narrow
port, which clears bits 15:8 (R23, R83). -/
def Obligations.RegisterWriteStoresItsByte : Prop :=
  ∀ (s : State) (off v : Byte), s.Running →
    (s.portAt off .flashEn →
      exec (.busRegwrite off v) s = .next { s with regs := { s.regs with flashEn := v }, out := [] }) ∧
    (s.portAt off .bankLinear →
      exec (.busRegwrite off v) s = .next { s with regs := { s.regs with bankLinear := v }, out := [] }) ∧
    (s.portAt off .emuCnt →
      exec (.busRegwrite off v) s = .next { s with regs := { s.regs with emuCnt := v }, out := [] }) ∧
    (s.portAt off .warmboot →
      exec (.busRegwrite off v) s = .next { s with regs := { s.regs with warmboot := v }, out := [] }) ∧
    (s.portAt off (.segMask .lo) →
      exec (.busRegwrite off v) s =
        .next { s with regs := { s.regs with segMask := (s.regs.segMask &&& 0xFF00) ||| v.setWidth 16 }, out := [] }) ∧
    (s.portAt off (.segMask .hi) →
      exec (.busRegwrite off v) s =
        .next { s with
          regs := { s.regs with segMask := (s.regs.segMask &&& 0x00FF) ||| (v.setWidth 16 <<< 8) }, out := [] }) ∧
    (∀ k, s.portAt off (.bank k .narrow) →
      exec (.busRegwrite off v) s = .next { s with regs := s.regs.setBank k (v.setWidth 16), out := [] }) ∧
    (∀ k, s.portAt off (.bank k .lo) →
      exec (.busRegwrite off v) s =
        .next { s with regs := s.regs.setBank k ((s.regs.bank k &&& 0xFF00) ||| v.setWidth 16), out := [] }) ∧
    (∀ k, s.portAt off (.bank k .hi) →
      exec (.busRegwrite off v) s =
        .next { s with regs := s.regs.setBank k ((s.regs.bank k &&& 0x00FF) ||| (v.setWidth 16 <<< 8)), out := [] })

/-- RegRead returns the byte of its port: bits 15:8 at a hi port, bits 7:0 elsewhere, SPI_CNT with BUSY as it stands; it
changes nothing but what is returned (R82). -/
def Obligations.RegisterReadReturnsItsByte : Prop :=
  ∀ (s : State) (off : Byte), s.Running →
    (s.portAt off .flashEn → exec (.busRegread off) s = .next { s with out := [s.regs.flashEn] }) ∧
    (s.portAt off .bankLinear → exec (.busRegread off) s = .next { s with out := [s.regs.bankLinear] }) ∧
    (s.portAt off .powCnt → exec (.busRegread off) s = .next { s with out := [s.regs.powCnt] }) ∧
    (s.portAt off .emuCnt → exec (.busRegread off) s = .next { s with out := [s.regs.emuCnt] }) ∧
    (s.portAt off .warmboot → exec (.busRegread off) s = .next { s with out := [s.regs.warmboot] }) ∧
    (s.portAt off (.spiCnt .lo) →
      exec (.busRegread off) s = .next { s with out := [s.regs.spiCnt.extractLsb' 0 8] }) ∧
    (s.portAt off (.spiCnt .hi) →
      exec (.busRegread off) s = .next { s with out := [s.regs.spiCnt.extractLsb' 8 8] }) ∧
    (s.portAt off (.segMask .lo) →
      exec (.busRegread off) s = .next { s with out := [s.regs.segMask.extractLsb' 0 8] }) ∧
    (s.portAt off (.segMask .hi) →
      exec (.busRegread off) s = .next { s with out := [s.regs.segMask.extractLsb' 8 8] }) ∧
    (∀ k, s.portAt off (.bank k .lo) ∨ s.portAt off (.bank k .narrow) →
      exec (.busRegread off) s = .next { s with out := [(s.regs.bank k).extractLsb' 0 8] }) ∧
    (∀ k, s.portAt off (.bank k .hi) →
      exec (.busRegread off) s = .next { s with out := [(s.regs.bank k).extractLsb' 8 8] })

/-- BOARD_REV reads as its constant and ignores writes (R29). -/
def Obligations.BoardRevisionIsReadOnly : Prop :=
  ∀ (s : State) (off v : Byte), s.Running → s.portAt off .boardRev →
    exec (.busRegread off) s = .next { s with out := [s.board.boardRevValue] } ∧
    exec (.busRegwrite off v) s = .next { s with out := [] }

/-- A forwarded offset calls the RTC oracle and touches no other state: a read returns a draw (whatever it is), a write is
recorded. An offset the block does not answer returns nothing and ignores writes (R10, R82, R83, R85, R184). Where the two
RTC offsets are equal, that the first one counts is the model's choice (log entry 12). -/
def Obligations.OffsetsOutsideTheRegisterMap : Prop :=
  ∀ (s : State) (off v : Byte), s.Running →
    (∀ k, s.rtcAt off k →
      exec (.busRegread off) s = .next { s with out := [Config.rtcRead s.draws k], draws := s.draws + 1 } ∧
      exec (.busRegwrite off v) s = .next { s with rtcLog := s.rtcLog ++ [⟨k, v⟩], out := [] }) ∧
    (s.unanswered off →
      exec (.busRegread off) s = .next { s with out := [] } ∧
      exec (.busRegwrite off v) s = .next { s with out := [] })

/-- A POW_CNT write stores the byte; if its mcu_reset bit is 1, the MCU's transient state is reset and `boot_mode` takes
the mcu_boot bit; EEPROM and its mode byte are kept (R84, R151). -/
def Obligations.PowerWriteResetsTheMcu : Prop :=
  ∀ (s : State) (off v : Byte), s.Running → s.portAt off .powCnt →
    exec (.busRegwrite off v) s = .next { s with
      regs := { s.regs with powCnt := v }
      mcu :=
        if v.getLsbD s.board.powMcuReset = true then
          { bootMode := v.getLsbD s.board.powMcuBoot
            cmd := [], reply := [], started := false, waitingAck := false, blCmd := none, step := 0,
            eraseCount := 0, dest := 0, need := 0, eeprom := s.mcu.eeprom, eepromMode := s.mcu.eepromMode }
        else s.mcu
      out := [] }

/-! ## SPI_CNT -/

/-- While BUSY is 1 a write of either byte of SPI_CNT is rejected and logged, and nothing else changes (R94). A control word
of whatever row is two such writes (R63, R79), so it leaves two log entries (log entry 19), and a row of a peripheral's
format sends nothing (log entry 4). -/
def Obligations.BusyEngineRejectsWrites : Prop :=
  ∀ s : State, s.Running → s.regs.spiCnt.getLsbD 15 = true →
    (∀ off v p, s.portAt off (.spiCnt p) →
      exec (.busRegwrite off v) s = .next { s with log := s.log ++ [.busyWriteConflict], out := [] }) ∧
    ((∃ off, s.portAt off (.spiCnt .lo)) → (∃ off, s.portAt off (.spiCnt .hi)) →
      ∀ i, (encode s.board i).fmt = .spicnt →
        exec i s = .next { s with log := s.log ++ [.busyWriteConflict, .busyWriteConflict], out := [] }) ∧
    (∀ i, (encode s.board i).fmt ∈ [Format.flash, .card, .mcu, .boot] → exec i s = .next { s with out := [] })

/-- A write of the low byte only stores it (R95). Un-clocked, a write of the high byte, or of a whole control word as its two
writes (R63, R79; log entry 19), only stores it too, BUSY included: no exchange happens and no peripheral is reset (R97). A
row of a peripheral's format sends nothing to an engine that CLK390 and POW_CNT leave un-clocked (log entry 4). -/
def Obligations.LowByteAndUnclockedWritesOnlyStore : Prop :=
  ∀ s : State, s.Running → s.regs.spiCnt.getLsbD 15 = false →
    (∀ off v, s.portAt off (.spiCnt .lo) →
      exec (.busRegwrite off v) s =
        .next { s with regs := { s.regs with spiCnt := s.regs.spiCnt.extractLsb' 8 8 ++ v }, out := [] }) ∧
    (s.regs.powCnt.getLsbD s.board.powClock = false →
      (∀ off v, s.portAt off (.spiCnt .hi) → v.getLsbD 3 = false →
        exec (.busRegwrite off v) s =
          .next { s with regs := { s.regs with spiCnt := v ++ s.regs.spiCnt.extractLsb' 0 8 }, out := [] }) ∧
      ((∃ off, s.portAt off (.spiCnt .lo)) → (∃ off, s.portAt off (.spiCnt .hi)) →
        ∀ i lo hi, encode s.board i = ⟨.spicnt, [lo, hi]⟩ → hi.getLsbD 3 = false →
          exec i s = .next { s with regs := { s.regs with spiCnt := hi ++ lo }, out := [] }) ∧
      (s.regs.spiCnt.getLsbD 11 = false →
        ∀ i, (encode s.board i).fmt ∈ [Format.flash, .card, .mcu, .boot] → exec i s = .next { s with out := [] }))

/-- SPI.CTRL on a clocked engine stores the control word with BUSY = 0 and makes no exchange; changing DEV away from flash
resets the flash's transient state, and no other change of device resets anything (R96, R98, R114). -/
def Obligations.ControlWordSelectsTheDevice : Prop :=
  ∀ (s : State) (bufidx : BitVec 1) (dev : BitVec 2) (clk390 : BitVec 1) (mode : BitVec 2) (len : BitVec 9),
    EngineReady s clk390 →
    exec (.spiCtrl bufidx dev clk390 mode len) s =
      .next (s.transferStart (0#1 ++ bufidx ++ dev ++ clk390 ++ mode ++ len) dev)

/-- A row of the SPICNT format is the RegWrite of its low byte, then the RegWrite of its high byte, at the offsets of
SPI_CNT's two bytes (R63, R79). Where no offset reaches SPI_CNT it writes nothing, and where none reaches the high byte a
row of a peripheral's format sends nothing: no operation of R8 could (log entries 4 and 19). -/
def Obligations.ControlWordIsTwoRegisterWrites : Prop :=
  (∀ (s : State) (offLo offHi lo hi : Byte) (i : Instr), s.Running →
    s.portAt offLo (.spiCnt .lo) → s.portAt offHi (.spiCnt .hi) → encode s.board i = ⟨.spicnt, [lo, hi]⟩ →
    ∃ s1 t, exec (.busRegwrite offLo lo) s = .next s1 ∧ exec (.busRegwrite offHi hi) s1 = .next t ∧
      exec i s = .next t) ∧
  (∀ (s : State) (i : Instr), s.Running → (∀ off, ¬ s.portAt off (.spiCnt .hi)) →
    ((∀ off, ¬ s.portAt off (.spiCnt .lo)) → (encode s.board i).fmt = .spicnt → exec i s = .next { s with out := [] }) ∧
    ((encode s.board i).fmt ∈ [Format.flash, .card, .mcu, .boot] → exec i s = .next { s with out := [] }))

/-- With no device selected every exchange is 0xFF without effect: SPI.WRITE only clears BUSY, SPI.READ and SPI.EXCH fill
`rxbuf[h]` up to the length with 0xFF, SPI.WAITREAD times out and leaves BUSY = 1 (R99, R101, R104 to R107). A row of a
peripheral's format sent while SPI_CNT selects no device returns 0xFF for each byte and reaches no peripheral (log entry
4). -/
def Obligations.TransferWithNoDevice : Prop :=
  (∀ (s : State) (bufidx clk390 : BitVec 1) (len : BitVec 9), EngineReady s clk390 →
    exec (.spiWrite bufidx 0 clk390 len) s =
      .next (s.transferStart (0#1 ++ bufidx ++ 0#2 ++ clk390 ++ 0#2 ++ len) 0) ∧
    (∀ (i : Instr) (m : BitVec 2),
      (i, m) ∈ [(Instr.spiRead bufidx 0 clk390 len, 1#2), (Instr.spiExch bufidx 0 clk390 len, 2#2)] →
      ∃ t, exec i s = .next t ∧
        t = { s.transferStart (0#1 ++ bufidx ++ 0#2 ++ clk390 ++ m ++ len) 0 with arrays := t.arrays } ∧
        s.storesOnly t .rx (fun x =>
          if 512 * bufidx.toNat ≤ x ∧ x < 512 * bufidx.toNat + (len.toNat + 1) then some 0xFF else none)) ∧
    exec (.spiWaitread bufidx 0 clk390 len) s =
      .next { s.transferStart (1#1 ++ bufidx ++ 0#2 ++ clk390 ++ 3#2 ++ len) 0 with
        log := s.log ++ [.waitReadTimeout] }) ∧
  (∀ (s : State) (clk390 : BitVec 1) (i : Instr) (fmt : Format) (bytes : List Byte), EngineReady s clk390 →
    s.regs.spiCnt.extractLsb' 11 1 = clk390 → s.regs.spiCnt.extractLsb' 12 2 = 0 →
    fmt ∈ [Format.flash, .card, .mcu] → encode s.board i = ⟨fmt, bytes⟩ →
    exec i s = .next { s with out := List.replicate bytes.length 0xFF })

/-- SPI.WRITE, SPI.READ and SPI.EXCH with a device exchange the `len + 1` bytes of their mode with it, in order: the TX half
in the modes that write, 0xFF otherwise. A transfer that ends clears BUSY and keeps every other bit; the received bytes
stand in the RX half in the modes that read, and nowhere else. If an exchange takes the fault, the transfer stops there:
BUSY stays, and the bytes received so far stand in the RX half (R64, R99, R100, R102, R181). A row of the flash, card or MCU
format sends its bytes to the device SPI_CNT selects, whichever that is, as such a transfer does, but through no buffer, and
leaves SPI_CNT as it is (R99; log entry 4). -/
def Obligations.TransferExchangesTheBuffer : Prop :=
  (∀ (s : State) (bufidx clk390 : BitVec 1) (d : Periph) (len : BitVec 9) (i : Instr) (m : BitVec 2),
    EngineReady s clk390 → s.arrays.wf →
    (i, m) ∈ [(Instr.spiWrite bufidx (periphDev d) clk390 len, 0#2), (Instr.spiRead bufidx (periphDev d) clk390 len, 1#2),
      (Instr.spiExch bufidx (periphDev d) clk390 len, 2#2)] →
    let w : Half := 1#1 ++ bufidx ++ periphDev d ++ clk390 ++ m ++ len
    let sent := (List.range (len.toNat + 1)).map fun k =>
      if m = 1 then 0xFF else s.readCell .tx (512 * bufidx.toNat + k)
    let kept := fun t : State =>
      if m = 0 then t.arrays else { t.arrays with rx := t.arrays.rx.write (512 * bufidx.toNat) t.out }
    match feed d sent (s.transferStart w (periphDev d)) with
    | .ok _ t =>
      exec i s = .next { t with regs := { s.regs with spiCnt := w &&& 0x7FFF }, arrays := kept t, out := [] }
    | .halt t => exec i s = .next { t with arrays := kept t, out := [] }) ∧
  (∀ (s : State) (d : Periph) (i : Instr) (fmt : Format) (bytes : List Byte), s.Running → Exchanging s d →
    fmt ∈ [Format.flash, .card, .mcu] → encode s.board i = ⟨fmt, bytes⟩ →
    exec i s = .next (feed d bytes { s with out := [] }).state)

/-- SPI.WAITREAD with a device makes dummy exchanges of 0xFF. If the first `wait_read_limit` of them all return 0xFF, it
logs the timeout, writes no RX byte and leaves BUSY = 1, the effects of the exchanges remaining. If exchange `j`, below the
limit, is the first to return another byte, it logs how many were skipped and goes on with the remaining positions as
SPI.READ does (R64, R100, R101, R107). -/
def Obligations.WaitReadMakesDummyExchanges : Prop :=
  ∀ (s : State) (bufidx clk390 : BitVec 1) (d : Periph) (len : BitVec 9), EngineReady s clk390 → s.arrays.wf →
    let w : Half := 1#1 ++ bufidx ++ periphDev d ++ clk390 ++ 3#2 ++ len
    (∀ t, feed d (List.replicate s.board.waitReadLimit 0xFF) (s.transferStart w (periphDev d)) = .ok () t →
      t.out = List.replicate s.board.waitReadLimit 0xFF →
      exec (.spiWaitread bufidx (periphDev d) clk390 len) s =
        .next { t with log := t.log ++ [.waitReadTimeout], out := [] }) ∧
    (∀ j b t t', j < s.board.waitReadLimit → b ≠ 0xFF →
      feed d (List.replicate (j + 1) 0xFF) (s.transferStart w (periphDev d)) = .ok () t →
      t.out = List.replicate j 0xFF ++ [b] →
      feed d (List.replicate len.toNat 0xFF) { t with log := t.log ++ [.waitReadSkipped j], out := [b] } = .ok () t' →
      exec (.spiWaitread bufidx (periphDev d) clk390 len) s =
        .next { t' with
          regs := { s.regs with spiCnt := w &&& 0x7FFF }
          arrays := { t'.arrays with rx := t'.arrays.rx.write (512 * bufidx.toNat) t'.out }
          out := [] })

/-- SPI.WAITREAD of one byte from a card with `j` bytes of 0xFF queued before a byte that is not 0xFF, `j` below the limit:
that byte stands in `rxbuf[h][0]`, the skipped bytes are counted in the log, BUSY is cleared (R101, R107, R133). -/
def Obligations.WaitReadSkipsTheCardGap : Prop :=
  ∀ (s : State) (bufidx clk390 : BitVec 1) (j : Nat) (b : Byte) (rest : List Byte),
    EngineReady s clk390 → CardIdle s → s.card.streaming = false → j < s.board.waitReadLimit → b ≠ 0xFF →
    s.card.reply = List.replicate j 0xFF ++ b :: rest →
    exec (.spiWaitread bufidx 1 clk390 0) s =
      .next { s.transferStart (0#1 ++ bufidx ++ 1#2 ++ clk390 ++ 3#2 ++ 0#9) 1 with
        card := { s.card with reply := rest }
        arrays := { s.arrays with rx := s.arrays.rx.write (512 * bufidx.toNat) [b] }
        log := s.log ++ [.waitReadSkipped j] }

/-- SPI.READ from a flash in `Read` fills `rxbuf[h]` up to the length with the bytes of the image from the cursor on (0xFF
past its end, 0x90 without an image), moves the cursor on by as many, and clears BUSY (R105, R110, R116). -/
def Obligations.SpiReadStreamsTheFlash : Prop :=
  ∀ (s : State) (bufidx clk390 : BitVec 1) (len : BitVec 9), EngineReady s clk390 → s.flash.mode = .read →
    ∃ t, exec (.spiRead bufidx 2 clk390 len) s = .next t ∧
      t = { s.transferStart (0#1 ++ bufidx ++ 2#2 ++ clk390 ++ 1#2 ++ len) 2 with
        flash := { s.flash with cursor := s.flash.cursor + (len.toNat + 1) }
        arrays := t.arrays } ∧
      s.storesOnly t .rx (fun x =>
        if 512 * bufidx.toNat ≤ x ∧ x < 512 * bufidx.toNat + (len.toNat + 1) then
          some (match s.board.flashSize with
            | none => 0x90
            | some n =>
              if s.flash.cursor + (x - 512 * bufidx.toNat) < n
              then s.readCell .flash (s.flash.cursor + (x - 512 * bufidx.toNat)) else 0xFF)
        else none)

/-! ## Cartridge space -/

/-- CartRead returns 0x00 in `Fast` and 0xFF in `Erase` in the window of an active snoop, else the byte the translator
reaches, 0xFF where it reaches none; it changes nothing else (R51, R86, R172). -/
def Obligations.CartReadReturnsTheTranslatedByte : Prop :=
  ∀ (s : State) (addr : BitVec 20), s.fault = none →
    (SnoopActive s → addr.extractLsb' 16 4 = 1 → s.fsm = .fast →
      exec (.busCartread addr) s = .next { s with out := [0x00] }) ∧
    (SnoopActive s → addr.extractLsb' 16 4 = 1 → s.fsm = .erase →
      exec (.busCartread addr) s = .next { s with out := [0xFF] }) ∧
    ((SnoopActive s ∧ addr.extractLsb' 16 4 = 1 → s.fsm ≠ .fast ∧ s.fsm ≠ .erase) →
      exec (.busCartread addr) s = .next { s with out := [s.byteThrough addr false] })

/-- CartWrite outside the window of an active snoop stores the byte where the translator resolves the write, if it does,
and nowhere else; an unmapped write changes nothing (R51, R87). -/
def Obligations.CartWriteStoresThroughTheTranslator : Prop :=
  ∀ (s : State) (addr : BitVec 20) (v : Byte), s.fault = none → ¬ (SnoopActive s ∧ addr.extractLsb' 16 4 = 1) →
    ∃ t, exec (.busCartwrite addr v) s = .next t ∧ t = { s with arrays := t.arrays, out := [] } ∧
      s.storesAt t (s.placeOf addr true false) v

/-- ProbeRead and ProbeWrite resolve as probes and bypass the snoop whatever its state: a read returns the byte, a write
stores it, and the FSM does not move (R51, R88, R173). -/
def Obligations.ProbeAccessBypassesTheSnoop : Prop :=
  ∀ (s : State) (addr : BitVec 20) (v : Byte), s.fault = none →
    exec (.busProberead addr) s = .next { s with out := [s.byteThrough addr true] } ∧
    ∃ t, exec (.busProbewrite addr v) s = .next t ∧ t = { s with arrays := t.arrays, out := [] } ∧
      s.storesAt t (s.placeOf addr true true) v

/-- The space of an access, and its physical bank: the raw bank under the mask of a locked segment, else its low 4 or 9
bits; an unlocked linear window gives `{BANK_LINEAR[4:0], b}`, contiguous banks (R45, R46, R47). -/
def Obligations.TranslatorSelectsTheBank : Prop :=
  ∀ (b : Board) (r : Regs) (cb : BitVec 4),
    (spaceOf r cb = .ram ↔ cb = 1 ∧ r.flashEn.getLsbD 0 = false) ∧
    (∀ (raw : Half) (lk : Option (Fin 16)),
      (raw, lk) = (if cb = 1 then (r.bankRam, b.lockRam) else if cb = 2 then (r.bankRom0, b.lockRom0)
        else if cb = 3 then (r.bankRom1, b.lockRom1)
        else (((0#4 ++ r.bankLinear) ++ 0#4) ||| (0#12 ++ cb), b.lockLinear)) →
      let width := if spaceOf r cb = .ram then 4 else 9
      let locked := ∃ k, lk = some k ∧ r.segMask.getLsbD k = true
      (locked → physBank b r cb = raw.toNat % 2 ^ width &&& r.segMask.toNat % 2 ^ width) ∧
      (¬ locked → physBank b r cb = raw.toNat % 2 ^ width)) ∧
    (cb ≠ 1 → cb ≠ 2 → cb ≠ 3 → (∀ k, b.lockLinear = some k → r.segMask.getLsbD k = false) →
      physBank b r cb = (r.bankLinear.extractLsb' 0 5 ++ cb).toNat)

/-- The priority order of the translator in RAM space and in ROM space (R48, R49, with R52's console half). The installed
SRAM banks are `sram_banks` of the mode, the field `emu_field_sram_size` of EMU_CNT (R27, R48); a mode past the list's end has
no bank (log entry 14). -/
def Obligations.TranslatorPriorityOrder : Prop :=
  ∀ (b : Board) (r : Regs) (addr : BitVec 20) (isWrite isProbe : Bool),
    let pb := physBank b r (addr.extractLsb' 16 4)
    let o := addr.toNat % 65536
    let half := r.spiCnt.extractLsb' 14 1 ^^^ 1#1
    let mode := r.emuCnt.toNat / 2 ^ b.emuSramLo.val % 2 ^ (b.emuSramHi.val + 1 - b.emuSramLo.val)
    resolve b r addr isWrite isProbe =
      if spaceOf r (addr.extractLsb' 16 4) = .ram then
        if r.powCnt.getLsbD b.powSram = true ∧ pb < b.sramBanks.getD mode 0 then some (.sram (pb * 65536 + o))
        else if b.ipcBankRam.map Fin.val = some pb then some (.ipc (o % 2 ^ b.ipcSizeLog.val))
        else if b.txBankRam.map Fin.val = some pb then
          (if isWrite = true ∨ isProbe = true then some (.tx half (o % 512)) else none)
        else none
      else
        if pb < b.psramBanks then some (.psram (pb * 65536 + o))
        else if b.ipcBankRom.map Fin.val = some pb then some (.ipc (o % 2 ^ b.ipcSizeLog.val))
        else if b.txBankRom.map Fin.val = some pb then
          (if isWrite = true ∨ isProbe = true then some (.tx half (o % 512)) else none)
        else if pb = 0x1FF then (if isWrite = true then none else some (.boot (o % 512)))
        else if b.rxBankRom.map Fin.val = some pb then
          (if isWrite = false ∨ isProbe = true then some (.rx half (o % 512)) else none)
        else none

/-- The only rights the translator checks: no console read reaches TX, no console write reaches RX, no write at all reaches
the boot alias; what the console reaches of TX and RX is never the half the engine uses (R52, R54). Every offset it gives
lies in its array: in the installed SRAM banks, the PSRAM banks, the IPC segment, a half of 512 bytes (R12, R37). The byte a
tag stands for is the one of its array: SRAM, PSRAM and IPC at the offset, TX and RX with half 1 behind half 0, the boot alias
the last 512 bytes of the ROM image (R43, R50, R52, R204); a mode past the end of `sram_banks` has no bank (log entry 14). -/
def Obligations.TranslatorRightsAndBounds : Prop :=
  ∀ (b : Board) (r : Regs) (addr : BitVec 20) (isWrite isProbe : Bool) (l : Loc), b.wf = true →
    resolve b r addr isWrite isProbe = some l →
    (∀ h i, l = .tx h i → (isWrite = true ∨ isProbe = true) ∧ h ≠ r.spiCnt.extractLsb' 14 1 ∧ i < 512) ∧
    (∀ h i, l = .rx h i → (isWrite = false ∨ isProbe = true) ∧ h ≠ r.spiCnt.extractLsb' 14 1 ∧ i < 512) ∧
    (∀ i, l = .boot i → isWrite = false ∧ i < 512) ∧
    (∀ off, l = .sram off →
      r.powCnt.getLsbD b.powSram = true ∧ off < 16 * 65536 ∧
      off < b.sramBanks.getD (r.emuCnt.toNat / 2 ^ b.emuSramLo.val % 2 ^ (b.emuSramHi.val + 1 - b.emuSramLo.val)) 0
        * 65536) ∧
    (∀ off, l = .psram off → off < b.psramBanks * 65536) ∧
    (∀ off, l = .ipc off → off < 2 ^ b.ipcSizeLog.val) ∧
    l.cell b = match l with
      | .sram off => some (.sram, off)
      | .psram off => some (.psram, off)
      | .ipc off => some (.ipc, off)
      | .tx h i => some (.tx, 512 * h.toNat + i)
      | .rx h i => some (.rx, 512 * h.toNat + i)
      | .boot i => if 512 ≤ b.romSize + i then some (.rom, b.romSize + i - 512) else none

/-! ## Resets -/

/-- The console's first fetch after reset reads the boot alias: byte `rom_size - 16` of the ROM image, on a board with no IPC
or TX segment in bank 0x1FF of ROM space (R199; the parameters are those of any well-formed board). That
`Config.powerUpByte .rom` gives the bytes of the host's ROM image is the model's choice (log entry 2). -/
def Obligations.FirstFetchReadsTheBootAlias : Prop :=
  ∀ b : Board, b.wf = true → b.ipcBankRom.map Fin.val ≠ some 0x1FF → b.txBankRom.map Fin.val ≠ some 0x1FF →
    exec (.busCartread 0xFFFF0) (State.resetOn b) =
      .next { State.resetOn b with
        out := [if 16 ≤ b.romSize then Config.powerUpByte .rom (b.romSize - 16) else 0xFF] }

/-- WarmReset puts registers, flash, card, MCU transient state and legacy FSM at the reset values of R40 and keeps EEPROM,
its mode byte, every memory array and the log; a ColdReset after the first of a session, which the model's field `poweredUp`
marks (log entry 8), is performed as a WarmReset; the first clears EEPROM and log too and gives the RAM-like arrays back
their power-up bytes, the free bytes that stand for R40's draws (log entry 2). Both keep `wblock`, to which the spec gives no
reset value (log entry 9). -/
def Obligations.ResetsRestoreTheResetValues : Prop :=
  ∀ s : State, s.fault = none →
    let regs : Regs :=
      { flashEn := 0x00, bankLinear := 0xFF, bankRam := 0x0000, bankRom0 := 0x0000, bankRom1 := 0x0000, spiCnt := 0x0000,
        powCnt := 0x00, segMask := 0x0000, warmboot := 0x00, emuCnt := 0x00 }
    let flash : FlashState :=
      { mode := .idle, cursor := 0, sr0 := 0x00, sr1 := 0x00, sr2 := 0x00, sleeping := false, cmd := [], reply := [] }
    let card : CardState :=
      { status := 0x01, streaming := false, pos := 0, wcap := .none, wphase := .waitToken, wblock := s.card.wblock,
        wpos := 0, cmd := [], reply := [] }
    let mcu : McuState :=
      { bootMode := false, cmd := [], reply := [], started := false, waitingAck := false, blCmd := none, step := 0,
        eraseCount := 0, dest := 0, need := 0, eeprom := s.mcu.eeprom, eepromMode := s.mcu.eepromMode }
    let warm : State := { s with regs := regs, flash := flash, card := card, mcu := mcu, fsm := .read, out := [] }
    exec .busWarmreset s = .next warm ∧
    (s.poweredUp = true → exec .busColdreset s = .next warm) ∧
    (s.poweredUp = false → exec .busColdreset s = .next { warm with
      mcu := { mcu with eeprom := List.replicate s.board.eepromWords 0x0000, eepromMode := 0x00 }
      arrays :=
        { s.arrays with
          psram := Memory.blank, sram := Memory.blank, ipc := Memory.blank, tx := Memory.blank, rx := Memory.blank }
      log := []
      poweredUp := true })

/-- After any reset the SPI engine is un-clocked and not busy, no device is selected, the snoop is inactive, SRAM is unmapped
and every segment lock is clear (R200): of `State.reset`, and of the state every reset operation leaves. -/
def Obligations.EngineIsQuietAfterEveryReset : Prop :=
  ∀ t : State, (t = State.reset ∨ ∃ s i, (i = Instr.busWarmreset ∨ i = Instr.busColdreset) ∧ exec i s = .next t) →
    clocked t.board t.regs = false ∧ t.regs.busy = false ∧ t.regs.dev = 0 ∧ snoopActive t.board t.regs = false ∧
    t.regs.powBit t.board.powSram = false ∧
    (∀ lk ∈ [t.board.lockRam, t.board.lockRom0, t.board.lockRom1, t.board.lockLinear], lockSet t.regs lk = false)

/-! ## Byte FIFOs -/

/-- A push appends its bytes to its FIFO and changes nothing else; one that would pass capacity leaves the FIFO as it is and
takes the fault that names it (R89, R181). -/
def Obligations.PushAppendsOrOverflows : Prop :=
  ∀ (d : Periph) (w : FifoId) (bytes : List Byte) (s : State),
    ((s.fifo d w).length + bytes.length ≤ s.board.fifoCap →
      ∃ t, push d w bytes s = .ok () t ∧ t.fifo d w = s.fifo d w ++ bytes ∧
        (∀ d' w', (d', w') ≠ (d, w) → t.fifo d' w' = s.fifo d' w') ∧
        t = (match d with
          | .flash => { s with flash := { s.flash with cmd := t.flash.cmd, reply := t.flash.reply } }
          | .card => { s with card := { s.card with cmd := t.card.cmd, reply := t.card.reply } }
          | .mcu => { s with mcu := { s.mcu with cmd := t.mcu.cmd, reply := t.mcu.reply } })) ∧
    (s.board.fifoCap < (s.fifo d w).length + bytes.length →
      push d w bytes s = .halt { s with fault := some (.fifoOverflow d w) })

/-- A pop removes up to `n` bytes from the head and gives exactly `n`, the missing ones 0xFF; its flag says whether any was
removed (R90). -/
def Obligations.PopPadsWithFill : Prop :=
  ∀ (data : List Byte) (n : Nat),
    (popFifo data n).out.length = n ∧
    (∀ k, k < n → (popFifo data n).out.getD k 0 = data.getD k 0xFF) ∧
    (popFifo data n).rest.length = data.length - n ∧
    data.take n ++ (popFifo data n).rest = data ∧
    ((popFifo data n).any = true ↔ 0 < n ∧ data ≠ [])

/-- Pushing bytes on an empty FIFO and popping as many gives them back in order and empties it; popping more pads with 0xFF
(R93). -/
def Obligations.PushThenPopRoundTrips : Prop :=
  ∀ (d : Periph) (w : FifoId) (bytes : List Byte) (m : Nat) (s : State), s.fifo d w = [] →
    bytes.length ≤ s.board.fifoCap →
    ∃ t, push d w bytes s = .ok () t ∧
      popFifo (t.fifo d w) bytes.length = ⟨bytes, decide (0 < bytes.length), []⟩ ∧
      (popFifo (t.fifo d w) (bytes.length + m)).out = bytes ++ List.replicate m 0xFF ∧
      (popFifo (t.fifo d w) (bytes.length + m)).rest = []

/-! ## Flash (rows sent to the selected device: log entry 4) -/

/-- FL.READ on a ready flash: the four frame bytes return reply bytes, then every exchange returns the image's byte at the
cursor (0xFF past the end, 0x90 without an image) and moves the cursor on by one (R110, R116). -/
def Obligations.FlashReadStreamsTheImage : Prop :=
  ∀ (s : State) (a : BitVec 24) (data : List Byte), FlashReady s →
    exec (.flRead a data) s = .next { s with
      flash := { s.flash with mode := .read, cursor := a.toNat + data.length, reply := s.flash.reply.drop 4 }
      out := (popFifo s.flash.reply 4).out ++ (List.range data.length).map (fun j =>
        match s.board.flashSize with
        | none => 0x90
        | some n => if a.toNat + j < n then s.readCell .flash (a.toNat + j) else 0xFF) }

/-- FL.PROGRAM on a ready flash: byte `j` of the data goes to offset `(A + j) mod 256` of the page of `A`, the last byte sent
to an offset stands there, nothing is stored past the end of the image or without one, and no other byte of memory changes.
WEL is neither checked nor cleared (R111, R117). -/
def Obligations.FlashProgramStaysInItsPage : Prop :=
  ∀ (s : State) (a : BitVec 24) (data : List Byte), FlashReady s →
    let place := fun j : Nat => a.toNat / 256 * 256 + (a.toNat + j) % 256
    ∃ t, exec (.flProgram a data) s = .next t ∧
      t = { s with
        flash := { s.flash with mode := .write, cursor := place data.length, reply := s.flash.reply.drop 4 }
        arrays := t.arrays
        out := (popFifo s.flash.reply 4).out ++ List.replicate data.length 0xFF } ∧
      s.storesOnly t .flash (fun x =>
        match s.board.flashSize with
        | none => none
        | some n =>
          if x < n then (data.zipIdx.reverse.find? (fun p => place p.2 == x)).map (·.1) else none)

/-- FL.ERASE4K, FL.ERASE32K and FL.ERASE64K on a ready flash: the block of 4096, 32768 or 65536 bytes that holds `A` becomes
0xFF as far as the image reaches, if erase fills; no other byte of memory changes (R115, R118, R119, R120). -/
def Obligations.FlashEraseFillsItsBlock : Prop :=
  ∀ (s : State) (a : BitVec 24) (i : Instr) (size : Nat), FlashReady s →
    (i, size) ∈ [(Instr.flErase4k a, 4096), (Instr.flErase32k a, 32768), (Instr.flErase64k a, 65536)] →
    let base := (a &&& ~~~ BitVec.ofNat 24 (size - 1)).toNat
    ∃ t, exec i s = .next t ∧
      t = { s with
        flash := { s.flash with mode := .erase, cursor := a.toNat, reply := s.flash.reply.drop 4 }
        arrays := t.arrays
        out := (popFifo s.flash.reply 4).out } ∧
      s.storesOnly t .flash (fun x =>
        match s.board.flashSize with
        | none => none
        | some n => if s.board.flashEraseFills = true ∧ base ≤ x ∧ x < base + size ∧ x < n then some 0xFF else none)

/-- FL.RDSR1, FL.RDSR2 and FL.RDSR3 on a ready flash latch the mode that echoes `sr[0]`, `sr[1]` or `sr[2]`: any one-byte
flash row sent next returns that register and changes nothing (R121, R122, R123). -/
def Obligations.FlashStatusReadsEchoTheirRegister : Prop :=
  ∀ (s : State) (i : Instr) (k : Fin 3) (v : Byte), FlashReady s →
    (i, k, v) ∈ [(Instr.flRdsr1, (0 : Fin 3), s.flash.sr0), (Instr.flRdsr2, 1, s.flash.sr1),
      (Instr.flRdsr3, 2, s.flash.sr2)] →
    ∃ t, exec i s = .next t ∧
      t = { s with
        flash := { s.flash with mode := .status k, reply := s.flash.reply.tail }
        out := [s.flash.reply.headD 0xFF] } ∧
      ∀ j op, encode s.board j = ⟨.flash, [op]⟩ → exec j t = .next { t with out := [v] }

/-- FL.MFRID, FL.JEDECID and FL.UUID on a ready flash queue their fixed response; if the reply FIFO cannot take it, the fault
is taken, the byte popped before and the emptied command FIFO remaining (R124, R125, R126, R181). -/
def Obligations.FlashIdentitiesQueueTheirResponse : Prop :=
  ∀ (s : State) (i : Instr) (resp : List Byte), FlashReady s →
    (i, resp) ∈ [(Instr.flMfrid, s.board.flashRespMfrDev), (Instr.flJedecid, s.board.flashRespJedec),
      (Instr.flUuid, s.board.flashRespUuid)] →
    (s.flash.reply.tail.length + resp.length ≤ s.board.fifoCap →
      exec i s = .next { s with
        flash := { s.flash with reply := s.flash.reply.tail ++ resp }, out := [s.flash.reply.headD 0xFF] }) ∧
    (s.board.fifoCap < s.flash.reply.tail.length + resp.length →
      exec i s = .next { s with
        flash := { s.flash with reply := s.flash.reply.tail }
        fault := some (.fifoOverflow .flash .reply)
        out := [] })

/-- FL.WAKE is taken asleep or awake and clears `sleeping`; FL.SLEEP sets it; FL.WREN sets WEL and FL.WRDI clears it, no
other bit of `sr[0]` changing; none of them queues a reply (R127, R128, R129, R130). -/
def Obligations.FlashFlagCommandsSetTheirFlag : Prop :=
  ∀ s : State,
    (FlashIdle s → exec .flWake s = .next { s with
      flash := { s.flash with sleeping := false, reply := s.flash.reply.tail }, out := [s.flash.reply.headD 0xFF] }) ∧
    (FlashReady s → exec .flSleep s = .next { s with
      flash := { s.flash with sleeping := true, reply := s.flash.reply.tail }, out := [s.flash.reply.headD 0xFF] }) ∧
    (FlashReady s → exec .flWren s = .next { s with
      flash := { s.flash with sr0 := s.flash.sr0 ||| 0x02, reply := s.flash.reply.tail }
      out := [s.flash.reply.headD 0xFF] }) ∧
    (FlashReady s → exec .flWrdi s = .next { s with
      flash := { s.flash with sr0 := s.flash.sr0 &&& ~~~ 0x02, reply := s.flash.reply.tail }
      out := [s.flash.reply.headD 0xFF] })

/-- The two in-band rejections of the flash. Ready: a byte that is none of the fifteen opcodes is discarded with a log entry,
nothing is queued, the mode and the status registers stay (R66, R113). Asleep: every byte but 0xAB returns 0xFF, is logged
and changes nothing else, so a flash row whose frame has no byte 0xAB has no other effect (R112). -/
def Obligations.FlashRejectsUnknownAndSleepingBytes : Prop :=
  (∀ (s : State) (op : Byte), FlashReady s →
    op ∉ [0x03#8, 0x02#8, 0x20#8, 0x52#8, 0xD8#8, 0x05#8, 0x35#8, 0x15#8, 0x90#8, 0x9F#8, 0x4B#8, 0xAB#8, 0xB9#8, 0x06#8,
      0x04#8] →
    exec (.flUnknown op) s = .next { s with
      flash := { s.flash with reply := s.flash.reply.tail }
      log := s.log ++ [.flashUnknownOpcode op]
      out := [s.flash.reply.headD 0xFF] }) ∧
  (∀ (s : State) (i : Instr) (bytes : List Byte), s.Running → Exchanging s .flash → s.flash.mode = .idle →
    s.flash.sleeping = true → encode s.board i = ⟨.flash, bytes⟩ → 0xAB#8 ∉ bytes →
    exec i s = .next { s with
      log := s.log ++ bytes.map Event.flashAsleepReject
      out := List.replicate bytes.length 0xFF })

/-- A flash in a data mode takes the byte of any one-byte row as data: `Read` returns the byte at the cursor, `Write` stores
it at the cursor and steps within the page, `Erase` returns 0xFF, `Status(k)` returns `sr[k]`; neither FIFO is touched, and
nothing else changes (R110, R111). -/
def Obligations.FlashDataModesTakeBytesAsData : Prop :=
  ∀ (s : State) (i : Instr) (op : Byte), s.Running → Exchanging s .flash → encode s.board i = ⟨.flash, [op]⟩ →
    (s.flash.mode = .read → exec i s = .next { s with
      flash := { s.flash with cursor := s.flash.cursor + 1 }
      out := [match s.board.flashSize with
        | none => 0x90
        | some n => if s.flash.cursor < n then s.readCell .flash s.flash.cursor else 0xFF] }) ∧
    (s.flash.mode = .write → ∃ t, exec i s = .next t ∧
      t = { s with
        flash := { s.flash with cursor := s.flash.cursor / 256 * 256 + (s.flash.cursor + 1) % 256 }
        arrays := t.arrays
        out := [0xFF] } ∧
      s.storesOnly t .flash (fun x =>
        if x = s.flash.cursor ∧ (∃ n, s.board.flashSize = some n ∧ x < n) then some op else none)) ∧
    (s.flash.mode = .erase → exec i s = .next { s with out := [0xFF] }) ∧
    (s.flash.mode = .status 0 → exec i s = .next { s with out := [s.flash.sr0] }) ∧
    (s.flash.mode = .status 1 → exec i s = .next { s with out := [s.flash.sr1] }) ∧
    (s.flash.mode = .status 2 → exec i s = .next { s with out := [s.flash.sr2] })

/-! ## Card (rows sent to the selected device: log entry 4) -/

/-- CD.RESET sets the latched status to 0x01 and replies it; CD.INIT, by either index, clears it and replies 0x00;
CD.SETBLKLEN replies the status, with 0x40 unless the argument is 512; an illegal index replies it with 0x04. Each reply is
queued behind what the six frame bytes have left of the reply FIFO (R134, R139, R140, R143, R148). -/
def Obligations.CardStatusCommandsReplyOneByte : Prop :=
  ∀ (s : State) (f : CardArgs) (idx : BitVec 6), CardReady s →
    exec (.cdReset f) s = .next { s with
      card := { s.card with status := 0x01, reply := s.card.reply.drop 6 ++ [0x01] }
      out := (popFifo s.card.reply 6).out } ∧
    (∀ i ∈ [Instr.cdInit1 f, Instr.cdInit41 f], exec i s = .next { s with
      card := { s.card with status := 0x00, reply := s.card.reply.drop 6 ++ [0x00] }
      out := (popFifo s.card.reply 6).out }) ∧
    exec (.cdSetblklen f) s = .next { s with
      card := { s.card with
        reply := s.card.reply.drop 6 ++ [s.card.status ||| (if f.arg = 512 then 0x00 else 0x40)] }
      out := (popFifo s.card.reply 6).out } ∧
    (idx ∉ [0#6, 1#6, 41#6, 8#6, 12#6, 16#6, 17#6, 18#6, 24#6, 25#6] →
      exec (.cdIllegal idx f) s = .next { s with
        card := { s.card with reply := s.card.reply.drop 6 ++ [s.card.status ||| 0x04] }
        out := (popFifo s.card.reply 6).out })

/-- CD.IFCOND replies the status and the four fixed bytes. CD.STOP ends streaming, flushes the pending reply data and replies
the status and the busy pattern (R141, R142). -/
def Obligations.CardConditionAndStopReplies : Prop :=
  ∀ (s : State) (f : CardArgs), CardReady s →
    exec (.cdIfcond f) s = .next { s with
      card := { s.card with reply := s.card.reply.drop 6 ++ s.card.status :: s.board.cardIfcondTail }
      out := (popFifo s.card.reply 6).out } ∧
    (1 + s.board.cardStopBusy.length ≤ s.board.fifoCap →
      exec (.cdStop f) s = .next { s with
        card := { s.card with streaming := false, reply := s.card.status :: s.board.cardStopBusy }
        out := (popFifo s.card.reply 6).out })

/-- The block CD-RDATA queues from a byte offset: the gap, the token 0xFE, 512 bytes of the image, 0xFF past its end, a draw
each without an image (R68, R135). CD.READ1 and CD.READN queue the status and one block from their argument and move the
position past it; CD.READN starts streaming (R144, R145). -/
def Obligations.CardReadsQueueABlock : Prop :=
  ∀ (s : State) (f : CardArgs) (i : Instr) (streams : Bool), CardReady s →
    (i, streams) ∈ [(Instr.cdRead1 f, s.card.streaming), (Instr.cdReadn f, true)] →
    (s.card.reply.drop 6).length + (s.board.cardReadGap + 514) ≤ s.board.fifoCap →
    let block := (List.range 512).map fun j =>
      match s.board.cardSize with
      | some n => if f.arg.toNat + j < n then s.readCell .card (f.arg.toNat + j) else 0xFF
      | none => Config.cardNoStoreByte (s.draws + j)
    exec i s = .next { s with
      card := { s.card with
        streaming := streams
        pos := f.arg.toNat + 512
        reply := s.card.reply.drop 6 ++ s.card.status :: List.replicate s.board.cardReadGap 0xFF ++ 0xFE :: block }
      draws := if s.board.cardSize = none then s.draws + 512 else s.draws
      out := (popFifo s.card.reply 6).out }

/-- A streaming card whose reply FIFO is drained starts the next exchange with the next block: every card row, and every
sequence of bytes an SPI transfer exchanges, then runs as on the card with that block queued and its position past it (R132,
R135, R136). What is queued is read out by filler, bytes with bit 7 set: each exchange returns the head of the reply FIFO,
0xFF once it is empty, and changes nothing else, as long as no refill falls due (R132, R133). -/
def Obligations.StreamingRefillsTheReply : Prop :=
  ∀ s : State, s.card.cmd = [] → s.card.wcap = .none →
    let block := (List.range 512).map fun j =>
      match s.board.cardSize with
      | some n => if s.card.pos + j < n then s.readCell .card (s.card.pos + j) else 0xFF
      | none => Config.cardNoStoreByte (s.draws + j)
    let refilled : State := { s with
      card := { s.card with
        pos := s.card.pos + 512, reply := List.replicate s.board.cardReadGap 0xFF ++ 0xFE :: block }
      draws := if s.board.cardSize = none then s.draws + 512 else s.draws }
    (s.board.wf = true → s.card.streaming = true → s.card.reply = [] →
      (∀ (x : Byte) (rest : List Byte), feed .card (x :: rest) s = feed .card (x :: rest) refilled) ∧
      (∀ i : Instr, s.Running → Exchanging s .card → (encode s.board i).fmt = .card → exec i s = exec i refilled)) ∧
    (∀ filler : List Byte, (∀ x ∈ filler, x.getLsbD 7 = true) →
      (s.card.streaming = true → filler.length ≤ s.card.reply.length) →
      feed .card filler s = .ok () { s with
        card := { s.card with reply := s.card.reply.drop filler.length }
        out := s.out ++ (popFifo s.card.reply filler.length).out })

/-- CD.WRITE1 and CD.WRITEN reply the status and arm the capture at their argument. With filler, a token of theirs, 512 bytes
and two CRC bytes sent after the frame, the block is written at the argument as far as the image reaches, no other byte of
memory changes, the acknowledgment 0x05 is queued, and the capture ends (single) or waits for the next token one block on
(multi). So is a block sent to a capture that waits for its token, whatever exchanges it and whatever was captured before: the
second and later blocks of CD.WRITEN go one behind another (R68, R137, R138, R146, R147). -/
def Obligations.CardWritesCaptureABlock : Prop :=
  (∀ (s : State) (f : CardArgs), CardReady s →
    exec (.cdWrite1 f []) s = .next { s with
      card := { s.card with
        wcap := .single, wphase := .waitToken, wpos := f.arg.toNat, reply := s.card.reply.drop 6 ++ [s.card.status] }
      out := (popFifo s.card.reply 6).out } ∧
    exec (.cdWriten f []) s = .next { s with
      card := { s.card with
        wcap := .multi, wphase := .waitToken, wpos := f.arg.toNat, reply := s.card.reply.drop 6 ++ [s.card.status] }
      out := (popFifo s.card.reply 6).out } ∧
    (∀ (i : Instr) (data : List Byte) (left : Capture) (k : Nat) (token c1 c0 : Byte) (block : List Byte),
      block.length = 512 → s.card.wblock.length = 512 → data = List.replicate k 0xFF ++ token :: block ++ [c1, c0] →
      (i, left, token) ∈ [(Instr.cdWrite1 f data, Capture.none, 0xFE#8), (Instr.cdWriten f data, .multi, 0xFC#8),
        (Instr.cdWriten f data, .multi, 0xFD#8)] →
      ∃ t, exec i s = .next t ∧
        t = { s with
          card := { s.card with
            wcap := left
            wphase := .waitToken
            wblock := block
            wpos := f.arg.toNat + 512
            reply := (s.card.reply.drop 6 ++ [s.card.status]).drop data.length ++ [0x05] }
          arrays := t.arrays
          out := (popFifo s.card.reply 6).out
            ++ (popFifo (s.card.reply.drop 6 ++ [s.card.status]) data.length).out } ∧
        s.storesOnly t .card (fun x =>
          if f.arg.toNat ≤ x ∧ x < f.arg.toNat + 512 ∧ (∃ n, s.board.cardSize = some n ∧ x < n)
          then block[x - f.arg.toNat]? else none))) ∧
  (∀ (s : State) (left : Capture) (k : Nat) (token c1 c0 : Byte) (block data : List Byte), s.board.wf = true →
    s.card.wphase = .waitToken → s.card.wblock.length = 512 → s.card.reply.length ≤ s.board.fifoCap →
    block.length = 512 → data = List.replicate k 0xFF ++ token :: block ++ [c1, c0] →
    (s.card.wcap, left, token) ∈ [(Capture.single, Capture.none, 0xFE#8), (.multi, .multi, 0xFC#8),
      (.multi, .multi, 0xFD#8)] →
    ∃ t, feed .card data s = .ok () t ∧
      t = { s with
        card := { s.card with
          wcap := left
          wphase := .waitToken
          wblock := block
          wpos := s.card.wpos + 512
          reply := s.card.reply.drop data.length ++ [0x05] }
        arrays := t.arrays
        out := s.out ++ (popFifo s.card.reply data.length).out } ∧
      s.storesOnly t .card (fun x =>
        if s.card.wpos ≤ x ∧ x < s.card.wpos + 512 ∧ (∃ n, s.board.cardSize = some n ∧ x < n)
        then block[x - s.card.wpos]? else none))

/-- A byte that is neither 0xFF nor a token of the capture, sent while a capture waits for its token, ends the capture with a
log entry and is scanned as a command start: a wrong token after CD.WRITE1 or CD.WRITEN, and the first byte of any card row
(R137, R146, R147). -/
def Obligations.UnexpectedTokenAbortsTheCapture : Prop :=
  (∀ (s : State) (f : CardArgs) (x : Byte) (i : Instr) (tokens : List Byte), CardReady s →
    (i, tokens) ∈ [(Instr.cdWrite1 f [x], [0xFE#8]), (Instr.cdWriten f [x], [0xFC#8, 0xFD#8])] →
    x ≠ 0xFF → x ∉ tokens →
    exec i s = .next { s with
      card := { s.card with
        wcap := .none
        wphase := .waitToken
        wpos := f.arg.toNat
        cmd := if x.getLsbD 7 = true then [] else [x]
        reply := (s.card.reply.drop 6 ++ [s.card.status]).tail }
      log := s.log ++ [.cardUnexpectedToken x]
      out := (popFifo s.card.reply 6).out ++ [(s.card.reply.drop 6 ++ [s.card.status]).headD 0xFF] }) ∧
  (∀ (s : State) (i : Instr) (c : Byte) (bytes : List Byte), s.Running → Exchanging s .card → s.card.wcap ≠ .none →
    s.card.wphase = .waitToken → s.card.cmd = [] → (s.card.streaming = true → s.card.reply ≠ []) →
    encode s.board i = ⟨.card, c :: bytes⟩ →
    exec i s = exec i { s with
      card := { s.card with wcap := .none }, log := s.log ++ [.cardUnexpectedToken c] })

/-! ## MCU, normal mode (rows sent to the selected device: log entry 4) -/

/-- MC.ECHO replies the tag of N and the N bytes; MC.EEMODESET stores `arg[7:0]` and replies the tag of 0; MC.EEMODEGET replies
the tag of 1 and the mode byte. A tag is twice the length, low byte first (R152, R154, R155, R156). -/
def Obligations.McuEchoAndModeReplies : Prop :=
  ∀ (s : State) (arg : BitVec 9) (bytes : List Byte), McuReady s →
    let n := if arg = 0 then 512 else arg.toNat
    (bytes.length = n → (s.mcu.reply.drop (2 + n)).length + (2 + n) ≤ s.board.fifoCap →
      exec (.mcEcho arg bytes) s = .next { s with
        mcu := { s.mcu with
          reply := s.mcu.reply.drop (2 + n) ++ [BitVec.ofNat 8 (2 * n), BitVec.ofNat 8 (2 * n / 256)] ++ bytes }
        out := (popFifo s.mcu.reply (2 + n)).out }) ∧
    ((s.mcu.reply.drop 2).length + 2 ≤ s.board.fifoCap →
      exec (.mcEemodeset arg) s = .next { s with
        mcu := { s.mcu with eepromMode := arg.extractLsb' 0 8, reply := s.mcu.reply.drop 2 ++ [0x00, 0x00] }
        out := (popFifo s.mcu.reply 2).out }) ∧
    ((s.mcu.reply.drop 2).length + 3 ≤ s.board.fifoCap →
      exec (.mcEemodeget arg) s = .next { s with
        mcu := { s.mcu with reply := s.mcu.reply.drop 2 ++ [0x02, 0x00, s.mcu.eepromMode] }
        out := (popFifo s.mcu.reply 2).out })

/-- MC.EEREAD replies the tag of 2N and N words from its address, each low byte first, 0xFFFF past the end of the EEPROM
(R152, R157). -/
def Obligations.McuEepromReadRepliesWords : Prop :=
  ∀ (s : State) (arg : BitVec 9) (addr : Half), McuReady s → s.mcu.eeprom.length = s.board.eepromWords →
    (s.mcu.reply.drop 4).length + (2 + 2 * arg.toNat) ≤ s.board.fifoCap →
    exec (.mcEeread arg addr) s = .next { s with
      mcu := { s.mcu with
        reply := s.mcu.reply.drop 4 ++ [BitVec.ofNat 8 (4 * arg.toNat), BitVec.ofNat 8 (4 * arg.toNat / 256)]
          ++ (List.range arg.toNat).flatMap fun j =>
            [(s.mcu.eeprom.getD (addr.toNat + j) 0xFFFF).extractLsb' 0 8,
              (s.mcu.eeprom.getD (addr.toNat + j) 0xFFFF).extractLsb' 8 8] }
      out := (popFifo s.mcu.reply 4).out }

/-- MC.USBREAD replies the tag and the bytes of the USB oracle's draw, the first `min(N, 128)` of them; MC.USBWRITE replies
the tag of the count the oracle draws, at most N, and that many of its bytes are taken. The draws are `Config.usbRecv` and
`Config.usbSend`, of which nothing is assumed (R9, R152, R158, R159). -/
def Obligations.McuUsbTransfersFollowTheOracle : Prop :=
  ∀ (s : State) (arg : BitVec 9) (bytes : List Byte), McuReady s →
    let n := if arg = 0 then 512 else arg.toNat
    let d := (Config.usbRecv s.draws).take (min n 128)
    let k := min (Config.usbSend s.draws) n
    ((s.mcu.reply.drop 2).length + (2 + min n 128) ≤ s.board.fifoCap →
      exec (.mcUsbread arg) s = .next { s with
        mcu := { s.mcu with
          reply := s.mcu.reply.drop 2 ++ [BitVec.ofNat 8 (2 * d.length), BitVec.ofNat 8 (2 * d.length / 256)] ++ d }
        draws := s.draws + 1
        out := (popFifo s.mcu.reply 2).out }) ∧
    (bytes.length = n → (s.mcu.reply.drop (2 + n)).length + 2 ≤ s.board.fifoCap →
      exec (.mcUsbwrite arg bytes) s = .next { s with
        mcu := { s.mcu with
          reply := s.mcu.reply.drop (2 + n) ++ [BitVec.ofNat 8 (2 * k), BitVec.ofNat 8 (2 * k / 256)] }
        draws := s.draws + 1
        usbSent := s.usbSent ++ bytes.take k
        out := (popFifo s.mcu.reply (2 + n)).out })

/-- A command word whose opcode is none of the six is discarded with a log entry and no reply (R73, R160). -/
def Obligations.McuDiscardsUnknownOpcodes : Prop :=
  ∀ (s : State) (op : BitVec 7) (arg : BitVec 9), McuReady s →
    op ∉ [s.board.mcuOpEcho, s.board.mcuOpEepromModeSet, s.board.mcuOpEepromModeGet, s.board.mcuOpEepromRead,
      s.board.mcuOpUsbRead, s.board.mcuOpUsbWrite] →
    exec (.mcUnknown op arg) s = .next { s with
      mcu := { s.mcu with reply := s.mcu.reply.drop 2 }
      log := s.log ++ [.mcuUnknownOpcode op]
      out := (popFifo s.mcu.reply 2).out }

/-! ## MCU, bootloader (rows sent to the selected device: log entry 4) -/

/-- BL.SYNC starts an unstarted bootloader and is acknowledged; 0x79 ends the wait for an acknowledgment, and after the step
of a jump it exits boot mode, the FIFOs kept. Before the sync every byte but 0x5A is ignored, and while an acknowledgment is
awaited every byte but 0x79: the exchange returns the head of the reply FIFO and changes nothing else (R161, R162, R163,
R168); so a BL.SYNC, BL.NACK or BL.PARITY row without the byte 0x79 has no other effect while one is awaited. -/
def Obligations.BootloaderSyncAndAcknowledge : Prop :=
  ∀ s : State, BootMode s →
    (s.mcu.waitingAck = false → s.mcu.started = false →
      exec .blSync s = .next { s with
        mcu := { s.mcu with started := true, waitingAck := true, reply := s.mcu.reply.tail ++ [0x79] }
        out := [s.mcu.reply.headD 0xFF] } ∧
      exec .blAckbyte s = .next { s with
        mcu := { s.mcu with reply := s.mcu.reply.tail }, out := [s.mcu.reply.headD 0xFF] }) ∧
    (s.mcu.waitingAck = true → ¬ (s.mcu.blCmd = some .go ∧ s.mcu.step = 0) →
      exec .blAckbyte s = .next { s with
        mcu := { s.mcu with waitingAck := false, reply := s.mcu.reply.tail }, out := [s.mcu.reply.headD 0xFF] }) ∧
    (s.mcu.waitingAck = true → s.mcu.blCmd = some .go → s.mcu.step = 0 →
      exec .blAckbyte s = .next { s with
        mcu := { s.mcu with
          waitingAck := false, bootMode := false, started := false, blCmd := none, step := 0, need := 0
          reply := s.mcu.reply.tail }
        out := [s.mcu.reply.headD 0xFF] }) ∧
    (s.mcu.waitingAck = true → ∀ (i : Instr) (bytes : List Byte), encode s.board i = ⟨.boot, bytes⟩ →
      (i = .blSync ∨ (∃ op, i = .blNack op) ∨ ∃ op par, i = .blParity op par) → 0x79#8 ∉ bytes →
      exec i s = .next { s with
        mcu := { s.mcu with reply := s.mcu.reply.drop bytes.length }, out := (popFifo s.mcu.reply bytes.length).out }) ∧
    (∀ x : Byte, (if s.mcu.waitingAck = true then x ≠ 0x79 else s.mcu.started = false ∧ x ≠ 0x5A) →
      feed .mcu [x] s = .ok () { s with
        mcu := { s.mcu with reply := s.mcu.reply.tail }, out := s.out ++ [s.mcu.reply.headD 0xFF] })

/-- A frame with an opcode that is none of the three is answered 0x1F, to be acknowledged; one whose third byte is not the
complement of its second is consumed with a log entry and no answer (R164, R169, R170). -/
def Obligations.BootloaderRejectsFrames : Prop :=
  ∀ (s : State) (op par : Byte), BootReady s →
    (op ∉ [0x44#8, 0x31#8, 0x21#8] →
      exec (.blNack op) s = .next { s with
        mcu := { s.mcu with waitingAck := true, reply := s.mcu.reply.drop 3 ++ [0x1F] }
        out := (popFifo s.mcu.reply 3).out }) ∧
    (par ≠ ~~~ op →
      exec (.blParity op par) s = .next { s with
        mcu := { s.mcu with reply := s.mcu.reply.drop 3 }
        log := s.log ++ [.bootloaderParityError]
        out := (popFifo s.mcu.reply 3).out })

/-- BL.ERASE, BL.WRITE and BL.GO on a ready bootloader with its replies drained: the frame, the address and the payload are
each acknowledged, the ACK read and acknowledged in turn; the address is kept in `dest` and, for an erase, the count in
`erase_count`; the payload is discarded and the stub logged; no memory changes. After an erase or a write the bootloader is
ready again; after a jump the MCU has left boot mode (R165, R166, R167, R168). That a row sends the host's acknowledgments
itself is the model's choice (log entry 10). -/
def Obligations.BootloaderCommandsAreStubbed : Prop :=
  ∀ (s : State) (dest : BitVec 32), BootReady s → s.mcu.reply = [] →
    (∀ indices : List Half, indices.length < 65536 →
      exec (.blErase dest indices) s = .next { s with
        mcu := { s.mcu with dest := dest, eraseCount := BitVec.ofNat 16 indices.length, step := 0, need := 0 }
        log := s.log ++ [.bootloaderStub .erase]
        out := [0xFF, 0xFF, 0xFF, 0x79, 0xFF] ++ [0xFF, 0xFF, 0xFF, 0xFF, 0x79, 0xFF]
          ++ List.replicate (2 + 2 * indices.length) 0xFF ++ [0x79, 0xFF] }) ∧
    (∀ data : List Byte, data.length < 256 →
      exec (.blWrite dest data) s = .next { s with
        mcu := { s.mcu with dest := dest, step := 0, need := 0 }
        log := s.log ++ [.bootloaderStub .write]
        out := [0xFF, 0xFF, 0xFF, 0x79, 0xFF] ++ [0xFF, 0xFF, 0xFF, 0xFF, 0x79, 0xFF]
          ++ List.replicate (1 + data.length) 0xFF ++ [0x79, 0xFF] }) ∧
    exec (.blGo dest) s = .next { s with
      mcu := { s.mcu with bootMode := false, started := false, dest := dest, step := 0, need := 0 }
      log := s.log ++ [.bootloaderStub .go]
      out := [0xFF, 0xFF, 0xFF, 0x79, 0xFF] ++ [0xFF, 0xFF, 0xFF, 0xFF, 0x79, 0xFF] }

/-! ## Legacy flash FSM -/

/-- A CartWrite in the window of an active snoop steps the FSM by its table; the byte reaches storage only in `FastWrite` and
`Write`, where the translator resolves the write, and no other byte of memory changes (R171, R175 to R180). -/
def Obligations.SnoopFollowsItsTable : Prop :=
  ∀ (s : State) (addr : BitVec 20) (v : Byte), SnoopActive s → addr.extractLsb' 16 4 = 1 →
    let next : Legacy :=
      match s.fsm with
      | .read => if v = 0xAA then .unlock1 else .read
      | .unlock1 => if v = 0x55 then .unlock2 else .read
      | .unlock2 =>
        if v = 0x20 then .fast else if v = 0xA0 then .write else if v = 0x10 ∨ v = 0x30 then .erase else .read
      | .fast => if v = 0xA0 then .fastWrite else if v = 0x90 then .read else .fast
      | .fastWrite => .fast
      | .write => .read
      | .erase => .read
    ((s.fsm = .fastWrite ∨ s.fsm = .write) →
      ∃ t, exec (.busCartwrite addr v) s = .next t ∧ t = { s with fsm := next, arrays := t.arrays, out := [] } ∧
        s.storesAt t (s.placeOf addr true false) v) ∧
    (s.fsm ≠ .fastWrite → s.fsm ≠ .write →
      exec (.busCartwrite addr v) s = .next { s with fsm := next, out := [] })

/-- The rows of the legacy format in the states their sequences name: the two unlocks, fast mode, its exit and erase move the
FSM and store nothing; LF.WRITE and LF.FASTWRITE store their byte where the translator resolves the window offset, and
return to `Read` and to `Fast` (R175 to R180). -/
def Obligations.LegacyCommandsMoveTheFsm : Prop :=
  ∀ (s : State) (o : Half) (x : Byte) (b5 : BitVec 1), SnoopActive s →
    (s.fsm = .read → exec (.lfUnlock1 o) s = .next { s with fsm := .unlock1, out := [] }) ∧
    (s.fsm = .unlock1 → exec (.lfUnlock2 o) s = .next { s with fsm := .unlock2, out := [] }) ∧
    (s.fsm = .unlock2 → exec (.lfFast o) s = .next { s with fsm := .fast, out := [] }) ∧
    (s.fsm = .unlock2 → exec (.lfErase o b5) s = .next { s with fsm := .erase, out := [] }) ∧
    (s.fsm = .fast → exec (.lfFastexit o) s = .next { s with fsm := .read, out := [] }) ∧
    (s.fsm = .unlock2 → ∃ t, exec (.lfWrite o x) s = .next t ∧
      t = { s with fsm := .read, arrays := t.arrays, out := [] } ∧ s.storesAt t (s.placeOf (1#4 ++ o) true false) x) ∧
    (s.fsm = .fast → ∃ t, exec (.lfFastwrite o x) s = .next t ∧
      t = { s with arrays := t.arrays, out := [] } ∧ s.storesAt t (s.placeOf (1#4 ++ o) true false) x)

/-- Only a system reset or a console write into CPU bank 1 under an active snoop moves the FSM: a CartWrite there or a row of
the legacy format; every other operation, and every one while the snoop is inactive, keeps it (R173). -/
def Obligations.OnlyWindowWritesMoveTheFsm : Prop :=
  ∀ (i : Instr) (s t : State), exec i s = .next t → t.fsm ≠ s.fsm →
    i = .busWarmreset ∨ i = .busColdreset ∨
    (SnoopActive s ∧ ((encode s.board i).fmt = .legacy ∨ ∃ addr v, i = .busCartwrite addr v ∧ addr.extractLsb' 16 4 = 1))

/-! ## Invariants of every step -/

/-- Every step keeps the one form of every byte array: the written bytes at strictly rising offsets, one list for each array.
The form is the model's representation of the arrays of R15, R17 and R37 (log entry 2), no rule of the spec. -/
def Obligations.StepKeepsTheMemoryForm : Prop :=
  ∀ s t : State, s.arrays.wf → step s = .next t → t.arrays.wf

/-- Every step keeps every FIFO within its capacity, a step that takes the fault included (R31, R89). -/
def Obligations.StepKeepsFifosBounded : Prop :=
  ∀ s t : State, s.fifosBounded → step s = .next t → t.fifosBounded

/-- Every step keeps the forms of the three peripherals: no frame pending in a flash data mode or asleep, only WEL set in the
status registers, a card frame of at most five bytes with its first bit clear, the places of a capture in range, the
bootloader stopped outside boot mode, the EEPROM's size (R109, R112, R128, R131, R133, R137, R161 to R168). -/
def Obligations.StepKeepsThePeripheralForms : Prop :=
  ∀ s t : State, s.peripheralsFormed → step s = .next t → t.peripheralsFormed

/-- The state after reset has the forms the steps keep: of the byte arrays (the model's representation, log entry 2), the
FIFOs and the peripherals (R31, R40). It also has no fault, and a board within the constraints of R12 and R13, since the
model's `Config.board` is one (log entry 1); those two are no forms the steps keep. -/
def Obligations.ResetHasEveryForm : Prop :=
  State.reset.arrays.wf ∧ State.reset.fifosBounded ∧ State.reset.peripheralsFormed ∧ State.reset.Running

/-- No step of a powered-up block changes the parameters, the ROM image or the EEPROM, and each appends to the log or leaves
it (R11, R16, R17, R34, R197). -/
def Obligations.StepKeepsRomEepromAndLog : Prop :=
  ∀ s t : State, s.poweredUp = true → step s = .next t →
    t.board = s.board ∧ t.arrays.rom = s.arrays.rom ∧ t.mcu.eeprom = s.mcu.eeprom ∧ s.log <+: t.log ∧
    t.poweredUp = true
end

