-- ==== Sys2Proof/Laws/State.lean ====
section
/-! SUPPORT. What each update of the state does to each field: one lemma per field per update. -/

namespace Sys2Proof.Machine

/-! ## setRegs -/

@[simp] theorem State.setRegs_board (s : State) (r : Regs) : (s.setRegs r).board = s.board := rfl
@[simp] theorem State.setRegs_regs (s : State) (r : Regs) : (s.setRegs r).regs = r := rfl
@[simp] theorem State.setRegs_flash (s : State) (r : Regs) : (s.setRegs r).flash = s.flash := rfl
@[simp] theorem State.setRegs_card (s : State) (r : Regs) : (s.setRegs r).card = s.card := rfl
@[simp] theorem State.setRegs_mcu (s : State) (r : Regs) : (s.setRegs r).mcu = s.mcu := rfl
@[simp] theorem State.setRegs_fsm (s : State) (r : Regs) : (s.setRegs r).fsm = s.fsm := rfl
@[simp] theorem State.setRegs_arrays (s : State) (r : Regs) : (s.setRegs r).arrays = s.arrays := rfl
@[simp] theorem State.setRegs_log (s : State) (r : Regs) : (s.setRegs r).log = s.log := rfl
@[simp] theorem State.setRegs_fault (s : State) (r : Regs) : (s.setRegs r).fault = s.fault := rfl
@[simp] theorem State.setRegs_script (s : State) (r : Regs) : (s.setRegs r).script = s.script := rfl
@[simp] theorem State.setRegs_out (s : State) (r : Regs) : (s.setRegs r).out = s.out := rfl
@[simp] theorem State.setRegs_draws (s : State) (r : Regs) : (s.setRegs r).draws = s.draws := rfl
@[simp] theorem State.setRegs_rtcLog (s : State) (r : Regs) : (s.setRegs r).rtcLog = s.rtcLog := rfl
@[simp] theorem State.setRegs_usbSent (s : State) (r : Regs) : (s.setRegs r).usbSent = s.usbSent := rfl
@[simp] theorem State.setRegs_poweredUp (s : State) (r : Regs) : (s.setRegs r).poweredUp = s.poweredUp := rfl

/-! ## setFlash -/

@[simp] theorem State.setFlash_board (s : State) (f : FlashState) : (s.setFlash f).board = s.board := rfl
@[simp] theorem State.setFlash_regs (s : State) (f : FlashState) : (s.setFlash f).regs = s.regs := rfl
@[simp] theorem State.setFlash_flash (s : State) (f : FlashState) : (s.setFlash f).flash = f := rfl
@[simp] theorem State.setFlash_card (s : State) (f : FlashState) : (s.setFlash f).card = s.card := rfl
@[simp] theorem State.setFlash_mcu (s : State) (f : FlashState) : (s.setFlash f).mcu = s.mcu := rfl
@[simp] theorem State.setFlash_fsm (s : State) (f : FlashState) : (s.setFlash f).fsm = s.fsm := rfl
@[simp] theorem State.setFlash_arrays (s : State) (f : FlashState) : (s.setFlash f).arrays = s.arrays := rfl
@[simp] theorem State.setFlash_log (s : State) (f : FlashState) : (s.setFlash f).log = s.log := rfl
@[simp] theorem State.setFlash_fault (s : State) (f : FlashState) : (s.setFlash f).fault = s.fault := rfl
@[simp] theorem State.setFlash_script (s : State) (f : FlashState) : (s.setFlash f).script = s.script := rfl
@[simp] theorem State.setFlash_out (s : State) (f : FlashState) : (s.setFlash f).out = s.out := rfl
@[simp] theorem State.setFlash_draws (s : State) (f : FlashState) : (s.setFlash f).draws = s.draws := rfl
@[simp] theorem State.setFlash_rtcLog (s : State) (f : FlashState) : (s.setFlash f).rtcLog = s.rtcLog := rfl
@[simp] theorem State.setFlash_usbSent (s : State) (f : FlashState) : (s.setFlash f).usbSent = s.usbSent := rfl
@[simp] theorem State.setFlash_poweredUp (s : State) (f : FlashState) : (s.setFlash f).poweredUp = s.poweredUp := rfl

/-! ## setCard -/

@[simp] theorem State.setCard_board (s : State) (c : CardState) : (s.setCard c).board = s.board := rfl
@[simp] theorem State.setCard_regs (s : State) (c : CardState) : (s.setCard c).regs = s.regs := rfl
@[simp] theorem State.setCard_flash (s : State) (c : CardState) : (s.setCard c).flash = s.flash := rfl
@[simp] theorem State.setCard_card (s : State) (c : CardState) : (s.setCard c).card = c := rfl
@[simp] theorem State.setCard_mcu (s : State) (c : CardState) : (s.setCard c).mcu = s.mcu := rfl
@[simp] theorem State.setCard_fsm (s : State) (c : CardState) : (s.setCard c).fsm = s.fsm := rfl
@[simp] theorem State.setCard_arrays (s : State) (c : CardState) : (s.setCard c).arrays = s.arrays := rfl
@[simp] theorem State.setCard_log (s : State) (c : CardState) : (s.setCard c).log = s.log := rfl
@[simp] theorem State.setCard_fault (s : State) (c : CardState) : (s.setCard c).fault = s.fault := rfl
@[simp] theorem State.setCard_script (s : State) (c : CardState) : (s.setCard c).script = s.script := rfl
@[simp] theorem State.setCard_out (s : State) (c : CardState) : (s.setCard c).out = s.out := rfl
@[simp] theorem State.setCard_draws (s : State) (c : CardState) : (s.setCard c).draws = s.draws := rfl
@[simp] theorem State.setCard_rtcLog (s : State) (c : CardState) : (s.setCard c).rtcLog = s.rtcLog := rfl
@[simp] theorem State.setCard_usbSent (s : State) (c : CardState) : (s.setCard c).usbSent = s.usbSent := rfl
@[simp] theorem State.setCard_poweredUp (s : State) (c : CardState) : (s.setCard c).poweredUp = s.poweredUp := rfl

/-! ## setMcu -/

@[simp] theorem State.setMcu_board (s : State) (m : McuState) : (s.setMcu m).board = s.board := rfl
@[simp] theorem State.setMcu_regs (s : State) (m : McuState) : (s.setMcu m).regs = s.regs := rfl
@[simp] theorem State.setMcu_flash (s : State) (m : McuState) : (s.setMcu m).flash = s.flash := rfl
@[simp] theorem State.setMcu_card (s : State) (m : McuState) : (s.setMcu m).card = s.card := rfl
@[simp] theorem State.setMcu_mcu (s : State) (m : McuState) : (s.setMcu m).mcu = m := rfl
@[simp] theorem State.setMcu_fsm (s : State) (m : McuState) : (s.setMcu m).fsm = s.fsm := rfl
@[simp] theorem State.setMcu_arrays (s : State) (m : McuState) : (s.setMcu m).arrays = s.arrays := rfl
@[simp] theorem State.setMcu_log (s : State) (m : McuState) : (s.setMcu m).log = s.log := rfl
@[simp] theorem State.setMcu_fault (s : State) (m : McuState) : (s.setMcu m).fault = s.fault := rfl
@[simp] theorem State.setMcu_script (s : State) (m : McuState) : (s.setMcu m).script = s.script := rfl
@[simp] theorem State.setMcu_out (s : State) (m : McuState) : (s.setMcu m).out = s.out := rfl
@[simp] theorem State.setMcu_draws (s : State) (m : McuState) : (s.setMcu m).draws = s.draws := rfl
@[simp] theorem State.setMcu_rtcLog (s : State) (m : McuState) : (s.setMcu m).rtcLog = s.rtcLog := rfl
@[simp] theorem State.setMcu_usbSent (s : State) (m : McuState) : (s.setMcu m).usbSent = s.usbSent := rfl
@[simp] theorem State.setMcu_poweredUp (s : State) (m : McuState) : (s.setMcu m).poweredUp = s.poweredUp := rfl

/-! ## setFsm -/

@[simp] theorem State.setFsm_board (s : State) (f : Legacy) : (s.setFsm f).board = s.board := rfl
@[simp] theorem State.setFsm_regs (s : State) (f : Legacy) : (s.setFsm f).regs = s.regs := rfl
@[simp] theorem State.setFsm_flash (s : State) (f : Legacy) : (s.setFsm f).flash = s.flash := rfl
@[simp] theorem State.setFsm_card (s : State) (f : Legacy) : (s.setFsm f).card = s.card := rfl
@[simp] theorem State.setFsm_mcu (s : State) (f : Legacy) : (s.setFsm f).mcu = s.mcu := rfl
@[simp] theorem State.setFsm_fsm (s : State) (f : Legacy) : (s.setFsm f).fsm = f := rfl
@[simp] theorem State.setFsm_arrays (s : State) (f : Legacy) : (s.setFsm f).arrays = s.arrays := rfl
@[simp] theorem State.setFsm_log (s : State) (f : Legacy) : (s.setFsm f).log = s.log := rfl
@[simp] theorem State.setFsm_fault (s : State) (f : Legacy) : (s.setFsm f).fault = s.fault := rfl
@[simp] theorem State.setFsm_script (s : State) (f : Legacy) : (s.setFsm f).script = s.script := rfl
@[simp] theorem State.setFsm_out (s : State) (f : Legacy) : (s.setFsm f).out = s.out := rfl
@[simp] theorem State.setFsm_draws (s : State) (f : Legacy) : (s.setFsm f).draws = s.draws := rfl
@[simp] theorem State.setFsm_rtcLog (s : State) (f : Legacy) : (s.setFsm f).rtcLog = s.rtcLog := rfl
@[simp] theorem State.setFsm_usbSent (s : State) (f : Legacy) : (s.setFsm f).usbSent = s.usbSent := rfl
@[simp] theorem State.setFsm_poweredUp (s : State) (f : Legacy) : (s.setFsm f).poweredUp = s.poweredUp := rfl

/-! ## setArrays -/

@[simp] theorem State.setArrays_board (s : State) (a : Arrays) : (s.setArrays a).board = s.board := rfl
@[simp] theorem State.setArrays_regs (s : State) (a : Arrays) : (s.setArrays a).regs = s.regs := rfl
@[simp] theorem State.setArrays_flash (s : State) (a : Arrays) : (s.setArrays a).flash = s.flash := rfl
@[simp] theorem State.setArrays_card (s : State) (a : Arrays) : (s.setArrays a).card = s.card := rfl
@[simp] theorem State.setArrays_mcu (s : State) (a : Arrays) : (s.setArrays a).mcu = s.mcu := rfl
@[simp] theorem State.setArrays_fsm (s : State) (a : Arrays) : (s.setArrays a).fsm = s.fsm := rfl
@[simp] theorem State.setArrays_arrays (s : State) (a : Arrays) : (s.setArrays a).arrays = a := rfl
@[simp] theorem State.setArrays_log (s : State) (a : Arrays) : (s.setArrays a).log = s.log := rfl
@[simp] theorem State.setArrays_fault (s : State) (a : Arrays) : (s.setArrays a).fault = s.fault := rfl
@[simp] theorem State.setArrays_script (s : State) (a : Arrays) : (s.setArrays a).script = s.script := rfl
@[simp] theorem State.setArrays_out (s : State) (a : Arrays) : (s.setArrays a).out = s.out := rfl
@[simp] theorem State.setArrays_draws (s : State) (a : Arrays) : (s.setArrays a).draws = s.draws := rfl
@[simp] theorem State.setArrays_rtcLog (s : State) (a : Arrays) : (s.setArrays a).rtcLog = s.rtcLog := rfl
@[simp] theorem State.setArrays_usbSent (s : State) (a : Arrays) : (s.setArrays a).usbSent = s.usbSent := rfl
@[simp] theorem State.setArrays_poweredUp (s : State) (a : Arrays) : (s.setArrays a).poweredUp = s.poweredUp := rfl

/-! ## addLog -/

@[simp] theorem State.addLog_board (s : State) (e : Event) : (s.addLog e).board = s.board := rfl
@[simp] theorem State.addLog_regs (s : State) (e : Event) : (s.addLog e).regs = s.regs := rfl
@[simp] theorem State.addLog_flash (s : State) (e : Event) : (s.addLog e).flash = s.flash := rfl
@[simp] theorem State.addLog_card (s : State) (e : Event) : (s.addLog e).card = s.card := rfl
@[simp] theorem State.addLog_mcu (s : State) (e : Event) : (s.addLog e).mcu = s.mcu := rfl
@[simp] theorem State.addLog_fsm (s : State) (e : Event) : (s.addLog e).fsm = s.fsm := rfl
@[simp] theorem State.addLog_arrays (s : State) (e : Event) : (s.addLog e).arrays = s.arrays := rfl
@[simp] theorem State.addLog_log (s : State) (e : Event) : (s.addLog e).log = s.log ++ [e] := rfl
@[simp] theorem State.addLog_fault (s : State) (e : Event) : (s.addLog e).fault = s.fault := rfl
@[simp] theorem State.addLog_script (s : State) (e : Event) : (s.addLog e).script = s.script := rfl
@[simp] theorem State.addLog_out (s : State) (e : Event) : (s.addLog e).out = s.out := rfl
@[simp] theorem State.addLog_draws (s : State) (e : Event) : (s.addLog e).draws = s.draws := rfl
@[simp] theorem State.addLog_rtcLog (s : State) (e : Event) : (s.addLog e).rtcLog = s.rtcLog := rfl
@[simp] theorem State.addLog_usbSent (s : State) (e : Event) : (s.addLog e).usbSent = s.usbSent := rfl
@[simp] theorem State.addLog_poweredUp (s : State) (e : Event) : (s.addLog e).poweredUp = s.poweredUp := rfl

/-! ## setFault -/

@[simp] theorem State.setFault_board (s : State) (f : Fault) : (s.setFault f).board = s.board := rfl
@[simp] theorem State.setFault_regs (s : State) (f : Fault) : (s.setFault f).regs = s.regs := rfl
@[simp] theorem State.setFault_flash (s : State) (f : Fault) : (s.setFault f).flash = s.flash := rfl
@[simp] theorem State.setFault_card (s : State) (f : Fault) : (s.setFault f).card = s.card := rfl
@[simp] theorem State.setFault_mcu (s : State) (f : Fault) : (s.setFault f).mcu = s.mcu := rfl
@[simp] theorem State.setFault_fsm (s : State) (f : Fault) : (s.setFault f).fsm = s.fsm := rfl
@[simp] theorem State.setFault_arrays (s : State) (f : Fault) : (s.setFault f).arrays = s.arrays := rfl
@[simp] theorem State.setFault_log (s : State) (f : Fault) : (s.setFault f).log = s.log := rfl
@[simp] theorem State.setFault_fault (s : State) (f : Fault) : (s.setFault f).fault = some f := rfl
@[simp] theorem State.setFault_script (s : State) (f : Fault) : (s.setFault f).script = s.script := rfl
@[simp] theorem State.setFault_out (s : State) (f : Fault) : (s.setFault f).out = s.out := rfl
@[simp] theorem State.setFault_draws (s : State) (f : Fault) : (s.setFault f).draws = s.draws := rfl
@[simp] theorem State.setFault_rtcLog (s : State) (f : Fault) : (s.setFault f).rtcLog = s.rtcLog := rfl
@[simp] theorem State.setFault_usbSent (s : State) (f : Fault) : (s.setFault f).usbSent = s.usbSent := rfl
@[simp] theorem State.setFault_poweredUp (s : State) (f : Fault) : (s.setFault f).poweredUp = s.poweredUp := rfl

/-! ## setScript -/

@[simp] theorem State.setScript_board (s : State) (l : List Frame) : (s.setScript l).board = s.board := rfl
@[simp] theorem State.setScript_regs (s : State) (l : List Frame) : (s.setScript l).regs = s.regs := rfl
@[simp] theorem State.setScript_flash (s : State) (l : List Frame) : (s.setScript l).flash = s.flash := rfl
@[simp] theorem State.setScript_card (s : State) (l : List Frame) : (s.setScript l).card = s.card := rfl
@[simp] theorem State.setScript_mcu (s : State) (l : List Frame) : (s.setScript l).mcu = s.mcu := rfl
@[simp] theorem State.setScript_fsm (s : State) (l : List Frame) : (s.setScript l).fsm = s.fsm := rfl
@[simp] theorem State.setScript_arrays (s : State) (l : List Frame) : (s.setScript l).arrays = s.arrays := rfl
@[simp] theorem State.setScript_log (s : State) (l : List Frame) : (s.setScript l).log = s.log := rfl
@[simp] theorem State.setScript_fault (s : State) (l : List Frame) : (s.setScript l).fault = s.fault := rfl
@[simp] theorem State.setScript_script (s : State) (l : List Frame) : (s.setScript l).script = l := rfl
@[simp] theorem State.setScript_out (s : State) (l : List Frame) : (s.setScript l).out = s.out := rfl
@[simp] theorem State.setScript_draws (s : State) (l : List Frame) : (s.setScript l).draws = s.draws := rfl
@[simp] theorem State.setScript_rtcLog (s : State) (l : List Frame) : (s.setScript l).rtcLog = s.rtcLog := rfl
@[simp] theorem State.setScript_usbSent (s : State) (l : List Frame) : (s.setScript l).usbSent = s.usbSent := rfl
@[simp] theorem State.setScript_poweredUp (s : State) (l : List Frame) : (s.setScript l).poweredUp = s.poweredUp := rfl

/-! ## setOut -/

@[simp] theorem State.setOut_board (s : State) (l : List Byte) : (s.setOut l).board = s.board := rfl
@[simp] theorem State.setOut_regs (s : State) (l : List Byte) : (s.setOut l).regs = s.regs := rfl
@[simp] theorem State.setOut_flash (s : State) (l : List Byte) : (s.setOut l).flash = s.flash := rfl
@[simp] theorem State.setOut_card (s : State) (l : List Byte) : (s.setOut l).card = s.card := rfl
@[simp] theorem State.setOut_mcu (s : State) (l : List Byte) : (s.setOut l).mcu = s.mcu := rfl
@[simp] theorem State.setOut_fsm (s : State) (l : List Byte) : (s.setOut l).fsm = s.fsm := rfl
@[simp] theorem State.setOut_arrays (s : State) (l : List Byte) : (s.setOut l).arrays = s.arrays := rfl
@[simp] theorem State.setOut_log (s : State) (l : List Byte) : (s.setOut l).log = s.log := rfl
@[simp] theorem State.setOut_fault (s : State) (l : List Byte) : (s.setOut l).fault = s.fault := rfl
@[simp] theorem State.setOut_script (s : State) (l : List Byte) : (s.setOut l).script = s.script := rfl
@[simp] theorem State.setOut_out (s : State) (l : List Byte) : (s.setOut l).out = l := rfl
@[simp] theorem State.setOut_draws (s : State) (l : List Byte) : (s.setOut l).draws = s.draws := rfl
@[simp] theorem State.setOut_rtcLog (s : State) (l : List Byte) : (s.setOut l).rtcLog = s.rtcLog := rfl
@[simp] theorem State.setOut_usbSent (s : State) (l : List Byte) : (s.setOut l).usbSent = s.usbSent := rfl
@[simp] theorem State.setOut_poweredUp (s : State) (l : List Byte) : (s.setOut l).poweredUp = s.poweredUp := rfl

/-! ## addOut -/

@[simp] theorem State.addOut_board (s : State) (b : Byte) : (s.addOut b).board = s.board := rfl
@[simp] theorem State.addOut_regs (s : State) (b : Byte) : (s.addOut b).regs = s.regs := rfl
@[simp] theorem State.addOut_flash (s : State) (b : Byte) : (s.addOut b).flash = s.flash := rfl
@[simp] theorem State.addOut_card (s : State) (b : Byte) : (s.addOut b).card = s.card := rfl
@[simp] theorem State.addOut_mcu (s : State) (b : Byte) : (s.addOut b).mcu = s.mcu := rfl
@[simp] theorem State.addOut_fsm (s : State) (b : Byte) : (s.addOut b).fsm = s.fsm := rfl
@[simp] theorem State.addOut_arrays (s : State) (b : Byte) : (s.addOut b).arrays = s.arrays := rfl
@[simp] theorem State.addOut_log (s : State) (b : Byte) : (s.addOut b).log = s.log := rfl
@[simp] theorem State.addOut_fault (s : State) (b : Byte) : (s.addOut b).fault = s.fault := rfl
@[simp] theorem State.addOut_script (s : State) (b : Byte) : (s.addOut b).script = s.script := rfl
@[simp] theorem State.addOut_out (s : State) (b : Byte) : (s.addOut b).out = s.out ++ [b] := rfl
@[simp] theorem State.addOut_draws (s : State) (b : Byte) : (s.addOut b).draws = s.draws := rfl
@[simp] theorem State.addOut_rtcLog (s : State) (b : Byte) : (s.addOut b).rtcLog = s.rtcLog := rfl
@[simp] theorem State.addOut_usbSent (s : State) (b : Byte) : (s.addOut b).usbSent = s.usbSent := rfl
@[simp] theorem State.addOut_poweredUp (s : State) (b : Byte) : (s.addOut b).poweredUp = s.poweredUp := rfl

/-! ## addDraws -/

@[simp] theorem State.addDraws_board (s : State) (n : Nat) : (s.addDraws n).board = s.board := rfl
@[simp] theorem State.addDraws_regs (s : State) (n : Nat) : (s.addDraws n).regs = s.regs := rfl
@[simp] theorem State.addDraws_flash (s : State) (n : Nat) : (s.addDraws n).flash = s.flash := rfl
@[simp] theorem State.addDraws_card (s : State) (n : Nat) : (s.addDraws n).card = s.card := rfl
@[simp] theorem State.addDraws_mcu (s : State) (n : Nat) : (s.addDraws n).mcu = s.mcu := rfl
@[simp] theorem State.addDraws_fsm (s : State) (n : Nat) : (s.addDraws n).fsm = s.fsm := rfl
@[simp] theorem State.addDraws_arrays (s : State) (n : Nat) : (s.addDraws n).arrays = s.arrays := rfl
@[simp] theorem State.addDraws_log (s : State) (n : Nat) : (s.addDraws n).log = s.log := rfl
@[simp] theorem State.addDraws_fault (s : State) (n : Nat) : (s.addDraws n).fault = s.fault := rfl
@[simp] theorem State.addDraws_script (s : State) (n : Nat) : (s.addDraws n).script = s.script := rfl
@[simp] theorem State.addDraws_out (s : State) (n : Nat) : (s.addDraws n).out = s.out := rfl
@[simp] theorem State.addDraws_draws (s : State) (n : Nat) : (s.addDraws n).draws = s.draws + n := rfl
@[simp] theorem State.addDraws_rtcLog (s : State) (n : Nat) : (s.addDraws n).rtcLog = s.rtcLog := rfl
@[simp] theorem State.addDraws_usbSent (s : State) (n : Nat) : (s.addDraws n).usbSent = s.usbSent := rfl
@[simp] theorem State.addDraws_poweredUp (s : State) (n : Nat) : (s.addDraws n).poweredUp = s.poweredUp := rfl

/-! ## addRtc -/

@[simp] theorem State.addRtc_board (s : State) (w : RtcWrite) : (s.addRtc w).board = s.board := rfl
@[simp] theorem State.addRtc_regs (s : State) (w : RtcWrite) : (s.addRtc w).regs = s.regs := rfl
@[simp] theorem State.addRtc_flash (s : State) (w : RtcWrite) : (s.addRtc w).flash = s.flash := rfl
@[simp] theorem State.addRtc_card (s : State) (w : RtcWrite) : (s.addRtc w).card = s.card := rfl
@[simp] theorem State.addRtc_mcu (s : State) (w : RtcWrite) : (s.addRtc w).mcu = s.mcu := rfl
@[simp] theorem State.addRtc_fsm (s : State) (w : RtcWrite) : (s.addRtc w).fsm = s.fsm := rfl
@[simp] theorem State.addRtc_arrays (s : State) (w : RtcWrite) : (s.addRtc w).arrays = s.arrays := rfl
@[simp] theorem State.addRtc_log (s : State) (w : RtcWrite) : (s.addRtc w).log = s.log := rfl
@[simp] theorem State.addRtc_fault (s : State) (w : RtcWrite) : (s.addRtc w).fault = s.fault := rfl
@[simp] theorem State.addRtc_script (s : State) (w : RtcWrite) : (s.addRtc w).script = s.script := rfl
@[simp] theorem State.addRtc_out (s : State) (w : RtcWrite) : (s.addRtc w).out = s.out := rfl
@[simp] theorem State.addRtc_draws (s : State) (w : RtcWrite) : (s.addRtc w).draws = s.draws := rfl
@[simp] theorem State.addRtc_rtcLog (s : State) (w : RtcWrite) : (s.addRtc w).rtcLog = s.rtcLog ++ [w] := rfl
@[simp] theorem State.addRtc_usbSent (s : State) (w : RtcWrite) : (s.addRtc w).usbSent = s.usbSent := rfl
@[simp] theorem State.addRtc_poweredUp (s : State) (w : RtcWrite) : (s.addRtc w).poweredUp = s.poweredUp := rfl

/-! ## addUsb -/

@[simp] theorem State.addUsb_board (s : State) (l : List Byte) : (s.addUsb l).board = s.board := rfl
@[simp] theorem State.addUsb_regs (s : State) (l : List Byte) : (s.addUsb l).regs = s.regs := rfl
@[simp] theorem State.addUsb_flash (s : State) (l : List Byte) : (s.addUsb l).flash = s.flash := rfl
@[simp] theorem State.addUsb_card (s : State) (l : List Byte) : (s.addUsb l).card = s.card := rfl
@[simp] theorem State.addUsb_mcu (s : State) (l : List Byte) : (s.addUsb l).mcu = s.mcu := rfl
@[simp] theorem State.addUsb_fsm (s : State) (l : List Byte) : (s.addUsb l).fsm = s.fsm := rfl
@[simp] theorem State.addUsb_arrays (s : State) (l : List Byte) : (s.addUsb l).arrays = s.arrays := rfl
@[simp] theorem State.addUsb_log (s : State) (l : List Byte) : (s.addUsb l).log = s.log := rfl
@[simp] theorem State.addUsb_fault (s : State) (l : List Byte) : (s.addUsb l).fault = s.fault := rfl
@[simp] theorem State.addUsb_script (s : State) (l : List Byte) : (s.addUsb l).script = s.script := rfl
@[simp] theorem State.addUsb_out (s : State) (l : List Byte) : (s.addUsb l).out = s.out := rfl
@[simp] theorem State.addUsb_draws (s : State) (l : List Byte) : (s.addUsb l).draws = s.draws := rfl
@[simp] theorem State.addUsb_rtcLog (s : State) (l : List Byte) : (s.addUsb l).rtcLog = s.rtcLog := rfl
@[simp] theorem State.addUsb_usbSent (s : State) (l : List Byte) : (s.addUsb l).usbSent = s.usbSent ++ l := rfl
@[simp] theorem State.addUsb_poweredUp (s : State) (l : List Byte) : (s.addUsb l).poweredUp = s.poweredUp := rfl

/-! ## writeCells -/

@[simp] theorem State.writeCells_board (s : State) (r : Region) (lo : Nat) (bytes : List Byte) : (s.writeCells r lo bytes).board = s.board := rfl
@[simp] theorem State.writeCells_regs (s : State) (r : Region) (lo : Nat) (bytes : List Byte) : (s.writeCells r lo bytes).regs = s.regs := rfl
@[simp] theorem State.writeCells_flash (s : State) (r : Region) (lo : Nat) (bytes : List Byte) : (s.writeCells r lo bytes).flash = s.flash := rfl
@[simp] theorem State.writeCells_card (s : State) (r : Region) (lo : Nat) (bytes : List Byte) : (s.writeCells r lo bytes).card = s.card := rfl
@[simp] theorem State.writeCells_mcu (s : State) (r : Region) (lo : Nat) (bytes : List Byte) : (s.writeCells r lo bytes).mcu = s.mcu := rfl
@[simp] theorem State.writeCells_fsm (s : State) (r : Region) (lo : Nat) (bytes : List Byte) : (s.writeCells r lo bytes).fsm = s.fsm := rfl
@[simp] theorem State.writeCells_arrays (s : State) (r : Region) (lo : Nat) (bytes : List Byte) : (s.writeCells r lo bytes).arrays = s.arrays.set r ((s.arrays.get r).write lo bytes) := rfl
@[simp] theorem State.writeCells_log (s : State) (r : Region) (lo : Nat) (bytes : List Byte) : (s.writeCells r lo bytes).log = s.log := rfl
@[simp] theorem State.writeCells_fault (s : State) (r : Region) (lo : Nat) (bytes : List Byte) : (s.writeCells r lo bytes).fault = s.fault := rfl
@[simp] theorem State.writeCells_script (s : State) (r : Region) (lo : Nat) (bytes : List Byte) : (s.writeCells r lo bytes).script = s.script := rfl
@[simp] theorem State.writeCells_out (s : State) (r : Region) (lo : Nat) (bytes : List Byte) : (s.writeCells r lo bytes).out = s.out := rfl
@[simp] theorem State.writeCells_draws (s : State) (r : Region) (lo : Nat) (bytes : List Byte) : (s.writeCells r lo bytes).draws = s.draws := rfl
@[simp] theorem State.writeCells_rtcLog (s : State) (r : Region) (lo : Nat) (bytes : List Byte) : (s.writeCells r lo bytes).rtcLog = s.rtcLog := rfl
@[simp] theorem State.writeCells_usbSent (s : State) (r : Region) (lo : Nat) (bytes : List Byte) : (s.writeCells r lo bytes).usbSent = s.usbSent := rfl
@[simp] theorem State.writeCells_poweredUp (s : State) (r : Region) (lo : Nat) (bytes : List Byte) : (s.writeCells r lo bytes).poweredUp = s.poweredUp := rfl

/-! ## One array at a time -/

@[simp] theorem Arrays.get_set_same (a : Arrays) (r : Region) (m : Memory) : (a.set r m).get r = m := by
  cases r <;> rfl

theorem Arrays.get_set_other (a : Arrays) (r r' : Region) (m : Memory) (h : r' ≠ r) : (a.set r m).get r' = a.get r' := by
  cases r <;> cases r' <;> first | rfl | exact absurd rfl h

theorem Arrays.ext_get (a b : Arrays) (h : ∀ r, a.get r = b.get r) : a = b := by
  cases a
  cases b
  have h1 := h .psram
  have h2 := h .sram
  have h3 := h .ipc
  have h4 := h .tx
  have h5 := h .rx
  have h6 := h .rom
  have h7 := h .flash
  have h8 := h .card
  simp only [Arrays.get] at h1 h2 h3 h4 h5 h6 h7 h8
  subst h1 h2 h3 h4 h5 h6 h7 h8
  rfl

/-! ## One FIFO at a time -/

@[simp] theorem State.fifo_setFifo_same (s : State) (d : Periph) (w : FifoId) (l : List Byte) :
    (s.setFifo d w l).fifo d w = l := by
  cases d <;> cases w <;> rfl

theorem State.fifo_setFifo_other (s : State) (d d' : Periph) (w w' : FifoId) (l : List Byte) (h : (d', w') ≠ (d, w)) :
    (s.setFifo d w l).fifo d' w' = s.fifo d' w' := by
  cases d <;> cases w <;> cases d' <;> cases w' <;> first | rfl | exact absurd rfl h

@[simp] theorem State.setFifo_board (s : State) (d : Periph) (w : FifoId) (l : List Byte) :
    (s.setFifo d w l).board = s.board := by
  cases d <;> cases w <;> rfl

@[simp] theorem State.setFifo_regs (s : State) (d : Periph) (w : FifoId) (l : List Byte) :
    (s.setFifo d w l).regs = s.regs := by
  cases d <;> cases w <;> rfl

@[simp] theorem State.setFifo_fsm (s : State) (d : Periph) (w : FifoId) (l : List Byte) :
    (s.setFifo d w l).fsm = s.fsm := by
  cases d <;> cases w <;> rfl

@[simp] theorem State.setFifo_arrays (s : State) (d : Periph) (w : FifoId) (l : List Byte) :
    (s.setFifo d w l).arrays = s.arrays := by
  cases d <;> cases w <;> rfl

@[simp] theorem State.setFifo_log (s : State) (d : Periph) (w : FifoId) (l : List Byte) :
    (s.setFifo d w l).log = s.log := by
  cases d <;> cases w <;> rfl

@[simp] theorem State.setFifo_fault (s : State) (d : Periph) (w : FifoId) (l : List Byte) :
    (s.setFifo d w l).fault = s.fault := by
  cases d <;> cases w <;> rfl

@[simp] theorem State.setFifo_script (s : State) (d : Periph) (w : FifoId) (l : List Byte) :
    (s.setFifo d w l).script = s.script := by
  cases d <;> cases w <;> rfl

@[simp] theorem State.setFifo_out (s : State) (d : Periph) (w : FifoId) (l : List Byte) :
    (s.setFifo d w l).out = s.out := by
  cases d <;> cases w <;> rfl

@[simp] theorem State.setFifo_draws (s : State) (d : Periph) (w : FifoId) (l : List Byte) :
    (s.setFifo d w l).draws = s.draws := by
  cases d <;> cases w <;> rfl

@[simp] theorem State.setFifo_rtcLog (s : State) (d : Periph) (w : FifoId) (l : List Byte) :
    (s.setFifo d w l).rtcLog = s.rtcLog := by
  cases d <;> cases w <;> rfl

@[simp] theorem State.setFifo_usbSent (s : State) (d : Periph) (w : FifoId) (l : List Byte) :
    (s.setFifo d w l).usbSent = s.usbSent := by
  cases d <;> cases w <;> rfl

@[simp] theorem State.setFifo_poweredUp (s : State) (d : Periph) (w : FifoId) (l : List Byte) :
    (s.setFifo d w l).poweredUp = s.poweredUp := by
  cases d <;> cases w <;> rfl

end Sys2Proof.Machine
end

