-- ==== Sys2Proof/Laws/Memory.lean ====
section
/-! SUPPORT. Byte arrays: what a write leaves at every offset, and the one form every write keeps. -/

namespace Sys2Proof.Machine

/-- The form of a memory, as a statement about its list. -/
theorem Memory.wf_iff (m : Memory) : m.wf = true ↔ m.cells.Pairwise (fun c d => c.1 < d.1) := by
  simp [Memory.wf]

@[simp] theorem Memory.blank_wf : Memory.blank.wf = true := by decide

@[simp] theorem Memory.read_blank (a : Nat) : Memory.blank.read a = none := rfl

theorem lookup_append (l₁ l₂ : List Host.Cell) (a : Nat) :
    (l₁ ++ l₂).lookup a = ((l₁.lookup a).or (l₂.lookup a)) := by
  induction l₁ with
  | nil => simp
  | cons c l ih =>
    obtain ⟨k, v⟩ := c
    by_cases h : a = k
    · subst h; simp [List.lookup]
    · have : (a == k) = false := by simp [h]
      simp [List.lookup, this, ih]

theorem lookup_filter (l : List Host.Cell) (p : Nat → Bool) (a : Nat) :
    (l.filter (fun c => p c.1)).lookup a = if p a then l.lookup a else none := by
  induction l with
  | nil => simp
  | cons c l ih =>
    obtain ⟨k, v⟩ := c
    by_cases hk : p k
    · simp only [List.filter_cons_of_pos (p := fun c : Host.Cell => p c.1) (a := (k, v)) (l := l) hk]
      by_cases h : a = k
      · subst h; simp [List.lookup, hk]
      · have : (a == k) = false := by simp [h]
        simp [List.lookup, this, ih]
    · simp only [List.filter_cons_of_neg (p := fun c : Host.Cell => p c.1) (a := (k, v)) (l := l) hk]
      by_cases h : a = k
      · subst h; simp [ih, hk]
      · have : (a == k) = false := by simp [h]
        simp [List.lookup, this, ih]

theorem lookup_zipIdx (bytes : List Byte) (lo a : Nat) :
    ((bytes.zipIdx lo).map (fun p => ((p.2, p.1) : Host.Cell))).lookup a
      = if lo ≤ a then bytes[a - lo]? else none := by
  induction bytes generalizing lo with
  | nil => simp
  | cons b bs ih =>
    simp only [List.zipIdx_cons, List.map_cons, List.lookup]
    by_cases h : a = lo
    · subst h; simp
    · have : (a == lo) = false := by simp [h]
      simp only [this, ih]
      by_cases hlt : lo + 1 ≤ a
      · have h1 : lo ≤ a := by omega
        have h2 : a - lo = (a - (lo + 1)) + 1 := by omega
        simp [hlt, h1, h2]
      · have h1 : ¬ lo ≤ a := by omega
        simp [hlt, h1]

/-- What a write leaves at every offset: the written bytes in its range, the old contents elsewhere. -/
theorem Memory.read_write (m : Memory) (lo : Nat) (bytes : List Byte) (a : Nat) :
    (m.write lo bytes).read a
      = if lo ≤ a ∧ a < lo + bytes.length then bytes[a - lo]? else m.read a := by
  simp only [Memory.read, Memory.write, lookup_append]
  rw [lookup_filter m.cells (fun k => decide (k < lo)), lookup_filter m.cells (fun k => decide (lo + bytes.length ≤ k)),
    lookup_zipIdx]
  by_cases h1 : a < lo
  · have h2 : ¬ lo ≤ a := by omega
    have h3 : ¬ lo + bytes.length ≤ a := by omega
    simp [h1, h2, h3]
  · have h2 : lo ≤ a := by omega
    by_cases h3 : a < lo + bytes.length
    · have h4 : ¬ lo + bytes.length ≤ a := by omega
      have h5 : a - lo < bytes.length := by omega
      simp [h1, h2, h3, h5]
    · have h4 : lo + bytes.length ≤ a := by omega
      have h5 : bytes.length ≤ a - lo := by omega
      simp [h1, h2, h3, h4, List.getElem?_eq_none h5]

/-- Every write keeps the form. -/
theorem Memory.write_wf (m : Memory) (lo : Nat) (bytes : List Byte) (h : m.wf = true) : (m.write lo bytes).wf = true := by
  rw [Memory.wf_iff] at h ⊢
  simp only [Memory.write, List.pairwise_append]
  have hmid : ((bytes.zipIdx lo).map (fun p => ((p.2, p.1) : Host.Cell))).Pairwise (fun c d => c.1 < d.1) := by
    rw [List.pairwise_map]
    clear h
    induction bytes generalizing lo with
    | nil => simp
    | cons b bs ih =>
      simp only [List.zipIdx_cons, List.pairwise_cons]
      refine ⟨fun x hx => ?_, ih (lo + 1)⟩
      have := List.le_snd_of_mem_zipIdx hx
      omega
  have hrange : ∀ c ∈ (bytes.zipIdx lo).map (fun p => ((p.2, p.1) : Host.Cell)), lo ≤ c.1 ∧ c.1 < lo + bytes.length := by
    intro c hc
    simp only [List.mem_map] at hc
    obtain ⟨p, hp, rfl⟩ := hc
    exact ⟨List.le_snd_of_mem_zipIdx hp, by have := List.snd_lt_add_of_mem_zipIdx hp; omega⟩
  refine ⟨⟨h.filter _, hmid, fun c hc d hd => ?_⟩, h.filter _, fun c hc d hd => ?_⟩
  · simp only [List.mem_filter, decide_eq_true_eq] at hc
    have := hrange d hd
    omega
  · simp only [List.mem_filter, decide_eq_true_eq] at hd
    rcases List.mem_append.1 hc with hc | hc
    · simp only [List.mem_filter, decide_eq_true_eq] at hc
      omega
    · have := hrange c hc
      omega

/-- Two memories of the one form that read alike are equal data. -/
theorem Memory.ext_read (m n : Memory) (hm : m.wf = true) (hn : n.wf = true) (h : ∀ a, m.read a = n.read a) : m = n := by
  obtain ⟨l⟩ := m
  obtain ⟨k⟩ := n
  rw [Memory.wf_iff] at hm hn
  simp only [Memory.read] at h
  simp only at hm hn
  congr
  induction l generalizing k with
  | nil =>
    cases k with
    | nil => rfl
    | cons c k => have := h c.1; simp [List.lookup] at this
  | cons c l ih =>
    cases k with
    | nil => have := h c.1; simp [List.lookup] at this
    | cons d k =>
      obtain ⟨ca, cv⟩ := c
      obtain ⟨da, dv⟩ := d
      rw [List.pairwise_cons] at hm hn
      have none_of (x : Nat) (q : List Host.Cell) (hq : ∀ e ∈ q, x < e.1) : q.lookup x = none := by
        induction q with
        | nil => rfl
        | cons e q ihq =>
          have h1 := hq e (by simp)
          have : (x == e.1) = false := by simp; omega
          obtain ⟨ea, ev⟩ := e
          simp only [List.lookup, this]
          exact ihq (fun e' he' => hq e' (by simp [he']))
      have hkeys : ca = da := by
        rcases Nat.lt_trichotomy ca da with hlt | heq | hgt
        · have h1 := h ca
          have : (ca == da) = false := by simp; omega
          simp only [List.lookup, beq_self_eq_true, this] at h1
          rw [none_of ca k (fun e he => by have := hn.1 e he; simp at this; omega)] at h1
          simp at h1
        · exact heq
        · have h1 := h da
          have : (da == ca) = false := by simp; omega
          simp only [List.lookup, beq_self_eq_true, this] at h1
          rw [none_of da l (fun e he => by have := hm.1 e he; simp at this; omega)] at h1
          simp at h1
      subst hkeys
      have hv := h ca
      simp only [List.lookup, beq_self_eq_true, Option.some.injEq] at hv
      subst hv
      congr 1
      refine ih hm.2 k hn.2 (fun a => ?_)
      have ha := h a
      by_cases hca : a = ca
      · subst hca
        rw [none_of a l (fun e he => by simpa using hm.1 e he), none_of a k (fun e he => by simpa using hn.1 e he)]
      · have : (a == ca) = false := by simp [hca]
        simpa [List.lookup, this] using ha

/-- Writing no bytes changes nothing. -/
theorem Memory.write_nil (m : Memory) (lo : Nat) (h : m.wf = true) : m.write lo [] = m := by
  refine Memory.ext_read _ _ (Memory.write_wf _ _ _ h) h fun a => ?_
  rw [Memory.read_write, if_neg]
  simp only [List.length_nil]
  omega

/-- A write is a write of its first bytes, then of the rest behind them. -/
theorem Memory.write_append (m : Memory) (lo : Nat) (xs ys : List Byte) (h : m.wf = true) :
    m.write lo (xs ++ ys) = (m.write lo xs).write (lo + xs.length) ys := by
  refine Memory.ext_read _ _ (Memory.write_wf _ _ _ h) (Memory.write_wf _ _ _ (Memory.write_wf _ _ _ h)) fun a => ?_
  simp only [Memory.read_write, List.length_append]
  by_cases h1 : lo ≤ a ∧ a < lo + xs.length
  · rw [if_pos (by omega), if_neg (by omega), if_pos h1, List.getElem?_append_left (by omega)]
  · by_cases h2 : lo + xs.length ≤ a ∧ a < lo + xs.length + ys.length
    · rw [if_pos (by omega), if_pos h2, List.getElem?_append_right (by omega)]
      congr 1; omega
    · rw [if_neg (by omega), if_neg h2, if_neg h1]

/-- Reading any cell after a write to an array. -/
theorem State.readCell_writeCells (s : State) (r r' : Region) (lo a : Nat) (bytes : List Byte) :
    (s.writeCells r lo bytes).readCell r' a
      = if r' = r ∧ lo ≤ a ∧ a < lo + bytes.length then bytes.getD (a - lo) 0 else s.readCell r' a := by
  by_cases hr : r' = r
  · subst hr
    simp only [State.readCell, State.writeCells_arrays, Arrays.get_set_same, Memory.read_write, true_and]
    by_cases h : lo ≤ a ∧ a < lo + bytes.length
    · have h5 : a - lo < bytes.length := by omega
      simp [h, h5, List.getD]
    · simp [h]
  · simp [State.readCell, Arrays.get_set_other _ _ _ _ hr, hr]

/-- A read depends on the arrays alone. -/
theorem State.readCell_congr (s t : State) (r : Region) (a : Nat) (h : t.arrays.get r = s.arrays.get r) :
    t.readCell r a = s.readCell r a := by
  simp [State.readCell, h]

/-! ## What a store leaves of memory -/

/-- Arrays that did not change hold no stored byte. -/
theorem State.storesOnly_none {s t : State} {r : Region} {stored : Nat → Option Byte} (ha : t.arrays = s.arrays)
    (h : ∀ x, stored x = none) : s.storesOnly t r stored := by
  intro r' x
  rw [h, State.readCell_congr s t r' x (by rw [ha])]
  split
  · next hr => subst hr; rfl
  · rfl

/-- A write of consecutive bytes to an array stores them and nothing else. -/
theorem State.storesOnly_writeCells (s : State) (r : Region) (lo : Nat) (bytes : List Byte) :
    s.storesOnly (s.writeCells r lo bytes) r
      (fun x => if lo ≤ x ∧ x < lo + bytes.length then some (bytes.getD (x - lo) 0) else none) := by
  intro r' x
  rw [State.readCell_writeCells]
  by_cases hr : r' = r
  · subst hr
    by_cases hx : lo ≤ x ∧ x < lo + bytes.length
    · simp [hx]
    · rw [if_neg (by tauto), if_pos rfl]; simp only [if_neg hx, Option.getD_none]
  · rw [if_neg (by tauto), if_neg hr]

/-- The stored bytes may be said another way, and the rest of the states does not matter. -/
theorem State.storesOnly_congr {s s' t t' : State} {r : Region} {f g : Nat → Option Byte} (h : s.storesOnly t r f)
    (hs : s'.arrays = s.arrays) (ht : t'.arrays = t.arrays) (hfg : ∀ x, f x = g x) : s'.storesOnly t' r g := by
  intro r' x
  rw [State.readCell_congr t t' r' x (by rw [ht]), State.readCell_congr s s' r' x (by rw [hs]),
    State.readCell_congr s s' r x (by rw [hs]), ← hfg]
  exact h r' x

/-! ## The one form -/

theorem Arrays.set_wf (a : Arrays) (r : Region) (m : Memory) (ha : a.wf) (hm : m.wf = true) : (a.set r m).wf := by
  intro r'
  by_cases h : r' = r
  · subst h; simpa using hm
  · rw [Arrays.get_set_other _ _ _ _ h]; exact ha r'

theorem State.writeCells_wf (s : State) (r : Region) (lo : Nat) (bytes : List Byte) (h : s.arrays.wf) :
    (s.writeCells r lo bytes).arrays.wf := by
  simp only [State.writeCells_arrays]
  exact Arrays.set_wf _ _ _ h (Memory.write_wf _ _ _ (h r))

theorem Arrays.blank_wf : Arrays.blank.wf := by
  intro r; cases r <;> rfl

end Sys2Proof.Machine
end

