-- ==== Sys2Proof/Laws/Ops.lean ====
section
/-! SUPPORT. Pieces of an operation, whole operations, and byte FIFOs: what each can do, said once. -/

namespace Sys2Proof.Machine

/-! ## Pieces of an operation -/

@[simp] theorem Res.bind_ok {α β : Type} (a : α) (s : State) (f : α → State → Res β) : (Res.ok a s).bind f = f a s := rfl

@[simp] theorem Res.bind_halt {α β : Type} (s : State) (f : α → State → Res β) : (Res.halt s : Res α).bind f = .halt s := rfl

@[simp] theorem Res.state_ok {α : Type} (a : α) (s : State) : (Res.ok a s).state = s := rfl

@[simp] theorem Res.state_halt {α : Type} (s : State) : (Res.halt s : Res α).state = s := rfl

@[simp] theorem Res.bind_done {β : Type} (s : State) (f : Unit → State → Res β) : (done s).bind f = f () s := rfl

@[simp] theorem done_state (s : State) : (done s).state = s := rfl

theorem Res.bind_assoc {α β γ : Type} (r : Res α) (f : α → State → Res β) (g : β → State → Res γ) :
    (r.bind f).bind g = r.bind fun a s => (f a s).bind g := by
  cases r <;> rfl

/-- What a sequence of two pieces can do. -/
theorem Res.bind_cases {α β : Type} (r : Res α) (f : α → State → Res β) :
    (∃ s, r = .halt s ∧ r.bind f = .halt s) ∨ ∃ a s, r = .ok a s ∧ r.bind f = f a s := by
  cases r with
  | ok a s => exact .inr ⟨a, s, rfl, rfl⟩
  | halt s => exact .inl ⟨s, rfl, rfl⟩

/-- A property that both pieces keep holds of the state a sequence leaves. -/
theorem Res.bind_keeps {α β : Type} {P : State → Prop} {r : Res α} {f : α → State → Res β} (hr : P r.state)
    (hf : ∀ a s, P s → P (f a s).state) : P (r.bind f).state := by
  cases r with
  | ok a s => exact hf a s hr
  | halt s => exact hr

/-! ## Whole operations (R181) -/

/-- An operation of a running block answers the state its piece leaves. -/
theorem operate_running (s : State) (f : State → Res Unit) (h : s.fault = none) :
    operate s f = .next (f (s.setOut [])).state := by
  simp [operate, h]

/-- An operation of a halted block is refused with the fault reason. -/
theorem operate_halted (s : State) (f : State → Res Unit) (r : Fault) (h : s.fault = some r) : operate s f = .fault r := by
  simp [operate, h]

/-- Everything an operation can do. -/
theorem operate_next {s t : State} {f : State → Res Unit} (h : operate s f = .next t) :
    s.fault = none ∧ t = (f (s.setOut [])).state := by
  unfold operate at h
  split at h
  · cases h
  · next hf => exact ⟨hf, by cases h; rfl⟩

/-! ## The board's constraints (R12) -/

theorem Board.wf_fifoCap {b : Board} (h : b.wf = true) : 1024 ≤ b.fifoCap := by
  simp only [Board.wf, Bool.and_eq_true, decide_eq_true_eq] at h
  tauto

theorem Board.wf_cardBlock {b : Board} (h : b.wf = true) : b.cardReadGap + 514 ≤ b.fifoCap := by
  simp only [Board.wf, Bool.and_eq_true, decide_eq_true_eq] at h
  tauto

theorem Board.wf_psramBanks {b : Board} (h : b.wf = true) : 1 ≤ b.psramBanks ∧ b.psramBanks ≤ 511 := by
  simp only [Board.wf, Bool.and_eq_true, decide_eq_true_eq] at h
  tauto

theorem Board.wf_ifcondTail {b : Board} (h : b.wf = true) : b.cardIfcondTail.length = 4 := by
  simp only [Board.wf, Bool.and_eq_true, decide_eq_true_eq] at h
  tauto

theorem Board.wf_waitReadLimit {b : Board} (h : b.wf = true) : 1 ≤ b.waitReadLimit := by
  simp only [Board.wf, Bool.and_eq_true, decide_eq_true_eq] at h
  tauto

theorem Board.wf_eepromWords {b : Board} (h : b.wf = true) : 1 ≤ b.eepromWords := by
  simp only [Board.wf, Bool.and_eq_true, decide_eq_true_eq] at h
  tauto

theorem Board.wf_regMap {b : Board} (h : b.wf = true) : (b.regMap.map (·.off)).Nodup := by
  simp only [Board.wf, Board.regMapWf, Bool.and_eq_true, decide_eq_true_eq] at h
  tauto

theorem Board.wf_sramBanks {b : Board} (h : b.wf = true) : ∀ n ∈ b.sramBanks, n ≤ 16 := by
  simp only [Board.wf, Bool.and_eq_true, List.all_eq_true, decide_eq_true_eq] at h
  tauto

/-- The six MCU opcodes are distinct (R12, D50). -/
theorem Board.wf_mcuOps {b : Board} (h : b.wf = true) :
    [b.mcuOpEcho, b.mcuOpEepromModeSet, b.mcuOpEepromModeGet, b.mcuOpEepromRead, b.mcuOpUsbRead, b.mcuOpUsbWrite].Nodup := by
  simp only [Board.wf, Bool.and_eq_true] at h
  have h1 := h.1.2
  exact of_decide_eq_true h1

/-! ## Byte FIFOs (41_fifo.md) -/

/-- Everything a push can do (R89). -/
theorem push_cases (d : Periph) (w : FifoId) (bytes : List Byte) (s : State) :
    (s.board.fifoCap < (s.fifo d w).length + bytes.length ∧
      push d w bytes s = .halt (s.setFault (.fifoOverflow d w))) ∨
    ((s.fifo d w).length + bytes.length ≤ s.board.fifoCap ∧
      push d w bytes s = .ok () (s.setFifo d w (s.fifo d w ++ bytes))) := by
  unfold push
  split
  · next h => exact .inl ⟨h, rfl⟩
  · next h => exact .inr ⟨by omega, rfl⟩

/-- A push that fits. -/
theorem push_fits {d : Periph} {w : FifoId} {bytes : List Byte} {s : State}
    (h : (s.fifo d w).length + bytes.length ≤ s.board.fifoCap) :
    push d w bytes s = .ok () (s.setFifo d w (s.fifo d w ++ bytes)) := by
  rw [push, if_neg (by omega)]; rfl

/-- A push that does not fit. -/
theorem push_overflows {d : Periph} {w : FifoId} {bytes : List Byte} {s : State}
    (h : s.board.fifoCap < (s.fifo d w).length + bytes.length) :
    push d w bytes s = .halt (s.setFault (.fifoOverflow d w)) := by
  rw [push, if_pos h]; rfl

@[simp] theorem popFifo_rest (l : List Byte) (n : Nat) : (popFifo l n).rest = l.drop n := rfl

@[simp] theorem popFifo_out_zero (l : List Byte) : (popFifo l 0).out = [] := by simp [popFifo, fill]

/-- A pop of `n + 1` bytes is a pop of one, then of `n`. -/
theorem popFifo_out_succ (l : List Byte) (n : Nat) : (popFifo l (n + 1)).out = pop1 l :: (popFifo (pop1Rest l) n).out := by
  cases l <;> simp [popFifo, pop1, pop1Rest, fill, List.replicate_succ]

theorem popFifo_out_add (l : List Byte) (m n : Nat) :
    (popFifo l (m + n)).out = (popFifo l m).out ++ (popFifo (l.drop m) n).out := by
  induction m generalizing l with
  | zero => simp
  | succ m ih =>
    rw [show m + 1 + n = (m + n) + 1 by omega, popFifo_out_succ, popFifo_out_succ, ih]
    cases l <;> simp [pop1Rest]

@[simp] theorem popFifo_out_length (l : List Byte) (n : Nat) : (popFifo l n).out.length = n := by
  simp [popFifo, fill]; omega

/-- A pop of what is there. -/
theorem popFifo_out_of_length {l : List Byte} {n : Nat} (h : l.length = n) : (popFifo l n).out = l := by
  subst h; simp [popFifo, fill]

@[simp] theorem popFifo_out_nil (n : Nat) : (popFifo [] n).out = List.replicate n 0xFF := by
  simp [popFifo, fill, fillByte]

@[simp] theorem pop1Rest_eq (l : List Byte) : pop1Rest l = l.tail := rfl

@[simp] theorem pop1_eq (l : List Byte) : pop1 l = l.headD 0xFF := rfl

@[simp] theorem byteOf_cons_zero (a : Byte) (l : List Byte) : byteOf (a :: l) 0 = a := rfl

@[simp] theorem byteOf_cons_succ (a : Byte) (l : List Byte) (n : Nat) : byteOf (a :: l) (n + 1) = byteOf l n := rfl

end Sys2Proof.Machine
end

