-- ==== Sys2Proof/Laws/Operands.lean ====
section
/-! SUPPORT. What a register offset and a cartridge address reach: the operand forms of a bus operation, said once. -/

namespace Sys2Proof.Machine

/-! ## Register offsets (R13, R80) -/

/-- Everything `lookup` can answer (R80). -/
theorem lookup_cases (s : State) (off : Byte) :
    (∃ k, s.rtcAt off k ∧ lookup s.board s.regs off = some (.rtc k)) ∨
    ((∀ k, ¬ s.rtcAt off k) ∧
      lookup s.board s.regs off =
        (s.board.regMap.find? (fun e => e.off == off && s.regs.gateOpen e.gate)).map (fun e => .reg e.port)) := by
  unfold lookup State.rtcAt
  split
  · next h => exact .inl ⟨0, by simp [h.1, h.2], rfl⟩
  · next h =>
    split
    · next h1 => exact .inl ⟨1, ⟨h1.1, by simp [h1.2]; intro e; exact h ⟨h1.1, h1.2.trans e⟩⟩, rfl⟩
    · next h1 =>
      refine .inr ⟨fun k hk => ?_, rfl⟩
      by_cases hk0 : k = 0
      · subst hk0; simp at hk; exact h hk
      · simp [hk0] at hk; exact h1 ⟨hk.1, hk.2.1⟩

/-- An offset that reaches a register byte is looked up as that byte. -/
theorem lookup_port {s : State} {off : Byte} {p : RegPort} (hb : s.board.wf = true) (h : s.portAt off p) :
    lookup s.board s.regs off = some (.reg p) := by
  obtain ⟨⟨g, hmem, hg⟩, hr⟩ := h
  rcases lookup_cases s off with ⟨k, hk, -⟩ | ⟨-, hl⟩
  · exact absurd hk (hr k)
  · rw [hl]
    have hnd := Board.wf_regMap hb
    cases hf : s.board.regMap.find? (fun e => e.off == off && s.regs.gateOpen e.gate) with
    | none =>
      have := List.find?_eq_none.1 hf _ hmem
      simp [hg] at this
    | some e =>
      have h1 := List.find?_some hf
      have h2 := List.mem_of_find?_eq_some hf
      simp only [Bool.and_eq_true, beq_iff_eq] at h1
      have : e = ⟨off, p, g⟩ := by
        refine List.inj_on_of_nodup_map hnd h2 hmem ?_
        simp [h1.1]
      simp [this]

/-- An offset looked up as a register byte reaches it. -/
theorem portAt_of_lookup {s : State} {off : Byte} {p : RegPort} (h : lookup s.board s.regs off = some (.reg p)) :
    s.portAt off p := by
  rcases lookup_cases s off with ⟨k, -, hl⟩ | ⟨hr, hl⟩
  · rw [hl] at h; cases h
  · rw [hl] at h
    obtain ⟨e, he, hp⟩ := Option.map_eq_some_iff.1 h
    cases hp
    have h1 := List.find?_some he
    simp only [Bool.and_eq_true, beq_iff_eq] at h1
    exact ⟨⟨e.gate, h1.1 ▸ List.mem_of_find?_eq_some he, h1.2⟩, hr⟩

/-- The offset found for a register byte reaches it. -/
theorem portOffset_some {b : Board} {r : Regs} {p : RegPort} {off : Byte} (h : portOffset b r p = some off) :
    lookup b r off = some (.reg p) := by simpa using List.find?_some h

/-- An offset is found for a register byte exactly if one reaches it. -/
theorem portOffset_isSome {s : State} {p : RegPort} (hb : s.board.wf = true) :
    (portOffset s.board s.regs p).isSome = true ↔ ∃ off, s.portAt off p := by
  constructor
  · intro h
    obtain ⟨off, ho⟩ := Option.isSome_iff_exists.1 h
    exact ⟨off, portAt_of_lookup (portOffset_some ho)⟩
  · rintro ⟨off, h⟩
    obtain ⟨g, hm, -⟩ := h.1
    rw [portOffset, List.find?_isSome]
    exact ⟨off, List.mem_map.2 ⟨_, hm, rfl⟩, by simp [lookup_port hb h]⟩

/-- A forwarded offset is looked up as the RTC. -/
theorem lookup_rtc {s : State} {off : Byte} {k : Fin 2} (h : s.rtcAt off k) :
    lookup s.board s.regs off = some (.rtc k) := by
  obtain ⟨hg, hk⟩ := h
  unfold lookup
  by_cases hk0 : k = 0
  · subst hk0; simp at hk; simp [hg, hk]
  · have : k = 1 := by omega
    subst this
    simp at hk
    simp [hg, hk.1, hk.1 ▸ hk.2]

/-- An offset that is not answered is looked up as nothing. -/
theorem lookup_unanswered {s : State} {off : Byte} (h : s.unanswered off) : lookup s.board s.regs off = none := by
  rcases lookup_cases s off with ⟨k, hk, -⟩ | ⟨-, hl⟩
  · exact absurd hk (h.2 k)
  · rw [hl]
    simp only [Option.map_eq_none_iff, List.find?_eq_none, Bool.and_eq_true, beq_iff_eq, not_and, Bool.not_eq_true]
    exact fun e he => h.1 e he

/-! ## Bytes of a 16-bit register (R82, R83) -/

theorem getLsbD_append8 (h l : Byte) (i : Nat) :
    (h ++ l : Half).getLsbD i = if i < 8 then l.getLsbD i else h.getLsbD (i - 8) :=
  BitVec.getLsbD_append

@[simp] theorem loByte_append (h l : Byte) : loByte (h ++ l) = l := by
  change (h ++ l).extractLsb' 0 8 = l
  rw [BitVec.extractLsb'_append_eq_of_add_le (by omega)]; simp

@[simp] theorem hiByte_append (h l : Byte) : hiByte (h ++ l) = h := by
  change (h ++ l).extractLsb' 8 8 = h
  rw [BitVec.extractLsb'_append_eq_of_le (by omega)]; simp

@[simp] theorem hiByte_loByte (v : Half) : hiByte v ++ loByte v = v := by
  simp only [hiByte, loByte]
  rw [BitVec.extractLsb'_append_extractLsb'_eq_extractLsb' (by omega)]; simp

/-- Writing bits 7:0 keeps bits 15:8 (R83). -/
theorem withLo_eq (v : Half) (b : Byte) : withLo v b = (v &&& 0xFF00) ||| b.setWidth 16 := by
  have mask : ∀ i, i < 16 → (0xFF00#16).getLsbD i = decide (8 ≤ i) := by decide
  have bits : ∀ i, i < 16 → (withLo v b).getLsbD i = ((v &&& 0xFF00#16) ||| b.setWidth 16).getLsbD i := by
    intro i hi
    rw [withLo, getLsbD_append8, BitVec.getLsbD_or, BitVec.getLsbD_and, mask i hi, BitVec.getLsbD_setWidth, hiByte,
      BitVec.getLsbD_extractLsb']
    by_cases h : i < 8
    · have h2 : ¬ 8 ≤ i := by omega
      simp [h, h2, hi]
    · have h2 : 8 ≤ i := by omega
      have h3 : i - 8 < 8 := by omega
      have h4 : 8 + (i - 8) = i := by omega
      simp [h, h2, h3, h4]
  exact BitVec.eq_of_getLsbD_eq bits

/-- Writing bits 15:8 keeps bits 7:0 (R83). -/
theorem withHi_eq (v : Half) (b : Byte) : withHi v b = (v &&& 0x00FF) ||| (b.setWidth 16 <<< 8) := by
  have mask : ∀ i, i < 16 → (0x00FF#16).getLsbD i = decide (i < 8) := by decide
  have bits : ∀ i, i < 16 → (withHi v b).getLsbD i = ((v &&& 0x00FF#16) ||| (b.setWidth 16 <<< 8)).getLsbD i := by
    intro i hi
    rw [withHi, getLsbD_append8, BitVec.getLsbD_or, BitVec.getLsbD_and, mask i hi, BitVec.getLsbD_shiftLeft,
      BitVec.getLsbD_setWidth, loByte, BitVec.getLsbD_extractLsb']
    by_cases h : i < 8
    · simp [h]
    · have h3 : i - 8 < 16 := by omega
      simp [h, h3, hi]
  exact BitVec.eq_of_getLsbD_eq bits

@[simp] theorem withHi_withLo (v : Half) (h l : Byte) : withHi (withLo v l) h = h ++ l := by
  simp [withHi, withLo]

/-! ## Cartridge addresses (R42 to R54) -/

/-- The boot alias is never the place of a write (R49, R50). -/
theorem resolve_write_not_boot {b : Board} {r : Regs} {addr : BitVec 20} {p : Bool} {i : Nat} :
    resolve b r addr true p ≠ some (.boot i) := by
  unfold resolve resolveRam resolveRom
  repeat' split
  all_goals simp_all

/-- A read through the translator is the byte of the place it reaches. -/
theorem readThrough_eq (s : State) (addr : BitVec 20) (p : Bool) : readThrough s addr p = s.byteThrough addr p := by
  unfold readThrough State.byteThrough State.placeOf
  cases resolve s.board s.regs addr false p with
  | none => rfl
  | some l => rfl

/-- A write through the translator changes the arrays alone, and of them the one byte it reaches. -/
theorem writeThrough_spec (s : State) (addr : BitVec 20) (v : Byte) (p : Bool) :
    ∃ arr, writeThrough s addr v p = s.setArrays arr ∧ s.storesAt (s.setArrays arr) (s.placeOf addr true p) v := by
  unfold writeThrough State.placeOf
  cases h : resolve s.board s.regs addr true p with
  | none => exact ⟨s.arrays, rfl, fun r a => by simp [State.readCell]⟩
  | some l =>
    cases hl : l with
    | boot i => exact absurd (hl ▸ h) resolve_write_not_boot
    | _ =>
      refine ⟨_, rfl, fun r a => ?_⟩
      have := State.readCell_writeCells s
      simp only [Option.bind_some, Loc.cell, Option.some.injEq, Prod.mk.injEq]
      refine (this _ r _ a [v]).trans ?_
      simp only [List.length_singleton]
      split
      · next h1 =>
        obtain ⟨rfl, h2, h3⟩ := h1
        have : a - _ = 0 := Nat.sub_eq_zero_of_le (Nat.le_of_lt_succ h3)
        rw [this, if_pos ⟨rfl, by omega⟩]; rfl
      · next h1 => rw [if_neg]; rintro ⟨rfl, rfl⟩; exact h1 ⟨rfl, by omega, by omega⟩

/-- A write through the translator keeps the form of the arrays. -/
theorem writeThrough_wf (s : State) (addr : BitVec 20) (v : Byte) (p : Bool) (h : s.arrays.wf) :
    (writeThrough s addr v p).arrays.wf := by
  unfold writeThrough memWrite
  repeat' split
  all_goals first | exact h | exact State.writeCells_wf _ _ _ _ h

/-- The translator never reaches the ROM image, the flash image or the card image for a write. -/
theorem writeThrough_rom (s : State) (addr : BitVec 20) (v : Byte) (p : Bool) :
    (writeThrough s addr v p).arrays.rom = s.arrays.rom := by
  unfold writeThrough memWrite
  split
  · rfl
  · next l _ => cases l <;> rfl

end Sys2Proof.Machine
end

