-- ==== Sys2Proof/Laws/Bus.lean ====
section
/-! SUPPORT. The cartridge accesses of the bus: when the snoop takes a write, and what a write can do. -/

namespace Sys2Proof.Machine

/-- The snoop takes the accesses of its window while it is active (R81, R86, R87). -/
theorem snooped_iff (s : State) (addr : BitVec 20) (hf : s.fault = none) :
    snooped s addr = true ↔ SnoopActive s ∧ addr.extractLsb' 16 4 = 1 := by
  simp only [snooped, snoopActive, Bool.and_eq_true, beq_iff_eq]
  constructor
  · rintro ⟨⟨h1, h2⟩, h3⟩; exact ⟨⟨hf, h1, h2⟩, h3⟩
  · rintro ⟨⟨_, h1, h2⟩, h3⟩; exact ⟨⟨h1, h2⟩, h3⟩

/-- Every address of a legacy row lies in the window (R76). -/
theorem windowAddr_bank (o : Half) : (windowAddr o).extractLsb' 16 4 = 1 := by
  rw [windowAddr, BitVec.extractLsb'_append_eq_of_le (by omega)]
  decide

/-- Everything a console write can do: outside the window of an active snoop it goes through the translator alone; inside, a
data byte goes through it, and the FSM moves (R87, R171). -/
theorem cartWrite_cases (s : State) (addr : BitVec 20) (v : Byte) :
    (snooped s addr = false ∧ cartWrite addr v s = writeThrough s addr v false) ∨
    (snooped s addr = true ∧ fsmStores s.fsm = true ∧
      cartWrite addr v s = (writeThrough s addr v false).setFsm (fsmNext s.fsm v)) ∨
    (snooped s addr = true ∧ fsmStores s.fsm = false ∧ cartWrite addr v s = s.setFsm (fsmNext s.fsm v)) := by
  unfold cartWrite fsmWrite fsmStore
  cases h : snooped s addr with
  | false => exact .inl ⟨rfl, rfl⟩
  | true =>
    cases h2 : fsmStores s.fsm with
    | false => exact .inr (.inr ⟨rfl, rfl, rfl⟩)
    | true => exact .inr (.inl ⟨rfl, rfl, rfl⟩)

end Sys2Proof.Machine
end

