-- ==== Sys2Proof/Laws/Encoding.lean ====
section
/-! SUPPORT. The byte orders, the fields and the opcode maps of 30_encoding.md, each with its inverse. -/

namespace Sys2Proof

/-! ## Byte order (R55) -/

theorem split8 (a : Half) : a.extractLsb' 8 8 ++ a.extractLsb' 0 8 = a := by
  rw [BitVec.extractLsb'_append_extractLsb'_eq_extractLsb' (by omega)]; simp

theorem split24 (a : BitVec 24) : a.extractLsb' 16 8 ++ a.extractLsb' 8 8 ++ a.extractLsb' 0 8 = a := by
  rw [BitVec.extractLsb'_append_extractLsb'_eq_extractLsb' (by omega),
    BitVec.extractLsb'_append_extractLsb'_eq_extractLsb' (by omega)]; simp

theorem split32 (a : BitVec 32) :
    a.extractLsb' 24 8 ++ a.extractLsb' 16 8 ++ a.extractLsb' 8 8 ++ a.extractLsb' 0 8 = a := by
  rw [BitVec.extractLsb'_append_extractLsb'_eq_extractLsb' (by omega),
    BitVec.extractLsb'_append_extractLsb'_eq_extractLsb' (by omega),
    BitVec.extractLsb'_append_extractLsb'_eq_extractLsb' (by omega)]; simp

/-- Extracting from an appended number, above or below the seam. -/
theorem extract_above {v w start len : Nat} {x : BitVec v} {y : BitVec w} (h : w ≤ start) :
    (x ++ y).extractLsb' start len = x.extractLsb' (start - w) len :=
  BitVec.extractLsb'_append_eq_of_le h

theorem extract_below {v w start len : Nat} {x : BitVec v} {y : BitVec w} (h : start + len ≤ w) :
    (x ++ y).extractLsb' start len = y.extractLsb' start len :=
  BitVec.extractLsb'_append_eq_of_add_le h

theorem extract_all {w : Nat} (x : BitVec w) : x.extractLsb' 0 w = x := by simp

@[simp] theorem le16_le16Bytes (a : Half) : le16 (a.extractLsb' 0 8) (a.extractLsb' 8 8) = a := split8 a

@[simp] theorem le16Bytes_le16 (b0 b1 : Byte) : le16Bytes (le16 b0 b1) = [b0, b1] := by
  change [(b1 ++ b0).extractLsb' 0 8, (b1 ++ b0).extractLsb' 8 8] = _
  simp (disch := omega) [-Nat.reduceAdd, extract_above, extract_below]

@[simp] theorem be16_be16Bytes (a : Half) : be16 (a.extractLsb' 8 8) (a.extractLsb' 0 8) = a := split8 a

@[simp] theorem be16Bytes_be16 (b1 b0 : Byte) : be16Bytes (be16 b1 b0) = [b1, b0] := by
  change [(b1 ++ b0).extractLsb' 8 8, (b1 ++ b0).extractLsb' 0 8] = _
  simp (disch := omega) [-Nat.reduceAdd, extract_above, extract_below]

@[simp] theorem be24_be24Bytes (a : BitVec 24) :
    be24 (a.extractLsb' 16 8) (a.extractLsb' 8 8) (a.extractLsb' 0 8) = a := split24 a

@[simp] theorem be24Bytes_be24 (b1 b2 b3 : Byte) : be24Bytes (be24 b1 b2 b3) = [b1, b2, b3] := by
  change [(b1 ++ b2 ++ b3).extractLsb' 16 8, (b1 ++ b2 ++ b3).extractLsb' 8 8, (b1 ++ b2 ++ b3).extractLsb' 0 8] = _
  simp (disch := omega) [-Nat.reduceAdd, extract_above, extract_below]

@[simp] theorem be32_be32Bytes (a : BitVec 32) :
    be32 (a.extractLsb' 24 8) (a.extractLsb' 16 8) (a.extractLsb' 8 8) (a.extractLsb' 0 8) = a := split32 a

@[simp] theorem be32Bytes_be32 (b3 b2 b1 b0 : Byte) : be32Bytes (be32 b3 b2 b1 b0) = [b3, b2, b1, b0] := by
  change [(b3 ++ b2 ++ b1 ++ b0).extractLsb' 24 8, (b3 ++ b2 ++ b1 ++ b0).extractLsb' 16 8,
    (b3 ++ b2 ++ b1 ++ b0).extractLsb' 8 8, (b3 ++ b2 ++ b1 ++ b0).extractLsb' 0 8] = _
  simp (disch := omega) [-Nat.reduceAdd, extract_above, extract_below]

@[simp] theorem indexBytes_length (l : List Half) : (indexBytes l).length = 2 * l.length := by
  induction l with
  | nil => rfl
  | cons a l ih => simp only [indexBytes, List.flatMap_cons, List.length_append] at ih ⊢; simp [be16Bytes, ih]; omega

@[simp] theorem indexWords_indexBytes (l : List Half) : indexWords (indexBytes l) = l := by
  induction l with
  | nil => rfl
  | cons a l ih =>
    simp only [indexBytes, List.flatMap_cons] at ih ⊢
    simp [be16Bytes, indexWords, ih]

/-- An even number of bytes is the bytes of the indices they spell. -/
theorem indexBytes_indexWords (n : Nat) (l : List Byte) (h : l.length = 2 * n) :
    indexBytes (indexWords l) = l ∧ (indexWords l).length = n := by
  induction n generalizing l with
  | zero =>
    have : l = [] := List.eq_nil_of_length_eq_zero (by omega)
    subst this; exact ⟨rfl, rfl⟩
  | succ n ih =>
    match l, h with
    | b1 :: b0 :: rest, h =>
      obtain ⟨h1, h2⟩ := ih rest (by simp at h; omega)
      simp only [indexWords, indexBytes, List.flatMap_cons, be16Bytes_be16, List.length_cons, h2] at h1 ⊢
      exact ⟨by simp [h1], trivial⟩

/-! ## Fields (R62, R63, R67, R71) -/

@[simp] theorem spiFields_spiWord (f : SpiFields) : spiFields (spiWord f) = f := by
  obtain ⟨a, b, c, d, e, g⟩ := f
  change SpiFields.mk ((a ++ b ++ c ++ d ++ e ++ g).extractLsb' 15 1) ((a ++ b ++ c ++ d ++ e ++ g).extractLsb' 14 1)
    ((a ++ b ++ c ++ d ++ e ++ g).extractLsb' 12 2) ((a ++ b ++ c ++ d ++ e ++ g).extractLsb' 11 1)
    ((a ++ b ++ c ++ d ++ e ++ g).extractLsb' 9 2) ((a ++ b ++ c ++ d ++ e ++ g).extractLsb' 0 9) = _
  simp (disch := omega) [-Nat.reduceAdd, extract_above, extract_below]

@[simp] theorem spiWord_spiFields (w : Half) : spiWord (spiFields w) = w := by
  simp only [spiFields, spiWord]
  rw [BitVec.extractLsb'_append_extractLsb'_eq_extractLsb' (by omega),
    BitVec.extractLsb'_append_extractLsb'_eq_extractLsb' (by omega),
    BitVec.extractLsb'_append_extractLsb'_eq_extractLsb' (by omega),
    BitVec.extractLsb'_append_extractLsb'_eq_extractLsb' (by omega),
    BitVec.extractLsb'_append_extractLsb'_eq_extractLsb' (by omega)]
  simp

@[simp] theorem cardCommandByte_idx (b : BitVec 1) (i : BitVec 6) : (cardCommandByte b i).extractLsb' 0 6 = i := by
  change ((0#1 ++ b) ++ i).extractLsb' 0 6 = i
  simp (disch := omega) [-Nat.reduceAdd, extract_below]

@[simp] theorem cardCommandByte_bit6 (b : BitVec 1) (i : BitVec 6) : (cardCommandByte b i).extractLsb' 6 1 = b := by
  change ((0#1 ++ b) ++ i).extractLsb' 6 1 = b
  simp (disch := omega) [-Nat.reduceAdd, extract_above, extract_below]

@[simp] theorem cardCommandByte_bit7 (b : BitVec 1) (i : BitVec 6) : (cardCommandByte b i).getLsbD 7 = false := by
  change ((0#1 ++ b) ++ i).getLsbD 7 = false
  rw [BitVec.getLsbD_append, BitVec.getLsbD_append]
  simp

@[simp] theorem cardCommandByte_bit7' (b : BitVec 1) (i : BitVec 6) : (cardCommandByte b i)[7] = false :=
  cardCommandByte_bit7 b i

/-- A byte with bit 7 clear is the command byte of its fields. -/
theorem cardCommandByte_fields (c : Byte) (h : c.getLsbD 7 = false) :
    cardCommandByte (c.extractLsb' 6 1) (c.extractLsb' 0 6) = c := by
  revert h; revert c; decide

@[simp] theorem mcuWord_op (op : BitVec 7) (arg : BitVec 9) : (mcuWord op arg).extractLsb' 0 7 = op := by
  change (arg ++ op).extractLsb' 0 7 = op
  simp (disch := omega) [-Nat.reduceAdd, extract_below]

@[simp] theorem mcuWord_arg (op : BitVec 7) (arg : BitVec 9) : (mcuWord op arg).extractLsb' 7 9 = arg := by
  change (arg ++ op).extractLsb' 7 9 = arg
  simp (disch := omega) [-Nat.reduceAdd, extract_above]

@[simp] theorem mcuWord_fields (w : Half) : mcuWord (w.extractLsb' 0 7) (w.extractLsb' 7 9) = w := by
  simp only [mcuWord]
  rw [BitVec.extractLsb'_append_extractLsb'_eq_extractLsb' (by omega)]; simp

/-- The address field of a bus record is its 20 bits. -/
@[simp] theorem busWhere_bytes (a : BitVec 20) :
    busWhere (a.extractLsb' 0 8) (a.extractLsb' 8 8) (0#4 ++ a.extractLsb' 16 4) = a := by
  simp only [busWhere]
  ext i h
  simp only [BitVec.getElem_extractLsb', Nat.zero_add, BitVec.getLsbD_append, BitVec.getLsbD_extractLsb']
  rw [← BitVec.getLsbD_eq_getElem]
  split
  · next h1 => simp [h1]
  · next h1 =>
    split
    · next h2 =>
      have : 8 + (i - 8) = i := by omega
      simp [h2, this]
    · next h2 =>
      have h3 : i - 8 - 8 < 4 := by omega
      have h4 : 16 + (i - 8 - 8) = i := by omega
      simp [h3, h4]

/-- The bytes of an address field are read back as they were sent. -/
theorem whereBytes_busWhere (w0 w1 w2 : Byte) (h : w2.toNat < 16) : whereBytes (busWhere w0 w1 w2) = [w0, w1, w2] := by
  have e : busWhere w0 w1 w2 = (w2.extractLsb' 0 4 ++ w1 ++ w0 : BitVec 20) := by
    unfold busWhere
    apply BitVec.eq_of_getElem_eq
    intro i hi
    rw [BitVec.getElem_extractLsb', ← BitVec.getLsbD_eq_getElem]
    have e1 : (w2 ++ w1 ++ w0 : BitVec (8+8+8)).getLsbD (0+i) = if 0+i < 8 then w0.getLsbD (0+i) else if 0+i-8 < 8 then w1.getLsbD (0+i-8) else w2.getLsbD (0+i-8-8) := by
      simp only [BitVec.getLsbD_append]
    have e2 : (w2.extractLsb' 0 4 ++ w1 ++ w0 : BitVec (4+8+8)).getLsbD i = if i < 8 then w0.getLsbD i else if i-8 < 8 then w1.getLsbD (i-8) else (w2.extractLsb' 0 4).getLsbD (i-8-8) := by
      simp only [BitVec.getLsbD_append]
    refine Eq.trans e1 (Eq.trans ?_ e2.symm)
    simp only [Nat.zero_add, BitVec.getLsbD_extractLsb']
    have : decide (i - 8 - 8 < 4) = true := by simp; omega
    rw [this]; simp
  rw [e]
  change [(w2.extractLsb' 0 4 ++ w1 ++ w0).extractLsb' 0 8, (w2.extractLsb' 0 4 ++ w1 ++ w0).extractLsb' 8 8,
    0#4 ++ (w2.extractLsb' 0 4 ++ w1 ++ w0).extractLsb' 16 4] = _
  simp (disch := omega) [-Nat.reduceAdd, extract_above, extract_below]
  have : ∀ w2 : Byte, w2.toNat < 16 → 0#4 ++ w2.extractLsb' 0 4 = w2 := by decide
  have := this w2 h
  simpa using this

/-- A register offset as the address field of a bus record. -/
theorem whereBytes_offset (off : Byte) : whereBytes (0#12 ++ off) = [off, 0, 0] := by
  revert off; decide

/-! ## Opcode maps (R66, R70, R73, R75) -/

@[simp] theorem flashOpOf_flashCode (op : FlashOp) : flashOpOf (flashCode op) = some op := by cases op <;> rfl

theorem flashCode_of_flashOpOf {b : Byte} {op : FlashOp} (h : flashOpOf b = some op) : flashCode op = b := by
  have := List.find?_some h
  simpa using this

@[simp] theorem cardOpOf_cardIndex (op : CardOp) : cardOpOf (cardIndex op) = some op := by cases op <;> rfl

theorem cardIndex_of_cardOpOf {idx : BitVec 6} {op : CardOp} (h : cardOpOf idx = some op) : cardIndex op = idx := by
  have := List.find?_some h
  simpa using this

@[simp] theorem bootOpOf_bootCode (op : BootOp) : bootOpOf (bootCode op) = some op := by cases op <;> rfl

theorem bootCode_of_bootOpOf {b : Byte} {op : BootOp} (h : bootOpOf b = some op) : bootCode op = b := by
  have := List.find?_some h
  simpa using this

theorem mcuCode_of_mcuOpOf {b : Board} {o : BitVec 7} {op : McuOp} (h : mcuOpOf b o = some op) : mcuCode b op = o := by
  have := List.find?_some h
  simpa using this

/-- On a board whose opcodes are distinct, an opcode names its command (R12, R73). -/
theorem mcuOpOf_mcuCode {b : Board} (h : b.wf = true) (op : McuOp) : mcuOpOf b (mcuCode b op) = some op := by
  have hn := Machine.Board.wf_mcuOps h
  simp only [List.nodup_cons, List.mem_cons, not_or, List.not_mem_nil] at hn
  obtain ⟨⟨h1, h2, h3, h4, h5, -⟩, ⟨h6, h7, h8, h9, -⟩, ⟨h10, h11, h12, -⟩, ⟨h13, h14, -⟩, ⟨h15, -⟩, -⟩ := hn
  cases op <;> simp [mcuOpOf, mcuOps, mcuCode, List.find?, *, beq_eq_false_iff_ne.2]

/-- An opcode that is none of the six names no command (R73). -/
theorem mcuOpOf_eq_none {b : Board} {o : BitVec 7} :
    mcuOpOf b o = none ↔ o ∉ [b.mcuOpEcho, b.mcuOpEepromModeSet, b.mcuOpEepromModeGet, b.mcuOpEepromRead,
      b.mcuOpUsbRead, b.mcuOpUsbWrite] := by
  simp only [mcuOpOf, mcuOps, mcuCode, List.find?_eq_none, List.mem_cons, List.not_mem_nil, or_false, beq_iff_eq,
    forall_eq_or_imp, forall_eq, not_or, eq_comm (a := o)]

@[simp] theorem countOf_eq (arg : BitVec 9) : countOf arg = if arg = 0 then 512 else arg.toNat := rfl

end Sys2Proof
end

