-- ==== Sys2Proof/Laws/Spi.lean ====
section
/-! SUPPORT. The SPI engine: what a write of the control word does, and the frames of a peripheral exchanged byte by byte. -/

namespace Sys2Proof.Machine

/-! ## Control words (R79, R94 to R98) -/

/-- A register byte that an offset reaches is written (R79, R83). -/
theorem writeRegByte_reached {s : State} {p : RegPort} (v : Byte) (hb : s.board.wf = true) (h : ∃ off, s.portAt off p) :
    writeRegByte p v s = portWrite p v s := by
  obtain ⟨off, ho⟩ := Option.isSome_iff_exists.1 ((portOffset_isSome hb).2 h)
  simp only [writeRegByte, ho, regWrite, portOffset_some ho]

/-- One that no offset reaches is not (R8). -/
theorem writeRegByte_unreached {s : State} {p : RegPort} (v : Byte) (hb : s.board.wf = true)
    (h : ∀ off, ¬ s.portAt off p) : writeRegByte p v s = .ok () s := by
  have ho : portOffset s.board s.regs p = none := by
    rw [← Option.not_isSome_iff_eq_none, portOffset_isSome hb]
    exact fun ⟨off, h1⟩ => h off h1
  simp only [writeRegByte, ho, done]

/-- Which bytes an offset reaches depends on the gates alone. -/
theorem portAt_congr {s t : State} {off : Byte} {p : RegPort} (hb : t.board = s.board) (hp : t.regs.powCnt = s.regs.powCnt) :
    t.portAt off p ↔ s.portAt off p := by
  have hg : ∀ g, t.regs.gateOpen g = s.regs.gateOpen g := by
    intro g
    cases g <;> simp [Regs.gateOpen, Regs.powBit, hp]
  simp only [State.portAt, State.rtcAt, hb, hg]

/-- Both bytes of SPI_CNT are within reach of a `RegWrite` (R80). -/
def State.spiReached (s : State) : Prop := (∃ off, s.portAt off (.spiCnt .lo)) ∧ ∃ off, s.portAt off (.spiCnt .hi)

/-- A control word within reach is the two writes of R95 and R96. -/
theorem spiWordWrite_reached (w : Half) (s : State) (hb : s.board.wf = true) (hr : s.spiReached) :
    spiWordWrite w s = (spiCntWrite .lo (loByte w) s).bind fun _ s1 => spiCntWrite .hi (hiByte w) s1 := by
  have hi : ∀ t : State, t.board = s.board → t.regs.powCnt = s.regs.powCnt → ∃ off, t.portAt off (.spiCnt .hi) :=
    fun t h1 h2 => hr.2.imp fun off h => (portAt_congr h1 h2).2 h
  rw [spiWordWrite, writeRegByte_reached _ hb hr.1, portWrite, spiCntWrite]
  split
  · exact writeRegByte_reached _ hb (hi _ rfl rfl)
  · exact writeRegByte_reached _ hb (hi _ rfl rfl)

/-- A control word whose bytes no offset reaches changes nothing. -/
theorem spiWordWrite_unreached (w : Half) (s : State) (hb : s.board.wf = true)
    (hl : ∀ off, ¬ s.portAt off (.spiCnt .lo)) (hh : ∀ off, ¬ s.portAt off (.spiCnt .hi)) :
    spiWordWrite w s = .ok () s := by
  rw [spiWordWrite, writeRegByte_unreached _ hb hl, Res.bind_ok, writeRegByte_unreached _ hb hh]

/-- While BUSY is 1 a control word is rejected twice (R94). -/
theorem spiWordWrite_busy (w : Half) (s : State) (hw : s.board.wf = true) (hr : s.spiReached) (h : s.regs.busy = true) :
    spiWordWrite w s = .ok () ((s.addLog .busyWriteConflict).addLog .busyWriteConflict) := by
  simp [spiWordWrite_reached w s hw hr, spiCntWrite, h, done]

/-- Otherwise a control word is stored whole, then the engine runs, knowing the device selected before (R95, R96). -/
theorem spiWordWrite_idle (w : Half) (s : State) (hw : s.board.wf = true) (hr : s.spiReached) (h : s.regs.busy = false) :
    spiWordWrite w s = runEngine s.regs.dev (s.setRegs { s.regs with spiCnt := w }) := by
  have h15 : ({ s.regs with spiCnt := withLo s.regs.spiCnt (loByte w) } : Regs).busy = false := by
    simp only [Regs.busy, withLo, getLsbD_append8] at h ⊢
    simpa [hiByte] using h
  have hdev : ({ s.regs with spiCnt := withLo s.regs.spiCnt (loByte w) } : Regs).dev = s.regs.dev := by
    simp only [Regs.dev, withLo]
    change (hiByte s.regs.spiCnt ++ loByte w).extractLsb' 12 2 = _
    rw [BitVec.extractLsb'_append_eq_of_le (by omega)]
    apply BitVec.eq_of_getLsbD_eq
    intro i hi
    simp only [hiByte, BitVec.getLsbD_extractLsb']
    have : 12 - 8 + i < 8 := by omega
    have h2 : 8 + (12 - 8 + i) = 12 + i := by omega
    simp [this, h2]
  simp only [spiWordWrite_reached w s hw hr, spiCntWrite, h, h15, hdev, Bool.false_eq_true, if_false, Res.bind_done, State.setRegs_regs,
    withHi_withLo, hiByte_loByte]
  rfl

/-- Everything the engine can do with a stored control word (R96, R97). -/
theorem runEngine_eq (old : BitVec 2) (s : State) :
    runEngine old s =
      if clocked s.board s.regs = false then .ok () s
      else if s.regs.busy = true then transfer (deselect old s) else .ok () (deselect old s) := rfl

/-- The fields of a control word are read back (R24, R63). -/
theorem spiWord_fields (r : Regs) (f : SpiFields) (h : r.spiCnt = spiWord f) :
    r.busy = decide (f.busy = 1) ∧ r.bufidx = f.bufidx ∧ r.dev = f.dev ∧ r.clk390 = decide (f.clk390 = 1) ∧
      r.mode = f.mode ∧ r.len = f.len := by
  obtain ⟨a, b, c, d, e, g⟩ := f
  have one : ∀ x : BitVec 1, x.getLsbD 0 = decide (x = 1) := by decide
  have hb : (a ++ b ++ c ++ d ++ e ++ g).getLsbD 15 = a.getLsbD 0 := by
    rw [BitVec.getLsbD_append, BitVec.getLsbD_append, BitVec.getLsbD_append, BitVec.getLsbD_append,
      BitVec.getLsbD_append]
    simp
  have hd : (a ++ b ++ c ++ d ++ e ++ g).getLsbD 11 = d.getLsbD 0 := by
    rw [BitVec.getLsbD_append, BitVec.getLsbD_append, BitVec.getLsbD_append]
    simp
  simp only [Regs.busy, Regs.bufidx, Regs.dev, Regs.clk390, Regs.mode, Regs.len, h, spiWord]
  refine ⟨hb.trans (one a), ?_, ?_, hd.trans (one d), ?_, ?_⟩
  · change (a ++ b ++ c ++ d ++ e ++ g).extractLsb' 14 1 = b
    simp (disch := omega) [-Nat.reduceAdd, BitVec.extractLsb'_append_eq_of_le, BitVec.extractLsb'_append_eq_of_add_le]
  · change (a ++ b ++ c ++ d ++ e ++ g).extractLsb' 12 2 = c
    simp (disch := omega) [-Nat.reduceAdd, BitVec.extractLsb'_append_eq_of_le, BitVec.extractLsb'_append_eq_of_add_le]
  · change (a ++ b ++ c ++ d ++ e ++ g).extractLsb' 9 2 = e
    simp (disch := omega) [-Nat.reduceAdd, BitVec.extractLsb'_append_eq_of_le, BitVec.extractLsb'_append_eq_of_add_le]
  · change (a ++ b ++ c ++ d ++ e ++ g).extractLsb' 0 9 = g
    simp (disch := omega) [-Nat.reduceAdd, BitVec.extractLsb'_append_eq_of_add_le]

/-- Clearing BUSY keeps every other bit of the control word (R102). -/
theorem spiWord_clearBusy (f : SpiFields) : spiWord f &&& 0x7FFF#16 = spiWord { f with busy := 0 } := by
  obtain ⟨a, b, c, d, e, g⟩ := f
  have mask : (0x7FFF#16) = 0#1 ++ 0x7FFF#15 := by decide
  have split : ∀ x : BitVec 1, (spiWord ⟨x, b, c, d, e, g⟩) = x ++ (b ++ c ++ d ++ e ++ g) := by
    intro x
    simp only [spiWord]
    apply BitVec.eq_of_toNat_eq
    change (x ++ b ++ c ++ d ++ e ++ g).toNat = (x ++ (b ++ c ++ d ++ e ++ g)).toNat
    simp only [BitVec.toNat_append, Nat.shiftLeft_or_distrib, ← Nat.shiftLeft_add, Nat.or_assoc]
  rw [split, split, mask]
  change (a ++ (b ++ c ++ d ++ e ++ g)) &&& (0#1 ++ 0x7FFF#15) = 0#1 ++ (b ++ c ++ d ++ e ++ g)
  rw [BitVec.and_append]
  have all : (b ++ c ++ d ++ e ++ g) &&& 0x7FFF#15 = b ++ c ++ d ++ e ++ g := BitVec.and_allOnes
  rw [all]
  simp

/-- The state a clocked engine starts from: the control word stored, the flash deselected if its device was left (R96). -/
theorem deselect_transferStart (s : State) (f : SpiFields) :
    deselect s.regs.dev ((s.setOut []).setRegs { s.regs with spiCnt := spiWord f })
      = s.transferStart (spiWord f) f.dev := by
  have h := (spiWord_fields { s.regs with spiCnt := spiWord f } f rfl).2.2.1
  unfold deselect
  rw [State.setRegs_regs, h]
  unfold State.transferStart State.flashSelected
  change (if s.regs.dev = 2 ∧ f.dev ≠ 2 then _ else _) = _
  by_cases hc : s.regs.dev = 2 ∧ f.dev ≠ 2
  · have hc' : s.regs.spiCnt.extractLsb' 12 2 = 2 ∧ f.dev ≠ 2 := hc
    rw [if_pos hc, if_pos hc']; rfl
  · have hc' : ¬ (s.regs.spiCnt.extractLsb' 12 2 = 2 ∧ f.dev ≠ 2) := hc
    rw [if_neg hc, if_neg hc']; rfl

/-- A control word written to a ready engine: it is stored, and a transfer runs if it has BUSY = 1 (R96). -/
theorem spiWordWrite_ready (s : State) (f : SpiFields) (hs : EngineReady s f.clk390) :
    spiWordWrite (spiWord f) (s.setOut []) =
      if f.busy = 1 then transfer (s.transferStart (spiWord f) f.dev)
      else .ok () (s.transferStart (spiWord f) f.dev) := by
  have hb : (s.setOut []).regs.busy = false := hs.notBusy
  have hf := spiWord_fields { s.regs with spiCnt := spiWord f } f rfl
  have hc : clocked s.board { s.regs with spiCnt := spiWord f } = true := by
    unfold clocked
    rw [hf.2.2.2.1]
    rcases hs.clocked with h | h
    · simp [h]
    · simp [Regs.powBit, h]
  rw [spiWordWrite_idle (spiWord f) (s.setOut []) hs.board ⟨hs.low, hs.high⟩ hb, runEngine_eq]
  change (if clocked s.board { s.regs with spiCnt := spiWord f } = false then _
    else if ({ s.regs with spiCnt := spiWord f } : Regs).busy = true then
      transfer (deselect s.regs.dev ((s.setOut []).setRegs { s.regs with spiCnt := spiWord f }))
    else .ok () (deselect s.regs.dev ((s.setOut []).setRegs { s.regs with spiCnt := spiWord f }))) = _
  rw [hc, hf.1, deselect_transferStart]
  simp

/-! ## Frames of a peripheral (log entry 4) -/

/-- Where no transfer can run a frame is not sent (R94, R96, R97). -/
theorem sendFrame_silent (bytes : List Byte) (s : State) (h : canTransfer s = false) : sendFrame bytes s = .ok () s := by
  simp [sendFrame, h, done]

/-- The console can have bytes exchanged: the parts of the condition (R80, R94, R97). -/
theorem canTransfer_iff (s : State) (hb : s.board.wf = true) :
    canTransfer s = true ↔
      (∃ off, s.portAt off (.spiCnt .hi)) ∧ s.regs.busy = false ∧ clocked s.board s.regs = true := by
  rw [← portOffset_isSome hb]
  simp [canTransfer, and_assoc]

/-- A frame sent to a selected peripheral is exchanged with it (R99). -/
theorem sendFrame_selected {d : Periph} (bytes : List Byte) (s : State) (hb : s.board.wf = true) (h : Exchanging s d) :
    sendFrame bytes s = feed d bytes s := by
  have hc : canTransfer s = true := (canTransfer_iff s hb).2 ⟨h.reached, h.notBusy, by
    rcases h.clocked with h1 | h1
    · simp [clocked, Regs.clk390, h1]
    · simp [clocked, Regs.powBit, h1]⟩
  have hd : s.regs.dev = periphDev d := h.selected
  rw [sendFrame, hc, hd]
  rfl

@[simp] theorem feed_nil (d : Periph) (s : State) : feed d [] s = .ok () s := rfl

theorem feed_cons (d : Periph) (tx : Byte) (rest : List Byte) (s : State) :
    feed d (tx :: rest) s = (exchange (periphDev d) tx s).bind fun rx s1 => feed d rest (s1.addOut rx) := rfl

theorem feed_append (d : Periph) (a b : List Byte) (s : State) :
    feed d (a ++ b) s = (feed d a s).bind fun _ s1 => feed d b s1 := by
  induction a generalizing s with
  | nil => rfl
  | cons tx rest ih => simp only [List.cons_append, feed_cons, Res.bind_assoc, ih]

@[simp] theorem exchange_flash (tx : Byte) (s : State) : exchange (periphDev .flash) tx s = flashExchange tx s := rfl

@[simp] theorem exchange_card (tx : Byte) (s : State) : exchange (periphDev .card) tx s = cardExchange tx s := rfl

@[simp] theorem exchange_mcu (tx : Byte) (s : State) : exchange (periphDev .mcu) tx s = mcuExchange tx s := rfl

@[simp] theorem exchange_none (tx : Byte) (s : State) : exchange 0 tx s = .ok 0xFF s := rfl

end Sys2Proof.Machine
end

