-- ==== Sys2Proof/Laws/Card.lean ====
section
/-! SUPPORT. The card: what one exchange, a whole frame, a read block and a captured block can do. -/

namespace Sys2Proof.Machine

/-! ## One exchange (R132, R133) -/

/-- An exchange that neither refills nor captures: the reply byte is popped, the byte goes to the framer (R132). -/
theorem cardExchange_scans {tx : Byte} {s : State} (hw : s.card.wcap = .none)
    (hr : ¬ (s.card.streaming = true ∧ s.card.reply = [] ∧ s.card.cmd = [])) :
    cardExchange tx s =
      (cardScan tx (s.setCard { s.card with reply := s.card.reply.tail })).bind
        fun _ t => .ok (s.card.reply.headD 0xFF) t := by
  have h1 : cardRefill s = .ok () s := by
    rw [cardRefill, if_neg (by tauto)]; rfl
  rw [cardExchange, h1, Res.bind_ok]
  simp only [State.setCard_card, hw, ne_eq, not_true_eq_false, if_false]
  rfl

/-- An exchange of a capture: the reply byte is popped, the byte is captured (R132). -/
theorem cardExchange_captures {tx : Byte} {s : State} (hw : s.card.wcap ≠ .none) :
    cardExchange tx s =
      (cardCapture tx (s.setCard { s.card with reply := s.card.reply.tail })).bind
        fun _ t => .ok (s.card.reply.headD 0xFF) t := by
  have h1 : cardRefill s = .ok () s := by
    rw [cardRefill, if_neg (by tauto)]; rfl
  rw [cardExchange, h1, Res.bind_ok]
  simp only [State.setCard_card, ne_eq, hw, not_false_eq_true, if_true]
  rfl

/-- Filler between two frames is not framed (R133). -/
theorem cardScan_filler {tx : Byte} {s : State} (hc : s.card.cmd = []) (ht : tx.getLsbD 7 = true) :
    cardScan tx s = .ok () s := by
  rw [cardScan, if_pos ⟨hc, ht⟩]; rfl

/-- A byte of an unfinished frame is kept (R133). -/
theorem cardScan_pending {tx : Byte} {s : State} (h : s.card.cmd ≠ [] ∨ tx.getLsbD 7 = false)
    (hl : s.card.cmd.length < 5) (hb : 6 ≤ s.board.fifoCap) :
    cardScan tx s = .ok () (s.setCard { s.card with cmd := s.card.cmd ++ [tx] }) := by
  have hn : ¬ (s.card.cmd = [] ∧ tx.getLsbD 7 = true) := by
    rcases h with h | h
    · tauto
    · rw [h]; simp
  rw [cardScan, if_neg hn, push_fits (by simp only [State.fifo, List.length_cons, List.length_nil]; omega), Res.bind_ok,
    if_neg]
  · rfl
  · simp only [State.setFifo, State.fifo, State.setCard_card, List.length_append, List.length_cons, List.length_nil]
    omega

/-- The sixth byte of a frame runs its command (R133, R134). -/
theorem cardScan_complete {c0 a3 a2 a1 a0 crc : Byte} {s : State} (hc : s.card.cmd = [c0, a3, a2, a1, a0])
    (hb : 6 ≤ s.board.fifoCap) :
    cardScan crc s =
      cardCommand (c0.extractLsb' 0 6) (be32 a3 a2 a1 a0) (s.setCard { s.card with cmd := [] }) := by
  rw [cardScan, if_neg (by simp [hc]), push_fits (by simp only [State.fifo, hc, List.length_cons, List.length_nil]; omega),
    Res.bind_ok, if_pos (by simp [State.setFifo, State.fifo, hc])]
  simp only [State.setFifo, State.fifo, hc, State.setCard_card]
  rfl

/-! ## A whole frame (R67, log entry 4) -/

/-- A byte of an unfinished frame, exchanged. -/
theorem feed_card_pending {tx c0 : Byte} {pre rest : List Byte} {s : State} (hw : s.card.wcap = .none)
    (hr : ¬ (s.card.streaming = true ∧ s.card.reply = [] ∧ s.card.cmd = [])) (hc : s.card.cmd ++ [tx] = c0 :: pre)
    (ht : c0.getLsbD 7 = false) (hl : pre.length < 5) (hb : 6 ≤ s.board.fifoCap) :
    feed .card (tx :: rest) s =
      feed .card rest ((s.setCard { s.card with reply := s.card.reply.tail, cmd := c0 :: pre }).addOut
        (s.card.reply.headD 0xFF)) := by
  have h1 : s.card.cmd ≠ [] ∨ tx.getLsbD 7 = false := by
    by_cases h : s.card.cmd = []
    · rw [h, List.nil_append, List.cons.injEq] at hc
      exact .inr (by rw [hc.1]; exact ht)
    · exact .inl h
  have h2 : s.card.cmd.length < 5 := by
    have := congrArg List.length hc
    simp only [List.length_append, List.length_cons, List.length_nil] at this
    omega
  rw [feed_cons, exchange_card, cardExchange_scans hw hr,
    cardScan_pending (by simpa using h1) (by simpa using h2) (by simpa using hb)]
  simp only [State.setCard_card, hc]
  rfl

/-- A command frame on a ready card: six reply bytes, then the command. -/
theorem feed_card_frame {idx : BitVec 6} {f : CardArgs} {s : State} (hw : s.card.wcap = .none) (hc : s.card.cmd = [])
    (hr : s.card.streaming = true → s.card.reply ≠ []) (hb : 6 ≤ s.board.fifoCap) :
    feed .card (cardFrame idx f) s =
      (cardCommand idx f.arg ((s.setCard { s.card with reply := s.card.reply.drop 6 }).setOut
        (s.out ++ (popFifo s.card.reply 5).out))).bind
        fun _ t => .ok () (t.addOut (s.card.reply.getD 5 0xFF)) := by
  obtain ⟨board, regs, flash, ⟨status, streaming, pos, wcap, wphase, wblock, wpos, cmd, reply⟩, mcu, fsm, arrays, log, fault,
    script, out, draws, rtcLog, usbSent, poweredUp⟩ := s
  simp only at hw hc hr hb
  subst hw hc
  have h7 := cardCommandByte_bit7 f.bit6 idx
  rw [cardFrame, be32Bytes]
  simp only [List.cons_append, List.nil_append]
  rw [feed_card_pending (c0 := cardCommandByte f.bit6 idx) (pre := []) rfl (by simp; tauto) rfl h7 (by simp) hb,
    feed_card_pending (c0 := cardCommandByte f.bit6 idx) (pre := [f.arg.extractLsb' 24 8]) rfl
      (by simp [State.setCard, State.addOut]) rfl h7 (by simp) hb,
    feed_card_pending (c0 := cardCommandByte f.bit6 idx) (pre := [f.arg.extractLsb' 24 8, f.arg.extractLsb' 16 8]) rfl
      (by simp [State.setCard, State.addOut]) rfl h7 (by simp) hb,
    feed_card_pending (c0 := cardCommandByte f.bit6 idx)
      (pre := [f.arg.extractLsb' 24 8, f.arg.extractLsb' 16 8, f.arg.extractLsb' 8 8]) rfl
      (by simp [State.setCard, State.addOut]) rfl h7 (by simp) hb,
    feed_card_pending (c0 := cardCommandByte f.bit6 idx)
      (pre := [f.arg.extractLsb' 24 8, f.arg.extractLsb' 16 8, f.arg.extractLsb' 8 8, f.arg.extractLsb' 0 8]) rfl
      (by simp [State.setCard, State.addOut]) rfl h7 (by simp) hb,
    feed_cons, exchange_card,
    cardExchange_scans rfl (by simp [State.setCard, State.addOut]),
    cardScan_complete (c0 := cardCommandByte f.bit6 idx) (a3 := f.arg.extractLsb' 24 8) (a2 := f.arg.extractLsb' 16 8)
      (a1 := f.arg.extractLsb' 8 8) (a0 := f.arg.extractLsb' 0 8) rfl hb,
    cardCommandByte_idx, be32_be32Bytes]
  simp only [Res.bind_assoc, Res.bind_ok, feed_nil]
  have e3 : reply.tail.tail.tail.tail.tail.headD 0xFF = reply.getD 5 0xFF := by
    rcases reply with _ | ⟨_, _ | ⟨_, _ | ⟨_, _ | ⟨_, _ | ⟨_, _ | ⟨_, _⟩⟩⟩⟩⟩⟩ <;> rfl
  have e4 : out ++ (popFifo reply 5).out
      = out ++ [reply.headD 0xFF] ++ [reply.tail.headD 0xFF] ++ [reply.tail.tail.headD 0xFF]
        ++ [reply.tail.tail.tail.headD 0xFF] ++ [reply.tail.tail.tail.tail.headD 0xFF] := by
    simp [popFifo_out_succ]
  simp only [State.setCard, State.addOut, State.setOut, e4, ← e3]
  have e2 : reply.tail.tail.tail.tail.tail.tail = reply.drop 6 := by
    rcases reply with _ | ⟨_, _ | ⟨_, _ | ⟨_, _ | ⟨_, _ | ⟨_, _ | ⟨_, _⟩⟩⟩⟩⟩⟩ <;> rfl
  simp only [e2]

/-! ## Read blocks (R135, R136) -/

theorem cardBlock_length (s : State) : (cardBlock s).length = 512 := by
  unfold cardBlock
  split <;> simp [cardBlockSize]

theorem cardBlock_setFifo (s : State) (l : List Byte) : cardBlock (s.setFifo .card .reply l) = cardBlock s := rfl

theorem cardBlockDraws_setFifo (s : State) (l : List Byte) :
    cardBlockDraws (s.setFifo .card .reply l) = cardBlockDraws s := rfl

/-- A block that fits is queued whole (R135). -/
theorem cardQueueBlock_fits {s : State} (h : s.card.reply.length + (s.board.cardReadGap + 513) ≤ s.board.fifoCap) :
    cardQueueBlock s =
      .ok () ((s.setCard { s.card with
        pos := s.card.pos + 512
        reply := s.card.reply ++ List.replicate s.board.cardReadGap 0xFF ++ 0xFE :: cardBlock s }).addDraws
          (cardBlockDraws s)) := by
  have hl := cardBlock_length s
  have h3 : s.card.reply.length + s.board.cardReadGap + 1 + 512 ≤ s.board.fifoCap := by linarith
  have h2 : s.card.reply.length + s.board.cardReadGap + 1 ≤ s.board.fifoCap := by linarith
  have h1 : s.card.reply.length + s.board.cardReadGap ≤ s.board.fifoCap := by linarith
  unfold cardQueueBlock
  rw [push_fits (by simpa only [State.fifo, fill, List.length_replicate] using h1), Res.bind_ok,
    push_fits (by
      simpa only [State.fifo, State.setFifo, fill, List.length_replicate, State.setCard_card, List.length_append,
        List.length_cons, List.length_nil, State.setCard_board, Nat.zero_add] using h2), Res.bind_ok,
    cardBlock_setFifo, cardBlock_setFifo, cardBlockDraws_setFifo, cardBlockDraws_setFifo]
  generalize cardBlock s = block at hl ⊢
  generalize cardBlockDraws s = n
  rw [push_fits (by
      simpa only [State.fifo, State.setFifo, fill, List.length_replicate, State.setCard_card, List.length_append,
        List.length_cons, List.length_nil, State.addDraws_card, State.addDraws_board, State.setCard_board, hl,
        Nat.zero_add] using h3), Res.bind_ok,
    push_fits (by
      simpa only [State.fifo, State.setFifo, fill, List.length_replicate, State.setCard_card, List.length_append,
        List.length_cons, List.length_nil, State.addDraws_card, State.addDraws_board, State.setCard_board, hl,
        cardReadCrcLen, Nat.zero_add, Nat.add_zero] using h3), Res.bind_ok]
  simp only [State.fifo, State.setFifo, fill, State.setCard, State.addDraws, cardReadCrcLen, List.replicate_zero,
    List.append_nil, cardBlockSize, cardToken, fillByte, List.append_assoc, List.singleton_append, done]

/-- The streaming refill before a byte of any card frame (R136). -/
theorem cardExchange_refills {tx : Byte} {s t : State} (hs : s.card.streaming = true) (hr : s.card.reply = [])
    (hc : s.card.cmd = []) (hw : s.card.wcap = .none) (hq : cardQueueBlock s = .ok () t) (ht : t.card.reply ≠ []) :
    cardExchange tx s = cardExchange tx t := by
  have h1 : cardRefill s = .ok () t := by rw [cardRefill, if_pos ⟨hs, hr, hc, hw⟩, hq]
  have h2 : cardRefill t = .ok () t := by rw [cardRefill, if_neg (by tauto)]; rfl
  rw [cardExchange, h1, cardExchange, h2]

/-! ## Write capture (R137, R138) -/

/-- Filler while a capture waits for its token (R137). -/
theorem feed_card_filler (k : Nat) (rest : List Byte) (s : State) (hw : s.card.wcap ≠ .none)
    (hp : s.card.wphase = .waitToken) :
    feed .card (List.replicate k 0xFF ++ rest) s =
      feed .card rest ((s.setCard { s.card with reply := s.card.reply.drop k }).setOut
        (s.out ++ (popFifo s.card.reply k).out)) := by
  induction k generalizing s with
  | zero =>
    simp only [List.replicate_zero, List.nil_append, List.drop_zero, popFifo_out_zero, List.append_nil]
    rfl
  | succ k ih =>
    rw [List.replicate_succ, List.cons_append, feed_cons, exchange_card, cardExchange_captures hw, cardCapture]
    simp only [State.setCard_card, hp, if_true, done, Res.bind_ok]
    rw [ih _ (by exact hw) (by simp)]
    congr 1
    have e1 : s.card.reply.tail.drop k = s.card.reply.drop (k + 1) := by
      cases s.card.reply <;> simp
    simp only [State.setCard, State.addOut, State.setOut, popFifo_out_succ, pop1_eq, pop1Rest_eq, e1, List.append_assoc,
      List.singleton_append]

/-- The token of a capture (R137). -/
theorem feed_card_token (x : Byte) (rest : List Byte) (s : State) (hw : s.card.wcap ≠ .none)
    (hp : s.card.wphase = .waitToken) (hx : x ≠ 0xFF) (ht : captureToken s.card.wcap x = true) :
    feed .card (x :: rest) s =
      feed .card rest ((s.setCard { s.card with wphase := .data 0, reply := s.card.reply.tail }).addOut
        (s.card.reply.headD 0xFF)) := by
  rw [feed_cons, exchange_card, cardExchange_captures hw, cardCapture]
  simp only [State.setCard_card, hp, if_neg hx, ht, if_true, done, Res.bind_ok]
  rfl

/-- The rest of the 512 bytes of a captured block (R137). -/
theorem feed_card_block (l rest : List Byte) (k : Nat) (s : State) (hw : s.card.wcap ≠ .none)
    (hp : s.card.wphase = .data k) (hk : k + l.length = 512) (hl : l ≠ []) (hb : s.card.wblock.length = 512) :
    feed .card (l ++ rest) s =
      feed .card rest ((s.setCard { s.card with
        wphase := .crc 0
        wblock := s.card.wblock.take k ++ l
        reply := s.card.reply.drop l.length }).setOut (s.out ++ (popFifo s.card.reply l.length).out)) := by
  induction l generalizing k s with
  | nil => exact absurd rfl hl
  | cons x l ih =>
    simp only [List.length_cons] at hk
    rw [List.cons_append, feed_cons, exchange_card, cardExchange_captures hw, cardCapture]
    simp only [State.setCard_card, hp]
    rw [if_neg (by simp [cardWriteCrcLen])]
    simp only [done, Res.bind_ok]
    have ht : s.card.wblock.take k ++ x :: l = (s.card.wblock.set k x).take (k + 1) ++ l := by
      have h1 : (s.card.wblock.set k x).take (k + 1) = s.card.wblock.take k ++ [x] := by
        rw [List.take_add_one, List.take_set_of_le (by omega)]
        simp [List.getElem?_set_self (show k < s.card.wblock.length by omega)]
      rw [h1, List.append_assoc]; rfl
    have e1 : s.card.reply.tail.drop l.length = s.card.reply.drop (l.length + 1) := by
      cases s.card.reply <;> simp
    by_cases hl' : l = []
    · subst hl'
      have hk' : ¬ k < 511 := by simp only [List.length_nil] at hk; omega
      simp only [hk', if_false, List.nil_append]
      congr 1
      have hfull : (s.card.wblock.set k x).take (k + 1) = s.card.wblock.set k x :=
        List.take_of_length_le (by simp only [List.length_set, List.length_nil] at hk ⊢; omega)
      rw [ht, hfull]
      simp only [State.setCard, State.addOut, State.setOut, List.length_cons, List.length_nil, List.append_nil,
        popFifo_out_succ, pop1_eq, popFifo_out_zero]
      simp
    · have hk' : k < 511 := by
        have := List.length_pos_iff.mpr hl'; omega
      simp only [hk', if_true]
      rw [ih (k + 1) _ (by exact hw) rfl (by omega) hl' (by simpa using hb), ht]
      congr 1
      simp only [State.setCard, State.addOut, State.setOut, List.length_cons, popFifo_out_succ, pop1_eq, pop1Rest_eq, e1,
        List.append_assoc, List.singleton_append]

/-- The two CRC bytes of a captured block: they are ignored, and the second commits the block (R137). -/
theorem feed_card_crc (c1 c0 : Byte) (s : State) (hw : s.card.wcap ≠ .none) (hp : s.card.wphase = .crc 0) :
    feed .card [c1, c0] s =
      (cardCommit ((s.setCard { s.card with wphase := .crc 1, reply := s.card.reply.drop 2 }).setOut
        (s.out ++ [s.card.reply.headD 0xFF]))).bind fun _ t => .ok () (t.addOut (s.card.reply.tail.headD 0xFF)) := by
  rw [feed_cons, exchange_card, cardExchange_captures hw, cardCapture]
  simp only [State.setCard_card, hp]
  rw [if_neg (by simp [cardWriteCrcLen])]
  simp only [done, Res.bind_ok]
  rw [feed_cons, exchange_card, cardExchange_captures (by exact hw), cardCapture]
  simp only [State.setCard_card, State.addOut_card]
  rw [if_pos (by rfl), Res.bind_assoc]
  have e1 : s.card.reply.tail.tail = s.card.reply.drop 2 := by rcases s.card.reply with _ | ⟨_, _ | ⟨_, _⟩⟩ <;> rfl
  simp only [Res.bind_ok, feed_nil, e1]
  rfl

/-- A commit whose acknowledgment fits (R138). -/
theorem cardCommit_fits {s : State} (h : s.card.reply.length < s.board.fifoCap) :
    cardCommit s = .ok () ((s.writeCells .card s.card.wpos (cardKept s.board s.card.wpos s.card.wblock)).setCard
      { s.card with
        wpos := s.card.wpos + 512
        reply := s.card.reply ++ [0x05]
        wphase := .waitToken
        wcap := if s.card.wcap = .single then .none else s.card.wcap }) := by
  rw [cardCommit, push_fits (by simpa [State.fifo] using h)]
  rfl

/-- What a commit leaves of memory: the block where the image reaches (R138). -/
theorem cardKept_reads (s : State) (wpos : Nat) (block : List Byte) (hb : block.length = 512) :
    s.storesOnly (s.writeCells .card wpos (cardKept s.board wpos block)) .card (fun x =>
      if wpos ≤ x ∧ x < wpos + 512 ∧ (∃ n, s.board.cardSize = some n ∧ x < n) then block[x - wpos]? else none) := by
  refine State.storesOnly_congr (State.storesOnly_writeCells s .card wpos _) rfl rfl fun x => ?_
  unfold cardKept
  cases s.board.cardSize with
  | none =>
    have hn : ¬ (wpos ≤ x ∧ x < wpos + 512 ∧ ∃ n, (none : Option Nat) = some n ∧ x < n) := by simp
    rw [if_neg hn, if_neg (by simp only [List.length_nil]; omega)]
  | some n =>
    simp only [List.length_take, hb]
    by_cases hx : wpos ≤ x ∧ x < wpos + 512 ∧ x < n
    · rw [if_pos (by omega), if_pos ⟨hx.1, hx.2.1, n, rfl, hx.2.2⟩]
      have h1 : x - wpos < n - wpos := by omega
      have h2 : x - wpos < block.length := by omega
      simp [List.getD_eq_getElem?_getD, h1, h2]
    · rw [if_neg (by omega), if_neg]
      rintro ⟨h1, h2, m, hm, h3⟩
      cases hm; exact hx ⟨h1, h2, h3⟩

/-- A whole block sent to a capture that waits for its token: filler, the token, 512 bytes and two CRC bytes (R137, R138). -/
theorem feed_card_capture (k : Nat) (x c1 c0 : Byte) (block : List Byte) (s : State) (hw : s.card.wcap ≠ .none)
    (hp : s.card.wphase = .waitToken) (hx : x ≠ 0xFF) (ht : captureToken s.card.wcap x = true) (hl : block.length = 512)
    (hb : s.card.wblock.length = 512) (hr : s.card.reply.length ≤ s.board.fifoCap) (hc : 0 < s.board.fifoCap) :
    feed .card (List.replicate k 0xFF ++ x :: block ++ [c1, c0]) s =
      .ok () (((s.writeCells .card s.card.wpos (cardKept s.board s.card.wpos block)).setCard
        { s.card with
          wcap := if s.card.wcap = .single then .none else s.card.wcap
          wphase := .waitToken
          wblock := block
          wpos := s.card.wpos + 512
          reply := s.card.reply.drop (k + 515) ++ [0x05] }).setOut (s.out ++ (popFifo s.card.reply (k + 515)).out)) := by
  have hd : ((s.card.reply.drop k).tail.drop 512).drop 2 = s.card.reply.drop (k + 515) := by
    rw [← List.drop_one, List.drop_drop, List.drop_drop, List.drop_drop, show k + (1 + (512 + 2)) = k + 515 by omega]
  have ho : (popFifo s.card.reply (k + 515)).out = (popFifo s.card.reply k).out ++ [(s.card.reply.drop k).headD 0xFF]
      ++ (popFifo (s.card.reply.drop k).tail 512).out ++ [((s.card.reply.drop k).tail.drop 512).headD 0xFF]
      ++ [((s.card.reply.drop k).tail.drop 512).tail.headD 0xFF] := by
    rw [show k + 515 = k + (1 + (512 + (1 + 1))) by omega, popFifo_out_add, popFifo_out_add, popFifo_out_add,
      popFifo_out_add]
    have one : ∀ l : List Byte, (popFifo l 1).out = [l.headD 0xFF] := fun l => by
      rw [popFifo_out_succ l 0, popFifo_out_zero, pop1_eq]
    simp only [one, List.drop_one, List.append_assoc]
  rw [List.append_assoc, feed_card_filler _ _ _ hw hp, List.cons_append,
    feed_card_token _ _ _ (by exact hw) (by exact hp) hx (by exact ht),
    feed_card_block block [c1, c0] 0 _ (by exact hw) rfl (by omega) (by rintro rfl; simp at hl) (by exact hb),
    feed_card_crc _ _ _ (by exact hw) rfl]
  simp only [hl, State.setCard_card, State.setOut_card, State.addOut_card, hd]
  rw [cardCommit_fits (by
    simp only [State.setOut_card, State.setCard_card, State.setOut_board, State.setCard_board, State.addOut_board,
      List.length_drop]
    omega), ho]
  simp only [State.setOut, State.setCard, State.addOut, State.writeCells, State.setArrays, List.take_zero,
    List.nil_append, Res.bind_ok, List.append_assoc]

end Sys2Proof.Machine
end

