-- ==== Sys2Proof/Laws/Exchange.lean ====
section
/-! SUPPORT. What no exchange with a peripheral reads or writes: the register file, the legacy FSM, every array but the flash
and card images, and the model's own fields but the draws. Said once for every peripheral, as commutation with replacing
all of it; and what follows for a transfer. -/

namespace Sys2Proof.Machine

/-- The state outside the three peripherals: what no exchange reads or writes. -/
structure Outside where
  regs : Regs
  fsm : Legacy
  psram : Memory
  sram : Memory
  ipc : Memory
  tx : Memory
  rx : Memory
  rom : Memory
  script : List Frame
  out : List Byte
  rtcLog : List RtcWrite
  poweredUp : Bool

/-- The part of a state outside the peripherals. -/
def State.outside (s : State) : Outside :=
  ⟨s.regs, s.fsm, s.arrays.psram, s.arrays.sram, s.arrays.ipc, s.arrays.tx, s.arrays.rx, s.arrays.rom, s.script, s.out,
    s.rtcLog, s.poweredUp⟩

/-- Replaces everything outside the peripherals. -/
def State.withOutside (s : State) (ex : Outside) : State :=
  { s with
    regs := ex.regs, fsm := ex.fsm
    arrays := { s.arrays with psram := ex.psram, sram := ex.sram, ipc := ex.ipc, tx := ex.tx, rx := ex.rx, rom := ex.rom }
    script := ex.script, out := ex.out, rtcLog := ex.rtcLog, poweredUp := ex.poweredUp }

@[simp] theorem State.withOutside_outside (s : State) : s.withOutside s.outside = s := rfl

@[simp] theorem State.withOutside_withOutside (s : State) (x y : Outside) :
    (s.withOutside x).withOutside y = s.withOutside y := rfl

@[simp] theorem State.outside_withOutside (s : State) (x : Outside) : (s.withOutside x).outside = x := rfl

/-- Changes the state a piece of an operation leaves. -/
def Res.onState {α : Type} (g : State → State) : Res α → Res α
  | .ok a s => .ok a (g s)
  | .halt s => .halt (g s)

@[simp] theorem Res.onState_ok {α : Type} (g : State → State) (a : α) (s : State) :
    Res.onState g (.ok a s) = .ok a (g s) := rfl

@[simp] theorem Res.onState_halt {α : Type} (g : State → State) (s : State) :
    Res.onState g (.halt s : Res α) = .halt (g s) := rfl

@[simp] theorem Res.onState_done (g : State → State) (s : State) : Res.onState g (done s) = done (g s) := rfl

theorem Res.onState_ite {α : Type} (g : State → State) (c : Prop) [Decidable c] (x y : Res α) :
    Res.onState g (if c then x else y) = if c then x.onState g else y.onState g := by
  split <;> rfl

theorem Res.onState_bind {α β : Type} {g : State → State} {r : Res α} {f f' : α → State → Res β}
    (h : ∀ a s, f (a) (g s) = (f' a s).onState g) : (r.onState g).bind f = (r.bind f').onState g := by
  cases r with
  | ok a s => exact h a s
  | halt s => rfl

variable (ex : Outside)

@[simp] theorem State.withOutside_board (s : State) : (s.withOutside ex).board = s.board := rfl
@[simp] theorem State.withOutside_regs (s : State) : (s.withOutside ex).regs = ex.regs := rfl
@[simp] theorem State.withOutside_flash (s : State) : (s.withOutside ex).flash = s.flash := rfl
@[simp] theorem State.withOutside_card (s : State) : (s.withOutside ex).card = s.card := rfl
@[simp] theorem State.withOutside_mcu (s : State) : (s.withOutside ex).mcu = s.mcu := rfl
@[simp] theorem State.withOutside_fsm (s : State) : (s.withOutside ex).fsm = ex.fsm := rfl
@[simp] theorem State.withOutside_log (s : State) : (s.withOutside ex).log = s.log := rfl
@[simp] theorem State.withOutside_fault (s : State) : (s.withOutside ex).fault = s.fault := rfl
@[simp] theorem State.withOutside_draws (s : State) : (s.withOutside ex).draws = s.draws := rfl
@[simp] theorem State.withOutside_out (s : State) : (s.withOutside ex).out = ex.out := rfl
@[simp] theorem State.withOutside_fifo (s : State) (d : Periph) (w : FifoId) : (s.withOutside ex).fifo d w = s.fifo d w := rfl
@[simp] theorem State.withOutside_setFlash (s : State) (f : FlashState) :
    (s.withOutside ex).setFlash f = (s.setFlash f).withOutside ex := rfl
@[simp] theorem State.withOutside_setCard (s : State) (c : CardState) :
    (s.withOutside ex).setCard c = (s.setCard c).withOutside ex := rfl
@[simp] theorem State.withOutside_setMcu (s : State) (c : McuState) :
    (s.withOutside ex).setMcu c = (s.setMcu c).withOutside ex := rfl
@[simp] theorem State.withOutside_addLog (s : State) (e : Event) :
    (s.withOutside ex).addLog e = (s.addLog e).withOutside ex := rfl
@[simp] theorem State.withOutside_addDraws (s : State) (n : Nat) :
    (s.withOutside ex).addDraws n = (s.addDraws n).withOutside ex := rfl
@[simp] theorem State.withOutside_addUsb (s : State) (l : List Byte) :
    (s.withOutside ex).addUsb l = (s.addUsb l).withOutside ex := rfl
@[simp] theorem State.withOutside_setFault (s : State) (f : Fault) :
    (s.withOutside ex).setFault f = (s.setFault f).withOutside ex := rfl
@[simp] theorem State.withOutside_setFifo (s : State) (d : Periph) (w : FifoId) (l : List Byte) :
    (s.withOutside ex).setFifo d w l = (s.setFifo d w l).withOutside ex := by
  cases d <;> cases w <;> rfl
@[simp] theorem State.withOutside_readCell_flash (s : State) (a : Nat) :
    (s.withOutside ex).readCell .flash a = s.readCell .flash a := rfl
@[simp] theorem State.withOutside_readCell_card (s : State) (a : Nat) :
    (s.withOutside ex).readCell .card a = s.readCell .card a := rfl
@[simp] theorem State.withOutside_writeCells_flash (s : State) (a : Nat) (l : List Byte) :
    (s.withOutside ex).writeCells .flash a l = (s.writeCells .flash a l).withOutside ex := rfl
@[simp] theorem State.withOutside_writeCells_card (s : State) (a : Nat) (l : List Byte) :
    (s.withOutside ex).writeCells .card a l = (s.writeCells .card a l).withOutside ex := rfl

@[simp] theorem push_withOutside (d : Periph) (w : FifoId) (bytes : List Byte) (s : State) :
    push d w bytes (s.withOutside ex) = (push d w bytes s).onState (·.withOutside ex) := by
  unfold push
  simp only [State.withOutside_board, State.withOutside_fifo]
  split <;> simp [*, raiseFault, done]

/-! ## Flash -/

@[simp] theorem flashByte_withOutside (s : State) (c : Nat) : flashByte (s.withOutside ex) c = flashByte s c := rfl

@[simp] theorem flashStore_withOutside (s : State) (c : Nat) (v : Byte) :
    flashStore (s.withOutside ex) c v = (flashStore s c v).withOutside ex := by
  unfold flashStore
  simp only [State.withOutside_board]
  repeat' split
  all_goals simp [*]

@[simp] theorem flashErase_withOutside (n : Nat) (a : BitVec 24) (s : State) :
    flashErase n a (s.withOutside ex) = (flashErase n a s).withOutside ex := by
  unfold flashErase
  simp only [State.withOutside_board]
  repeat' split
  all_goals simp [*]

@[simp] theorem flashCommand_withOutside (op : FlashOp) (a : BitVec 24) (s : State) :
    flashCommand op a (s.withOutside ex) = (flashCommand op a s).onState (·.withOutside ex) := by
  cases op <;> simp [flashCommand, flashRead, flashProgram, flashEraseBlock, flashStatus, flashRespond, flashSetSleep,
    flashWren, flashWrdi]

@[simp] theorem flashDecode_withOutside (s : State) :
    flashDecode (s.withOutside ex) = (flashDecode s).onState (·.withOutside ex) := by
  cases hcmd : s.flash.cmd with
  | nil => simp [flashDecode, hcmd]
  | cons op rest =>
    cases hop : flashOpOf op <;> simp [flashDecode, hcmd, hop, Res.onState_ite]

theorem flashExchange_withOutside (tx : Byte) (s : State) :
    flashExchange tx (s.withOutside ex) = (flashExchange tx s).onState (·.withOutside ex) := by
  have idle : flashIdle tx (s.withOutside ex) = (flashIdle tx s).onState (·.withOutside ex) := by
    simp only [flashIdle, State.withOutside_flash, State.withOutside_setFlash, push_withOutside]
    refine Res.onState_bind fun _ s => ?_
    rw [flashDecode_withOutside]
    exact Res.onState_bind fun _ s => rfl
  unfold flashExchange
  simp only [State.withOutside_flash, idle]
  split
  · simp [flashReadByte]
  · simp [flashWriteByte]
  · simp
  · simp
  · simp only [Res.onState_ite]; rfl

/-! ## Card -/

@[simp] theorem cardBlock_withOutside (s : State) : cardBlock (s.withOutside ex) = cardBlock s := rfl

@[simp] theorem cardBlockDraws_withOutside (s : State) : cardBlockDraws (s.withOutside ex) = cardBlockDraws s := rfl

@[simp] theorem cardQueueBlock_withOutside (s : State) :
    cardQueueBlock (s.withOutside ex) = (cardQueueBlock s).onState (·.withOutside ex) := by
  simp only [cardQueueBlock, State.withOutside_board, push_withOutside]
  refine Res.onState_bind fun _ s => ?_
  rw [push_withOutside]
  refine Res.onState_bind fun _ s => ?_
  simp only [cardBlock_withOutside, cardBlockDraws_withOutside, State.withOutside_addDraws, push_withOutside]
  refine Res.onState_bind fun _ s => ?_
  rw [push_withOutside]
  exact Res.onState_bind fun _ s => rfl

@[simp] theorem cardReplyStatus_withOutside (flags : Byte) (s : State) :
    cardReplyStatus flags (s.withOutside ex) = (cardReplyStatus flags s).onState (·.withOutside ex) := by
  simp [cardReplyStatus]

@[simp] theorem cardCommand_withOutside (idx : BitVec 6) (arg : BitVec 32) (s : State) :
    cardCommand idx arg (s.withOutside ex) = (cardCommand idx arg s).onState (·.withOutside ex) := by
  unfold cardCommand
  split
  · simp [cardCmdIllegal]
  · simp [cardCmdReset]
  · simp [cardCmdInit]
  · simp [cardCmdInit]
  · simp [cardCmdIfcond]
  · simp [cardCmdStop]
  · simp [cardCmdSetblklen]
  · simp only [cardCmdRead1, State.withOutside_card, State.withOutside_setCard, cardReplyStatus_withOutside]
    exact Res.onState_bind fun _ s => cardQueueBlock_withOutside ex s
  · simp only [cardCmdReadn, State.withOutside_card, State.withOutside_setCard, cardReplyStatus_withOutside]
    refine Res.onState_bind fun _ s => ?_
    rw [cardQueueBlock_withOutside]
    exact Res.onState_bind fun _ s => rfl
  · simp only [cardCmdWrite, cardReplyStatus_withOutside]
    exact Res.onState_bind fun _ s => rfl
  · simp only [cardCmdWrite, cardReplyStatus_withOutside]
    exact Res.onState_bind fun _ s => rfl

@[simp] theorem cardScan_withOutside (tx : Byte) (s : State) :
    cardScan tx (s.withOutside ex) = (cardScan tx s).onState (·.withOutside ex) := by
  unfold cardScan
  simp only [State.withOutside_card]
  split
  · simp
  · rw [push_withOutside]
    refine Res.onState_bind fun _ s => ?_
    simp only [State.withOutside_card]
    split <;> simp [*]

@[simp] theorem cardCommit_withOutside (s : State) :
    cardCommit (s.withOutside ex) = (cardCommit s).onState (·.withOutside ex) := by
  simp only [cardCommit, State.withOutside_card, State.withOutside_board, State.withOutside_writeCells_card, State.withOutside_setCard,
    push_withOutside]
  exact Res.onState_bind fun _ s => rfl

@[simp] theorem cardCapture_withOutside (tx : Byte) (s : State) :
    cardCapture tx (s.withOutside ex) = (cardCapture tx s).onState (·.withOutside ex) := by
  unfold cardCapture
  simp only [State.withOutside_card]
  repeat' split
  all_goals simp [*]

theorem cardExchange_withOutside (tx : Byte) (s : State) :
    cardExchange tx (s.withOutside ex) = (cardExchange tx s).onState (·.withOutside ex) := by
  have refill : cardRefill (s.withOutside ex) = (cardRefill s).onState (·.withOutside ex) := by
    unfold cardRefill
    simp only [State.withOutside_card]
    split <;> simp [*]
  simp only [cardExchange, refill]
  refine Res.onState_bind fun _ s1 => ?_
  simp only [State.withOutside_card, State.withOutside_setCard, State.setCard_card, cardCapture_withOutside, cardScan_withOutside,
    ← Res.onState_ite]
  exact Res.onState_bind fun _ s => rfl

/-! ## MCU -/

@[simp] theorem mcuReply_withOutside (n : Nat) (p : List Byte) (s : State) :
    mcuReply n p (s.withOutside ex) = (mcuReply n p s).onState (·.withOutside ex) := by simp [mcuReply]

@[simp] theorem mcuCommand_withOutside (c : McuOp) (arg : BitVec 9) (bytes : List Byte) (s : State) :
    mcuCommand c arg bytes (s.withOutside ex) = (mcuCommand c arg bytes s).onState (·.withOutside ex) := by
  cases c
  · simp [mcuCommand, mcuEcho]
  · simp [mcuCommand, mcuModeSet]
  · simp [mcuCommand, mcuModeGet]
  · simp only [mcuCommand, mcuEepromRead, mcuReply_withOutside]; rfl
  · simp only [mcuCommand, mcuUsbRead, State.withOutside_addDraws, mcuReply_withOutside]; rfl
  · simp only [mcuCommand, mcuUsbWrite, State.withOutside_addDraws, State.withOutside_addUsb, mcuReply_withOutside]; rfl

@[simp] theorem mcuDecode_withOutside (s : State) :
    mcuDecode (s.withOutside ex) = (mcuDecode s).onState (·.withOutside ex) := by
  simp only [mcuDecode, State.withOutside_mcu, State.withOutside_board, Res.onState_ite]
  cases mcuOpOf s.board ((le16 (byteOf s.mcu.cmd 0) (byteOf s.mcu.cmd 1)).extractLsb' 0 7) <;> simp [Res.onState_ite]

@[simp] theorem blAck_withOutside (s : State) : blAck (s.withOutside ex) = (blAck s).onState (·.withOutside ex) := by
  rw [blAck, push_withOutside]
  exact Res.onState_bind fun _ s => rfl

@[simp] theorem blNack_withOutside (s : State) : blNack (s.withOutside ex) = (blNack s).onState (·.withOutside ex) := by
  rw [blNack, push_withOutside]
  exact Res.onState_bind fun _ s => rfl

@[simp] theorem blPayload_withOutside (c : BootOp) (s : State) :
    blPayload c (s.withOutside ex) = (blPayload c s).onState (·.withOutside ex) := by
  unfold blPayload blDone
  simp only [State.withOutside_mcu]
  split <;> simp [*]

@[simp] theorem blStep_withOutside (c : BootOp) (tx : Byte) (s : State) :
    blStep c tx (s.withOutside ex) = (blStep c tx s).onState (·.withOutside ex) := by
  unfold blStep
  simp only [State.withOutside_mcu]
  split
  · rw [blStepAddress, push_withOutside]
    refine Res.onState_bind fun _ s => ?_
    simp only [State.withOutside_mcu, Res.onState_ite]
    cases c <;> simp
  · rw [blStepHeader, push_withOutside]
    refine Res.onState_bind fun _ s => ?_
    simp only [State.withOutside_mcu, Res.onState_ite]
    cases c <;> simp
  · simp [blStepPayload]
  · simp

@[simp] theorem blSelect_withOutside (op par : Byte) (s : State) :
    blSelect op par (s.withOutside ex) = (blSelect op par s).onState (·.withOutside ex) := by
  simp only [blSelect, Res.onState_ite]
  cases bootOpOf op <;> simp

@[simp] theorem blFrame_withOutside (tx : Byte) (s : State) :
    blFrame tx (s.withOutside ex) = (blFrame tx s).onState (·.withOutside ex) := by
  simp only [blFrame, State.withOutside_mcu, Res.onState_ite, Res.onState_done]
  congr 1
  rw [push_withOutside]
  refine Res.onState_bind fun _ s => ?_
  simp [Res.onState_ite]

@[simp] theorem blByte_withOutside (tx : Byte) (s : State) :
    blByte tx (s.withOutside ex) = (blByte tx s).onState (·.withOutside ex) := by
  simp only [blByte, State.withOutside_mcu, Res.onState_ite]
  congr 1
  · unfold blAwaited
    by_cases h1 : tx = bootAck <;> by_cases h2 : s.mcu.blCmd = some .go ∧ s.mcu.step = 0
    all_goals simp [h1, h2, blExit]
  · congr 1
    · simp [blUnstarted, Res.onState_ite]
    · cases s.mcu.blCmd <;> simp

theorem mcuExchange_withOutside (tx : Byte) (s : State) :
    mcuExchange tx (s.withOutside ex) = (mcuExchange tx s).onState (·.withOutside ex) := by
  have normal : ∀ s, mcuByte tx (s.withOutside ex) = (mcuByte tx s).onState (·.withOutside ex) := by
    intro s
    rw [mcuByte, push_withOutside]
    exact Res.onState_bind fun _ s => mcuDecode_withOutside ex s
  simp only [mcuExchange, State.withOutside_mcu, State.withOutside_setMcu, normal, blByte_withOutside, ← Res.onState_ite]
  exact Res.onState_bind fun _ s => rfl

/-! ## Every peripheral -/

/-- No exchange reads or writes anything outside the peripherals (R36, R99, R174). -/
theorem exchange_withOutside (dev : BitVec 2) (tx : Byte) (s : State) :
    exchange dev tx (s.withOutside ex) = (exchange dev tx s).onState (·.withOutside ex) := by
  unfold exchange
  split
  · exact cardExchange_withOutside ex tx s
  · split
    · exact flashExchange_withOutside ex tx s
    · split
      · exact mcuExchange_withOutside ex tx s
      · rfl

/-- An exchange leaves everything outside the peripherals. -/
theorem exchange_outside (dev : BitVec 2) (tx : Byte) (s : State) : (exchange dev tx s).state.outside = s.outside := by
  have h := exchange_withOutside s.outside dev tx s
  rw [State.withOutside_outside] at h
  cases he : exchange dev tx s with
  | ok a t => rw [he] at h; simp only [Res.onState_ok, Res.ok.injEq, true_and] at h; rw [Res.state_ok, h]; rfl
  | halt t => rw [he] at h; simp only [Res.onState_halt, Res.halt.injEq] at h; rw [Res.state_halt, h]; rfl

theorem State.setOut_eq (s : State) (l : List Byte) : s.setOut l = s.withOutside { s.outside with out := l } := rfl

theorem State.addOut_withOutside (s : State) (b : Byte) (ex : Outside) :
    (s.withOutside ex).addOut b = s.withOutside { ex with out := ex.out ++ [b] } := rfl

/-- A frame exchanged in any surroundings is the frame exchanged with nothing returned yet, its received bytes appended to
what was returned before. -/
theorem feed_withOutside (d : Periph) (l : List Byte) (s : State) (ex : Outside) :
    feed d l (s.withOutside ex) =
      (feed d l (s.setOut [])).onState fun t => t.withOutside { ex with out := ex.out ++ t.out } := by
  induction l generalizing s ex with
  | nil => simp [State.setOut_eq]
  | cons tx rest ih =>
    rw [feed_cons, feed_cons, State.setOut_eq, exchange_withOutside, exchange_withOutside]
    cases exchange (periphDev d) tx s with
    | halt t => simp
    | ok b t =>
      simp only [Res.onState_ok, Res.bind_ok, State.addOut_withOutside]
      rw [ih, ih]
      cases feed d rest (t.setOut []) <;> simp

/-- A frame exchanged leaves everything outside the peripherals but what is returned. -/
theorem feed_outside (d : Periph) (l : List Byte) (s : State) :
    (feed d l s).state.outside = { s.outside with out := (feed d l s).state.out } := by
  have h := feed_withOutside d l s s.outside
  rw [State.withOutside_outside] at h
  rw [h]
  cases feed d l (s.setOut []) <;> rfl

/-- A frame exchanged whole returns a byte for each byte sent. -/
theorem feed_out_length (d : Periph) (l : List Byte) (s t : State) (h : feed d l s = .ok () t) :
    t.out.length = s.out.length + l.length := by
  induction l generalizing s with
  | nil => simp only [feed_nil, Res.ok.injEq, true_and] at h; subst h; rfl
  | cons tx rest ih =>
    rw [feed_cons] at h
    have ho := exchange_outside (periphDev d) tx s
    cases he : exchange (periphDev d) tx s with
    | halt u => rw [he] at h; cases h
    | ok b u =>
      rw [he] at h ho
      have := ih _ h
      have hu : u.out = s.out := congrArg Outside.out ho
      simp only [State.addOut_out, List.length_append, hu, List.length_cons, List.length_nil] at this ⊢
      omega

/-! ## Transfers (R64, R100) -/

/-- What the RX buffer holds after positions from `lo` on have received `o`: nothing is kept in the write mode. -/
def keptRx (mode : BitVec 2) (rx : Memory) (lo : Nat) (o : List Byte) : Memory :=
  if mode = 0 then rx else rx.write lo o

/-- The loop of a transfer exchanges the bytes of its mode as one frame, and keeps what comes back in the RX half. -/
theorem transferLoop_eq_feed (d : Periph) (mode : BitVec 2) (h : BitVec 1) (k i : Nat) (s : State)
    (hw : s.arrays.rx.wf = true) :
    transferLoop (periphDev d) mode h k i s =
      (feed d ((List.range k).map fun j => transferTx mode h (i + j) s) (s.setOut [])).onState fun t =>
        t.withOutside { s.outside with rx := keptRx mode s.arrays.rx (bufOffset h i) t.out } := by
  have self : ∀ t : State, t.outside = s.outside →
      t.withOutside { s.outside with rx := keptRx mode s.arrays.rx (bufOffset h i) [] } = t := by
    intro t ht
    have : keptRx mode s.arrays.rx (bufOffset h i) [] = s.arrays.rx := by
      unfold keptRx; split
      · rfl
      · exact Memory.write_nil _ _ hw
    rw [this]
    have : ({ s.outside with rx := s.arrays.rx } : Outside) = s.outside := rfl
    rw [this, ← ht, State.withOutside_outside]
  induction k generalizing i s with
  | zero => exact congrArg (Res.ok ()) (self s rfl).symm
  | succ k ih =>
    rw [List.range_succ_eq_map, List.map_cons, feed_cons, State.setOut_eq, exchange_withOutside, transferLoop]
    have ho := exchange_outside (periphDev d) (transferTx mode h i s) s
    simp only [Nat.add_zero]
    cases he : exchange (periphDev d) (transferTx mode h i s) s with
    | halt t =>
      rw [he] at ho
      simp only [Res.bind_halt, Res.onState_halt, State.withOutside_withOutside, State.withOutside_out]
      exact congrArg Res.halt (self t ho).symm
    | ok b t =>
      rw [he] at ho
      have ho : t.outside = s.outside := ho
      simp only [Res.bind_ok, Res.onState_ok, State.addOut_withOutside, List.nil_append]
      have hrx : t.arrays.rx = s.arrays.rx := congrArg Outside.rx ho
      have htx : t.arrays.tx = s.arrays.tx := congrArg Outside.tx ho
      have key : ∃ m', m'.wf = true ∧
          transferRx mode h i b t = t.withOutside { s.outside with rx := m' } ∧
          ∀ o, keptRx mode m' (bufOffset h (i + 1)) o = keptRx mode s.arrays.rx (bufOffset h i) (b :: o) := by
        refine ⟨keptRx mode s.arrays.rx (bufOffset h i) [b], ?_, ?_, fun o => ?_⟩
        · unfold keptRx; split
          · exact hw
          · exact Memory.write_wf _ _ _ hw
        · unfold transferRx keptRx
          rw [← ho]
          split
          · rw [← hrx]; rfl
          · rw [← hrx]; rfl
        · unfold keptRx
          split
          · rfl
          · exact (Memory.write_append s.arrays.rx (bufOffset h i) [b] o hw).symm
      obtain ⟨m', hm', hrx', hk⟩ := key
      have hself : ∀ t' : State, t'.outside = (t.withOutside { s.outside with rx := m' }).outside →
          t'.withOutside { (t.withOutside { s.outside with rx := m' }).outside with
            rx := keptRx mode (t.withOutside { s.outside with rx := m' }).arrays.rx (bufOffset h (i + 1)) [] } = t' := by
        intro t' ht'
        have : keptRx mode m' (bufOffset h (i + 1)) [] = m' := by
          unfold keptRx; split
          · rfl
          · exact Memory.write_nil _ _ hm'
        change t'.withOutside { s.outside with rx := keptRx mode m' (bufOffset h (i + 1)) [] } = t'
        rw [this]
        change t'.withOutside (t.withOutside { s.outside with rx := m' }).outside = t'
        rw [← ht', State.withOutside_outside]
      rw [hrx', ih (i + 1) _ hm' hself]
      have hl : (List.range k).map (fun j => transferTx mode h (i + 1 + j) (t.withOutside { s.outside with rx := m' }))
          = ((List.range k).map Nat.succ).map fun j => transferTx mode h (i + j) s := by
        rw [List.map_map]
        refine List.map_congr_left fun j _ => ?_
        simp only [Function.comp, Nat.succ_eq_add_one, show i + 1 + j = i + (j + 1) by omega, transferTx]
        rfl
      rw [hl, feed_withOutside (s := t)]
      have hout : (t.withOutside { s.outside with rx := m' }).setOut [] = t.withOutside { s.outside with rx := m', out := [] } :=
        rfl
      rw [hout, feed_withOutside (s := t)]
      cases feed d (((List.range k).map Nat.succ).map fun j => transferTx mode h (i + j) s) (t.setOut []) with
      | ok _ u => simp only [Res.onState_ok, State.withOutside_withOutside, State.withOutside_out, List.nil_append,
          State.outside_withOutside, List.singleton_append, ← hk]; rfl
      | halt u => simp only [Res.onState_halt, State.withOutside_withOutside, State.withOutside_out, List.nil_append,
          State.outside_withOutside, List.singleton_append, ← hk]; rfl

/-- A frame of one more byte: the first exchange, then the rest behind the byte it returned. -/
theorem feed_cons_ok {d : Periph} {tx : Byte} {l : List Byte} {s t : State}
    (h : feed d (tx :: l) (s.setOut []) = .ok () t) :
    ∃ b u v, exchange (periphDev d) tx s = .ok b u ∧ u.outside = s.outside ∧ feed d l (u.setOut []) = .ok () v ∧
      t = v.setOut (b :: v.out) := by
  rw [feed_cons, State.setOut_eq, exchange_withOutside] at h
  have ho := exchange_outside (periphDev d) tx s
  cases he : exchange (periphDev d) tx s with
  | halt u => rw [he] at h; cases h
  | ok b u =>
    rw [he] at h ho
    have ho : u.outside = s.outside := ho
    simp only [Res.onState_ok, Res.bind_ok, State.addOut_withOutside, List.nil_append] at h
    rw [feed_withOutside] at h
    cases hv : feed d l (u.setOut []) with
    | halt v => rw [hv] at h; cases h
    | ok _ v =>
      rw [hv] at h
      simp only [Res.onState_ok, Res.ok.injEq, true_and] at h
      refine ⟨b, u, v, rfl, ho, hv, ?_⟩
      have hf := feed_outside d l (u.setOut [])
      rw [hv] at hf
      have hv' : v.outside = { s.outside with out := v.out } := by
        rw [← ho]; exact hf
      rw [← h, State.setOut_eq, hv']
      rfl

/-- A wait-read whose dummy exchanges all return 0xFF times out, their effects remaining (R101). -/
theorem waitRead_timeout (d : Periph) (h : BitVec 1) (n k : Nat) (s t : State)
    (hf : feed d (List.replicate n 0xFF) (s.setOut []) = .ok () t) (ht : t.out = List.replicate n 0xFF) :
    waitRead (periphDev d) h n k s = .ok false ((t.setOut s.out).addLog .waitReadTimeout) := by
  induction n generalizing k s t with
  | zero =>
    simp only [List.replicate_zero, feed_nil, Res.ok.injEq, true_and] at hf
    subst hf; rfl
  | succ n ih =>
    rw [List.replicate_succ] at hf ht
    obtain ⟨b, u, v, he, ho, hv, rfl⟩ := feed_cons_ok hf
    simp only [State.setOut_out, List.cons.injEq] at ht
    have hu : u.out = s.out := congrArg Outside.out ho
    rw [waitRead, he, Res.bind_ok, if_neg (by simp [ht.1]), ih (k + 1) u v hv ht.2, hu]
    rfl

/-- A wait-read whose exchange `j` is the first to return another byte keeps that byte at position 0 and counts the skipped
ones (R101). -/
theorem waitRead_skips (d : Periph) (h : BitVec 1) (j left k : Nat) (b : Byte) (s t : State) (hj : j < left)
    (hb : b ≠ 0xFF) (hf : feed d (List.replicate (j + 1) 0xFF) (s.setOut []) = .ok () t)
    (ht : t.out = List.replicate j 0xFF ++ [b]) :
    waitRead (periphDev d) h left k s =
      .ok true (((t.setOut s.out).writeCells .rx (bufOffset h 0) [b]).addLog (.waitReadSkipped (k + j))) := by
  induction j generalizing left k s t with
  | zero =>
    obtain ⟨left, rfl⟩ : ∃ l, left = l + 1 := ⟨left - 1, by omega⟩
    rw [List.replicate_succ] at hf
    obtain ⟨b', u, v, he, ho, hv, rfl⟩ := feed_cons_ok hf
    simp only [List.replicate_zero, feed_nil, Res.ok.injEq, true_and] at hv
    subst hv
    simp only [State.setOut_out, List.replicate_zero, List.nil_append, List.cons.injEq, and_true] at ht
    have hu : u.out = s.out := congrArg Outside.out ho
    rw [waitRead, he, Res.bind_ok, if_pos (by rw [ht]; exact hb), ht, ← hu]
    rfl
  | succ j ih =>
    obtain ⟨left, rfl⟩ : ∃ l, left = l + 1 := ⟨left - 1, by omega⟩
    rw [List.replicate_succ] at hf
    obtain ⟨b', u, v, he, ho, hv, rfl⟩ := feed_cons_ok hf
    rw [List.replicate_succ, List.cons_append] at ht
    simp only [State.setOut_out, List.cons.injEq] at ht
    have hu : u.out = s.out := congrArg Outside.out ho
    rw [waitRead, he, Res.bind_ok, if_neg (by simp [ht.1]), ih left (k + 1) u v (by omega) hv ht.2, hu,
      show k + 1 + j = k + (j + 1) by omega]
    rfl

end Sys2Proof.Machine
end

