-- ==== Sys2Proof/Laws/Exec.lean ====
section
/-! SUPPORT. What every instruction's meaning is: one whole operation, or a frame sent on the SPI bus. -/

namespace Sys2Proof.Machine

/-- Every meaning is one whole operation over a piece (R7, R57). -/
theorem exec_is_operation (i : Instr) (s : State) : ∃ f, exec i s = operate s f := by
  cases i
  case busRegread off => exact ⟨fun s => done (regRead off s), rfl⟩
  case busRegwrite off v => exact ⟨fun s => regWrite off v s, rfl⟩
  case busCartread a => exact ⟨fun s => done (cartRead a s), rfl⟩
  case busCartwrite a v => exact ⟨fun s => done (cartWrite a v s), rfl⟩
  case busProberead a => exact ⟨fun s => done (probeRead a s), rfl⟩
  case busProbewrite a v => exact ⟨fun s => done (probeWrite a v s), rfl⟩
  case busColdreset => exact ⟨fun s => done (if s.poweredUp then warmReset s else coldReset s), rfl⟩
  case busWarmreset => exact ⟨fun s => done (warmReset s), rfl⟩
  case lfUnlock1 o => exact ⟨fun s => done (cartWrite (windowAddr o) 0xAA s), rfl⟩
  case lfUnlock2 o => exact ⟨fun s => done (cartWrite (windowAddr o) 0x55 s), rfl⟩
  case lfFast o => exact ⟨fun s => done (cartWrite (windowAddr o) 0x20 s), rfl⟩
  case lfWrite o x => exact ⟨fun s => done (cartWrite (windowAddr o) x (cartWrite (windowAddr o) 0xA0 s)), rfl⟩
  case lfErase o b5 => exact ⟨fun s => done (cartWrite (windowAddr o) (if b5 = 0 then 0x10 else 0x30) s), rfl⟩
  case lfFastwrite o x => exact ⟨fun s => done (cartWrite (windowAddr o) x (cartWrite (windowAddr o) 0xA0 s)), rfl⟩
  case lfFastexit o => exact ⟨fun s => done (cartWrite (windowAddr o) 0x90 s), rfl⟩
  all_goals exact ⟨_, rfl⟩

/-- A flash row sends its frame to the selected device (R65, R99; log entry 4). -/
theorem exec_flash {i : Instr} {s : State} {bytes : List Byte} (h : encode s.board i = ⟨.flash, bytes⟩) :
    exec i s = operate s (sendFrame bytes) := by
  cases i <;> simp only [encode, busFrame, spiFrame, legacyFrame, Frame.mk.injEq, reduceCtorEq, false_and, true_and] at h <;>
    subst h <;> rfl

/-- A card row sends its frame to the selected device (R67, R99; log entry 4). -/
theorem exec_card {i : Instr} {s : State} {bytes : List Byte} (h : encode s.board i = ⟨.card, bytes⟩) :
    exec i s = operate s (sendFrame bytes) := by
  cases i <;> simp only [encode, busFrame, spiFrame, legacyFrame, Frame.mk.injEq, reduceCtorEq, false_and, true_and] at h <;>
    subst h <;> rfl

/-- An MCU row sends its frame to the selected device (R71, R99; log entry 4). -/
theorem exec_mcu {i : Instr} {s : State} {bytes : List Byte} (h : encode s.board i = ⟨.mcu, bytes⟩) :
    exec i s = operate s (sendFrame bytes) := by
  cases i <;> simp only [encode, busFrame, spiFrame, legacyFrame, Frame.mk.injEq, reduceCtorEq, false_and, true_and] at h <;>
    subst h <;> rfl

/-- A bootloader row sends its frame, with the acknowledgments of its steps, to the selected device (R74, R99; log entries
4 and 10). -/
theorem exec_boot {i : Instr} {s : State} (h : (encode s.board i).fmt = .boot) :
    ∃ bytes, exec i s = operate s (sendFrame bytes) := by
  cases i <;> simp only [encode, busFrame, spiFrame, legacyFrame, reduceCtorEq] at h <;> exact ⟨_, rfl⟩

/-- A row of a peripheral's format sends bytes to the selected device (R99; log entry 4). -/
theorem exec_sends {i : Instr} {s : State} (h : (encode s.board i).fmt ∈ [Format.flash, .card, .mcu, .boot]) :
    ∃ bytes, exec i s = operate s (sendFrame bytes) := by
  cases he : encode s.board i with
  | mk fmt bytes =>
    rw [he] at h
    simp only [List.mem_cons, List.not_mem_nil, or_false] at h
    rcases h with rfl | rfl | rfl | rfl
    · exact ⟨_, exec_flash he⟩
    · exact ⟨_, exec_card he⟩
    · exact ⟨_, exec_mcu he⟩
    · exact exec_boot (by rw [he])

/-- A frame sent to a selected peripheral is exchanged with it (R99). -/
theorem operate_sendFrame {d : Periph} {s : State} (bytes : List Byte) (hr : s.Running) (he : Exchanging s d) :
    operate s (sendFrame bytes) = operate s (feed d bytes) := by
  rw [operate_running _ _ hr.noFault, operate_running _ _ hr.noFault,
    sendFrame_selected (d := d) bytes (s.setOut []) hr.board ⟨he.reached, he.notBusy, he.clocked, he.selected⟩]

/-- A row of the flash, card or MCU format, its device selected, exchanges its frame with it (R99; log entry 4). -/
theorem exec_selected {d : Periph} {fmt : Format} {i : Instr} {s : State} {bytes : List Byte}
    (h : encode s.board i = ⟨fmt, bytes⟩) (hf : fmt ∈ [Format.flash, .card, .mcu]) (hr : s.Running) (he : Exchanging s d) :
    exec i s = operate s (feed d bytes) := by
  rw [← operate_sendFrame bytes hr he]
  simp only [List.mem_cons, List.not_mem_nil, or_false] at hf
  rcases hf with rfl | rfl | rfl
  · exact exec_flash h
  · exact exec_card h
  · exact exec_mcu h

/-- A row of a peripheral's format sends nothing where no transfer can run (R94, R96, R97; log entry 4). -/
theorem exec_silent {i : Instr} {s : State} (h : (encode s.board i).fmt ∈ [Format.flash, .card, .mcu, .boot])
    (hn : s.fault = none) (hc : canTransfer s = false) : exec i s = .next (s.setOut []) := by
  obtain ⟨bytes, he⟩ := exec_sends h
  rw [he, operate_running _ _ hn, sendFrame_silent bytes (s.setOut []) hc]
  rfl

/-- An SPICNT row writes its control word to SPI_CNT, low byte first (R63, R79). -/
theorem exec_spi {i : Instr} {s : State} {lo hi : Byte} (h : encode s.board i = ⟨.spicnt, [lo, hi]⟩) :
    exec i s = operate s (spiWordWrite (hi ++ lo)) := by
  have key : ∀ w : Half, le16Bytes w = [lo, hi] → w = hi ++ lo := by
    intro w hw
    simp only [le16Bytes, List.cons.injEq, and_true] at hw
    obtain ⟨rfl, rfl⟩ := hw
    rw [BitVec.extractLsb'_append_extractLsb'_eq_extractLsb' (by omega)]
    simp
  cases i <;> simp only [encode, busFrame, spiFrame, legacyFrame, Frame.mk.injEq, reduceCtorEq, false_and, true_and] at h <;>
    rw [← key _ h] <;> rfl

end Sys2Proof.Machine
end

