-- ==== Sys2Proof/Laws/Flash.lean ====
section
/-! SUPPORT. The flash: what one exchange and what a whole frame can do. -/

namespace Sys2Proof.Machine

/-! ## One exchange (R108 to R113) -/

/-- Idle, a byte the flash takes: the reply byte is popped, the byte joins the frame, the frame is decoded (R108). -/
theorem flashExchange_idle {tx : Byte} {s : State} (hm : s.flash.mode = .idle)
    (hw : s.flash.sleeping = false ∨ tx = wakeByte) (hc : s.flash.cmd.length < s.board.fifoCap) :
    flashExchange tx s =
      (flashDecode (s.setFlash { s.flash with reply := s.flash.reply.tail, cmd := s.flash.cmd ++ [tx] })).bind
        fun _ t => .ok (s.flash.reply.headD 0xFF) t := by
  have hn : ¬ (s.flash.sleeping = true ∧ tx ≠ wakeByte) := by
    rcases hw with h | h <;> simp [h]
  rw [flashExchange, hm]
  simp only
  rw [if_neg hn, flashIdle, push_fits (by simpa [State.fifo] using hc)]
  rfl

/-- An unfinished FL-4 frame waits (R109). -/
theorem flashDecode_waits {op : Byte} {c : FlashOp} {rest : List Byte} {s : State} (hc : s.flash.cmd = op :: rest)
    (ho : flashOpOf op = some c) (ha : flashAddressed c = true) (hl : rest.length < 3) : flashDecode s = .ok () s := by
  rw [flashDecode, hc]
  simp only [ho, ha, if_true, List.length_cons]
  rw [if_pos (by omega)]; rfl

/-- A whole FL-4 frame runs its command (R109). -/
theorem flashDecode_addressed {op a2 a1 a0 : Byte} {c : FlashOp} {s : State} (hc : s.flash.cmd = [op, a2, a1, a0])
    (ho : flashOpOf op = some c) (ha : flashAddressed c = true) :
    flashDecode s = flashCommand c (be24 a2 a1 a0) (s.setFlash { s.flash with cmd := [] }) := by
  rw [flashDecode, hc]
  simp only [ho, ha, if_true, List.length_cons, List.length_nil]
  rfl

/-- A frame of one byte runs its command (R109). -/
theorem flashDecode_byte {op : Byte} {c : FlashOp} {s : State} (hc : s.flash.cmd = [op])
    (ho : flashOpOf op = some c) (ha : flashAddressed c = false) :
    flashDecode s = flashCommand c 0 (s.setFlash { s.flash with cmd := [] }) := by
  rw [flashDecode, hc]
  simp only [ho, ha, Bool.false_eq_true, if_false]
  rfl

/-- An unknown opcode is discarded with a log entry (R113). -/
theorem flashDecode_unknown {op : Byte} {rest : List Byte} {s : State} (hc : s.flash.cmd = op :: rest)
    (ho : flashOpOf op = none) :
    flashDecode s = .ok () ((s.setFlash { s.flash with cmd := [] }).addLog (.flashUnknownOpcode op)) := by
  rw [flashDecode, hc]
  simp only [ho]
  rfl

/-! ## Whole frames (R65, log entry 4) -/

/-- A one-byte command on an idle flash that takes it. -/
theorem feed_flash_byte {op : Byte} {c : FlashOp} {s : State} (hm : s.flash.mode = .idle) (hn : s.flash.cmd = [])
    (hw : s.flash.sleeping = false ∨ op = wakeByte) (hb : 1024 ≤ s.board.fifoCap)
    (ho : flashOpOf op = some c) (ha : flashAddressed c = false) :
    feed .flash [op] s =
      (flashCommand c 0 (s.setFlash { s.flash with reply := s.flash.reply.tail })).bind
        fun _ t => .ok () (t.addOut (s.flash.reply.headD 0xFF)) := by
  rw [feed_cons, exchange_flash, flashExchange_idle hm hw (by rw [hn]; simp only [List.length_nil]; omega),
    flashDecode_byte (op := op) (c := c) (by simp [hn]) ho ha]
  simp only [State.setFlash_flash, Res.bind_assoc, Res.bind_ok, feed_nil]
  have : (s.setFlash { s.flash with reply := s.flash.reply.tail, cmd := s.flash.cmd ++ [op] }).setFlash
      { s.flash with reply := s.flash.reply.tail, cmd := [] } = s.setFlash { s.flash with reply := s.flash.reply.tail } := by
    rw [← hn]; rfl
  rw [this]

/-- A byte that leaves an FL-4 frame unfinished. -/
theorem feed_flash_pending {tx op : Byte} {c : FlashOp} {pre rest : List Byte} {s : State} (hm : s.flash.mode = .idle)
    (hw : s.flash.sleeping = false) (hb : 1024 ≤ s.board.fifoCap) (hc : s.flash.cmd ++ [tx] = op :: pre)
    (ho : flashOpOf op = some c) (ha : flashAddressed c = true) (hl : pre.length < 3) :
    feed .flash (tx :: rest) s =
      feed .flash rest ((s.setFlash { s.flash with reply := s.flash.reply.tail, cmd := op :: pre }).addOut
        (s.flash.reply.headD 0xFF)) := by
  have hlen : s.flash.cmd.length < s.board.fifoCap := by
    have := congrArg List.length hc
    simp only [List.length_append, List.length_cons, List.length_nil] at this
    omega
  rw [feed_cons, exchange_flash, flashExchange_idle hm (.inl hw) hlen, hc, flashDecode_waits rfl ho ha hl]
  rfl

/-- The address frame of a command on a ready flash: four reply bytes, then the command. -/
theorem feed_flash_frame4 {c : FlashOp} {a : BitVec 24} {s : State} (hm : s.flash.mode = .idle) (hn : s.flash.cmd = [])
    (hw : s.flash.sleeping = false) (hb : 1024 ≤ s.board.fifoCap) (ha : flashAddressed c = true) :
    feed .flash (flashFrame4 c a) s =
      (flashCommand c a ((s.setFlash { s.flash with reply := s.flash.reply.drop 4 }).setOut
        (s.out ++ (popFifo s.flash.reply 3).out))).bind
        fun _ t => .ok () (t.addOut (s.flash.reply.getD 3 0xFF)) := by
  obtain ⟨board, regs, ⟨mode, cursor, sr0, sr1, sr2, sleeping, cmd, reply⟩, card, mcu, fsm, arrays, log, fault, script,
    out, draws, rtcLog, usbSent, poweredUp⟩ := s
  simp only at hm hn hw hb
  subst hm hn hw
  have ho := flashOpOf_flashCode c
  rw [flashFrame4, be24Bytes,
    feed_flash_pending (op := flashCode c) (c := c) (pre := []) rfl rfl hb rfl ho ha (by simp),
    feed_flash_pending (op := flashCode c) (c := c) (pre := [a.extractLsb' 16 8]) rfl rfl hb rfl ho ha (by simp),
    feed_flash_pending (op := flashCode c) (c := c) (pre := [a.extractLsb' 16 8, a.extractLsb' 8 8]) rfl rfl hb rfl ho ha
      (by simp),
    feed_cons, exchange_flash,
    flashExchange_idle rfl (.inl rfl) (by
      simp only [State.addOut_flash, State.addOut_board, State.setFlash_flash, State.setFlash_board, List.length_cons,
        List.length_nil]; omega),
    flashDecode_addressed (op := flashCode c) (a2 := a.extractLsb' 16 8) (a1 := a.extractLsb' 8 8)
      (a0 := a.extractLsb' 0 8) rfl ho ha, be24_be24Bytes]
  simp only [Res.bind_assoc, Res.bind_ok, feed_nil]
  have e3 : reply.tail.tail.tail.headD 0xFF = reply.getD 3 0xFF := by
    rcases reply with _ | ⟨_, _ | ⟨_, _ | ⟨_, _ | ⟨_, _⟩⟩⟩⟩ <;> rfl
  have e4 : out ++ (popFifo reply 3).out
      = out ++ [reply.headD 0xFF] ++ [reply.tail.headD 0xFF] ++ [reply.tail.tail.headD 0xFF] := by
    simp [popFifo_out_succ]
  simp only [State.setFlash, State.addOut, State.setOut, e4, ← e3]
  have e2 : reply.tail.tail.tail.tail = reply.drop 4 := by rcases reply with _ | ⟨_, _ | ⟨_, _ | ⟨_, _ | ⟨_, _⟩⟩⟩⟩ <;> rfl
  simp only [e2]

/-- Every exchange in `Read` streams the image from the cursor on (R110). -/
theorem feed_flash_read (data : List Byte) (s : State) (hm : s.flash.mode = .read) :
    feed .flash data s =
      .ok () ((s.setFlash { s.flash with cursor := s.flash.cursor + data.length }).setOut
        (s.out ++ (List.range data.length).map fun j => flashByte s (s.flash.cursor + j))) := by
  induction data generalizing s with
  | nil => simp only [feed_nil, List.length_nil, List.range_zero, List.map_nil, List.append_nil, Nat.add_zero]; rfl
  | cons tx rest ih =>
    rw [feed_cons, exchange_flash, flashExchange, hm]
    simp only [Res.bind_ok, flashReadByte]
    rw [ih _ (by exact hm)]
    simp only [List.length_cons, State.addOut_flash, State.setFlash_flash, State.addOut_out,
      State.setFlash_out]
    congr 1
    have e1 : s.flash.cursor + 1 + rest.length = s.flash.cursor + (rest.length + 1) := by omega
    have e2 : s.out ++ [flashByte s s.flash.cursor] ++ (List.range rest.length).map
          (fun j => flashByte s (s.flash.cursor + 1 + j))
        = s.out ++ (List.range (rest.length + 1)).map (fun j => flashByte s (s.flash.cursor + j)) := by
      rw [List.range_succ_eq_map]
      simp only [List.map_cons, List.map_map, List.append_assoc, List.singleton_append, Nat.add_zero]
      congr 2
      refine List.map_congr_left fun j _ => ?_
      simp only [Function.comp]
      congr 1; omega
    rw [e1, ← e2]
    rfl

/-- The offset of byte `j` of a page program from a cursor (R111). -/
theorem pageStep_place (c j : Nat) : pageStep (c / 256 * 256 + (c + j) % 256) = c / 256 * 256 + (c + (j + 1)) % 256 := by
  unfold pageStep
  omega

/-- What storing one programmed byte leaves of memory (R110). -/
theorem flashStore_reads (s : State) (c : Nat) (v : Byte) :
    s.storesOnly (flashStore s c v) .flash (fun x =>
      match s.board.flashSize with
      | none => none
      | some n => if x < n then (if c = x then some v else none) else none) := by
  unfold flashStore
  cases s.board.flashSize with
  | none => exact State.storesOnly_none rfl fun _ => rfl
  | some n =>
    simp only
    split
    · refine State.storesOnly_congr (State.storesOnly_writeCells s .flash c [v]) rfl rfl fun x => ?_
      simp only [List.length_cons, List.length_nil]
      by_cases hx : c = x
      · subst hx; simp [*]
      · rw [if_neg (by omega), if_neg hx]; simp
    · refine State.storesOnly_none rfl fun x => ?_
      by_cases hx : c = x
      · subst hx; simp [*]
      · simp [hx]

/-- Storing a programmed byte changes the arrays alone. -/
theorem flashStore_eq (s : State) (c : Nat) (v : Byte) :
    flashStore s c v = { s with arrays := (flashStore s c v).arrays } := by
  unfold flashStore
  split
  · rfl
  · split <;> rfl

/-- Every exchange in `Write` stores its byte and steps within the page; the last byte sent to an offset stands there
(R110, R111). -/
theorem feed_flash_write (data : List Byte) (s : State) (hm : s.flash.mode = .write) :
    ∃ t, feed .flash data s = .ok () t ∧
      t = { s with
        flash := { s.flash with
          cursor := if data = [] then s.flash.cursor
            else s.flash.cursor / 256 * 256 + (s.flash.cursor + data.length) % 256 }
        arrays := t.arrays
        out := s.out ++ fill data.length } ∧
      s.storesOnly t .flash (fun x =>
        match s.board.flashSize with
        | none => none
        | some n =>
          if x < n then
            (data.zipIdx.reverse.find? (fun p => s.flash.cursor / 256 * 256 + (s.flash.cursor + p.2) % 256 == x)).map (·.1)
          else none) := by
  induction data using List.reverseRecOn with
  | nil =>
    refine ⟨s, rfl, by simp [fill], State.storesOnly_none rfl fun x => ?_⟩
    cases s.board.flashSize <;> simp
  | append_singleton data b ih =>
    obtain ⟨t, hf, ht, hr⟩ := ih
    have hcur : t.flash.cursor = s.flash.cursor / 256 * 256 + (s.flash.cursor + data.length) % 256 := by
      rw [ht]
      simp only
      split
      · next h => subst h; simp only [List.length_nil]; omega
      · rfl
    have hmt : t.flash.mode = .write := by rw [ht]; exact hm
    have hbt : t.board = s.board := by rw [ht]
    rw [feed_append, hf, Res.bind_ok, feed_cons, exchange_flash, flashExchange, hmt]
    simp only [flashWriteByte, Res.bind_ok, feed_nil]
    refine ⟨_, rfl, ?_, ?_⟩
    · rw [hcur, pageStep_place, flashStore_eq]
      simp only [State.setFlash, State.addOut, List.append_eq_nil_iff, List.cons_ne_nil, and_false, if_false,
        List.length_append, List.length_cons, List.length_nil, Nat.zero_add]
      have e1 : t.out = s.out ++ fill data.length := by rw [ht]
      have e2 : fill (data.length + 1) = fill data.length ++ [0xFF] := by simp [fill, fillByte, List.replicate_succ']
      rw [e1, e2, ← List.append_assoc, ht]
    · intro r x
      have h1 := flashStore_reads t t.flash.cursor b r x
      have h2 := hr r x
      simp only [State.readCell, State.setFlash_arrays, State.addOut_arrays] at h1 h2 ⊢
      rw [h1, hcur, hbt]
      by_cases hrf : r = .flash
      · subst hrf
        simp only [if_true] at h2 ⊢
        rw [h2]
        cases s.board.flashSize with
        | none => rfl
        | some n =>
          simp only
          by_cases hx : x < n
          · simp only [hx, if_true, List.zipIdx_append, List.zipIdx_cons, List.zipIdx_nil, List.reverse_append,
              List.reverse_cons, List.reverse_nil, List.nil_append, List.singleton_append, List.find?_cons, Nat.zero_add]
            by_cases hp : s.flash.cursor / 256 * 256 + (s.flash.cursor + data.length) % 256 = x
            · simp [hp]
            · rw [show (s.flash.cursor / 256 * 256 + (s.flash.cursor + data.length) % 256 == x) = false by
                simpa using hp]
              simp [hp]
          · simp [hx]
      · simp only [hrf, if_false] at h2 ⊢
        exact h2

/-- What an erase leaves of memory: 0xFF over the part of its block inside the image, if erase fills (R115). -/
theorem flashErase_reads (size : Nat) (a : BitVec 24) (s : State) :
    s.storesOnly (flashErase size a s) .flash (fun x =>
      match s.board.flashSize with
      | none => none
      | some n =>
        if s.board.flashEraseFills = true ∧ a.toNat / size * size ≤ x ∧ x < a.toNat / size * size + size ∧ x < n
        then some 0xFF else none) := by
  unfold flashErase
  cases s.board.flashSize with
  | none => exact State.storesOnly_none rfl fun _ => rfl
  | some n =>
    simp only
    split
    · next hf =>
      refine State.storesOnly_congr (State.storesOnly_writeCells s .flash _ _) rfl rfl fun x => ?_
      set base := a.toNat / size * size
      have hl : (fill (min (base + size) n - base)).length = min (base + size) n - base := by simp [fill]
      rw [hl]
      by_cases hx : base ≤ x ∧ x < base + size ∧ x < n
      · have h3 : x - base < min (base + size) n - base := by omega
        rw [if_pos (by omega), if_pos ⟨hf, hx⟩]
        simp [fill, fillByte, h3]
      · rw [if_neg (by omega), if_neg (by tauto)]
    · next hf => exact State.storesOnly_none rfl fun x => by simp [hf]

/-- An erase changes the arrays alone. -/
theorem flashErase_eq (size : Nat) (a : BitVec 24) (s : State) :
    flashErase size a s = { s with arrays := (flashErase size a s).arrays } := by
  unfold flashErase
  split
  · rfl
  · split <;> rfl

/-- An exchange in a data mode other than `Read` and `Write` returns one byte and changes nothing (R110). -/
theorem flashExchange_still {tx v : Byte} {s : State}
    (h : (s.flash.mode = .erase ∧ v = 0xFF) ∨ ∃ k, s.flash.mode = .status k ∧ v = s.flash.srAt k) :
    flashExchange tx s = .ok v s := by
  rcases h with ⟨h, rfl⟩ | ⟨k, h, rfl⟩ <;> simp [flashExchange, h]

/-- A sleeping flash rejects every byte but the wake byte, each with a log entry (R112). -/
theorem feed_flash_asleep (bytes : List Byte) (s : State) (hm : s.flash.mode = .idle) (hs : s.flash.sleeping = true)
    (hw : wakeByte ∉ bytes) :
    feed .flash bytes s =
      .ok () { s with log := s.log ++ bytes.map Event.flashAsleepReject, out := s.out ++ fill bytes.length } := by
  induction bytes generalizing s with
  | nil => simp [fill]
  | cons tx rest ih =>
    simp only [List.mem_cons, not_or] at hw
    rw [feed_cons, exchange_flash, flashExchange, hm]
    simp only [hs, true_and]
    rw [if_pos (Ne.symm hw.1)]
    simp only [Res.bind_ok]
    rw [ih ((s.addLog (.flashAsleepReject tx)).addOut 0xFF) hm hs hw.2]
    simp [State.addLog, State.addOut, fill, List.replicate_succ, fillByte]

end Sys2Proof.Machine
end

