-- ==== Sys2Proof/Laws/Keeps.lean ====
section
/-! SUPPORT. What a step can do, said once: a property that survives each of the updates below survives every step. -/

namespace Sys2Proof.Machine

/-- A property that survives every update an operation is made of. -/
structure Kept (P : State → Prop) : Prop where
  regs : ∀ s r, P s → P (s.setRegs r)
  out : ∀ s l, P s → P (s.setOut l)
  log : ∀ s e, P s → P (s.addLog e)
  draws : ∀ s n, P s → P (s.addDraws n)
  rtc : ∀ s w, P s → P (s.addRtc w)
  fsm : ∀ s f, P s → P (s.setFsm f)
  script : ∀ s l, P s → P (s.setScript l)
  rx : ∀ s a l, P s → P (s.writeCells .rx a l)
  store : ∀ s addr v p, P s → P (writeThrough s addr v p)
  deselect : ∀ s, P s → P (s.setFlash (flashResetTransient s.flash))
  mcuReset : ∀ s b, P s → P (mcuResetEvent b s)
  warm : ∀ s, P s → P (warmReset s)
  cold : ∀ s, s.poweredUp = false → P s → P (coldReset s)
  exchange : ∀ d tx s, P s → P (exchange (periphDev d) tx s).state

variable {P : State → Prop}

theorem Kept.anyExchange (h : Kept P) (dev : BitVec 2) (tx : Byte) (s : State) (hs : P s) : P (Machine.exchange dev tx s).state := by
  have hd : dev = 0 ∨ dev = periphDev .card ∨ dev = periphDev .flash ∨ dev = periphDev .mcu := by
    revert dev; decide
  rcases hd with rfl | rfl | rfl | rfl
  · exact hs
  all_goals exact h.exchange _ _ _ hs

theorem Kept.exchangeAll (h : Kept P) (dev : BitVec 2) (l : List Byte) (s : State) (hs : P s) :
    P (exchangeAll dev l s).state := by
  induction l generalizing s with
  | nil => exact hs
  | cons tx rest ih =>
    exact Res.bind_keeps (h.anyExchange dev tx s hs) fun b s1 h1 => ih _ (h.out s1 (s1.out ++ [b]) h1)

theorem Kept.sendFrame (h : Kept P) (l : List Byte) (s : State) (hs : P s) : P (sendFrame l s).state := by
  unfold Machine.sendFrame
  split
  · exact h.exchangeAll _ _ _ hs
  · exact hs

theorem Kept.transferLoop (h : Kept P) (dev m : BitVec 2) (hf : BitVec 1) (k i : Nat) (s : State) (hs : P s) :
    P (transferLoop dev m hf k i s).state := by
  induction k generalizing i s with
  | zero => exact hs
  | succ k ih =>
    refine Res.bind_keeps (h.anyExchange dev _ s hs) fun b s1 h1 => ih _ _ ?_
    unfold transferRx
    split
    · exact h1
    · exact h.rx _ _ _ h1

theorem Kept.waitRead (h : Kept P) (dev : BitVec 2) (hf : BitVec 1) (left k : Nat) (s : State) (hs : P s) :
    P (waitRead dev hf left k s).state := by
  induction left generalizing k s with
  | zero => exact h.log _ _ hs
  | succ left ih =>
    refine Res.bind_keeps (h.anyExchange dev _ s hs) fun b s1 h1 => ?_
    split
    · exact h.log _ _ (h.rx _ _ _ h1)
    · exact ih _ _ h1

theorem Kept.transfer (h : Kept P) (s : State) (hs : P s) : P (transfer s).state := by
  unfold Machine.transfer
  simp only
  split
  · refine Res.bind_keeps (h.waitRead _ _ _ _ s hs) fun got s1 h1 => ?_
    split
    · exact Res.bind_keeps (h.transferLoop _ _ _ _ _ s1 h1) fun _ s2 h2 => h.regs _ _ h2
    · exact h1
  · exact Res.bind_keeps (h.transferLoop _ _ _ _ _ s hs) fun _ s1 h1 => h.regs _ _ h1

theorem Kept.spiCntWrite (h : Kept P) (p : BytePort) (v : Byte) (s : State) (hs : P s) : P (spiCntWrite p v s).state := by
  unfold Machine.spiCntWrite
  split
  · exact h.log _ _ hs
  · cases p with
    | lo => exact h.regs _ _ hs
    | hi =>
      have hd : ∀ old u, P u → P (Machine.deselect old u) := by
        intro old u hu
        unfold Machine.deselect
        split
        · exact h.deselect _ hu
        · exact hu
      simp only [runEngine]
      split
      · exact h.regs _ _ hs
      · split
        · exact h.transfer _ (hd _ _ (h.regs _ _ hs))
        · exact hd _ _ (h.regs _ _ hs)

theorem Kept.regRead (h : Kept P) (off : Byte) (s : State) (hs : P s) : P (regRead off s) := by
  unfold Machine.regRead
  split
  · exact h.out _ _ hs
  · exact h.draws _ _ (h.out _ _ hs)
  · exact h.out _ _ hs

theorem Kept.regWrite (h : Kept P) (off v : Byte) (s : State) (hs : P s) : P (regWrite off v s).state := by
  unfold Machine.regWrite
  split
  · exact hs
  · exact h.rtc _ _ hs
  · next p _ =>
    cases p with
    | boardRev => exact hs
    | spiCnt b => exact h.spiCntWrite b v s hs
    | powCnt =>
      change P (powWrite v s)
      unfold powWrite
      simp only
      split
      · exact h.mcuReset _ _ (h.regs _ _ hs)
      · exact h.regs _ _ hs
    | bank k b => exact h.regs _ _ hs
    | flashEn => exact h.regs _ _ hs
    | bankLinear => exact h.regs _ _ hs
    | segMask b => exact h.regs _ _ hs
    | emuCnt => exact h.regs _ _ hs
    | warmboot => exact h.regs _ _ hs

theorem Kept.writeRegByte (h : Kept P) (p : RegPort) (v : Byte) (s : State) (hs : P s) : P (writeRegByte p v s).state := by
  unfold Machine.writeRegByte
  split
  · exact hs
  · exact h.regWrite _ _ _ hs

theorem Kept.spiWordWrite (h : Kept P) (w : Half) (s : State) (hs : P s) : P (spiWordWrite w s).state :=
  Res.bind_keeps (h.writeRegByte _ _ s hs) fun _ s1 h1 => h.writeRegByte _ _ s1 h1

theorem Kept.cartWrite (h : Kept P) (addr : BitVec 20) (v : Byte) (s : State) (hs : P s) : P (cartWrite addr v s) := by
  unfold Machine.cartWrite fsmWrite
  split
  · refine h.fsm _ _ ?_
    split
    · exact h.store _ _ _ _ hs
    · exact hs
  · exact h.store _ _ _ _ hs

/-- A kept property survives every instruction that answers a next state. -/
theorem Kept.exec (h : Kept P) {i : Instr} {s t : State} (hs : P s) (he : exec i s = .next t) : P t := by
  have h0 : P (s.setOut []) := h.out _ _ hs
  have key : ∀ f : State → Res Unit, Machine.exec i s = operate s f → P (f (s.setOut [])).state → P t := by
    intro f hf hp
    rw [hf] at he
    obtain ⟨_, rfl⟩ := operate_next he
    exact hp
  cases i
  case busRegread off => exact key (fun s => done (Machine.regRead off s)) rfl (h.regRead _ _ h0)
  case busRegwrite off v => exact key (fun s => Machine.regWrite off v s) rfl (h.regWrite _ _ _ h0)
  case busCartread a => exact key (fun s => done (cartRead a s)) rfl (h.out _ _ h0)
  case busCartwrite a v => exact key (fun s => done (Machine.cartWrite a v s)) rfl (h.cartWrite _ _ _ h0)
  case busProberead a => exact key (fun s => done (probeRead a s)) rfl (h.out _ _ h0)
  case busProbewrite a v => exact key (fun s => done (probeWrite a v s)) rfl (h.store _ _ _ _ h0)
  case busColdreset =>
    refine key (fun s => done (if s.poweredUp then warmReset s else coldReset s)) rfl ?_
    simp only [done_state]
    split
    · exact h.warm _ h0
    · next hp => exact h.cold _ (by simpa using hp) h0
  case busWarmreset => exact key (fun s => done (warmReset s)) rfl (h.warm _ h0)
  case spiCtrl => exact key _ rfl (h.spiWordWrite _ _ h0)
  case spiWrite => exact key _ rfl (h.spiWordWrite _ _ h0)
  case spiRead => exact key _ rfl (h.spiWordWrite _ _ h0)
  case spiExch => exact key _ rfl (h.spiWordWrite _ _ h0)
  case spiWaitread => exact key _ rfl (h.spiWordWrite _ _ h0)
  case lfUnlock1 o => exact key (fun s => done (Machine.cartWrite (windowAddr o) 0xAA s)) rfl (h.cartWrite _ _ _ h0)
  case lfUnlock2 o => exact key (fun s => done (Machine.cartWrite (windowAddr o) 0x55 s)) rfl (h.cartWrite _ _ _ h0)
  case lfFast o => exact key (fun s => done (Machine.cartWrite (windowAddr o) 0x20 s)) rfl (h.cartWrite _ _ _ h0)
  case lfWrite o x =>
    exact key (fun s => done (Machine.cartWrite (windowAddr o) x (Machine.cartWrite (windowAddr o) 0xA0 s))) rfl
      (h.cartWrite _ _ _ (h.cartWrite _ _ _ h0))
  case lfErase o b5 =>
    exact key (fun s => done (Machine.cartWrite (windowAddr o) (if b5 = 0 then 0x10 else 0x30) s)) rfl (h.cartWrite _ _ _ h0)
  case lfFastwrite o x =>
    exact key (fun s => done (Machine.cartWrite (windowAddr o) x (Machine.cartWrite (windowAddr o) 0xA0 s))) rfl
      (h.cartWrite _ _ _ (h.cartWrite _ _ _ h0))
  case lfFastexit o => exact key (fun s => done (Machine.cartWrite (windowAddr o) 0x90 s)) rfl (h.cartWrite _ _ _ h0)
  all_goals exact key _ rfl (h.sendFrame _ _ h0)

/-- A kept property survives every step. -/
theorem Kept.step (h : Kept P) {s t : State} (hs : P s) (he : step s = .next t) : P t := by
  unfold Machine.step issue at he
  cases hl : s.script with
  | nil =>
    rw [hl] at he
    simp only [idle] at he
    split at he
    · cases he
    · cases he; exact hs
  | cons f rest =>
    rw [hl] at he
    simp only at he
    cases hd : decode s.board (s.fsm == .fast) f with
    | ok i => rw [hd] at he; exact h.exec (h.script s rest hs) he
    | error e => rw [hd] at he; cases he

/-! ## Exchanges -/

/-- A property that survives every update an exchange is made of, whatever becomes of the peripherals' own fields. -/
structure KeptInside (P : State → Prop) : Prop where
  flash : ∀ s f, P s → P (s.setFlash f)
  card : ∀ s c, P s → P (s.setCard c)
  mcu : ∀ s m, m.eeprom = s.mcu.eeprom → P s → P (s.setMcu m)
  log : ∀ s e, P s → P (s.addLog e)
  draws : ∀ s n, P s → P (s.addDraws n)
  usb : ∀ s l, P s → P (s.addUsb l)
  fault : ∀ s f, P s → P (s.setFault f)
  cells : ∀ s r a l, r = .flash ∨ r = .card → P s → P (s.writeCells r a l)

theorem KeptInside.fifo (h : KeptInside P) (d : Periph) (w : FifoId) (l : List Byte) (s : State) (hs : P s) :
    P (s.setFifo d w l) := by
  cases d <;> cases w
  · exact h.flash _ _ hs
  · exact h.flash _ _ hs
  · exact h.card _ _ hs
  · exact h.card _ _ hs
  · exact h.mcu _ _ rfl hs
  · exact h.mcu _ _ rfl hs

theorem KeptInside.push (h : KeptInside P) (d : Periph) (w : FifoId) (l : List Byte) (s : State) (hs : P s) :
    P (push d w l s).state := by
  rcases push_cases d w l s with ⟨_, he⟩ | ⟨_, he⟩ <;> rw [he]
  · exact h.fault _ _ hs
  · exact h.fifo _ _ _ _ hs

theorem KeptInside.flashCommand (h : KeptInside P) (c : FlashOp) (a : BitVec 24) (s : State) (hs : P s) :
    P (flashCommand c a s).state := by
  have erase : ∀ n, P (flashErase n a s) := by
    intro n
    unfold flashErase
    split
    · exact hs
    · split
      · exact h.cells _ _ _ _ (.inl rfl) hs
      · exact hs
  cases c
  case erase4k => exact h.flash _ _ (erase _)
  case erase32k => exact h.flash _ _ (erase _)
  case erase64k => exact h.flash _ _ (erase _)
  case mfrid => exact h.push _ _ _ _ hs
  case jedecid => exact h.push _ _ _ _ hs
  case uuid => exact h.push _ _ _ _ hs
  all_goals exact h.flash _ _ hs

theorem KeptInside.flashDecode (h : KeptInside P) (s : State) (hs : P s) : P (flashDecode s).state := by
  unfold Machine.flashDecode
  split
  · exact hs
  · split
    · exact h.log _ _ (h.flash _ _ hs)
    · split
      · split
        · exact hs
        · exact h.flashCommand _ _ _ (h.flash _ _ hs)
      · exact h.flashCommand _ _ _ (h.flash _ _ hs)

theorem KeptInside.flashExchange (h : KeptInside P) (tx : Byte) (s : State) (hs : P s) : P (flashExchange tx s).state := by
  unfold Machine.flashExchange
  split
  · exact h.flash _ _ hs
  · refine h.flash _ _ ?_
    unfold flashStore
    split
    · exact hs
    · split
      · exact h.cells _ _ _ _ (.inl rfl) hs
      · exact hs
  · exact hs
  · exact hs
  · split
    · exact h.log _ _ hs
    · exact Res.bind_keeps (h.push _ _ _ _ (h.flash _ _ hs)) fun _ s1 h1 =>
        Res.bind_keeps (h.flashDecode s1 h1) fun _ s2 h2 => h2

theorem KeptInside.cardQueueBlock (h : KeptInside P) (s : State) (hs : P s) : P (cardQueueBlock s).state :=
  Res.bind_keeps (h.push _ _ _ _ hs) fun _ s1 h1 => Res.bind_keeps (h.push _ _ _ s1 h1) fun _ _ h2 =>
    Res.bind_keeps (h.push _ _ _ _ (h.draws _ _ h2)) fun _ s3 h3 => Res.bind_keeps (h.push _ _ _ s3 h3) fun _ _ h4 =>
      h.card _ _ h4

theorem KeptInside.cardCommand (h : KeptInside P) (idx : BitVec 6) (arg : BitVec 32) (s : State) (hs : P s) :
    P (cardCommand idx arg s).state := by
  unfold Machine.cardCommand
  split
  · exact h.push _ _ _ _ hs
  · exact h.push _ _ _ _ (h.card _ _ hs)
  · exact h.push _ _ _ _ (h.card _ _ hs)
  · exact h.push _ _ _ _ (h.card _ _ hs)
  · exact h.push _ _ _ _ hs
  · exact h.push _ _ _ _ (h.card _ _ hs)
  · exact h.push _ _ _ _ hs
  · exact Res.bind_keeps (h.push _ _ _ _ (h.card _ _ hs)) fun _ s1 h1 => h.cardQueueBlock s1 h1
  · exact Res.bind_keeps (h.push _ _ _ _ (h.card _ _ hs)) fun _ s1 h1 =>
      Res.bind_keeps (h.cardQueueBlock s1 h1) fun _ s2 h2 => h.card _ _ h2
  · exact Res.bind_keeps (h.push _ _ _ _ hs) fun _ s1 h1 => h.card _ _ h1
  · exact Res.bind_keeps (h.push _ _ _ _ hs) fun _ s1 h1 => h.card _ _ h1

theorem KeptInside.cardScan (h : KeptInside P) (tx : Byte) (s : State) (hs : P s) : P (cardScan tx s).state := by
  unfold Machine.cardScan
  split
  · exact hs
  · refine Res.bind_keeps (h.push _ _ _ _ hs) fun _ s1 h1 => ?_
    split
    · exact h.cardCommand _ _ _ (h.card _ _ h1)
    · exact h1

theorem KeptInside.cardCommit (h : KeptInside P) (s : State) (hs : P s) : P (cardCommit s).state :=
  Res.bind_keeps (h.push _ _ _ _ (h.card _ _ (h.cells _ _ _ _ (.inr rfl) hs))) fun _ _ h1 => h.card _ _ h1

theorem KeptInside.cardCapture (h : KeptInside P) (tx : Byte) (s : State) (hs : P s) : P (cardCapture tx s).state := by
  unfold Machine.cardCapture
  split
  · split
    · exact hs
    · split
      · exact h.card _ _ hs
      · exact h.cardScan _ _ (h.card _ _ (h.log _ _ hs))
  · simp only
    split
    · exact h.cardCommit _ (h.card _ _ hs)
    · exact h.card _ _ hs
  · split
    · exact h.cardCommit _ hs
    · exact h.card _ _ hs

theorem KeptInside.cardExchange (h : KeptInside P) (tx : Byte) (s : State) (hs : P s) : P (cardExchange tx s).state := by
  refine Res.bind_keeps ?_ fun _ s1 h1 => Res.bind_keeps ?_ fun _ s2 h2 => h2
  · unfold cardRefill
    split
    · exact h.cardQueueBlock _ hs
    · exact hs
  · split
    · exact h.cardCapture _ _ (h.card _ _ h1)
    · exact h.cardScan _ _ (h.card _ _ h1)

theorem KeptInside.mcuCommand (h : KeptInside P) (c : McuOp) (arg : BitVec 9) (bytes : List Byte) (s : State) (hs : P s) :
    P (mcuCommand c arg bytes s).state := by
  cases c
  · exact h.push _ _ _ _ hs
  · exact h.push _ _ _ _ (h.mcu _ _ rfl hs)
  · exact h.push _ _ _ _ hs
  · exact h.push _ _ _ _ hs
  · exact h.push _ _ _ _ (h.draws _ _ hs)
  · exact h.push _ _ _ _ (h.usb _ _ (h.draws _ _ hs))

theorem KeptInside.mcuByte (h : KeptInside P) (tx : Byte) (s : State) (hs : P s) : P (mcuByte tx s).state := by
  refine Res.bind_keeps (h.push _ _ _ _ hs) fun _ s1 h1 => ?_
  unfold mcuDecode
  split
  · exact h1
  · simp only
    split
    · exact h.log _ _ (h.mcu _ _ rfl h1)
    · split
      · exact h1
      · exact h.mcuCommand _ _ _ _ (h.mcu _ _ rfl h1)

theorem KeptInside.blAck (h : KeptInside P) (s : State) (hs : P s) : P (blAck s).state :=
  Res.bind_keeps (h.push _ _ _ _ hs) fun _ _ h1 => h.mcu _ _ rfl h1

theorem KeptInside.blPayload (h : KeptInside P) (c : BootOp) (s : State) (hs : P s) : P (blPayload c s).state := by
  unfold Machine.blPayload
  split
  · exact h.blAck _ (h.mcu _ _ rfl (h.log _ _ hs))
  · exact hs

theorem KeptInside.blStep (h : KeptInside P) (c : BootOp) (tx : Byte) (s : State) (hs : P s) : P (blStep c tx s).state := by
  unfold Machine.blStep
  split
  · refine Res.bind_keeps (h.push _ _ _ _ hs) fun _ s1 h1 => ?_
    split
    · exact h1
    · simp only
      split
      · exact h.blAck _ (h.mcu _ _ rfl (h.log _ _ h1))
      · exact h.blAck _ (h.mcu _ _ rfl h1)
      · exact h.blAck _ (h.mcu _ _ rfl h1)
  · refine Res.bind_keeps (h.push _ _ _ _ hs) fun _ s1 h1 => ?_
    split
    · exact h1
    · split <;> exact h.blPayload _ _ (h.mcu _ _ rfl h1)
  · exact h.blPayload _ _ (h.mcu _ _ rfl hs)
  · exact hs

theorem KeptInside.blByte (h : KeptInside P) (tx : Byte) (s : State) (hs : P s) : P (blByte tx s).state := by
  unfold Machine.blByte
  split
  · unfold blAwaited
    split
    · simp only
      split
      · exact h.mcu _ _ rfl (h.mcu _ _ rfl hs)
      · exact h.mcu _ _ rfl hs
    · exact hs
  · split
    · unfold blUnstarted
      split
      · exact h.blAck _ (h.mcu _ _ rfl hs)
      · exact hs
    · split
      · unfold blFrame
        split
        · exact hs
        · refine Res.bind_keeps (h.push _ _ _ _ hs) fun _ s1 h1 => ?_
          split
          · exact h1
          · simp only [blSelect]
            split
            · exact h.log _ _ (h.mcu _ _ rfl h1)
            · split
              · exact Res.bind_keeps (h.push _ _ _ _ (h.mcu _ _ rfl h1)) fun _ s2 h2 => h.mcu _ _ rfl h2
              · exact h.blAck _ (h.mcu _ _ rfl (h.mcu _ _ rfl h1))
      · exact h.blStep _ _ _ hs

/-- Such a property survives every exchange. -/
theorem KeptInside.exchange (h : KeptInside P) (d : Periph) (tx : Byte) (s : State) (hs : P s) :
    P (Machine.exchange (periphDev d) tx s).state := by
  cases d with
  | flash => exact h.flashExchange tx s hs
  | card => exact h.cardExchange tx s hs
  | mcu =>
    refine Res.bind_keeps ?_ fun _ s2 h2 => h2
    split
    · exact h.blByte _ _ (h.mcu _ _ rfl hs)
    · exact h.mcuByte _ _ (h.mcu _ _ rfl hs)

end Sys2Proof.Machine
end

