-- ==== Sys2Proof/Laws/Mcu.lean ====
section
/-! SUPPORT. The MCU: what one exchange, a whole normal-mode frame and the bytes of a bootloader step can do. -/

namespace Sys2Proof.Machine

/-! ## Normal mode (R150, R153) -/

/-- An exchange in normal mode (R150). -/
theorem mcuExchange_normal {tx : Byte} {s : State} (hm : s.mcu.bootMode = false) :
    mcuExchange tx s =
      (mcuByte tx (s.setMcu { s.mcu with reply := s.mcu.reply.tail })).bind
        fun _ t => .ok (s.mcu.reply.headD 0xFF) t := by
  simp [mcuExchange, hm]

/-- Half a command word waits (R153). -/
theorem mcuDecode_short {s : State} (h : s.mcu.cmd.length < 2) : mcuDecode s = .ok () s := by
  simp only [mcuDecode, h, if_true]
  rfl

/-- An unfinished frame waits (R153). -/
theorem mcuDecode_waits {w0 w1 : Byte} {ext : List Byte} {c : McuOp} {s : State} (hs : s.mcu.cmd = w0 :: w1 :: ext)
    (hc : mcuOpOf s.board ((le16 w0 w1).extractLsb' 0 7) = some c)
    (hl : ext.length < mcuExtra c ((le16 w0 w1).extractLsb' 7 9)) : mcuDecode s = .ok () s := by
  have h1 : ¬ ext.length + 1 + 1 < 2 := by omega
  have h2 : ext.length + 1 + 1 < 2 + mcuExtra c ((le16 w0 w1).extractLsb' 7 9) := by omega
  simp only [mcuDecode, hs, List.length_cons, h1, if_false, byteOf_cons_zero, byteOf_cons_succ, hc, h2, if_true]
  rfl

/-- A whole frame runs its command (R153). -/
theorem mcuDecode_runs {w0 w1 : Byte} {ext : List Byte} {c : McuOp} {s : State} (hs : s.mcu.cmd = w0 :: w1 :: ext)
    (hc : mcuOpOf s.board ((le16 w0 w1).extractLsb' 0 7) = some c)
    (hl : ext.length = mcuExtra c ((le16 w0 w1).extractLsb' 7 9)) :
    mcuDecode s = mcuCommand c ((le16 w0 w1).extractLsb' 7 9) ext (s.setMcu { s.mcu with cmd := [] }) := by
  have h1 : ¬ ext.length + 1 + 1 < 2 := by omega
  have h2 : ¬ ext.length + 1 + 1 < 2 + mcuExtra c ((le16 w0 w1).extractLsb' 7 9) := by omega
  have e1 : (popFifo (w0 :: w1 :: ext) (2 + mcuExtra c ((le16 w0 w1).extractLsb' 7 9))).out = w0 :: w1 :: ext :=
    popFifo_out_of_length (by simp only [List.length_cons]; omega)
  have e2 : (popFifo (w0 :: w1 :: ext) (2 + mcuExtra c ((le16 w0 w1).extractLsb' 7 9))).rest = [] := by
    rw [popFifo_rest]; exact List.drop_of_length_le (by simp only [List.length_cons]; omega)
  simp only [mcuDecode, hs, List.length_cons, h1, if_false, byteOf_cons_zero, byteOf_cons_succ, hc, h2, e1, e2]
  rfl

/-- A command word whose opcode is unknown is discarded (R160). -/
theorem mcuDecode_unknown {w0 w1 : Byte} {ext : List Byte} {s : State} (hs : s.mcu.cmd = w0 :: w1 :: ext)
    (hc : mcuOpOf s.board ((le16 w0 w1).extractLsb' 0 7) = none) :
    mcuDecode s = .ok () ((s.setMcu { s.mcu with cmd := [] }).addLog
      (.mcuUnknownOpcode ((le16 w0 w1).extractLsb' 0 7))) := by
  have h1 : ¬ ext.length + 1 + 1 < 2 := by omega
  simp only [mcuDecode, hs, List.length_cons, h1, if_false, byteOf_cons_zero, byteOf_cons_succ, hc]
  rfl

/-- A byte that leaves a frame unfinished only joins it (R153). -/
theorem mcuByte_pending {tx w0 w1 : Byte} {ext : List Byte} {c : McuOp} {s : State}
    (hc : mcuOpOf s.board ((le16 w0 w1).extractLsb' 0 7) = some c)
    (he : ext.length = mcuExtra c ((le16 w0 w1).extractLsb' 7 9)) (hp : s.mcu.cmd ++ [tx] <+: w0 :: w1 :: ext)
    (hl : s.mcu.cmd.length + 1 < ext.length + 2) (hb : s.mcu.cmd.length + 1 ≤ s.board.fifoCap) :
    mcuByte tx s = .ok () (s.setMcu { s.mcu with cmd := s.mcu.cmd ++ [tx] }) := by
  rw [mcuByte, push_fits (by simpa [State.fifo] using hb), Res.bind_ok]
  by_cases h2 : s.mcu.cmd.length + 1 < 2
  · rw [mcuDecode_short (by simpa [State.setFifo, State.fifo] using h2)]
    rfl
  · obtain ⟨l, hl'⟩ := hp
    obtain ⟨x, y, z, hx⟩ : ∃ x y z, s.mcu.cmd ++ [tx] = x :: y :: z := by
      have hlen : 2 ≤ (s.mcu.cmd ++ [tx]).length := by simp; omega
      generalize s.mcu.cmd ++ [tx] = l at hlen
      rcases l with _ | ⟨x, _ | ⟨y, z⟩⟩
      · simp at hlen
      · simp at hlen
      · exact ⟨x, y, z, rfl⟩
    rw [hx] at hl'
    simp only [List.cons_append, List.cons.injEq] at hl'
    obtain ⟨rfl, rfl, hz⟩ := hl'
    have hlen := congrArg List.length hx
    simp only [List.length_append, List.length_cons, List.length_nil] at hlen
    rw [mcuDecode_waits (w0 := x) (w1 := y) (ext := z) (c := c) (by simpa [State.setFifo, State.fifo] using hx) (by exact hc)
      (by omega)]
    rfl

/-- The last byte of a frame runs its command (R153). -/
theorem mcuByte_complete {tx w0 w1 : Byte} {ext : List Byte} {c : McuOp} {s : State}
    (hc : mcuOpOf s.board ((le16 w0 w1).extractLsb' 0 7) = some c)
    (he : ext.length = mcuExtra c ((le16 w0 w1).extractLsb' 7 9)) (hp : s.mcu.cmd ++ [tx] = w0 :: w1 :: ext)
    (hb : s.mcu.cmd.length + 1 ≤ s.board.fifoCap) :
    mcuByte tx s = mcuCommand c ((le16 w0 w1).extractLsb' 7 9) ext (s.setMcu { s.mcu with cmd := [] }) := by
  rw [mcuByte, push_fits (by simpa [State.fifo] using hb), Res.bind_ok,
    mcuDecode_runs (w0 := w0) (w1 := w1) (ext := ext) (c := c) (by simpa [State.setFifo, State.fifo] using hp)
      (by exact hc) he]
  rfl

/-- A command word whose opcode is unknown is discarded with a log entry (R160). -/
theorem mcuByte_unknown {w0 w1 : Byte} {s : State} (hc : mcuOpOf s.board ((le16 w0 w1).extractLsb' 0 7) = none)
    (hp : s.mcu.cmd = [w0]) (hb : 2 ≤ s.board.fifoCap) :
    mcuByte w1 s = .ok () ((s.setMcu { s.mcu with cmd := [] }).addLog
      (.mcuUnknownOpcode ((le16 w0 w1).extractLsb' 0 7))) := by
  rw [mcuByte, push_fits (by simpa [State.fifo, hp] using hb), Res.bind_ok,
    mcuDecode_unknown (w0 := w0) (w1 := w1) (ext := []) (by simp [State.setFifo, State.fifo, hp]) (by exact hc)]
  rfl

/-- The bytes of an unfinished frame, exchanged: each returns a reply byte. -/
theorem feed_mcu_pending (l rest : List Byte) {w0 w1 : Byte} {ext : List Byte} {c : McuOp} (s : State)
    (hm : s.mcu.bootMode = false) (hc : mcuOpOf s.board ((le16 w0 w1).extractLsb' 0 7) = some c)
    (he : ext.length = mcuExtra c ((le16 w0 w1).extractLsb' 7 9)) (hp : s.mcu.cmd ++ l <+: w0 :: w1 :: ext)
    (hl : s.mcu.cmd.length + l.length < ext.length + 2) (hb : ext.length + 2 ≤ s.board.fifoCap) :
    feed .mcu (l ++ rest) s =
      feed .mcu rest ((s.setMcu { s.mcu with cmd := s.mcu.cmd ++ l, reply := s.mcu.reply.drop l.length }).setOut
        (s.out ++ (popFifo s.mcu.reply l.length).out)) := by
  induction l generalizing s with
  | nil =>
    simp only [List.nil_append, List.length_nil, List.drop_zero, List.append_nil, popFifo_out_zero]
    rfl
  | cons tx l ih =>
    simp only [List.length_cons] at hl
    have hp' : s.mcu.cmd ++ [tx] <+: w0 :: w1 :: ext :=
      List.IsPrefix.trans ⟨l, by simp⟩ hp
    rw [List.cons_append, feed_cons, exchange_mcu, mcuExchange_normal hm,
      mcuByte_pending (by simpa using hc) he (by simpa using hp') (by simp; omega) (by simp; omega)]
    simp only [Res.bind_ok]
    rw [ih _ (by exact hm) (by exact hc) (by simpa [State.setMcu, State.addOut] using hp)
      (by simp; omega) (by exact hb)]
    congr 1
    have e1 : s.mcu.reply.tail.drop l.length = s.mcu.reply.drop (l.length + 1) := by
      cases s.mcu.reply <;> simp
    simp only [State.setMcu, State.addOut, State.setOut, List.length_cons, popFifo_out_succ, pop1_eq, pop1Rest_eq, e1,
      List.append_assoc, List.singleton_append]

/-- A normal-mode frame: a reply byte for each of its bytes, then the command (R71, R153). -/
theorem feed_mcu_frame {op : BitVec 7} {arg : BitVec 9} {ext : List Byte} {c : McuOp} {s : State}
    (hm : s.mcu.bootMode = false) (hn : s.mcu.cmd = []) (hc : mcuOpOf s.board op = some c)
    (he : ext.length = mcuExtra c arg) (hb : 1024 ≤ s.board.fifoCap) :
    feed .mcu (mcuFrame op arg ++ ext) s =
      (mcuCommand c arg ext ((s.setMcu { s.mcu with reply := s.mcu.reply.drop (2 + ext.length) }).setOut
        (s.out ++ (popFifo s.mcu.reply (1 + ext.length)).out))).bind
        fun _ t => .ok () (t.addOut (s.mcu.reply.getD (1 + ext.length) 0xFF)) := by
  have hlen : ext.length + 2 ≤ s.board.fifoCap := by
    have hx : mcuExtra c arg ≤ 512 := by
      have := arg.isLt
      unfold mcuExtra countOf
      split
      · split <;> omega
      · split <;> omega
      · omega
      · omega
    omega
  set w0 := (mcuWord op arg).extractLsb' 0 8 with hw0
  set w1 := (mcuWord op arg).extractLsb' 8 8 with hw1
  have hw : le16 w0 w1 = mcuWord op arg := le16_le16Bytes _
  have hop : (le16 w0 w1).extractLsb' 0 7 = op := by rw [hw, mcuWord_op]
  have harg : (le16 w0 w1).extractLsb' 7 9 = arg := by rw [hw, mcuWord_arg]
  have hf : mcuFrame op arg ++ ext = w0 :: w1 :: ext := rfl
  obtain ⟨init, last, hil⟩ : ∃ init last, w0 :: w1 :: ext = init ++ [last] :=
    ⟨_, _, (List.dropLast_append_getLast (l := w0 :: w1 :: ext) (by simp)).symm⟩
  have hinit : init.length = 1 + ext.length := by
    have := congrArg List.length hil
    simp only [List.length_append, List.length_cons, List.length_nil] at this
    omega
  rw [hf, hil, feed_mcu_pending (w0 := w0) (w1 := w1) (ext := ext) (c := c) init [last] s hm (by rw [hop]; exact hc)
      (by rw [harg]; exact he) (by rw [hn, List.nil_append, hil]; exact ⟨[last], rfl⟩) (by rw [hn, hinit]; simp; omega)
      hlen,
    feed_cons, exchange_mcu, mcuExchange_normal (by exact hm),
    mcuByte_complete (w0 := w0) (w1 := w1) (ext := ext) (c := c) (by
      simp only [State.setMcu_board, State.setOut_board, hop]; exact hc) (by rw [harg]; exact he) (by
      simp only [State.setMcu_mcu, State.setOut_mcu, hn, List.nil_append]; exact hil.symm) (by
      simp only [State.setMcu_mcu, State.setOut_mcu, hn, List.nil_append, State.setMcu_board, State.setOut_board, hinit]
      omega),
    harg]
  simp only [Res.bind_assoc, Res.bind_ok, feed_nil, State.setMcu_mcu, State.setOut_mcu, hinit]
  have e1 : (s.mcu.reply.drop (1 + ext.length)).tail = s.mcu.reply.drop (2 + ext.length) := by
    rw [List.tail_drop]; congr 1; omega
  have e2 : (s.mcu.reply.drop (1 + ext.length)).headD 0xFF = s.mcu.reply.getD (1 + ext.length) 0xFF := by
    rw [List.headD_eq_head?_getD, List.head?_drop, List.getD_eq_getElem?_getD]
  rw [e1, e2]
  have e3 : (((s.setMcu { s.mcu with cmd := s.mcu.cmd ++ init, reply := s.mcu.reply.drop (1 + ext.length) }).setOut
        (s.out ++ (popFifo s.mcu.reply (1 + ext.length)).out)).setMcu
        { s.mcu with cmd := s.mcu.cmd ++ init, reply := s.mcu.reply.drop (2 + ext.length) }).setMcu
        { s.mcu with cmd := [], reply := s.mcu.reply.drop (2 + ext.length) }
      = (s.setMcu { s.mcu with reply := s.mcu.reply.drop (2 + ext.length) }).setOut
        (s.out ++ (popFifo s.mcu.reply (1 + ext.length)).out) := by
    rw [← hn]; rfl
  exact congrArg (fun u => (mcuCommand c arg ext u).bind
    fun _ t => Res.ok () (t.addOut (s.mcu.reply.getD (1 + ext.length) 0xFF))) e3

/-- A normal-mode reply that fits (R152). -/
theorem mcuReply_fits {n : Nat} {p : List Byte} {s : State} (h : s.mcu.reply.length + (2 + p.length) ≤ s.board.fifoCap) :
    mcuReply n p s = .ok () (s.setMcu { s.mcu with
      reply := s.mcu.reply ++ [BitVec.ofNat 8 (2 * n), BitVec.ofNat 8 (2 * n / 256)] ++ p }) := by
  have e : mcuTag n = [BitVec.ofNat 8 (2 * n), BitVec.ofNat 8 (2 * n / 256)] := by
    unfold mcuTag le16Bytes
    congr 1
    · apply BitVec.eq_of_toNat_eq
      simp [Nat.shiftLeft_eq]; omega
    · congr 1
      apply BitVec.eq_of_toNat_eq
      simp [Nat.shiftLeft_eq, Nat.shiftRight_eq_div_pow]; omega
  rw [mcuReply, push_fits (by simp only [State.fifo, List.length_append, e, List.length_cons, List.length_nil]; omega), e]
  simp only [State.setFifo, State.fifo, List.append_assoc]

/-! ## Bootloader mode (R150, R161) -/

/-- An exchange in boot mode (R150). -/
theorem mcuExchange_boot {tx : Byte} {s : State} (hm : s.mcu.bootMode = true) :
    mcuExchange tx s =
      (blByte tx (s.setMcu { s.mcu with reply := s.mcu.reply.tail })).bind
        fun _ t => .ok (s.mcu.reply.headD 0xFF) t := by
  simp [mcuExchange, hm]

/-- A byte in boot mode whose piece answers, exchanged. -/
theorem feed_mcu_boot {tx : Byte} {rest : List Byte} {s t : State} (hm : s.mcu.bootMode = true)
    (h : blByte tx (s.setMcu { s.mcu with reply := s.mcu.reply.tail }) = .ok () t) :
    feed .mcu (tx :: rest) s = feed .mcu rest (t.addOut (s.mcu.reply.headD 0xFF)) := by
  rw [feed_cons, exchange_mcu, mcuExchange_boot hm, h]
  rfl

/-- An ACK that fits (R161). -/
theorem blAck_fits {s : State} (h : s.mcu.reply.length < s.board.fifoCap) :
    blAck s = .ok () (s.setMcu { s.mcu with waitingAck := true, reply := s.mcu.reply ++ [0x79] }) := by
  rw [blAck, push_fits (by simpa [State.fifo] using h)]
  rfl

/-- A NACK that fits (R161). -/
theorem blNack_fits {s : State} (h : s.mcu.reply.length < s.board.fifoCap) :
    blNack s = .ok () (s.setMcu { s.mcu with waitingAck := true, reply := s.mcu.reply ++ [0x1F] }) := by
  rw [blNack, push_fits (by simpa [State.fifo] using h)]
  rfl

/-- While an acknowledgment is awaited, every byte but 0x79 is ignored (R161). -/
theorem blByte_ignored {tx : Byte} {s : State} (hw : s.mcu.waitingAck = true) (ht : tx ≠ 0x79) :
    blByte tx s = .ok () s := by
  have h : ¬ tx = bootAck := ht
  simp only [blByte, hw, if_true, blAwaited, h, if_false]
  rfl

/-- The acknowledgment (R162). -/
theorem blByte_acknowledged {s : State} (hw : s.mcu.waitingAck = true) (hg : ¬ (s.mcu.blCmd = some .go ∧ s.mcu.step = 0)) :
    blByte 0x79 s = .ok () (s.setMcu { s.mcu with waitingAck := false }) := by
  have h : (0x79 : Byte) = bootAck := rfl
  simp only [blByte, hw, if_true, blAwaited, h, State.setMcu_mcu, hg, if_false]
  rfl

/-- The acknowledgment after a jump exits boot mode (R168). -/
theorem blByte_exits {s : State} (hw : s.mcu.waitingAck = true) (hg : s.mcu.blCmd = some .go ∧ s.mcu.step = 0) :
    blByte 0x79 s = .ok () (s.setMcu { s.mcu with
      waitingAck := false, bootMode := false, started := false, blCmd := none, step := 0, need := 0 }) := by
  have h : (0x79 : Byte) = bootAck := rfl
  simp only [blByte, hw, if_true, blAwaited, h, State.setMcu_mcu, hg, and_self, if_true]
  rfl

/-- A byte of a frame that is not complete (R164). -/
theorem blByte_framing {tx : Byte} {s : State} (hw : s.mcu.waitingAck = false) (hs : s.mcu.started = true)
    (hc : s.mcu.blCmd = none) (ht : s.mcu.cmd ≠ [] ∨ tx = 0x5A) (hl : s.mcu.cmd.length < 2) (hb : 3 ≤ s.board.fifoCap) :
    blByte tx s = .ok () (s.setMcu { s.mcu with cmd := s.mcu.cmd ++ [tx] }) := by
  have hn : ¬ (s.mcu.cmd = [] ∧ tx ≠ bootStart) := by
    rcases ht with h | h
    · tauto
    · subst h; simp [bootStart]
  have hlen : (s.setFifo .mcu .cmd (s.fifo .mcu .cmd ++ [tx])).mcu.cmd.length < 3 := by
    simp only [State.setFifo, State.fifo, State.setMcu_mcu, List.length_append, List.length_cons, List.length_nil]
    omega
  rw [blByte, hw, hs, hc]
  simp only [Bool.false_eq_true, if_false]
  rw [if_neg (by simp), blFrame, if_neg hn, push_fits (by simp only [State.fifo, List.length_cons, List.length_nil]; omega),
    Res.bind_ok, if_pos hlen]
  rfl

/-- The third byte of a frame (R164, R169, R170). -/
theorem blByte_frame {b op par : Byte} {s : State} (hw : s.mcu.waitingAck = false) (hs : s.mcu.started = true)
    (hc : s.mcu.blCmd = none) (hl : s.mcu.cmd = [b, op]) (hb : 3 ≤ s.board.fifoCap) :
    blByte par s = blSelect op par (s.setMcu { s.mcu with cmd := [] }) := by
  rw [blByte, hw, hs, hc]
  simp only [Bool.false_eq_true, if_false]
  rw [if_neg (by simp), blFrame, if_neg (by simp [hl]),
    push_fits (by simp only [State.fifo, hl, List.length_cons, List.length_nil]; omega),
    Res.bind_ok, if_neg (by simp [State.setFifo, State.fifo, hl])]
  simp only [State.setFifo, State.fifo, hl, State.setMcu_mcu]
  rfl

end Sys2Proof.Machine
end

