-- ==== Sys2Proof/Laws/PerInstr.lean ====
section
/-! SUPPORT. Facts of every instruction as syntax, one lemma per constructor: the format its frame has. -/

namespace Sys2Proof.Laws.EncodeFormat

/-- The format of each row of spec/opcode_table.json (30_encoding.md). -/
def formatOf : Instr → Format
  | .busRegread _ => .bus
  | .busRegwrite _ _ => .bus
  | .busCartread _ => .bus
  | .busCartwrite _ _ => .bus
  | .busProberead _ => .bus
  | .busProbewrite _ _ => .bus
  | .busColdreset => .bus
  | .busWarmreset => .bus
  | .spiCtrl _ _ _ _ _ => .spicnt
  | .spiWrite _ _ _ _ => .spicnt
  | .spiRead _ _ _ _ => .spicnt
  | .spiExch _ _ _ _ => .spicnt
  | .spiWaitread _ _ _ _ => .spicnt
  | .flRead _ _ => .flash
  | .flProgram _ _ => .flash
  | .flErase4k _ => .flash
  | .flErase32k _ => .flash
  | .flErase64k _ => .flash
  | .flRdsr1 => .flash
  | .flRdsr2 => .flash
  | .flRdsr3 => .flash
  | .flMfrid => .flash
  | .flJedecid => .flash
  | .flUuid => .flash
  | .flWake => .flash
  | .flSleep => .flash
  | .flWren => .flash
  | .flWrdi => .flash
  | .flUnknown _ => .flash
  | .cdReset _ => .card
  | .cdInit1 _ => .card
  | .cdInit41 _ => .card
  | .cdIfcond _ => .card
  | .cdStop _ => .card
  | .cdSetblklen _ => .card
  | .cdRead1 _ => .card
  | .cdReadn _ => .card
  | .cdWrite1 _ _ => .card
  | .cdWriten _ _ => .card
  | .cdIllegal _ _ => .card
  | .mcEcho _ _ => .mcu
  | .mcEemodeset _ => .mcu
  | .mcEemodeget _ => .mcu
  | .mcEeread _ _ => .mcu
  | .mcUsbread _ => .mcu
  | .mcUsbwrite _ _ => .mcu
  | .mcUnknown _ _ => .mcu
  | .blSync => .boot
  | .blAckbyte => .boot
  | .blErase _ _ => .boot
  | .blWrite _ _ => .boot
  | .blGo _ => .boot
  | .blNack _ => .boot
  | .blParity _ _ => .boot
  | .lfUnlock1 _ => .legacy
  | .lfUnlock2 _ => .legacy
  | .lfFast _ => .legacy
  | .lfWrite _ _ => .legacy
  | .lfErase _ _ => .legacy
  | .lfFastwrite _ _ => .legacy
  | .lfFastexit _ => .legacy

/-- The frame of an instruction has the format of its row, on every board. -/
def Statement (i : Instr) : Prop := ∀ b : Board, (encode b i).fmt = formatOf i

theorem busRegread (off : Byte) : Statement (.busRegread off) := fun _ => rfl

theorem busRegwrite (off : Byte) (v : Byte) : Statement (.busRegwrite off v) := fun _ => rfl

theorem busCartread (addr : BitVec 20) : Statement (.busCartread addr) := fun _ => rfl

theorem busCartwrite (addr : BitVec 20) (v : Byte) : Statement (.busCartwrite addr v) := fun _ => rfl

theorem busProberead (addr : BitVec 20) : Statement (.busProberead addr) := fun _ => rfl

theorem busProbewrite (addr : BitVec 20) (v : Byte) : Statement (.busProbewrite addr v) := fun _ => rfl

theorem busColdreset : Statement .busColdreset := fun _ => rfl

theorem busWarmreset : Statement .busWarmreset := fun _ => rfl

theorem spiCtrl (bufidx : BitVec 1) (dev : BitVec 2) (clk390 : BitVec 1) (mode : BitVec 2) (len : BitVec 9) : Statement (.spiCtrl bufidx dev clk390 mode len) := fun _ => rfl

theorem spiWrite (bufidx : BitVec 1) (dev : BitVec 2) (clk390 : BitVec 1) (len : BitVec 9) : Statement (.spiWrite bufidx dev clk390 len) := fun _ => rfl

theorem spiRead (bufidx : BitVec 1) (dev : BitVec 2) (clk390 : BitVec 1) (len : BitVec 9) : Statement (.spiRead bufidx dev clk390 len) := fun _ => rfl

theorem spiExch (bufidx : BitVec 1) (dev : BitVec 2) (clk390 : BitVec 1) (len : BitVec 9) : Statement (.spiExch bufidx dev clk390 len) := fun _ => rfl

theorem spiWaitread (bufidx : BitVec 1) (dev : BitVec 2) (clk390 : BitVec 1) (len : BitVec 9) : Statement (.spiWaitread bufidx dev clk390 len) := fun _ => rfl

theorem flRead (a : BitVec 24) (data : List Byte) : Statement (.flRead a data) := fun _ => rfl

theorem flProgram (a : BitVec 24) (data : List Byte) : Statement (.flProgram a data) := fun _ => rfl

theorem flErase4k (a : BitVec 24) : Statement (.flErase4k a) := fun _ => rfl

theorem flErase32k (a : BitVec 24) : Statement (.flErase32k a) := fun _ => rfl

theorem flErase64k (a : BitVec 24) : Statement (.flErase64k a) := fun _ => rfl

theorem flRdsr1 : Statement .flRdsr1 := fun _ => rfl

theorem flRdsr2 : Statement .flRdsr2 := fun _ => rfl

theorem flRdsr3 : Statement .flRdsr3 := fun _ => rfl

theorem flMfrid : Statement .flMfrid := fun _ => rfl

theorem flJedecid : Statement .flJedecid := fun _ => rfl

theorem flUuid : Statement .flUuid := fun _ => rfl

theorem flWake : Statement .flWake := fun _ => rfl

theorem flSleep : Statement .flSleep := fun _ => rfl

theorem flWren : Statement .flWren := fun _ => rfl

theorem flWrdi : Statement .flWrdi := fun _ => rfl

theorem flUnknown (op : Byte) : Statement (.flUnknown op) := fun _ => rfl

theorem cdReset (f : CardArgs) : Statement (.cdReset f) := fun _ => rfl

theorem cdInit1 (f : CardArgs) : Statement (.cdInit1 f) := fun _ => rfl

theorem cdInit41 (f : CardArgs) : Statement (.cdInit41 f) := fun _ => rfl

theorem cdIfcond (f : CardArgs) : Statement (.cdIfcond f) := fun _ => rfl

theorem cdStop (f : CardArgs) : Statement (.cdStop f) := fun _ => rfl

theorem cdSetblklen (f : CardArgs) : Statement (.cdSetblklen f) := fun _ => rfl

theorem cdRead1 (f : CardArgs) : Statement (.cdRead1 f) := fun _ => rfl

theorem cdReadn (f : CardArgs) : Statement (.cdReadn f) := fun _ => rfl

theorem cdWrite1 (f : CardArgs) (data : List Byte) : Statement (.cdWrite1 f data) := fun _ => rfl

theorem cdWriten (f : CardArgs) (data : List Byte) : Statement (.cdWriten f data) := fun _ => rfl

theorem cdIllegal (idx : BitVec 6) (f : CardArgs) : Statement (.cdIllegal idx f) := fun _ => rfl

theorem mcEcho (arg : BitVec 9) (bytes : List Byte) : Statement (.mcEcho arg bytes) := fun _ => rfl

theorem mcEemodeset (arg : BitVec 9) : Statement (.mcEemodeset arg) := fun _ => rfl

theorem mcEemodeget (arg : BitVec 9) : Statement (.mcEemodeget arg) := fun _ => rfl

theorem mcEeread (arg : BitVec 9) (addr : Half) : Statement (.mcEeread arg addr) := fun _ => rfl

theorem mcUsbread (arg : BitVec 9) : Statement (.mcUsbread arg) := fun _ => rfl

theorem mcUsbwrite (arg : BitVec 9) (bytes : List Byte) : Statement (.mcUsbwrite arg bytes) := fun _ => rfl

theorem mcUnknown (op : BitVec 7) (arg : BitVec 9) : Statement (.mcUnknown op arg) := fun _ => rfl

theorem blSync : Statement .blSync := fun _ => rfl

theorem blAckbyte : Statement .blAckbyte := fun _ => rfl

theorem blErase (dest : BitVec 32) (indices : List Half) : Statement (.blErase dest indices) := fun _ => rfl

theorem blWrite (dest : BitVec 32) (data : List Byte) : Statement (.blWrite dest data) := fun _ => rfl

theorem blGo (dest : BitVec 32) : Statement (.blGo dest) := fun _ => rfl

theorem blNack (op : Byte) : Statement (.blNack op) := fun _ => rfl

theorem blParity (op : Byte) (par : Byte) : Statement (.blParity op par) := fun _ => rfl

theorem lfUnlock1 (o : Half) : Statement (.lfUnlock1 o) := fun _ => rfl

theorem lfUnlock2 (o : Half) : Statement (.lfUnlock2 o) := fun _ => rfl

theorem lfFast (o : Half) : Statement (.lfFast o) := fun _ => rfl

theorem lfWrite (o : Half) (x : Byte) : Statement (.lfWrite o x) := fun _ => rfl

theorem lfErase (o : Half) (b5 : BitVec 1) : Statement (.lfErase o b5) := fun _ => rfl

theorem lfFastwrite (o : Half) (x : Byte) : Statement (.lfFastwrite o x) := fun _ => rfl

theorem lfFastexit (o : Half) : Statement (.lfFastexit o) := fun _ => rfl

end Sys2Proof.Laws.EncodeFormat
end

