-- ==== Sys2Proof/Tests/Slice0.lean ====
section
/-! SUPPORT. The model's own tests: frames written out from 30_encoding.md, the checks of `Instr.wf`, vectors of
95_test_vectors.md on the illustration instance P, and a state that meets the hypotheses of each statement. -/

-- The theorems are checked one after another: together they would ask for more threads than a small machine grants.
set_option Elab.async false

namespace Sys2Proof.Tests

open Machine

/-! ## Helpers -/

/-- The state after reset on the instance P. -/
def base : State := State.resetOn Board.illustration

/-- What an outcome shows of its next state. -/
def seen {α : Type} (o : Host.Outcome State Fault Refusal) (f : State → α) : Option α :=
  match o with
  | .next t => some (f t)
  | _ => none

/-- `base` with other registers. -/
def withRegs (f : Regs → Regs) : State := { base with regs := f base.regs }

/-- `base` with the engine clocked by POW_CNT and a device selected: SPI_CNT holds its DEV and nothing else. -/
def selecting (d : Periph) : State := withRegs ({ · with powCnt := 1, spiCnt := 0#2 ++ periphDev d ++ 0#12 })

/-- The flash selected, in another state. -/
def withFlash (f : FlashState → FlashState) : State := { selecting .flash with flash := f base.flash }

/-- The card selected, in another state. -/
def withCard (f : CardState → CardState) : State := { selecting .card with card := f base.card }

/-- The MCU selected, in another state. -/
def withMcu (f : McuState → McuState) : State := { selecting .mcu with mcu := f base.mcu }

/-- `base` with the snoop active, BANK_RAM = 2 and the FSM in a state (95_test_vectors.md, B8). -/
def snooping (f : Legacy) : State :=
  { base with regs := { base.regs with flashEn := 1, emuCnt := 1, bankRam := 2 }, fsm := f }

/-- `base` with the engine clocked by POW_CNT. -/
def clockedBase : State := withRegs ({ · with powCnt := 1 })

theorem illustration_wf : Board.illustration.wf = true := by decide

theorem base_running : base.Running := ⟨rfl, illustration_wf⟩

theorem running_of {s : State} (h1 : s.fault = none) (h2 : s.board = Board.illustration) : s.Running :=
  ⟨h1, by rw [h2]; exact illustration_wf⟩

/-- An ungated entry of the register map that is not an RTC port. -/
theorem portAt_of {s : State} {off : Byte} {p : RegPort} (hb : s.board = Board.illustration)
    (h : (⟨off, p, .always⟩ : RegEntry) ∈ Board.illustration.regMap) (h0 : off ≠ 0xCA) (h1 : off ≠ 0xCB) :
    s.portAt off p := by
  refine ⟨⟨.always, by rw [hb]; exact h, rfl⟩, fun k hk => ?_⟩
  have h2 := hk.2
  rw [hb] at h2
  split at h2
  · exact h0 h2
  · exact h1 h2.1

/-- The console exchanges bytes with the selected device. -/
theorem exchanging_of {s : State} {d : Periph} (hb : s.board = Board.illustration) (hr : s.regs = (selecting d).regs) :
    Exchanging s d :=
  ⟨⟨0xE1, portAt_of hb (by decide) (by decide) (by decide)⟩, by rw [hr]; cases d <;> decide,
    .inr (by rw [hr, hb]; cases d <;> decide), by rw [hr]; cases d <;> decide⟩

/-- An engine within reach, not busy and clocked. -/
theorem engine_of {s : State} {c : BitVec 1} (h1 : s.fault = none) (hb : s.board = Board.illustration)
    (hn : s.regs.spiCnt.getLsbD 15 = false) (hc : c = 1 ∨ s.regs.powCnt.getLsbD s.board.powClock = true) :
    EngineReady s c :=
  ⟨running_of h1 hb, ⟨0xE0, portAt_of hb (by decide) (by decide) (by decide)⟩,
    ⟨0xE1, portAt_of hb (by decide) (by decide) (by decide)⟩, hn, hc⟩

/-! ## Decoding: frames written out from 30_encoding.md (R62 to R76) -/

theorem test_decode_bus :
    decode Board.illustration false ⟨.bus, [0, 0xE0, 0, 0, 0]⟩ = .ok (.busRegread 0xE0) ∧
    decode Board.illustration false ⟨.bus, [1, 0xE1, 0, 0, 0x80]⟩ = .ok (.busRegwrite 0xE1 0x80) ∧
    decode Board.illustration false ⟨.bus, [2, 0xF0, 0xFF, 0x0F, 0]⟩ = .ok (.busCartread 0xFFFF0) ∧
    decode Board.illustration false ⟨.bus, [3, 0x03, 0x00, 0x01, 0x77]⟩ = .ok (.busCartwrite 0x10003 0x77) ∧
    decode Board.illustration false ⟨.bus, [4, 0x05, 0x00, 0x01, 0]⟩ = .ok (.busProberead 0x10005) ∧
    decode Board.illustration false ⟨.bus, [5, 0x00, 0x00, 0x02, 0x11]⟩ = .ok (.busProbewrite 0x20000 0x11) ∧
    decode Board.illustration false ⟨.bus, [6, 0, 0, 0, 0]⟩ = .ok .busColdreset ∧
    decode Board.illustration false ⟨.bus, [7, 0, 0, 0, 0]⟩ = .ok .busWarmreset :=
  ⟨rfl, rfl, rfl, rfl, rfl, rfl, rfl, rfl⟩

/-- 0x2407, 0x81FF, 0x8201, 0xE407 and 0xD600, low byte first (R63; words of B3 and C1). -/
theorem test_decode_spi :
    decode Board.illustration false ⟨.spicnt, [0x07, 0x24]⟩ = .ok (.spiCtrl 0 2 0 2 7) ∧
    decode Board.illustration false ⟨.spicnt, [0xFF, 0x81]⟩ = .ok (.spiWrite 0 0 0 0x1FF) ∧
    decode Board.illustration false ⟨.spicnt, [0x01, 0x8A]⟩ = .ok (.spiRead 0 0 1 1) ∧
    decode Board.illustration false ⟨.spicnt, [0x07, 0xE4]⟩ = .ok (.spiExch 1 2 0 7) ∧
    decode Board.illustration false ⟨.spicnt, [0x00, 0xD6]⟩ = .ok (.spiWaitread 1 1 0 0) :=
  ⟨rfl, rfl, rfl, rfl, rfl⟩

theorem test_decode_flash4 :
    decode Board.illustration false ⟨.flash, [0x03, 0x00, 0x12, 0x34]⟩ = .ok (.flRead 0x001234 []) ∧
    decode Board.illustration false ⟨.flash, [0x02, 0x00, 0x01, 0xFE, 0xA1]⟩ = .ok (.flProgram 0x0001FE [0xA1]) ∧
    decode Board.illustration false ⟨.flash, [0x20, 0x00, 0x12, 0x34]⟩ = .ok (.flErase4k 0x001234) ∧
    decode Board.illustration false ⟨.flash, [0x52, 0x00, 0x00, 0x01]⟩ = .ok (.flErase32k 0x000001) ∧
    decode Board.illustration false ⟨.flash, [0xD8, 0x01, 0x00, 0x00]⟩ = .ok (.flErase64k 0x010000) :=
  ⟨rfl, rfl, rfl, rfl, rfl⟩

theorem test_decode_flash1 :
    decode Board.illustration false ⟨.flash, [0x05]⟩ = .ok .flRdsr1 ∧
    decode Board.illustration false ⟨.flash, [0x35]⟩ = .ok .flRdsr2 ∧
    decode Board.illustration false ⟨.flash, [0x15]⟩ = .ok .flRdsr3 ∧
    decode Board.illustration false ⟨.flash, [0x90]⟩ = .ok .flMfrid ∧
    decode Board.illustration false ⟨.flash, [0x9F]⟩ = .ok .flJedecid ∧
    decode Board.illustration false ⟨.flash, [0x4B]⟩ = .ok .flUuid ∧
    decode Board.illustration false ⟨.flash, [0xAB]⟩ = .ok .flWake ∧
    decode Board.illustration false ⟨.flash, [0xB9]⟩ = .ok .flSleep ∧
    decode Board.illustration false ⟨.flash, [0x06]⟩ = .ok .flWren ∧
    decode Board.illustration false ⟨.flash, [0x04]⟩ = .ok .flWrdi ∧
    decode Board.illustration false ⟨.flash, [0xC7]⟩ = .ok (.flUnknown 0xC7) :=
  ⟨rfl, rfl, rfl, rfl, rfl, rfl, rfl, rfl, rfl, rfl, rfl⟩

/-- Command bytes 0x40 + index (R67, R70; the frames of B5), and one with bit 6 clear. -/
theorem test_decode_card :
    decode Board.illustration false ⟨.card, [0x40, 0, 0, 0, 0, 0x95]⟩ = .ok (.cdReset ⟨1, 0, 0x95⟩) ∧
    decode Board.illustration false ⟨.card, [0x41, 0, 0, 0, 0, 0xFF]⟩ = .ok (.cdInit1 ⟨1, 0, 0xFF⟩) ∧
    decode Board.illustration false ⟨.card, [0x69, 0, 0, 0, 0, 0xFF]⟩ = .ok (.cdInit41 ⟨1, 0, 0xFF⟩) ∧
    decode Board.illustration false ⟨.card, [0x48, 0, 0, 1, 0xAA, 0x87]⟩ = .ok (.cdIfcond ⟨1, 0x1AA, 0x87⟩) ∧
    decode Board.illustration false ⟨.card, [0x4C, 0, 0, 0, 0, 0x61]⟩ = .ok (.cdStop ⟨1, 0, 0x61⟩) ∧
    decode Board.illustration false ⟨.card, [0x50, 0, 0, 2, 0, 0xFF]⟩ = .ok (.cdSetblklen ⟨1, 512, 0xFF⟩) ∧
    decode Board.illustration false ⟨.card, [0x11, 0, 0, 0, 0x10, 0x55]⟩ = .ok (.cdRead1 ⟨0, 0x10, 0x55⟩) ∧
    decode Board.illustration false ⟨.card, [0x52, 0x12, 0x34, 0x56, 0x78, 0]⟩ = .ok (.cdReadn ⟨1, 0x12345678, 0⟩) ∧
    decode Board.illustration false ⟨.card, [0x58, 0, 0, 0, 0, 0xFF, 0xFE]⟩ = .ok (.cdWrite1 ⟨1, 0, 0xFF⟩ [0xFE]) ∧
    decode Board.illustration false ⟨.card, [0x59, 0, 0, 4, 0, 0xFF]⟩ = .ok (.cdWriten ⟨1, 0x400, 0xFF⟩ []) ∧
    decode Board.illustration false ⟨.card, [0x77, 0, 0, 0, 0, 0xFF]⟩ = .ok (.cdIllegal 0x37 ⟨1, 0, 0xFF⟩) :=
  ⟨rfl, rfl, rfl, rfl, rfl, rfl, rfl, rfl, rfl, rfl, rfl⟩

/-- `w0 = {arg[0], op}`, `w1 = arg[8:1]` (R71; the frames of B6). -/
theorem test_decode_mcu :
    decode Board.illustration false ⟨.mcu, [0x00, 0x01, 0x41, 0x42]⟩ = .ok (.mcEcho 2 [0x41, 0x42]) ∧
    decode Board.illustration false ⟨.mcu, [0x81, 0x02]⟩ = .ok (.mcEemodeset 5) ∧
    decode Board.illustration false ⟨.mcu, [0x02, 0x00]⟩ = .ok (.mcEemodeget 0) ∧
    decode Board.illustration false ⟨.mcu, [0x83, 0x00, 0x03, 0x00]⟩ = .ok (.mcEeread 1 3) ∧
    decode Board.illustration false ⟨.mcu, [0x04, 0x02]⟩ = .ok (.mcUsbread 4) ∧
    decode Board.illustration false ⟨.mcu, [0x85, 0x01, 1, 2, 3]⟩ = .ok (.mcUsbwrite 3 [1, 2, 3]) ∧
    decode Board.illustration false ⟨.mcu, [0x7F, 0xFF]⟩ = .ok (.mcUnknown 0x7F 0x1FE) :=
  ⟨rfl, rfl, rfl, rfl, rfl, rfl, rfl⟩

/-- R74, R75; the frames of B7. -/
theorem test_decode_boot :
    decode Board.illustration false ⟨.boot, [0x5A]⟩ = .ok .blSync ∧
    decode Board.illustration false ⟨.boot, [0x79]⟩ = .ok .blAckbyte ∧
    decode Board.illustration false ⟨.boot, [0x5A, 0x44, 0xBB, 8, 0, 0, 0, 0, 2, 0, 1, 0, 2]⟩ =
      .ok (.blErase 0x08000000 [1, 2]) ∧
    decode Board.illustration false ⟨.boot, [0x5A, 0x31, 0xCE, 8, 0, 0, 0, 2, 0xAA, 0xBB]⟩ =
      .ok (.blWrite 0x08000000 [0xAA, 0xBB]) ∧
    decode Board.illustration false ⟨.boot, [0x5A, 0x21, 0xDE, 8, 0, 0, 0]⟩ = .ok (.blGo 0x08000000) ∧
    decode Board.illustration false ⟨.boot, [0x5A, 0x00, 0xFF]⟩ = .ok (.blNack 0x00) ∧
    decode Board.illustration false ⟨.boot, [0x5A, 0x44, 0x00]⟩ = .ok (.blParity 0x44 0x00) :=
  ⟨rfl, rfl, rfl, rfl, rfl, rfl, rfl⟩

theorem test_decode_legacy :
    decode Board.illustration false ⟨.legacy, [0x55, 0x05, 0xAA]⟩ = .ok (.lfUnlock1 0x0555) ∧
    decode Board.illustration false ⟨.legacy, [0xAA, 0x02, 0x55]⟩ = .ok (.lfUnlock2 0x02AA) ∧
    decode Board.illustration false ⟨.legacy, [0x55, 0x05, 0x20]⟩ = .ok (.lfFast 0x0555) ∧
    decode Board.illustration false ⟨.legacy, [0x20, 0x00, 0xA0, 0x5C]⟩ = .ok (.lfWrite 0x0020 0x5C) ∧
    decode Board.illustration false ⟨.legacy, [0x00, 0x00, 0x30]⟩ = .ok (.lfErase 0 1) ∧
    decode Board.illustration true ⟨.legacy, [0x10, 0x00, 0xA0, 0x5C]⟩ = .ok (.lfFastwrite 0x0010 0x5C) ∧
    decode Board.illustration false ⟨.legacy, [0x00, 0x00, 0x90]⟩ = .ok (.lfFastexit 0) :=
  ⟨rfl, rfl, rfl, rfl, rfl, rfl, rfl⟩

/-- Malformed frames are rejected by name. -/
theorem test_decode_rejects :
    decode Board.illustration false ⟨.bus, [8, 0, 0, 0, 0]⟩ = .error .badKind ∧
    decode Board.illustration false ⟨.bus, [0, 0, 1, 0, 0]⟩ = .error .badWhere ∧
    decode Board.illustration false ⟨.bus, [2, 0, 0, 0x10, 0]⟩ = .error .badWhere ∧
    decode Board.illustration false ⟨.bus, [0, 0, 0, 0, 1]⟩ = .error .valueNotUsed ∧
    decode Board.illustration false ⟨.spicnt, [0]⟩ = .error .badLength ∧
    decode Board.illustration false ⟨.card, [0xC0, 0, 0, 0, 0, 0]⟩ = .error .notFrameStart ∧
    decode Board.illustration false ⟨.boot, [0x5B]⟩ = .error .notBootByte ∧
    decode Board.illustration false ⟨.legacy, [0, 0, 0x42]⟩ = .error .notLegacyByte :=
  ⟨rfl, rfl, rfl, rfl, rfl, rfl, rfl, rfl⟩

/-- Table words (spec/opcode_table.json): an SPI control word, a flash opcode, a card command byte, a BL-CMD. -/
theorem test_table_words :
    tableFrame 16 0x8201 = ⟨.spicnt, [0x01, 0x82]⟩ ∧ tableFrame 8 0x03 = ⟨.flash, [0x03, 0, 0, 0]⟩ ∧
    tableFrame 8 0x11 = ⟨.card, [0x11, 0, 0, 0, 0, 0]⟩ ∧
    tableFrame 24 0x5A21DE = ⟨.boot, [0x5A, 0x21, 0xDE, 0, 0, 0, 0]⟩ := ⟨rfl, rfl, rfl, rfl⟩

/-! ## WellFormed: an ill-formed term for each check -/

theorem test_wf_flUnknown : (Instr.flUnknown 0x03).wf Board.illustration = false := by decide

theorem test_wf_cdIllegal : (Instr.cdIllegal 41 ⟨0, 0, 0⟩).wf Board.illustration = false := by decide

theorem test_wf_mcEcho : (Instr.mcEcho 2 [1]).wf Board.illustration = false := by decide

theorem test_wf_mcEcho_zero : (Instr.mcEcho 0 []).wf Board.illustration = false := by decide

theorem test_wf_mcUsbwrite : (Instr.mcUsbwrite 1 [1, 2]).wf Board.illustration = false := by decide

theorem test_wf_mcUnknown : (Instr.mcUnknown 5 0).wf Board.illustration = false := by decide

theorem test_wf_blErase : (Instr.blErase 0 (List.replicate 65536 0)).wf Board.illustration = false := by
  unfold Instr.wf
  simp only [List.length_replicate]
  decide

theorem test_wf_blWrite : (Instr.blWrite 0 (List.replicate 256 0)).wf Board.illustration = false := by
  unfold Instr.wf
  simp only [List.length_replicate]
  decide

theorem test_wf_blNack : (Instr.blNack 0x44).wf Board.illustration = false := by decide

theorem test_wf_blParity : (Instr.blParity 0x44 0xBB).wf Board.illustration = false := by decide

/-- `A0 X` reads as LF.WRITE out of `Fast` and as LF.FASTWRITE in it. -/
theorem test_fitsFast : (Instr.lfWrite 0 0).fitsFast true = false ∧ (Instr.lfFastwrite 0 0).fitsFast false = false := by
  decide

/-! ## Bus vectors (95_test_vectors.md, B1) -/

/-- Reading BANK_ROM0.hi of 0x01FE gives 0x01, its lo byte 0xFE. -/
theorem test_regread_bank :
    seen (exec (.busRegread 0xD3) (withRegs ({ · with bankRom0 := 0x01FE }))) (·.out) = some [0x01] ∧
    seen (exec (.busRegread 0xD2) (withRegs ({ · with bankRom0 := 0x01FE }))) (·.out) = some [0xFE] := by decide

/-- A narrow write clears bits 15:8 (R23). -/
theorem test_regwrite_narrow :
    seen (exec (.busRegwrite 0xC1 0x03) (withRegs ({ · with bankRam := 0x1200 }))) (·.regs.bankRam) = some 0x0003 := by
  decide

theorem test_regwrite_boardrev : seen (exec (.busRegwrite 0xE8 0x55) base) (·.regs) = some base.regs := by decide

/-- POW_CNT = 0x18 resets the MCU and enters boot mode (R84). -/
theorem test_regwrite_powcnt :
    seen (exec (.busRegwrite 0xE2 0x18) (withMcu ({ · with reply := [1], eepromMode := 5 })))
      (fun t => (t.mcu.bootMode, t.mcu.reply, t.mcu.eepromMode)) = some (true, [], 5) := by decide

/-- BANK_RAM = 0x000F: a console read of the TX segment is unmapped, 0xFF. -/
theorem test_cartread_tx :
    seen (exec (.busCartread 0x10005) (withRegs ({ · with bankRam := 0x000F }))) (·.out) = some [0xFF] := by decide

/-- `txbuf[1][5] = 0x42` with BUFIDX = 0. -/
theorem test_cartwrite_tx :
    seen (exec (.busCartwrite 0x10205 0x42) (withRegs ({ · with bankRam := 0x000F }))) (·.arrays.tx.cells) =
      some [(517, 0x42)] := by decide

/-- A write into the IPC segment. -/
theorem test_cartwrite_ipc :
    seen (exec (.busCartwrite 0x10003 0x77) (withRegs ({ · with bankRam := 0x000E }))) (·.arrays.ipc.cells) =
      some [(3, 0x77)] := by decide

theorem test_probewrite_rx :
    seen (exec (.busProbewrite 0x20000 0x11) (withRegs ({ · with bankRom0 := 0x01FE }))) (·.arrays.rx.cells) =
      some [(512, 0x11)] := by decide

theorem test_proberead_fast :
    seen (exec (.busProberead 0x10000)
      { snooping .fast with arrays := { Arrays.blank with psram := ⟨[(0x20000, 0x5C)]⟩ } }) (·.out) = some [0x5C] := by
  decide

/-- Unmapped: bank 0x1F4 is in no segment of P. -/
theorem test_cartread_unmapped : seen (exec (.busCartread 0x40000) base) (·.out) = some [0xFF] := by decide

/-- A3: SRAM with flash-enable 0, PSRAM with flash-enable 1. -/
theorem test_resolve_bank1 :
    resolve Board.illustration { Regs.reset with powCnt := 0x04 } 0x10000 false false = some (.sram 0) ∧
    resolve Board.illustration { Regs.reset with flashEn := 1 } 0x10000 false false = some (.psram 0) := by decide

/-- BANK_ROM1 = 0x0345 under SEG_MASK = 0x80FF with `lock_bit_rom1` = 15: bank 0x45. -/
theorem test_resolve_locked :
    resolve { Board.illustration with lockRom1 := some 15 } { Regs.reset with bankRom1 := 0x0345, segMask := 0x80FF }
      0x30000 false false = some (.psram (0x45 * 65536)) := by decide

theorem test_warmreset :
    seen (exec .busWarmreset (withMcu ({ · with eepromMode := 5 }))) (fun t => (t.mcu.eepromMode, t.regs)) =
      some (5, Regs.reset) := by decide

theorem test_coldreset_first :
    seen (exec .busColdreset { withMcu ({ · with eepromMode := 5 }) with poweredUp := false })
      (fun t => (t.mcu.eepromMode, t.poweredUp)) = some (0, true) := by decide

/-! ## SPI vectors (B3) -/

theorem test_spiCtrl : seen (exec (.spiCtrl 0 0 1 0 0) base) (·.regs.spiCnt) = some 0x0800 := by decide

theorem test_spiWrite : seen (exec (.spiWrite 0 0 0 0) clockedBase) (·.regs.spiCnt) = some 0x0000 := by decide

theorem test_spiRead :
    seen (exec (.spiRead 0 0 0 1) clockedBase) (fun t => (t.arrays.rx.cells, t.regs.spiCnt)) =
      some ([(0, 0xFF), (1, 0xFF)], 0x0201) := by decide

/-- C1: `03 00 01 00` then four dummies through the buffers; the flash ends at cursor 0x104. -/
theorem test_spiExch :
    seen (exec (.spiExch 1 2 0 7)
      { clockedBase with
        arrays := { Arrays.blank with
          tx := ⟨[(512, 0x03), (513, 0x00), (514, 0x01), (515, 0x00), (516, 0xFF), (517, 0xFF), (518, 0xFF), (519, 0xFF)]⟩
          flash := ⟨[(0x100, 0x11), (0x101, 0x22), (0x102, 0x33), (0x103, 0x44)]⟩ } })
      (fun t => (t.arrays.rx.cells.map (·.2), t.flash.cursor, t.regs.spiCnt)) =
      some ([0xFF, 0xFF, 0xFF, 0xFF, 0x11, 0x22, 0x33, 0x44], 0x104, 0x6407) := by decide

/-- The card reply `FF FF 05`: two are skipped, `rxbuf[1][0] = 0x05`. -/
theorem test_spiWaitread :
    seen (exec (.spiWaitread 1 1 0 0)
      { clockedBase with card := { base.card with reply := [0xFF, 0xFF, 0x05] } })
      (fun t => (t.arrays.rx.cells, t.log)) = some ([(512, 0x05)], [.waitReadSkipped 2]) := by decide

/-- With no device: eight dummies, BUSY stuck. -/
theorem test_spiWaitread_timeout :
    seen (exec (.spiWaitread 0 0 0 0) clockedBase) (fun t => (t.regs.spiCnt, t.log)) = some (0x8600, [.waitReadTimeout]) := by
  decide

/-! ## Flash vectors (B4) -/

theorem test_flRead :
    seen (exec (.flRead 0xFFFFFE [0xFF, 0xFF, 0xFF])
      { selecting .flash with arrays := { Arrays.blank with flash := ⟨[(0xFFFFFE, 0x12), (0xFFFFFF, 0x34)]⟩ } })
      (fun t => (t.out.drop 4, t.flash.cursor)) = some ([0x12, 0x34, 0xFF], 0x1000001) := by decide

theorem test_flProgram_wraps :
    seen (exec (.flProgram 0x0001FE [0xA1, 0xA2, 0xA3]) (selecting .flash)) (fun t => (t.arrays.flash.cells, t.flash.cursor)) =
      some ([(0x100, 0xA3), (0x1FE, 0xA1), (0x1FF, 0xA2)], 0x101) := by decide

/-- On an image of 0x1002 bytes the erased part of the block of 0x1234 is its last two bytes. -/
theorem test_flErase4k :
    seen (exec (.flErase4k 0x001234) { selecting .flash with board := { Board.illustration with flashSize := some 0x1002 } })
      (fun t => t.arrays.flash.cells) = some [(0x1000, 0xFF), (0x1001, 0xFF)] := by decide

theorem test_flErase32k :
    seen (exec (.flErase32k 0x00FFFF) { selecting .flash with board := { Board.illustration with flashSize := some 0x8001 } })
      (fun t => t.arrays.flash.cells) = some [(0x8000, 0xFF)] := by decide

theorem test_flErase64k :
    seen (exec (.flErase64k 0x01FFFF) { selecting .flash with board := { Board.illustration with flashSize := some 0x10001 } })
      (fun t => (t.arrays.flash.cells, t.flash.mode)) = some ([(0x10000, 0xFF)], .erase) := by decide

theorem test_flRdsr : seen (exec .flRdsr1 (selecting .flash)) (·.flash.mode) = some (.status 0) ∧
    seen (exec .flRdsr2 (selecting .flash)) (·.flash.mode) = some (.status 1) ∧
    seen (exec .flRdsr3 (selecting .flash)) (·.flash.mode) = some (.status 2) := by decide

theorem test_flIdentities : seen (exec .flMfrid (selecting .flash)) (·.flash.reply) = some [0xEF, 0x17] ∧
    seen (exec .flJedecid (selecting .flash)) (·.flash.reply) = some [0xEF, 0x40, 0x18] ∧
    seen (exec .flUuid (selecting .flash)) (·.flash.reply) = some [1, 2, 3, 4, 5, 6, 7, 8] := by decide

theorem test_flSleepWake : seen (exec .flSleep (selecting .flash)) (·.flash.sleeping) = some true ∧
    seen (exec .flWake (withFlash ({ · with sleeping := true }))) (·.flash.sleeping) = some false := by decide

theorem test_flWrenWrdi : seen (exec .flWren (selecting .flash)) (·.flash.sr0) = some 0x02 ∧
    seen (exec .flWrdi (withFlash ({ · with sr0 := 0x02 }))) (·.flash.sr0) = some 0x00 := by decide

theorem test_flUnknown : seen (exec (.flUnknown 0xC7) (selecting .flash)) (fun t => (t.log, t.flash.cmd)) =
    some ([.flashUnknownOpcode 0xC7], []) := by decide

theorem test_flash_asleep : seen (exec .flJedecid (withFlash ({ · with sleeping := true }))) (fun t => (t.out, t.log)) =
    some ([0xFF], [.flashAsleepReject 0x9F]) := by decide

/-- The same bytes sent to the device SPI_CNT selects: to none they return 0xFF, to the card they end no command; while BUSY,
or un-clocked, they are not sent (R94, R97, R99; log entry 4). -/
theorem test_flWren_elsewhere :
    seen (exec .flWren clockedBase) (fun t => (t.out, t.flash.sr0)) = some ([0xFF], 0x00) ∧
    seen (exec .flWren (selecting .card)) (fun t => (t.out, t.flash.sr0, t.card.cmd)) = some ([0xFF], 0x00, [0x06]) ∧
    seen (exec .flWren (withRegs ({ · with powCnt := 1, spiCnt := 0xA000 }))) (fun t => (t.out, t.flash.sr0)) =
      some ([], 0x00) ∧
    seen (exec .flWren (withRegs ({ · with spiCnt := 0x2000 }))) (fun t => (t.out, t.flash.sr0)) = some ([], 0x00) := by
  decide

/-! ## Card vectors (B5) -/

theorem test_cdReset : seen (exec (.cdReset ⟨1, 0, 0x95⟩) (selecting .card)) (·.card.reply) = some [0x01] := by decide

theorem test_cdInit : seen (exec (.cdInit1 ⟨1, 0, 0xFF⟩) (selecting .card)) (·.card.reply) = some [0x00] ∧
    seen (exec (.cdInit41 ⟨1, 0, 0xFF⟩) (selecting .card)) (·.card.status) = some 0x00 := by decide

theorem test_cdIfcond : seen (exec (.cdIfcond ⟨1, 0x1AA, 0x87⟩) (selecting .card)) (·.card.reply) =
    some [0x01, 0x00, 0x00, 0x01, 0xAA] := by decide

/-- The frame bytes drain the reply; CD.STOP flushes the rest. -/
theorem test_cdStop :
    seen (exec (.cdStop ⟨1, 0, 0x61⟩)
      (withCard ({ · with status := 0, streaming := true, reply := [0xFF, 0xFE, 0, 1, 2, 3, 4, 5] })))
      (fun t => (t.out, t.card.reply, t.card.streaming)) = some ([0xFF, 0xFE, 0, 1, 2, 3], [0x00, 0x00, 0xFF], false) := by
  decide

theorem test_cdSetblklen :
    seen (exec (.cdSetblklen ⟨1, 512, 0xFF⟩) (withCard ({ · with status := 0 }))) (·.card.reply) = some [0x00] ∧
    seen (exec (.cdSetblklen ⟨1, 1024, 0xFF⟩) (withCard ({ · with status := 0 }))) (·.card.reply) = some [0x40] := by decide

/-- `S FF FE`, then the bytes of the image from the argument on, past its end 0xFF; the image here has 18 bytes. -/
theorem test_cdRead1 :
    seen (exec (.cdRead1 ⟨1, 16, 0xFF⟩)
      { withCard ({ · with status := 0 }) with
        board := { Board.illustration with cardSize := some 18 }
        arrays := { Arrays.blank with card := ⟨[(16, 0x10), (17, 0x11)]⟩ } })
      (fun t => (t.card.reply.take 6, t.card.reply.length, t.card.pos)) =
      some ([0x00, 0xFF, 0xFE, 0x10, 0x11, 0xFF], 515, 528) := by decide +kernel

theorem test_cdReadn :
    seen (exec (.cdReadn ⟨1, 0, 0xFF⟩) (withCard ({ · with status := 0 }))) (fun t => (t.card.streaming, t.card.pos)) =
      some (true, 512) := by decide +kernel

/-- `FF`, `FE`, 512 bytes and the CRC: the block is committed and acknowledged. -/
theorem test_cdWrite1 :
    seen (exec (.cdWrite1 ⟨1, 0, 0xFF⟩ (0xFF :: 0xFE :: List.replicate 512 0xA5 ++ [0, 0]))
      { withCard ({ · with status := 0 }) with board := { Board.illustration with cardSize := some 2 } })
      (fun t => (t.arrays.card.cells, t.card.reply, t.card.wcap)) =
      some ([(0, 0xA5), (1, 0xA5)], [0x05], .none) := by decide +kernel

/-- A single-block token does not start a multi-block write. -/
theorem test_cdWriten : seen (exec (.cdWriten ⟨1, 0x400, 0xFF⟩ [0xFE]) (selecting .card)) (fun t => (t.card.wcap, t.log)) =
    some (.none, [.cardUnexpectedToken 0xFE]) := by decide

/-- The second block of a multi-block write, its token 0xFC (R137, R147), in an image that ends one byte into it. -/
theorem test_second_block :
    let r := feed .card (0xFC :: List.replicate 512 0xA5 ++ [0, 0])
      { withCard ({ · with wcap := .multi, wpos := 512 }) with board := { Board.illustration with cardSize := some 513 } }
    (r.state.arrays.card.cells, r.state.card.reply, r.state.card.wcap, r.state.card.wpos) =
      ([(512, 0xA5)], [0x05], .multi, 1024) := by decide +kernel

theorem test_cdIllegal : seen (exec (.cdIllegal 0x37 ⟨1, 0, 0xFF⟩) (selecting .card)) (·.card.reply) = some [0x05] := by decide

/-! ## MCU vectors (B6, B7) -/

theorem test_mcEcho : seen (exec (.mcEcho 2 [0x41, 0x42]) (selecting .mcu)) (·.mcu.reply) = some [0x04, 0x00, 0x41, 0x42] := by decide

theorem test_mcEemode : seen (exec (.mcEemodeset 5) (selecting .mcu)) (fun t => (t.mcu.reply, t.mcu.eepromMode)) =
      some ([0x00, 0x00], 5) ∧
    seen (exec (.mcEemodeget 0) (withMcu ({ · with eepromMode := 5 }))) (·.mcu.reply) = some [0x02, 0x00, 0x05] := by decide

/-- Two words from the last address: the second is past the end. -/
theorem test_mcEeread :
    seen (exec (.mcEeread 2 3)
      { selecting .mcu with
        board := { Board.illustration with eepromWords := 4 }
        mcu := { McuState.reset 4 with eeprom := [0, 0, 0, 0x1234] } }) (·.mcu.reply) =
      some [0x08, 0x00, 0x34, 0x12, 0xFF, 0xFF] := by decide

/-- Whatever the oracle answers, it is asked once. -/
theorem test_mcUsbread : (mcuUsbRead 4 base).state.draws = 1 := by
  unfold mcuUsbRead mcuReply push
  dsimp only
  split <;> rfl

theorem test_mcUsbwrite : seen (exec (.mcUsbwrite 3 [1, 2, 3]) (selecting .mcu)) (·.draws) = some 1 := by decide

theorem test_mcUnknown : seen (exec (.mcUnknown 0x7F 0x1FF) (selecting .mcu)) (fun t => (t.log, t.mcu.reply)) =
    some ([.mcuUnknownOpcode 0x7F], []) := by decide

/-- A bootloader in a state of its own. -/
def booted (f : McuState → McuState) : State := withMcu fun m => f { m with bootMode := true, started := true }

theorem test_blSync : seen (exec .blSync (booted ({ · with started := false }))) (fun t => (t.mcu.started, t.mcu.reply)) =
    some (true, [0x79]) := by decide

theorem test_blAckbyte : seen (exec .blAckbyte (booted ({ · with waitingAck := true, blCmd := some .go, step := 0 })))
    (·.mcu.bootMode) = some false := by decide

theorem test_blErase : seen (exec (.blErase 0 [1, 2]) (booted id)) (fun t => (t.mcu.eraseCount, t.log, t.mcu.blCmd)) =
    some (2, [.bootloaderStub .erase], none) := by decide

theorem test_blWrite : seen (exec (.blWrite 0x08000000 [0xAA, 0xBB]) (booted id)) (fun t => (t.mcu.dest, t.log, t.out)) =
    some (0x08000000, [.bootloaderStub .write],
      [0xFF, 0xFF, 0xFF, 0x79, 0xFF, 0xFF, 0xFF, 0xFF, 0xFF, 0x79, 0xFF, 0xFF, 0xFF, 0xFF, 0x79, 0xFF]) := by decide

theorem test_blGo : seen (exec (.blGo 0x08000000) (booted id)) (fun t => (t.mcu.bootMode, t.mcu.dest)) =
    some (false, 0x08000000) := by decide

theorem test_blNack : seen (exec (.blNack 0) (booted id)) (fun t => (t.mcu.reply, t.mcu.waitingAck)) =
    some ([0x1F], true) := by decide

theorem test_blParity : seen (exec (.blParity 0x44 0) (booted id)) (fun t => (t.mcu.reply, t.log)) =
    some ([], [.bootloaderParityError]) := by decide

/-! ## Legacy vectors (B8) -/

theorem test_lfUnlock : seen (exec (.lfUnlock1 0x555) (snooping .read)) (·.fsm) = some .unlock1 ∧
    seen (exec (.lfUnlock1 0x555) (snooping .unlock1)) (·.fsm) = some .read ∧
    seen (exec (.lfUnlock2 0x2AA) (snooping .unlock1)) (·.fsm) = some .unlock2 := by decide

theorem test_lfFast : seen (exec (.lfFast 0) (snooping .unlock2)) (·.fsm) = some .fast ∧
    seen (exec (.lfFastexit 0) (snooping .fast)) (·.fsm) = some .read ∧
    seen (exec (.lfErase 0 1) (snooping .unlock2)) (·.fsm) = some .erase := by decide

theorem test_lfWrite : seen (exec (.lfWrite 0x20 0x5C) (snooping .unlock2)) (fun t => (t.fsm, t.arrays.psram.cells)) =
    some (.read, [(0x20020, 0x5C)]) := by decide

theorem test_lfFastwrite : seen (exec (.lfFastwrite 1 0x5D) (snooping .fast)) (fun t => (t.fsm, t.arrays.psram.cells)) =
    some (.fast, [(0x20001, 0x5D)]) := by decide

/-! ## Faults and the step -/

/-- B2: count 1021 and four bytes: overflow, the FIFO unchanged. -/
theorem test_push_overflows :
    push .flash .reply [1, 2, 3, 4] (withFlash ({ · with reply := List.replicate 1021 0 })) =
      .halt { withFlash ({ · with reply := List.replicate 1021 0 }) with
        fault := some (.fifoOverflow .flash .reply) } := by
  decide +kernel

/-- Count 1020: it fits. -/
theorem test_push_fits :
    (push .flash .reply [1, 2, 3, 4] (withFlash ({ · with reply := List.replicate 1020 0 }))).state.flash.reply =
      List.replicate 1020 0 ++ [1, 2, 3, 4] := by
  decide +kernel

theorem test_halted : exec .busWarmreset { base with fault := some (.fifoOverflow .flash .reply) } =
    .fault (.fifoOverflow .flash .reply) := rfl

theorem test_step : seen (step { base with script := [⟨.bus, [1, 0xE2, 0, 0, 1]⟩, ⟨.bus, [7, 0, 0, 0, 0]⟩] })
    (fun t => (t.regs.powCnt, t.script.length)) = some (1, 1) := by decide

theorem test_step_refuses : step { base with script := [⟨.bus, [9, 0, 0, 0, 0]⟩] } = .refused (.undecodable .badKind) := rfl

/-! ## Witnesses: states and operands that meet the hypotheses of the statements, each clause at a boundary -/

/-- `base` with the BUSY bit set and nothing else. -/
def busyBase : State := withRegs ({ · with spiCnt := 0x8000 })

theorem busy_running : busyBase.Running := running_of rfl rfl

theorem arrays_wf_blank : Arrays.blank.wf := fun r => by cases r <;> decide

theorem witness_EveryEncodingDecodesBack :
    Board.illustration.wf = true ∧ (Instr.lfFastwrite 0xFFFF 0xFF).wf Board.illustration = true ∧
      (Instr.lfFastwrite 0xFFFF 0xFF).fitsFast true = true ∧
      (Instr.mcEcho 1 [0x55]).wf Board.illustration = true ∧ (Instr.mcEcho 1 [0x55]).fitsFast true = true := by decide

theorem witness_DecodedFramesAreCanonical :
    decode Board.illustration true ⟨.legacy, [0x10, 0x00, 0xA0, 0x5C]⟩ = .ok (.lfFastwrite 0x0010 0x5C) := rfl

theorem witness_StepRunsTheDecodedOperation :
    let s := { base with script := [⟨.bus, [7, 0, 0, 0, 0]⟩] }
    s.script = ⟨.bus, [7, 0, 0, 0, 0]⟩ :: [] ∧
      decode s.board (decide (s.fsm = .fast)) ⟨.bus, [7, 0, 0, 0, 0]⟩ = .ok .busWarmreset := ⟨rfl, rfl⟩

theorem witness_HaltedBlockRefusesEveryOperation :
    ({ base with fault := some (.fifoOverflow .mcu .cmd) } : State).fault = some (.fifoOverflow .mcu .cmd) ∧
      ({ base with fault := some (.fifoOverflow .mcu .cmd) } : State).script = [] ∧
      base.fault = none ∧ base.script = [] := ⟨rfl, rfl, rfl, rfl⟩

theorem witness_RegisterWriteStoresItsByte :
    base.Running ∧ base.portAt 0xCE .flashEn ∧ base.portAt 0xC0 .bankLinear ∧ base.portAt 0xE7 .emuCnt ∧
      base.portAt 0xE6 .warmboot ∧ base.portAt 0xE4 (.segMask .lo) ∧ base.portAt 0xE5 (.segMask .hi) ∧
      base.portAt 0xC1 (.bank .ram .narrow) ∧ base.portAt 0xD2 (.bank .rom0 .lo) ∧ base.portAt 0xD5 (.bank .rom1 .hi) :=
  ⟨base_running, portAt_of rfl (by decide) (by decide) (by decide), portAt_of rfl (by decide) (by decide) (by decide),
    portAt_of rfl (by decide) (by decide) (by decide), portAt_of rfl (by decide) (by decide) (by decide),
    portAt_of rfl (by decide) (by decide) (by decide), portAt_of rfl (by decide) (by decide) (by decide),
    portAt_of rfl (by decide) (by decide) (by decide), portAt_of rfl (by decide) (by decide) (by decide),
    portAt_of rfl (by decide) (by decide) (by decide)⟩

/-- A gated entry answers only with its POW_CNT bit set. -/
theorem witness_gated_port :
    (withRegs ({ · with powCnt := 0x80 })).portAt 0xF0 .bankLinear ∧ base.unanswered 0xF0 := by
  refine ⟨⟨⟨.powBit 7, by decide, by decide⟩, fun k hk => ?_⟩, fun e he => ?_, fun k hk => ?_⟩
  · have h2 := hk.2
    split at h2
    · exact absurd h2 (by decide)
    · exact absurd h2.1 (by decide)
  · revert e
    decide
  · have h2 := hk.2
    split at h2
    · exact absurd h2 (by decide)
    · exact absurd h2.1 (by decide)

theorem witness_RegisterReadReturnsItsByte :
    base.Running ∧ base.portAt 0xCE .flashEn ∧ base.portAt 0xC0 .bankLinear ∧ base.portAt 0xE2 .powCnt ∧
      base.portAt 0xE7 .emuCnt ∧ base.portAt 0xE6 .warmboot ∧ base.portAt 0xE0 (.spiCnt .lo) ∧
      base.portAt 0xE1 (.spiCnt .hi) ∧ base.portAt 0xE4 (.segMask .lo) ∧ base.portAt 0xE5 (.segMask .hi) ∧
      base.portAt 0xD0 (.bank .ram .lo) ∧ base.portAt 0xC2 (.bank .rom0 .narrow) ∧ base.portAt 0xD5 (.bank .rom1 .hi) :=
  ⟨base_running, portAt_of rfl (by decide) (by decide) (by decide), portAt_of rfl (by decide) (by decide) (by decide),
    portAt_of rfl (by decide) (by decide) (by decide), portAt_of rfl (by decide) (by decide) (by decide),
    portAt_of rfl (by decide) (by decide) (by decide), portAt_of rfl (by decide) (by decide) (by decide),
    portAt_of rfl (by decide) (by decide) (by decide), portAt_of rfl (by decide) (by decide) (by decide),
    portAt_of rfl (by decide) (by decide) (by decide), portAt_of rfl (by decide) (by decide) (by decide),
    portAt_of rfl (by decide) (by decide) (by decide), portAt_of rfl (by decide) (by decide) (by decide)⟩

theorem witness_BoardRevisionIsReadOnly : base.Running ∧ base.portAt 0xE8 .boardRev :=
  ⟨base_running, portAt_of rfl (by decide) (by decide) (by decide)⟩

theorem witness_OffsetsOutsideTheRegisterMap :
    base.Running ∧ base.rtcAt 0xCA 0 ∧ base.rtcAt 0xCB 1 ∧ base.unanswered 0x00 := by
  refine ⟨base_running, ⟨rfl, rfl⟩, ⟨rfl, rfl, by decide⟩, fun e he => ?_, fun k hk => ?_⟩
  · revert e
    decide
  · have h2 := hk.2
    split at h2
    · exact absurd h2 (by decide)
    · exact absurd h2.1 (by decide)

theorem witness_PowerWriteResetsTheMcu : base.Running ∧ base.portAt 0xE2 .powCnt :=
  ⟨base_running, portAt_of rfl (by decide) (by decide) (by decide)⟩

theorem witness_BusyEngineRejectsWrites :
    busyBase.Running ∧ busyBase.regs.spiCnt.getLsbD 15 = true ∧ busyBase.portAt 0xE0 (.spiCnt .lo) ∧
      busyBase.portAt 0xE1 (.spiCnt .hi) ∧ (encode busyBase.board (.spiWaitread 1 2 1 0x1FF)).fmt = .spicnt ∧
      (encode busyBase.board .blSync).fmt ∈ [Format.flash, .card, .mcu, .boot] :=
  ⟨busy_running, by decide, portAt_of rfl (by decide) (by decide) (by decide),
    portAt_of rfl (by decide) (by decide) (by decide), rfl, by decide⟩

theorem witness_LowByteAndUnclockedWritesOnlyStore :
    base.Running ∧ base.regs.spiCnt.getLsbD 15 = false ∧ base.regs.powCnt.getLsbD base.board.powClock = false ∧
      base.portAt 0xE0 (.spiCnt .lo) ∧ base.portAt 0xE1 (.spiCnt .hi) ∧ (0xF7 : Byte).getLsbD 3 = false ∧
      encode base.board (.spiWaitread 1 3 0 0x1FF) = ⟨.spicnt, [0xFF, 0xF7]⟩ ∧
      encode base.board (.spiCtrl 0 0 0 0 0) = ⟨.spicnt, [0x00, 0x00]⟩ ∧ base.regs.spiCnt.getLsbD 11 = false ∧
      (encode base.board (.mcEcho 1 [0])).fmt ∈ [Format.flash, .card, .mcu, .boot] :=
  ⟨base_running, by decide, by decide, portAt_of rfl (by decide) (by decide) (by decide),
    portAt_of rfl (by decide) (by decide) (by decide), by decide, rfl, rfl, by decide, by decide⟩

/-- Clocked by the control word's own CLK390, and by POW_CNT. -/
theorem witness_ControlWordSelectsTheDevice : EngineReady base 1 ∧ EngineReady clockedBase 0 :=
  ⟨engine_of rfl rfl (by decide) (.inl rfl), engine_of rfl rfl (by decide) (.inr (by decide))⟩

theorem witness_TransferWithNoDevice : EngineReady base 1 ∧ EngineReady clockedBase 0 ∧
    (Instr.spiExch 1 0 0 0x1FF, 2#2) ∈ [(Instr.spiRead 1 0 0 0x1FF, 1#2), (Instr.spiExch 1 0 0 0x1FF, 2#2)] ∧
    (let s := withRegs ({ · with spiCnt := 0x0800 })
     EngineReady s 1 ∧ s.regs.spiCnt.extractLsb' 11 1 = 1 ∧ s.regs.spiCnt.extractLsb' 12 2 = 0 ∧
       Format.flash ∈ [Format.flash, .card, .mcu] ∧ encode s.board .flWren = ⟨.flash, [0x06]⟩) :=
  ⟨witness_ControlWordSelectsTheDevice.1, witness_ControlWordSelectsTheDevice.2, by decide,
    engine_of rfl rfl (by decide) (.inl rfl), by decide, by decide, by decide, rfl⟩

/-- A board whose register map answers no offset at all. -/
def portless : State := { base with board := { Board.illustration with regMap := [] } }

theorem portless_unreached (off : Byte) (p : RegPort) : ¬ portless.portAt off p := by
  rintro ⟨⟨g, h, -⟩, -⟩
  cases h

theorem witness_ControlWordIsTwoRegisterWrites :
    (base.Running ∧ base.portAt 0xE0 (.spiCnt .lo) ∧ base.portAt 0xE1 (.spiCnt .hi) ∧
      encode base.board (.spiRead 0 0 0 1) = ⟨.spicnt, [0x01, 0x82]⟩) ∧
    portless.Running ∧ (∀ off, ¬ portless.portAt off (.spiCnt .hi)) ∧ (∀ off, ¬ portless.portAt off (.spiCnt .lo)) ∧
      (encode portless.board (.spiRead 0 0 0 1)).fmt = .spicnt ∧
      (encode portless.board .flWren).fmt ∈ [Format.flash, .card, .mcu, .boot] :=
  ⟨⟨base_running, portAt_of rfl (by decide) (by decide) (by decide), portAt_of rfl (by decide) (by decide) (by decide),
    rfl⟩, ⟨rfl, by decide⟩, fun _ => portless_unreached _ _, fun _ => portless_unreached _ _, rfl, by decide⟩

/-- An engine about to send 0x9F, with `n` bytes in the flash's reply FIFO. -/
def jedecBase (n : Nat) : State :=
  { clockedBase with
    arrays := { Arrays.blank with tx := ⟨[(0, 0x9F)]⟩ }, flash := { base.flash with reply := List.replicate n 0 } }

/-- The exchanges end, and they take the fault. -/
theorem witness_TransferExchangesTheBuffer :
    EngineReady (jedecBase 0) 0 ∧ (jedecBase 0).arrays.wf ∧
      (Instr.spiWrite 0 (periphDev .flash) 0 0, 0#2) ∈
        [(Instr.spiWrite 0 (periphDev .flash) 0 0, 0#2), (Instr.spiRead 0 (periphDev .flash) 0 0, 1#2),
          (Instr.spiExch 0 (periphDev .flash) 0 0, 2#2)] ∧
      (feed .flash [0x9F] ((jedecBase 0).transferStart 0xA000 2)).state.fault = none ∧
      EngineReady (jedecBase 1024) 0 ∧
      (feed .flash [0x9F] ((jedecBase 1024).transferStart 0xA000 2)).state.fault = some (.fifoOverflow .flash .reply) ∧
      (selecting .mcu).Running ∧ Exchanging (selecting .mcu) .mcu ∧ Format.card ∈ [Format.flash, .card, .mcu] ∧
      encode (selecting .mcu).board (.cdReset ⟨1, 0, 0x95⟩) = ⟨.card, [0x40, 0, 0, 0, 0, 0x95]⟩ :=
  ⟨engine_of rfl rfl (by decide) (.inr (by decide)), fun r => by cases r <;> decide, by decide, by decide,
    engine_of rfl rfl (by decide) (.inr (by decide)), by decide +kernel, running_of rfl rfl, exchanging_of rfl rfl,
    by decide, rfl⟩

/-- An engine on a card with `j` bytes of 0xFF before a byte that is not. -/
def gapBase (j : Nat) : State :=
  { clockedBase with card := { base.card with reply := List.replicate j 0xFF ++ [0x05] } }

/-- No answer within the limit of 8; an answer at exchange 0 and at exchange 7. -/
theorem witness_WaitReadMakesDummyExchanges :
    EngineReady clockedBase 0 ∧ clockedBase.arrays.wf ∧
      (∃ t, feed .card (List.replicate 8 0xFF) (clockedBase.transferStart 0x9600 1) = .ok () t ∧
        t.out = List.replicate 8 0xFF) ∧
      (∀ j ∈ [0, 7], j < (gapBase j).board.waitReadLimit ∧ ∃ t t',
        feed .card (List.replicate (j + 1) 0xFF) ((gapBase j).transferStart 0x9600 1) = .ok () t ∧
        t.out = List.replicate j 0xFF ++ [0x05] ∧
        feed .card [] { t with log := t.log ++ [.waitReadSkipped j], out := [0x05] } = .ok () t') := by
  refine ⟨engine_of rfl rfl (by decide) (.inr (by decide)), arrays_wf_blank, ⟨_, rfl, rfl⟩, fun j hj => ?_⟩
  rcases List.mem_cons.mp hj with rfl | hj
  · exact ⟨by decide, _, _, rfl, rfl, rfl⟩
  · obtain rfl := List.mem_singleton.mp hj
    exact ⟨by decide, _, _, rfl, rfl, rfl⟩

theorem witness_WaitReadSkipsTheCardGap :
    EngineReady (gapBase 7) 0 ∧ CardIdle (gapBase 7) ∧ (gapBase 7).card.streaming = false ∧
      7 < (gapBase 7).board.waitReadLimit ∧ (gapBase 7).card.reply = List.replicate 7 0xFF ++ 0x05 :: [] ∧
      (gapBase 0).card.reply = List.replicate 0 0xFF ++ 0x05 :: [] :=
  ⟨engine_of rfl rfl (by decide) (.inr (by decide)), ⟨rfl, rfl⟩, rfl,
    by decide, rfl, rfl⟩

theorem witness_SpiReadStreamsTheFlash :
    let s := { clockedBase with flash := { base.flash with mode := .read, cursor := 0xFFFFFF } }
    EngineReady s 0 ∧ s.flash.mode = .read := ⟨engine_of rfl rfl (by decide) (.inr (by decide)), rfl⟩

theorem snooping_active (f : Legacy) : SnoopActive (snooping f) := ⟨rfl, by cases f <;> decide, by cases f <;> decide⟩

theorem witness_CartReadReturnsTheTranslatedByte :
    SnoopActive (snooping .fast) ∧ (0x1FFFF : BitVec 20).extractLsb' 16 4 = 1 ∧ (snooping .fast).fsm = .fast ∧
      SnoopActive (snooping .erase) ∧ (snooping .erase).fsm = .erase ∧
      (SnoopActive (snooping .fast) ∧ (0x20000 : BitVec 20).extractLsb' 16 4 = 1 →
        (snooping .fast).fsm ≠ .fast ∧ (snooping .fast).fsm ≠ .erase) :=
  ⟨snooping_active _, by decide, rfl, snooping_active _, rfl, fun h => absurd h.2 (by decide)⟩

theorem witness_CartWriteStoresThroughTheTranslator :
    (snooping .read).fault = none ∧ ¬ (SnoopActive (snooping .read) ∧ (0x20000 : BitVec 20).extractLsb' 16 4 = 1) ∧
      base.fault = none ∧ ¬ (SnoopActive base ∧ (0x10000 : BitVec 20).extractLsb' 16 4 = 1) :=
  ⟨rfl, fun h => absurd h.2 (by decide), rfl, fun h => absurd h.1.flashEn (by decide)⟩

theorem witness_ProbeAccessBypassesTheSnoop : (snooping .fastWrite).fault = none := rfl

/-- Locked at the highest lock bit, and unlocked; a locked RAM bank; a linear window. -/
theorem witness_TranslatorSelectsTheBank :
    (let b := { Board.illustration with lockRom1 := some 15, lockRam := some 9 }
     let r := { Regs.reset with bankRom1 := 0xFFFF, bankRam := 0xFFFF, segMask := 0x8203 }
     spaceOf r 3 = .rom ∧ physBank b r 3 = 0x003 ∧ spaceOf r 1 = .ram ∧ physBank b r 1 = 0x3 ∧ b.lockLinear = none) ∧
    physBank Board.illustration { Regs.reset with bankRom0 := 0xFFFF } 2 = 0x1FF ∧
    physBank Board.illustration Regs.reset 0xF = 0x1FF ∧ physBank Board.illustration Regs.reset 0x0 = 0x1F0 := by decide

/-- A location of each kind, on a well-formed board. -/
theorem witness_TranslatorRightsAndBounds :
    Board.illustration.wf = true ∧
      resolve Board.illustration { Regs.reset with bankRam := 0xF } 0x103FF true false = some (.tx 1 511) ∧
      resolve Board.illustration { Regs.reset with bankRom0 := 0x1FE } 0x201FF false false = some (.rx 1 511) ∧
      resolve Board.illustration Regs.reset 0xFFFFF false false = some (.boot 511) ∧
      resolve Board.illustration { Regs.reset with powCnt := 0x04, bankRam := 7 } 0x1FFFF true false = some (.sram 524287) ∧
      resolve Board.illustration { Regs.reset with bankRom0 := 0xFF } 0x2FFFF true false = some (.psram 16777215) ∧
      resolve Board.illustration { Regs.reset with bankRam := 0xE } 0x1FFFF false false = some (.ipc 511) := by decide

theorem witness_FirstFetchReadsTheBootAlias :
    Board.illustration.wf = true ∧ Board.illustration.ipcBankRom.map Fin.val ≠ some 0x1FF ∧
      Board.illustration.txBankRom.map Fin.val ≠ some 0x1FF ∧ 16 ≤ Board.illustration.romSize := by decide

theorem witness_ResetsRestoreTheResetValues :
    base.fault = none ∧ base.poweredUp = true ∧ ({ base with poweredUp := false } : State).poweredUp = false :=
  ⟨rfl, rfl, rfl⟩

theorem witness_EngineIsQuietAfterEveryReset : (∃ t, exec .busWarmreset busyBase = .next t) ∧
    ∃ t, exec .busColdreset { busyBase with poweredUp := false } = .next t := ⟨⟨_, rfl⟩, _, rfl⟩

/-- The longest push that fits, and the shortest that does not. -/
theorem witness_PushAppendsOrOverflows :
    (base.fifo .card .reply).length + (List.replicate 1024 (0 : Byte)).length ≤ base.board.fifoCap ∧
      base.board.fifoCap < (base.fifo .card .reply).length + (List.replicate 1025 (0 : Byte)).length := by
  decide +kernel

theorem witness_PushThenPopRoundTrips :
    base.fifo .mcu .cmd = [] ∧ (List.replicate 1024 (0 : Byte)).length ≤ base.board.fifoCap := by decide +kernel

theorem flash_idle (f : FlashState → FlashState) (h : (f base.flash).mode = .idle ∧ (f base.flash).cmd = []) :
    FlashIdle (withFlash f) := ⟨running_of rfl rfl, exchanging_of rfl rfl, h.1, h.2⟩

theorem base_flashReady : FlashReady (selecting .flash) := ⟨flash_idle id ⟨rfl, rfl⟩, rfl⟩

theorem witness_FlashReadStreamsTheImage : FlashReady (selecting .flash) := base_flashReady

theorem witness_FlashProgramStaysInItsPage : FlashReady (selecting .flash) := base_flashReady

theorem witness_FlashEraseFillsItsBlock :
    FlashReady (selecting .flash) ∧ (Instr.flErase64k 0xFFFFFF, 65536) ∈
      [(Instr.flErase4k 0xFFFFFF, 4096), (Instr.flErase32k 0xFFFFFF, 32768), (Instr.flErase64k 0xFFFFFF, 65536)] :=
  ⟨base_flashReady, by decide⟩

theorem witness_FlashStatusReadsEchoTheirRegister :
    FlashReady (selecting .flash) ∧ (Instr.flRdsr3, (2 : Fin 3), (selecting .flash).flash.sr2) ∈
      [(Instr.flRdsr1, (0 : Fin 3), (selecting .flash).flash.sr0), (Instr.flRdsr2, 1, (selecting .flash).flash.sr1),
        (Instr.flRdsr3, 2, (selecting .flash).flash.sr2)] ∧ encode (selecting .flash).board .flWake = ⟨.flash, [0xAB]⟩ :=
  ⟨base_flashReady, by decide, rfl⟩

/-- The longest pending reply behind which the JEDEC response fits, and the shortest behind which it does not. -/
theorem witness_FlashIdentitiesQueueTheirResponse :
    let s := fun n => withFlash ({ · with reply := List.replicate n 0 })
    FlashReady (s 1022) ∧ FlashReady (s 1023) ∧
      (s 1022).flash.reply.tail.length + (s 1022).board.flashRespJedec.length ≤ (s 1022).board.fifoCap ∧
      (s 1023).board.fifoCap < (s 1023).flash.reply.tail.length + (s 1023).board.flashRespJedec.length :=
  ⟨⟨flash_idle _ ⟨rfl, rfl⟩, rfl⟩, ⟨flash_idle _ ⟨rfl, rfl⟩, rfl⟩, by decide +kernel, by decide +kernel⟩

theorem witness_FlashFlagCommandsSetTheirFlag :
    FlashIdle (withFlash ({ · with sleeping := true })) ∧ FlashReady (selecting .flash) :=
  ⟨flash_idle _ ⟨rfl, rfl⟩, base_flashReady⟩

theorem witness_FlashRejectsUnknownAndSleepingBytes :
    FlashReady (selecting .flash) ∧ (0xC7#8) ∉ [0x03#8, 0x02#8, 0x20#8, 0x52#8, 0xD8#8, 0x05#8, 0x35#8, 0x15#8, 0x90#8, 0x9F#8,
      0x4B#8, 0xAB#8, 0xB9#8, 0x06#8, 0x04#8] ∧
    (let s := withFlash ({ · with sleeping := true })
     s.Running ∧ Exchanging s .flash ∧ s.flash.mode = .idle ∧ s.flash.sleeping = true ∧
       encode s.board (.flRead 0 [1]) = ⟨.flash, [0x03, 0, 0, 0, 1]⟩ ∧ (0xAB#8) ∉ [0x03#8, 0, 0, 0, 1]) :=
  ⟨base_flashReady, by decide, running_of rfl rfl, exchanging_of rfl rfl, rfl, rfl, rfl, by decide⟩

theorem witness_FlashDataModesTakeBytesAsData :
    (∀ m ∈ [FlashMode.read, .write, .erase, .status 0, .status 1, .status 2],
      (withFlash ({ · with mode := m, cursor := 0xFFFFFF })).Running ∧
        Exchanging (withFlash ({ · with mode := m, cursor := 0xFFFFFF })) .flash ∧
        (withFlash ({ · with mode := m, cursor := 0xFFFFFF })).flash.mode = m) ∧
      encode (selecting .flash).board (.flUnknown 0xFF) = ⟨.flash, [0xFF]⟩ := 
  ⟨fun _ _ => ⟨running_of rfl rfl, exchanging_of rfl rfl, rfl⟩, rfl⟩

theorem card_idle (f : CardState → CardState) (h : (f base.card).wcap = .none ∧ (f base.card).cmd = []) :
    CardIdle (withCard f) := ⟨h.1, h.2⟩

theorem base_cardReady : CardReady (selecting .card) :=
  ⟨running_of rfl rfl, exchanging_of rfl rfl, card_idle id ⟨rfl, rfl⟩, fun h => (nomatch h), by decide⟩

/-- A card with a full reply FIFO, streaming. -/
def streamingBase : State := withCard ({ · with streaming := true, reply := List.replicate 1024 0xAA })

theorem streaming_cardReady : CardReady streamingBase :=
  ⟨running_of rfl rfl, exchanging_of rfl rfl, card_idle _ ⟨rfl, rfl⟩, fun _ => by decide +kernel, by decide +kernel⟩

theorem witness_CardStatusCommandsReplyOneByte :
    CardReady (selecting .card) ∧ CardReady streamingBase ∧ (0x37#6) ∉ [0#6, 1#6, 41#6, 8#6, 12#6, 16#6, 17#6, 18#6, 24#6, 25#6] :=
  ⟨base_cardReady, streaming_cardReady, by decide⟩

theorem witness_CardConditionAndStopReplies :
    CardReady streamingBase ∧ 1 + streamingBase.board.cardStopBusy.length ≤ streamingBase.board.fifoCap :=
  ⟨streaming_cardReady, by decide⟩

/-- The longest pending reply behind which a block fits. -/
theorem witness_CardReadsQueueABlock :
    let s := withCard ({ · with reply := List.replicate 515 0xAA })
    CardReady s ∧ (Instr.cdReadn ⟨1, 0xFFFFFFFF, 0⟩, true) ∈
      [(Instr.cdRead1 ⟨1, 0xFFFFFFFF, 0⟩, s.card.streaming), (Instr.cdReadn ⟨1, 0xFFFFFFFF, 0⟩, true)] ∧
      (s.card.reply.drop 6).length + (s.board.cardReadGap + 514) ≤ s.board.fifoCap :=
  ⟨⟨running_of rfl rfl, exchanging_of rfl rfl, card_idle _ ⟨rfl, rfl⟩, fun h => (nomatch h), by decide +kernel⟩,
    by decide, by decide +kernel⟩

/-- A drained streaming card; the longest filler a streaming card takes before a refill, and filler past the end of the
reply of a card that does not stream. -/
theorem witness_StreamingRefillsTheReply :
    (let s := withCard ({ · with streaming := true })
     s.card.cmd = [] ∧ s.card.wcap = .none ∧ s.board.wf = true ∧ s.card.streaming = true ∧ s.card.reply = [] ∧ s.Running ∧
       Exchanging s .card ∧ (encode s.board (.cdStop ⟨1, 0, 0xFF⟩)).fmt = .card) ∧
    (let s := withCard ({ · with streaming := true, reply := [0xFF, 0xFE, 0x00] })
     s.card.cmd = [] ∧ s.card.wcap = .none ∧ (∀ x ∈ [0xFF#8, 0x80, 0xFF], x.getLsbD 7 = true) ∧
       (s.card.streaming = true → [0xFF#8, 0x80, 0xFF].length ≤ s.card.reply.length)) ∧
    (let s := selecting .card
     s.card.streaming = true → [0xFF#8].length ≤ s.card.reply.length) :=
  ⟨⟨rfl, rfl, illustration_wf, rfl, rfl, running_of rfl rfl, exchanging_of rfl rfl, rfl⟩,
    ⟨rfl, rfl, by decide, fun _ => by decide⟩, fun h => (nomatch h)⟩

theorem witness_CardWritesCaptureABlock :
    CardReady (selecting .card) ∧ (List.replicate 512 (0xA5 : Byte)).length = 512 ∧ (selecting .card).card.wblock.length = 512 ∧
      (let data := List.replicate 0 0xFF ++ 0xFD#8 :: List.replicate 512 0xA5 ++ [0, 0]
       (Instr.cdWriten ⟨1, 0, 0xFF⟩ data, Capture.multi, 0xFD#8) ∈
        [(Instr.cdWrite1 ⟨1, 0, 0xFF⟩ data, Capture.none, 0xFE#8), (Instr.cdWriten ⟨1, 0, 0xFF⟩ data, .multi, 0xFC#8),
          (Instr.cdWriten ⟨1, 0, 0xFF⟩ data, .multi, 0xFD#8)]) ∧
      (let s := withCard ({ · with wcap := .multi, wpos := 512, reply := List.replicate 1024 0x05 })
       s.board.wf = true ∧ s.card.wphase = .waitToken ∧ s.card.wblock.length = 512 ∧
         s.card.reply.length ≤ s.board.fifoCap ∧ (s.card.wcap, Capture.multi, 0xFC#8) ∈
           [(Capture.single, Capture.none, 0xFE#8), (.multi, .multi, 0xFC#8), (.multi, .multi, 0xFD#8)]) :=
  ⟨base_cardReady, List.length_replicate, List.length_replicate,
    List.mem_cons_of_mem _ (List.mem_cons_of_mem _ List.mem_cons_self), illustration_wf, rfl, List.length_replicate,
    by decide +kernel, by decide⟩

theorem witness_UnexpectedTokenAbortsTheCapture :
    (CardReady (selecting .card) ∧ (Instr.cdWrite1 ⟨1, 0, 0xFF⟩ [0xFC], [0xFE#8]) ∈
        [(Instr.cdWrite1 ⟨1, 0, 0xFF⟩ [0xFC], [0xFE#8]), (Instr.cdWriten ⟨1, 0, 0xFF⟩ [0xFC], [0xFC#8, 0xFD#8])] ∧
      (0xFC#8) ≠ 0xFF ∧ (0xFC#8) ∉ [0xFE#8]) ∧
    (let s := withCard ({ · with wcap := .multi })
     s.Running ∧ Exchanging s .card ∧ s.card.wcap ≠ .none ∧ s.card.wphase = .waitToken ∧ s.card.cmd = [] ∧
       (s.card.streaming = true → s.card.reply ≠ []) ∧
       encode s.board (.cdStop ⟨1, 0, 0x61⟩) = ⟨.card, 0x4C :: [0, 0, 0, 0, 0x61]⟩) :=
  ⟨⟨base_cardReady, by decide, by decide, by decide⟩, running_of rfl rfl, exchanging_of rfl rfl, by decide, rfl, rfl,
    fun h => (nomatch h), rfl⟩

theorem mcu_ready (r : List Byte) : McuReady (withMcu ({ · with reply := r })) :=
  ⟨running_of rfl rfl, exchanging_of rfl rfl, rfl, rfl⟩

/-- An argument of 0 means 512 bytes; the longest pending replies behind which each reply fits. -/
theorem witness_McuEchoAndModeReplies :
    let s := fun n => withMcu ({ · with reply := List.replicate n 0 })
    McuReady (s 1024) ∧ McuReady (s 1023) ∧ (List.replicate 512 (0 : Byte)).length = 512 ∧
      ((s 1024).mcu.reply.drop (2 + 512)).length + (2 + 512) ≤ (s 1024).board.fifoCap ∧
      ((s 1024).mcu.reply.drop 2).length + 2 ≤ (s 1024).board.fifoCap ∧
      ((s 1023).mcu.reply.drop 2).length + 3 ≤ (s 1023).board.fifoCap :=
  ⟨mcu_ready _, mcu_ready _, List.length_replicate, by decide +kernel, by decide +kernel, by decide +kernel⟩

/-- The longest EEPROM reply: 511 words fill the FIFO. -/
theorem witness_McuEepromReadRepliesWords :
    McuReady (selecting .mcu) ∧ base.mcu.eeprom.length = base.board.eepromWords ∧
      (base.mcu.reply.drop 4).length + (2 + 2 * (511 : BitVec 9).toNat) ≤ base.board.fifoCap :=
  ⟨mcu_ready [], List.length_replicate, by decide⟩

theorem witness_McuUsbTransfersFollowTheOracle :
    let s := withMcu ({ · with reply := List.replicate 896 0 })
    McuReady s ∧ (s.mcu.reply.drop 2).length + (2 + min 512 128) ≤ s.board.fifoCap ∧ (List.replicate 512 (0 : Byte)).length = 512 ∧
      (s.mcu.reply.drop (2 + 512)).length + 2 ≤ s.board.fifoCap :=
  ⟨mcu_ready _, by decide +kernel, List.length_replicate, by decide +kernel⟩

theorem witness_McuDiscardsUnknownOpcodes :
    McuReady (selecting .mcu) ∧ (0x06#7) ∉ [base.board.mcuOpEcho, base.board.mcuOpEepromModeSet, base.board.mcuOpEepromModeGet,
      base.board.mcuOpEepromRead, base.board.mcuOpUsbRead, base.board.mcuOpUsbWrite] := ⟨mcu_ready [], by decide⟩

theorem booted_bootMode (f : McuState → McuState) (h : ∀ m, (f m).bootMode = m.bootMode ∧ (f m).reply = m.reply) :
    BootMode (booted f) :=
  ⟨running_of rfl rfl, exchanging_of rfl rfl, (h _).1, by
    show (f _).reply.length ≤ _
    rw [(h _).2]
    exact Nat.zero_le _⟩

theorem witness_BootloaderSyncAndAcknowledge :
    BootMode (booted ({ · with started := false })) ∧ (booted ({ · with started := false })).mcu.waitingAck = false ∧
      (booted ({ · with started := false })).mcu.started = false ∧
      BootMode (booted ({ · with waitingAck := true, blCmd := some .go, step := 1 })) ∧
      BootMode (booted ({ · with waitingAck := true, blCmd := some .go, step := 0 })) ∧
      encode Board.illustration (.blNack 0x00) = ⟨.boot, [0x5A, 0x00, 0xFF]⟩ ∧ (0x79#8) ∉ [0x5A#8, 0x00, 0xFF] ∧
      (let s := booted ({ · with started := false })
       if s.mcu.waitingAck = true then (0x79#8) ≠ 0x79 else s.mcu.started = false ∧ (0x79#8) ≠ 0x5A) ∧
      (let s := booted ({ · with waitingAck := true })
       if s.mcu.waitingAck = true then (0x5A#8) ≠ 0x79 else s.mcu.started = false ∧ (0x5A#8) ≠ 0x5A) :=
  ⟨booted_bootMode _ fun _ => ⟨rfl, rfl⟩, rfl, rfl, booted_bootMode _ fun _ => ⟨rfl, rfl⟩,
    booted_bootMode _ fun _ => ⟨rfl, rfl⟩, rfl, by decide, by decide, by decide⟩

theorem booted_ready : BootReady (booted id) := ⟨booted_bootMode _ fun _ => ⟨rfl, rfl⟩, rfl, rfl, rfl, rfl⟩

theorem witness_BootloaderRejectsFrames :
    BootReady (booted id) ∧ (0x00#8) ∉ [0x44#8, 0x31#8, 0x21#8] ∧ (0xBA#8) ≠ ~~~ 0x44#8 :=
  ⟨booted_ready, by decide, by decide⟩

/-- The longest payloads. -/
theorem witness_BootloaderCommandsAreStubbed :
    BootReady (booted id) ∧ (booted id).mcu.reply = [] ∧ (List.replicate 65535 (0 : Half)).length < 65536 ∧
      (List.replicate 255 (0 : Byte)).length < 256 := by
  refine ⟨booted_ready, rfl, ?_, ?_⟩ <;> rw [List.length_replicate] <;> decide

theorem witness_SnoopFollowsItsTable :
    SnoopActive (snooping .fastWrite) ∧ (0x1FFFF : BitVec 20).extractLsb' 16 4 = 1 ∧
      (snooping .fastWrite).fsm = .fastWrite ∧ SnoopActive (snooping .erase) ∧ (snooping .erase).fsm ≠ .fastWrite ∧
      (snooping .erase).fsm ≠ .write := ⟨snooping_active _, by decide, rfl, snooping_active _, by decide, by decide⟩

theorem witness_LegacyCommandsMoveTheFsm : ∀ f, SnoopActive (snooping f) ∧ (snooping f).fsm = f :=
  fun f => ⟨snooping_active f, rfl⟩

theorem witness_OnlyWindowWritesMoveTheFsm :
    ∃ t, exec (.lfUnlock1 0xFFFF) (snooping .read) = .next t ∧ t.fsm ≠ (snooping .read).fsm := ⟨_, rfl, by decide⟩

/-- A state with every form, and a step from it. -/
def scripted : State := { clockedBase with script := [⟨.spicnt, [0x00, 0x82]⟩] }

theorem witness_StepKeepsTheMemoryForm :
    scripted.arrays.wf ∧ ∃ t, step scripted = .next t ∧ t.arrays.rx.cells = [(0, 0xFF)] :=
  ⟨arrays_wf_blank, _, rfl, by decide⟩

theorem witness_StepKeepsFifosBounded : scripted.fifosBounded ∧ ∃ t, step scripted = .next t :=
  ⟨fun d w => by cases d <;> cases w <;> decide, _, rfl⟩

theorem witness_StepKeepsThePeripheralForms : scripted.peripheralsFormed ∧ ∃ t, step scripted = .next t := by
  refine ⟨⟨⟨fun _ _ h => (nomatch h), by decide, fun _ => rfl, fun h => (nomatch h), by decide, rfl, rfl⟩,
    ⟨by decide, fun _ _ h => (nomatch h), .inr rfl, fun _ => rfl, fun _ => rfl, List.length_replicate,
      fun _ h => (nomatch h), fun _ h => (nomatch h)⟩,
    ⟨fun _ => ⟨rfl, rfl, rfl⟩, fun _ => ⟨rfl, rfl⟩, fun _ => rfl, by decide, List.length_replicate⟩⟩, _, rfl⟩

theorem witness_StepKeepsRomEepromAndLog : scripted.poweredUp = true ∧ ∃ t, step scripted = .next t := ⟨rfl, _, rfl⟩

end Sys2Proof.Tests
end

section
/-! SUPPORT. The proofs of the statements about scope, registers, control words, the translator and the USB commands, with the
lemmas they rest on. -/

namespace Sys2Proof.Machine

/-! ## Invariants of every step (R11, R15 to R17, R34, R37, R197) -/

/-- Powering up the RAM-like arrays keeps the form of all of them. -/
theorem powerUpArrays_wf {a : Arrays} (h : a.wf) : (powerUpArrays a).wf := by
  intro r
  cases r with
  | rom => exact h .rom
  | flash => exact h .flash
  | card => exact h .card
  | psram | sram | ipc | tx | rx => exact Memory.blank_wf

/-- No update of an exchange breaks the form of the arrays: only the images of flash and card are written. -/
theorem keptInside_memoryForm : KeptInside fun s => s.arrays.wf where
  flash _ _ hs := hs
  card _ _ hs := hs
  mcu _ _ _ hs := hs
  log _ _ hs := hs
  draws _ _ hs := hs
  usb _ _ hs := hs
  fault _ _ hs := hs
  cells s r a l _ hs := State.writeCells_wf s r a l hs

/-- No update of a step breaks the form of the arrays. -/
theorem kept_memoryForm : Kept fun s => s.arrays.wf where
  regs _ _ hs := hs
  out _ _ hs := hs
  log _ _ hs := hs
  draws _ _ hs := hs
  rtc _ _ hs := hs
  fsm _ _ hs := hs
  script _ _ hs := hs
  rx s a l hs := State.writeCells_wf s .rx a l hs
  store s addr v p hs := writeThrough_wf s addr v p hs
  deselect _ hs := hs
  mcuReset _ _ hs := hs
  warm _ hs := hs
  cold _ _ hs := powerUpArrays_wf hs
  exchange d tx s hs := keptInside_memoryForm.exchange d tx s hs

/-- Settles O56: the form is a kept property of steps. -/
theorem stepKeepsTheMemoryForm : Obligations.StepKeepsTheMemoryForm :=
  fun _ _ hs hstep => kept_memoryForm.step hs hstep

/-- A state of the session that was powered up in `s`: the same parameters, ROM image and EEPROM, and a log that goes on
from the one of `s` (R11, R16, R17, R34). -/
structure State.Continues (s t : State) : Prop where
  board : t.board = s.board
  rom : t.arrays.rom = s.arrays.rom
  eeprom : t.mcu.eeprom = s.mcu.eeprom
  log : s.log <+: t.log
  poweredUp : t.poweredUp = true

theorem State.Continues.refl {s : State} (h : s.poweredUp = true) : s.Continues s :=
  ⟨rfl, rfl, rfl, ⟨[], List.append_nil _⟩, h⟩

/-- An update that leaves the five fields alone stays in the session. -/
theorem State.Continues.congr {s t u : State} (h : s.Continues t) (hb : u.board = t.board)
    (hr : u.arrays.rom = t.arrays.rom) (he : u.mcu.eeprom = t.mcu.eeprom) (hl : u.log = t.log)
    (hp : u.poweredUp = t.poweredUp) : s.Continues u :=
  ⟨hb.trans h.board, hr.trans h.rom, he.trans h.eeprom, hl ▸ h.log, hp.trans h.poweredUp⟩

theorem State.Continues.addLog {s t : State} (h : s.Continues t) (e : Event) : s.Continues (t.addLog e) :=
  ⟨h.board, h.rom, h.eeprom, h.log.trans ⟨[e], rfl⟩, h.poweredUp⟩

/-- A write of another array than the ROM image stays in the session. -/
theorem State.Continues.writeCells {s t : State} (h : s.Continues t) {r : Region} (hr : r ≠ .rom) (a : Nat)
    (l : List Byte) : s.Continues (t.writeCells r a l) :=
  h.congr rfl (Arrays.get_set_other _ r .rom _ hr.symm) rfl rfl rfl

/-- A write through the translator stays in the session: it changes the arrays alone, and never the ROM image (R50). -/
theorem State.Continues.writeThrough {s t : State} (h : s.Continues t) (addr : BitVec 20) (v : Byte) (p : Bool) :
    s.Continues (writeThrough t addr v p) := by
  have hrom := writeThrough_rom t addr v p
  obtain ⟨arr, heq, -⟩ := writeThrough_spec t addr v p
  rw [heq] at hrom ⊢
  exact h.congr rfl hrom rfl rfl rfl

/-- No update of an exchange leaves the session. -/
theorem keptInside_continues (s : State) : KeptInside s.Continues where
  flash _ _ hs := hs.congr rfl rfl rfl rfl rfl
  card _ _ hs := hs.congr rfl rfl rfl rfl rfl
  mcu _ _ he hs := hs.congr rfl rfl he rfl rfl
  log _ e hs := hs.addLog e
  draws _ _ hs := hs.congr rfl rfl rfl rfl rfl
  usb _ _ hs := hs.congr rfl rfl rfl rfl rfl
  fault _ _ hs := hs.congr rfl rfl rfl rfl rfl
  cells _ _ a l hr hs := hs.writeCells (by rcases hr with rfl | rfl <;> decide) a l

/-- No update of a step leaves the session: a cold reset of a powered-up block is a warm one (R197). -/
theorem kept_continues (s : State) : Kept s.Continues where
  regs _ _ hs := hs.congr rfl rfl rfl rfl rfl
  out _ _ hs := hs.congr rfl rfl rfl rfl rfl
  log _ e hs := hs.addLog e
  draws _ _ hs := hs.congr rfl rfl rfl rfl rfl
  rtc _ _ hs := hs.congr rfl rfl rfl rfl rfl
  fsm _ _ hs := hs.congr rfl rfl rfl rfl rfl
  script _ _ hs := hs.congr rfl rfl rfl rfl rfl
  rx _ a l hs := hs.writeCells (by decide) a l
  store _ addr v p hs := hs.writeThrough addr v p
  deselect _ hs := hs.congr rfl rfl rfl rfl rfl
  mcuReset _ _ hs := hs.congr rfl rfl rfl rfl rfl
  warm _ hs := hs.congr rfl rfl rfl rfl rfl
  cold _ hoff hs := absurd (hs.poweredUp.symm.trans hoff) (by decide)
  exchange d tx t hs := (keptInside_continues s).exchange d tx t hs

/-- Settles O60: staying in the session is a kept property of steps. -/
theorem stepKeepsRomEepromAndLog : Obligations.StepKeepsRomEepromAndLog := by
  intro s t hp hstep
  obtain ⟨hboard, hrom, heeprom, hlog, hpow⟩ := (kept_continues s).step (.refl hp) hstep
  exact ⟨hboard, hrom, heeprom, hlog, hpow⟩

/-- Settles O4: the step takes the frame off the script and decodes it. -/
theorem stepRunsTheDecodedOperation : Obligations.StepRunsTheDecodedOperation := by
  intro s f rest i hscript hdecode
  have hfast : (s.fsm == .fast) = decide (s.fsm = .fast) := rfl
  have hissue : issue s = .operation i (s.setScript rest) := by
    simp only [issue, hscript, hfast, hdecode]
  have hstep : step s = exec i (s.setScript rest) := by
    simp only [step, hissue]
  exact hstep

/-! ## Registers (R10, R23, R80 to R85) -/

/-- A RegRead of a register byte (R82). -/
theorem regRead_port {s : State} {off : Byte} {p : RegPort} (hb : s.board.wf = true) (h : s.portAt off p) :
    regRead off s = s.setOut [readPort s.board s.regs p] := by
  simp only [regRead, lookup_port hb h]

/-- A RegRead of a forwarded offset is a draw (R10, R82). -/
theorem regRead_rtc {s : State} {off : Byte} {k : Fin 2} (h : s.rtcAt off k) : regRead off s = rtcRead k s := by
  simp only [regRead, lookup_rtc h]

/-- A RegRead of an offset that is not answered returns nothing (R82, R85). -/
theorem regRead_unanswered {s : State} {off : Byte} (h : s.unanswered off) : regRead off s = s.setOut [] := by
  simp only [regRead, lookup_unanswered h]

/-- A RegWrite of a register byte (R83). -/
theorem regWrite_port {s : State} {off : Byte} {p : RegPort} (v : Byte) (hb : s.board.wf = true) (h : s.portAt off p) :
    regWrite off v s = portWrite p v s := by
  simp only [regWrite, lookup_port hb h]

/-- A RegWrite of a forwarded offset is recorded for the RTC (R10, R83). -/
theorem regWrite_rtc {s : State} {off : Byte} {k : Fin 2} (v : Byte) (h : s.rtcAt off k) :
    regWrite off v s = .ok () (s.addRtc ⟨k, v⟩) := by
  simp only [regWrite, lookup_rtc h, done]

/-- A RegWrite of an offset that is not answered is ignored (R83, R85). -/
theorem regWrite_unanswered {s : State} {off : Byte} (v : Byte) (h : s.unanswered off) : regWrite off v s = .ok () s := by
  simp only [regWrite, lookup_unanswered h, done]

/-- A running block runs a RegRead, nothing returned at first (R57, R181). -/
theorem exec_busRegread_running {s : State} (off : Byte) (h : s.fault = none) :
    exec (.busRegread off) s = .next (regRead off (s.setOut [])) :=
  operate_running s (fun s => done (regRead off s)) h

/-- A running block runs a RegWrite, nothing returned (R57, R181). -/
theorem exec_busRegwrite_running {s : State} (off v : Byte) (h : s.fault = none) :
    exec (.busRegwrite off v) s = .next (regWrite off v (s.setOut [])).state :=
  operate_running s (fun s => regWrite off v s) h

/-- A RegRead of an offset that reaches a register byte returns that byte (R82). -/
theorem exec_busRegread_port {s : State} {off : Byte} {p : RegPort} (hs : s.Running) (h : s.portAt off p) :
    exec (.busRegread off) s = .next (s.setOut [readPort s.board s.regs p]) := by
  rw [exec_busRegread_running off hs.noFault, regRead_port (s := s.setOut []) hs.board h]
  rfl

/-- A RegWrite of an offset that reaches a register byte is the write of that byte (R83). -/
theorem exec_busRegwrite_port {s : State} {off : Byte} {p : RegPort} (v : Byte) (hs : s.Running) (h : s.portAt off p) :
    exec (.busRegwrite off v) s = .next (portWrite p v (s.setOut [])).state := by
  rw [exec_busRegwrite_running off v hs.noFault, regWrite_port (s := s.setOut []) v hs.board h]

/-- Settles O6: each clause is `portWrite` at its port; a lo or hi port merges its byte into the half it belongs to. -/
theorem registerWriteStoresItsByte : Obligations.RegisterWriteStoresItsByte := by
  intro s off v hs
  have write {p : RegPort} (h : s.portAt off p) := exec_busRegwrite_port v hs h
  refine ⟨write, write, write, write, fun h => ?segLo, fun h => ?segHi, fun _ => write, fun k h => ?bankLo,
    fun k h => ?bankHi⟩
  case segLo => rw [← withLo_eq]; exact write h
  case segHi => rw [← withHi_eq]; exact write h
  case bankLo => rw [← withLo_eq]; exact write h
  case bankHi => rw [← withHi_eq]; exact write h

/-- Settles O7: each clause is `readPort` at its port. -/
theorem registerReadReturnsItsByte : Obligations.RegisterReadReturnsItsByte := by
  intro s off hs
  have read {p : RegPort} (h : s.portAt off p) := exec_busRegread_port hs h
  refine ⟨read, read, read, read, read, read, read, read, read, fun k h => ?_, fun _ => read⟩
  rcases h with hlo | hnarrow
  · exact read hlo
  · exact read hnarrow

/-- Settles O9: what `regRead` and `regWrite` do at a forwarded offset, then at one that is not answered. -/
theorem offsetsOutsideTheRegisterMap : Obligations.OffsetsOutsideTheRegisterMap := by
  intro s off v hs
  rw [exec_busRegread_running off hs.noFault, exec_busRegwrite_running off v hs.noFault]
  refine ⟨fun k hrtc => ?forwarded, fun hnone => ?unanswered⟩
  case forwarded =>
    rw [regRead_rtc (s := s.setOut []) hrtc, regWrite_rtc (s := s.setOut []) v hrtc]
    exact ⟨rfl, rfl⟩
  case unanswered =>
    rw [regRead_unanswered (s := s.setOut []) hnone, regWrite_unanswered (s := s.setOut []) v hnone]
    exact ⟨rfl, rfl⟩

/-! ## Control words (R63, R79) -/

/-- A write of the low byte of SPI_CNT never faults, and leaves what the write of the high byte looks at: the board, the
gates, and that the block runs (R94, R95). -/
theorem spiCntWrite_lo (v : Byte) (s : State) :
    ∃ t, spiCntWrite .lo v s = .ok () t ∧ t.board = s.board ∧ t.regs.powCnt = s.regs.powCnt ∧ t.fault = s.fault ∧
      t.out = s.out := by
  unfold spiCntWrite
  split
  · exact ⟨_, rfl, rfl, rfl, rfl, rfl⟩
  · exact ⟨_, rfl, rfl, rfl, rfl, rfl⟩

/-- A frame of the SPICNT format is a control word, two bytes (R63). -/
theorem encode_spicnt_bytes {b : Board} {i : Instr} (h : (encode b i).fmt = .spicnt) :
    ∃ lo hi, encode b i = ⟨.spicnt, [lo, hi]⟩ := by
  cases i
  case spiCtrl | spiWrite | spiRead | spiExch | spiWaitread => exact ⟨_, _, rfl⟩
  all_goals cases h

/-- No frame is sent where no offset reaches the high byte of SPI_CNT (R80, R96; log entry 4). -/
theorem canTransfer_unreached {s : State} (hb : s.board.wf = true) (h : ∀ off, ¬ s.portAt off (.spiCnt .hi)) :
    canTransfer s = false := by
  rw [← Bool.not_eq_true, canTransfer_iff s hb]
  rintro ⟨⟨off, hoff⟩, -⟩
  exact h off hoff

/-- A control word within reach is the RegWrite of its low byte, then of its high byte, at whatever offsets reach them
(R79). -/
theorem exec_spi_two_writes {s : State} {offLo offHi lo hi : Byte} {i : Instr} (hs : s.Running)
    (hlo : s.portAt offLo (.spiCnt .lo)) (hhi : s.portAt offHi (.spiCnt .hi))
    (he : encode s.board i = ⟨.spicnt, [lo, hi]⟩) :
    ∃ s1 t, exec (.busRegwrite offLo lo) s = .next s1 ∧ exec (.busRegwrite offHi hi) s1 = .next t ∧
      exec i s = .next t := by
  obtain ⟨s1, hw, hboard, hpow, hfault, hout⟩ := spiCntWrite_lo lo (s.setOut [])
  have hrun : s1.Running := ⟨hfault.trans hs.noFault, hboard ▸ hs.board⟩
  have hhi1 : s1.portAt offHi (.spiCnt .hi) := (portAt_congr (s := s) hboard hpow).2 hhi
  have hout1 : s1.setOut [] = s1 := by rw [← hout.trans (State.setOut_out s [])]; rfl
  have hfirst : exec (.busRegwrite offLo lo) s = .next (spiCntWrite .lo lo (s.setOut [])).state :=
    exec_busRegwrite_port lo hs hlo
  have hsecond : exec (.busRegwrite offHi hi) s1 = .next (spiCntWrite .hi hi (s1.setOut [])).state :=
    exec_busRegwrite_port hi hrun hhi1
  have hrow : spiWordWrite (hi ++ lo) (s.setOut []) = spiCntWrite .hi hi s1 := by
    rw [spiWordWrite_reached (hi ++ lo) (s.setOut []) hs.board ⟨⟨offLo, hlo⟩, ⟨offHi, hhi⟩⟩, loByte_append,
      hiByte_append, hw, Res.bind_ok]
  rw [hw, Res.state_ok] at hfirst
  rw [hout1] at hsecond
  exact ⟨s1, _, hfirst, hsecond, by rw [exec_spi he, operate_running _ _ hs.noFault, hrow]⟩

/-- A control word of which no offset reaches a byte writes nothing (R8; log entry 19). -/
theorem exec_spi_unreached {s : State} {i : Instr} (hs : s.Running) (hlo : ∀ off, ¬ s.portAt off (.spiCnt .lo))
    (hhi : ∀ off, ¬ s.portAt off (.spiCnt .hi)) (hf : (encode s.board i).fmt = .spicnt) :
    exec i s = .next (s.setOut []) := by
  obtain ⟨lo, hi, he⟩ := encode_spicnt_bytes hf
  rw [exec_spi he, operate_running _ _ hs.noFault,
    spiWordWrite_unreached (hi ++ lo) (s.setOut []) hs.board hlo hhi, Res.state_ok]

/-- Settles O14: the two writes where both bytes are within reach, silence where the high byte is not. -/
theorem controlWordIsTwoRegisterWrites : Obligations.ControlWordIsTwoRegisterWrites :=
  ⟨fun _ _ _ _ _ _ hs hlo hhi he => exec_spi_two_writes hs hlo hhi he,
    fun _ _ hs hhi => ⟨fun hlo hf => exec_spi_unreached hs hlo hhi hf,
      fun hf => exec_silent hf hs.noFault (canTransfer_unreached hs.board hhi)⟩⟩

/-! ## The translator (R42 to R54) -/

/-- The half of TX and RX the console reaches is not the one the engine uses (R52). -/
theorem consoleHalf_ne_bufidx (r : Regs) : consoleHalf r ≠ r.bufidx := by
  have flip : ∀ x : BitVec 1, x ^^^ consoleHalfXor ≠ x := by decide
  exact flip r.bufidx

theorem halfIndex_lt (o : Half) : halfIndex o < 512 := (o.extractLsb' 0 9).isLt

theorem ipcOffset_lt (b : Board) (o : Half) : o.toNat % ipcSize b < ipcSize b := Nat.mod_lt _ (Nat.two_pow_pos _)

/-- A place in one of `n` banks of 65536 bytes lies in them. -/
theorem bankPlace_lt {pb n : Nat} (o : Half) (h : pb < n) : pb * 65536 + o.toNat < n * 65536 := by
  have := o.isLt
  omega

/-- No mode installs more than 16 SRAM banks; a mode past the end of the list has none (R12, R37; log entry 14). -/
theorem sramBanksNow_le {b : Board} (hb : b.wf = true) (r : Regs) : sramBanksNow b r ≤ 16 := by
  unfold sramBanksNow
  rw [List.getD_eq_getElem?_getD]
  cases hn : b.sramBanks[sramMode b r]? with
  | none => exact Nat.zero_le _
  | some n => exact Board.wf_sramBanks hb n (List.mem_of_getElem? hn)

/-- What the translator can answer for an access, with the right that an answer needs and its offset in range. -/
inductive Reached (b : Board) (r : Regs) (isWrite isProbe : Bool) : Loc → Prop where
  | sram (off : Nat) (power : r.powBit b.powSram = true) (bound : off < sramBanksNow b r * 65536) :
    Reached b r isWrite isProbe (.sram off)
  | psram (off : Nat) (bound : off < b.psramBanks * 65536) : Reached b r isWrite isProbe (.psram off)
  | ipc (off : Nat) (bound : off < ipcSize b) : Reached b r isWrite isProbe (.ipc off)
  | tx (i : Nat) (right : isWrite = true ∨ isProbe = true) (bound : i < 512) :
    Reached b r isWrite isProbe (.tx (consoleHalf r) i)
  | rx (i : Nat) (right : isWrite = false ∨ isProbe = true) (bound : i < 512) :
    Reached b r isWrite isProbe (.rx (consoleHalf r) i)
  | boot (i : Nat) (right : isWrite = false) (bound : i < 512) : Reached b r isWrite isProbe (.boot i)

/-- Everything RAM-space resolution can answer (R48). -/
theorem resolveRam_reached {b : Board} {r : Regs} {pb : Nat} {o : Half} {w p : Bool} {l : Loc}
    (h : resolveRam b r pb o w p = some l) : Reached b r w p l := by
  unfold resolveRam at h
  split at h
  case isTrue hsram => cases h; exact .sram _ hsram.1 (bankPlace_lt o hsram.2)
  split at h
  case isTrue => cases h; exact .ipc _ (ipcOffset_lt b o)
  split at h
  case isFalse => cases h
  split at h
  case isTrue hright => cases h; exact .tx _ hright (halfIndex_lt o)
  case isFalse => cases h

/-- Everything ROM-space resolution can answer (R49). -/
theorem resolveRom_reached {b : Board} {r : Regs} {pb : Nat} {o : Half} {w p : Bool} {l : Loc}
    (h : resolveRom b r pb o w p = some l) : Reached b r w p l := by
  unfold resolveRom at h
  split at h
  case isTrue hpsram => cases h; exact .psram _ (bankPlace_lt o hpsram)
  split at h
  case isTrue => cases h; exact .ipc _ (ipcOffset_lt b o)
  split at h
  case isTrue =>
    split at h
    case isTrue hright => cases h; exact .tx _ hright (halfIndex_lt o)
    case isFalse => cases h
  split at h
  case isTrue =>
    split at h
    case isTrue => cases h
    case isFalse hright => cases h; exact .boot _ (Bool.eq_false_iff.2 hright) (halfIndex_lt o)
  split at h
  case isFalse => cases h
  split at h
  case isTrue hright => cases h; exact .rx _ hright (halfIndex_lt o)
  case isFalse => cases h

/-- Everything the translator can answer (R42). -/
theorem resolve_reached {b : Board} {r : Regs} {addr : BitVec 20} {w p : Bool} {l : Loc}
    (h : resolve b r addr w p = some l) : Reached b r w p l := by
  unfold resolve at h
  split at h
  · exact resolveRam_reached h
  · exact resolveRom_reached h

/-- Settles O25: each clause is about one tag, so an answer meets the clause of its own tag and the others are void. -/
theorem translatorRightsAndBounds : Obligations.TranslatorRightsAndBounds := by
  intro b r addr isWrite isProbe l hb hres
  cases resolve_reached hres with
  | sram off power bound =>
    have small : off < 16 * 65536 := bound.trans_le (Nat.mul_le_mul_right _ (sramBanksNow_le hb r))
    rw [sramBanksNow, sramMode] at bound
    exact ⟨nofun, nofun, nofun, fun | _, rfl => ⟨power, small, bound⟩, nofun, nofun, rfl⟩
  | psram off bound => exact ⟨nofun, nofun, nofun, nofun, fun | _, rfl => bound, nofun, rfl⟩
  | ipc off bound => exact ⟨nofun, nofun, nofun, nofun, nofun, fun | _, rfl => bound, rfl⟩
  | tx i right bound =>
    exact ⟨fun | _, _, rfl => ⟨right, consoleHalf_ne_bufidx r, bound⟩, nofun, nofun, nofun, nofun, nofun, rfl⟩
  | rx i right bound =>
    exact ⟨nofun, fun | _, _, rfl => ⟨right, consoleHalf_ne_bufidx r, bound⟩, nofun, nofun, nofun, nofun, rfl⟩
  | boot i right bound => exact ⟨nofun, nofun, fun | _, rfl => ⟨right, bound⟩, nofun, nofun, nofun, rfl⟩

/-! ## MCU rows (R71, R153, R158, R159; log entry 4) -/

/-- A pop of one byte more is the pop of the others, then of that byte. -/
theorem popFifo_out_snoc (l : List Byte) (n : Nat) : (popFifo l (n + 1)).out = (popFifo l n).out ++ [l.getD n 0xFF] := by
  rw [popFifo_out_add, popFifo_out_succ (l.drop n) 0, popFifo_out_zero, pop1_eq, List.headD_eq_head?_getD,
    List.head?_drop, List.getD_eq_getElem?_getD]

/-- A normal-mode row sent to a ready MCU: a reply byte for each of its bytes, the command run before the last of them is
returned (R71, R150, R153). -/
theorem exec_mcu_ready {i : Instr} {c : McuOp} {arg : BitVec 9} {ext : List Byte} {s t : State} (hs : McuReady s)
    (hi : encode s.board i = ⟨.mcu, mcuFrame (mcuCode s.board c) arg ++ ext⟩) (he : ext.length = mcuExtra c arg)
    (hc : mcuCommand c arg ext ((s.setMcu { s.mcu with reply := s.mcu.reply.drop (2 + ext.length) }).setOut
      (popFifo s.mcu.reply (1 + ext.length)).out) = .ok () t) :
    exec i s = .next (t.addOut (s.mcu.reply.getD (1 + ext.length) 0xFF)) := by
  have hframe := feed_mcu_frame (s := s.setOut []) hs.normal hs.noFrame (mcuOpOf_mcuCode hs.board c) he
    (Board.wf_fifoCap hs.board)
  have hrun : feed .mcu (mcuFrame (mcuCode s.board c) arg ++ ext) (s.setOut [])
      = .ok () (t.addOut (s.mcu.reply.getD (1 + ext.length) 0xFF)) :=
    hframe.trans (congrArg (fun x => x.bind fun _ u => Res.ok () (u.addOut (s.mcu.reply.getD (1 + ext.length) 0xFF))) hc)
  rw [exec_selected hi (by decide) hs.toRunning hs.toExchanging, operate_running _ _ hs.noFault, hrun, Res.state_ok]

/-- MC.USBREAD with room for the largest answer (R158). -/
theorem mcuUsbRead_fits {arg : BitVec 9} {s : State}
    (h : s.mcu.reply.length + (2 + min (countOf arg) usbReadMax) ≤ s.board.fifoCap) :
    mcuUsbRead arg s =
      let d := (Config.usbRecv s.draws).take (min (countOf arg) usbReadMax)
      .ok () ((s.addDraws 1).setMcu { s.mcu with
        reply := s.mcu.reply ++ [BitVec.ofNat 8 (2 * d.length), BitVec.ofNat 8 (2 * d.length / 256)] ++ d }) := by
  have hd := List.length_take_le (min (countOf arg) usbReadMax) (Config.usbRecv s.draws)
  exact mcuReply_fits (s := s.addDraws 1) (p := usbRecv (min (countOf arg) usbReadMax) s)
    (by simp only [usbRecv, State.addDraws_mcu, State.addDraws_board]; omega)

/-- MC.USBWRITE with room for its tag (R159). -/
theorem mcuUsbWrite_fits {bytes : List Byte} {s : State} (h : s.mcu.reply.length + 2 ≤ s.board.fifoCap) :
    mcuUsbWrite bytes s =
      let k := min (Config.usbSend s.draws) bytes.length
      .ok () (((s.addDraws 1).addUsb (bytes.take k)).setMcu { s.mcu with
        reply := s.mcu.reply ++ [BitVec.ofNat 8 (2 * k), BitVec.ofNat 8 (2 * k / 256)] }) := by
  have hreply := mcuReply_fits (n := usbSend bytes s) (p := []) (s := (s.addDraws 1).addUsb (bytes.take (usbSend bytes s))) h
  rw [List.append_nil] at hreply
  exact hreply

/-- Settles O48: the row is the command's rule, and its last reply byte completes the pop. -/
theorem mcuUsbTransfersFollowTheOracle : Obligations.McuUsbTransfersFollowTheOracle := by
  intro s arg bytes hs n d k
  refine ⟨fun hroom => ?read, fun hlen hroom => ?write⟩
  case read =>
    rw [exec_mcu_ready (c := .usbread) (arg := arg) (ext := []) hs (by rw [List.append_nil]; rfl) rfl
      (mcuUsbRead_fits hroom), popFifo_out_snoc s.mcu.reply 1]
    rfl
  case write =>
    have hk : k = min (Config.usbSend s.draws) bytes.length := by rw [hlen]
    rw [← hlen] at hroom ⊢
    rw [exec_mcu_ready (c := .usbwrite) (arg := arg) (ext := bytes) hs rfl hlen (mcuUsbWrite_fits hroom),
      show 2 + bytes.length = 1 + bytes.length + 1 by omega, popFifo_out_snoc, hk]
    rfl

end Sys2Proof.Machine
end

section
/-! SUPPORT. The proofs of the statements about the FIFOs' capacity, the translator's order and the resets, with the lemmas
they rest on. -/

namespace Sys2Proof.Machine

/-! ## Every FIFO within its capacity (R31, R89)

A FIFO grows by a push alone, and a push checks the capacity; every other update leaves each FIFO as it is or shortens
it. -/

section
variable {s : State}

/-- An update that keeps the board and lengthens no FIFO keeps the bound. -/
theorem State.fifosBounded.shrink {t : State} (h : s.fifosBounded) (hb : t.board = s.board)
    (hf : ∀ d w, (t.fifo d w).length ≤ (s.fifo d w).length) : t.fifosBounded :=
  fun d w => (hf d w).trans (hb ▸ h d w)

theorem State.fifosBounded.setFlash {f : FlashState} (h : s.fifosBounded)
    (hcmd : f.cmd.length ≤ s.flash.cmd.length := by simp)
    (hreply : f.reply.length ≤ s.flash.reply.length := by simp) : (s.setFlash f).fifosBounded :=
  h.shrink rfl fun
    | .flash, .cmd => hcmd
    | .flash, .reply => hreply
    | .card, w => by cases w <;> exact le_rfl
    | .mcu, w => by cases w <;> exact le_rfl

theorem State.fifosBounded.setCard {c : CardState} (h : s.fifosBounded)
    (hcmd : c.cmd.length ≤ s.card.cmd.length := by simp)
    (hreply : c.reply.length ≤ s.card.reply.length := by simp) : (s.setCard c).fifosBounded :=
  h.shrink rfl fun
    | .card, .cmd => hcmd
    | .card, .reply => hreply
    | .flash, w => by cases w <;> exact le_rfl
    | .mcu, w => by cases w <;> exact le_rfl

theorem State.fifosBounded.setMcu {m : McuState} (h : s.fifosBounded)
    (hcmd : m.cmd.length ≤ s.mcu.cmd.length := by simp)
    (hreply : m.reply.length ≤ s.mcu.reply.length := by simp) : (s.setMcu m).fifosBounded :=
  h.shrink rfl fun
    | .mcu, .cmd => hcmd
    | .mcu, .reply => hreply
    | .flash, w => by cases w <;> exact le_rfl
    | .card, w => by cases w <;> exact le_rfl

theorem State.fifosBounded.addLog (h : s.fifosBounded) (e : Event) : (s.addLog e).fifosBounded := h
theorem State.fifosBounded.addDraws (h : s.fifosBounded) (n : Nat) : (s.addDraws n).fifosBounded := h
theorem State.fifosBounded.addUsb (h : s.fifosBounded) (l : List Byte) : (s.addUsb l).fifosBounded := h
theorem State.fifosBounded.setArrays (h : s.fifosBounded) (a : Arrays) : (s.setArrays a).fifosBounded := h
theorem State.fifosBounded.writeCells (h : s.fifosBounded) (r : Region) (a : Nat) (l : List Byte) :
    (s.writeCells r a l).fifosBounded := h

/-- A state whose FIFOs are all empty is within the bound. -/
theorem State.fifosBounded_of_empty (h : ∀ d w, s.fifo d w = []) : s.fifosBounded := fun d w => by
  rw [h d w]; exact Nat.zero_le _

/-- A push keeps the bound: one that would pass it faults and leaves its FIFO as it is (R89). -/
theorem State.fifosBounded.push (h : s.fifosBounded) (d : Periph) (w : FifoId) (l : List Byte) :
    (push d w l s).state.fifosBounded := by
  rcases push_cases d w l s with ⟨-, he⟩ | ⟨hfits, he⟩
  · rw [he]; exact h
  · rw [he, Res.state_ok]
    intro d' w'
    rw [State.setFifo_board]
    by_cases hsame : (d', w') = (d, w)
    · obtain ⟨rfl, rfl⟩ := Prod.mk.inj hsame
      rwa [State.fifo_setFifo_same, List.length_append]
    · rw [State.fifo_setFifo_other s d d' w w' _ hsame]
      exact h d' w'

/-! ### Flash (43_flash.md) -/

@[simp] theorem flashErase_flash (size : Nat) (a : BitVec 24) (s : State) : (flashErase size a s).flash = s.flash := by
  rw [flashErase_eq]

@[simp] theorem flashStore_flash (s : State) (cursor : Nat) (v : Byte) : (flashStore s cursor v).flash = s.flash := by
  rw [flashStore_eq]

theorem State.fifosBounded.flashErase (h : s.fifosBounded) (size : Nat) (a : BitVec 24) :
    (flashErase size a s).fifosBounded := by
  rw [flashErase_eq]
  exact h.setArrays _

theorem State.fifosBounded.flashStore (h : s.fifosBounded) (cursor : Nat) (v : Byte) :
    (flashStore s cursor v).fifosBounded := by
  rw [flashStore_eq]
  exact h.setArrays _

theorem State.fifosBounded.flashCommand (h : s.fifosBounded) (c : FlashOp) (a : BitVec 24) :
    (flashCommand c a s).state.fifosBounded := by
  cases c
  case mfrid | jedecid | uuid => exact h.push _ _ _
  case erase4k | erase32k | erase64k =>
    exact (h.flashErase _ a).setFlash
  all_goals exact h.setFlash

theorem State.fifosBounded.flashDecode (h : s.fifosBounded) : (flashDecode s).state.fifosBounded := by
  unfold Machine.flashDecode
  split
  · exact h
  · split
    · exact h.setFlash.addLog _
    · split
      · split
        · exact h
        · exact h.setFlash.flashCommand _ _
      · exact h.setFlash.flashCommand _ _

theorem State.fifosBounded.flashExchange (h : s.fifosBounded) (tx : Byte) : (flashExchange tx s).state.fifosBounded := by
  cases hm : s.flash.mode <;> simp only [Machine.flashExchange, hm]
  case read => exact h.setFlash
  case write => exact (h.flashStore _ tx).setFlash
  case erase | status => exact h
  case idle =>
    split
    · exact h.addLog _
    · exact Res.bind_keeps (h.setFlash.push _ _ _) fun _ _ h1 => Res.bind_keeps h1.flashDecode fun _ _ h2 => h2

/-! ### Card (44_card.md) -/

theorem State.fifosBounded.cardQueueBlock (h : s.fifosBounded) : (cardQueueBlock s).state.fifosBounded :=
  Res.bind_keeps (h.push _ _ _) fun _ _ h1 => Res.bind_keeps (h1.push _ _ _) fun _ _ h2 =>
    Res.bind_keeps ((h2.addDraws _).push _ _ _) fun _ _ h3 => Res.bind_keeps (h3.push _ _ _) fun _ _ h4 => h4.setCard

theorem State.fifosBounded.cardCommand (h : s.fifosBounded) (idx : BitVec 6) (arg : BitVec 32) :
    (cardCommand idx arg s).state.fifosBounded := by
  have status (flags : Byte) {u : State} (hu : u.fifosBounded) : (cardReplyStatus flags u).state.fifosBounded :=
    hu.push _ _ _
  cases ho : cardOpOf idx with
  | none => simp only [Machine.cardCommand, ho]; exact status _ h
  | some c =>
    cases c <;> simp only [Machine.cardCommand, ho]
    case reset | init1 | init41 => exact status _ h.setCard
    case ifcond => exact h.push _ _ _
    case stop => exact h.setCard.push _ _ _
    case setblklen => exact status _ h
    case read1 => exact Res.bind_keeps (status _ h.setCard) fun _ _ h1 => h1.cardQueueBlock
    case readn =>
      exact Res.bind_keeps (status _ h.setCard) fun _ _ h1 => Res.bind_keeps h1.cardQueueBlock fun _ _ h2 => h2.setCard
    case write1 | writen => exact Res.bind_keeps (status _ h) fun _ _ h1 => h1.setCard

theorem State.fifosBounded.cardScan (h : s.fifosBounded) (tx : Byte) : (cardScan tx s).state.fifosBounded := by
  unfold Machine.cardScan
  split
  · exact h
  · refine Res.bind_keeps (h.push _ _ _) fun _ s1 h1 => ?_
    split
    · exact h1.setCard.cardCommand _ _
    · exact h1

theorem State.fifosBounded.cardCommit (h : s.fifosBounded) : (cardCommit s).state.fifosBounded :=
  Res.bind_keeps ((h.writeCells _ _ _).setCard.push _ _ _) fun _ _ h1 => h1.setCard

theorem State.fifosBounded.cardCapture (h : s.fifosBounded) (tx : Byte) : (cardCapture tx s).state.fifosBounded := by
  cases hp : s.card.wphase <;> simp only [Machine.cardCapture, hp]
  case waitToken =>
    split
    · exact h
    · split
      · exact h.setCard
      · exact (h.addLog _).setCard.cardScan _
  case data k =>
    split
    · exact h.setCard.cardCommit
    · exact h.setCard
  case crc k =>
    split
    · exact h.cardCommit
    · exact h.setCard

theorem State.fifosBounded.cardRefill (h : s.fifosBounded) : (cardRefill s).state.fifosBounded := by
  unfold Machine.cardRefill
  split
  · exact h.cardQueueBlock
  · exact h

theorem State.fifosBounded.cardExchange (h : s.fifosBounded) (tx : Byte) : (cardExchange tx s).state.fifosBounded := by
  refine Res.bind_keeps h.cardRefill fun _ s1 h1 => Res.bind_keeps ?_ fun _ _ h2 => h2
  split
  · exact h1.setCard.cardCapture tx
  · exact h1.setCard.cardScan tx

/-! ### MCU (45_mcu.md) -/

theorem State.fifosBounded.mcuCommand (h : s.fifosBounded) (c : McuOp) (arg : BitVec 9) (bytes : List Byte) :
    (mcuCommand c arg bytes s).state.fifosBounded := by
  cases c with
  | echo | eemodeget | eeread => exact h.push _ _ _
  | eemodeset => exact h.setMcu.push _ _ _
  | usbread => exact (h.addDraws 1).push _ _ _
  | usbwrite => exact ((h.addDraws 1).addUsb _).push _ _ _

theorem State.fifosBounded.mcuDecode (h : s.fifosBounded) : (mcuDecode s).state.fifosBounded := by
  unfold Machine.mcuDecode
  split
  · exact h
  · dsimp only
    split
    · exact h.setMcu.addLog _
    · split
      · exact h
      · exact h.setMcu.mcuCommand _ _ _

theorem State.fifosBounded.blAck (h : s.fifosBounded) : (blAck s).state.fifosBounded :=
  Res.bind_keeps (h.push _ _ _) fun _ _ h1 => h1.setMcu

theorem State.fifosBounded.blNack (h : s.fifosBounded) : (blNack s).state.fifosBounded :=
  Res.bind_keeps (h.push _ _ _) fun _ _ h1 => h1.setMcu

theorem State.fifosBounded.blAwaited (h : s.fifosBounded) (tx : Byte) : (blAwaited tx s).state.fifosBounded := by
  unfold Machine.blAwaited
  split
  · dsimp only
    split
    · exact h.setMcu.setMcu
    · exact h.setMcu
  · exact h

theorem State.fifosBounded.blUnstarted (h : s.fifosBounded) (tx : Byte) : (blUnstarted tx s).state.fifosBounded := by
  unfold Machine.blUnstarted
  split
  · exact h.setMcu.blAck
  · exact h

theorem State.fifosBounded.blSelect (h : s.fifosBounded) (op par : Byte) : (blSelect op par s).state.fifosBounded := by
  unfold Machine.blSelect
  split
  · exact h.addLog _
  · split
    · exact h.blNack
    · exact h.setMcu.blAck

theorem State.fifosBounded.blFrame (h : s.fifosBounded) (tx : Byte) : (blFrame tx s).state.fifosBounded := by
  unfold Machine.blFrame
  split
  · exact h
  · refine Res.bind_keeps (h.push _ _ _) fun _ s1 h1 => ?_
    split
    · exact h1
    · exact h1.setMcu.blSelect _ _

theorem State.fifosBounded.blPayload (h : s.fifosBounded) (c : BootOp) : (blPayload c s).state.fifosBounded := by
  unfold Machine.blPayload
  split
  · exact (h.addLog _).setMcu.blAck
  · exact h

theorem State.fifosBounded.blStepAddress (h : s.fifosBounded) (c : BootOp) (tx : Byte) :
    (blStepAddress c tx s).state.fifosBounded := by
  refine Res.bind_keeps (h.push _ _ _) fun _ s1 h1 => ?_
  split
  · exact h1
  · cases c with
    | go => exact (h1.addLog _).setMcu.blAck
    | write | erase => exact h1.setMcu.blAck

theorem State.fifosBounded.blStepHeader (h : s.fifosBounded) (c : BootOp) (tx : Byte) :
    (blStepHeader c tx s).state.fifosBounded := by
  refine Res.bind_keeps (h.push _ _ _) fun _ s1 h1 => ?_
  split
  · exact h1
  · cases c <;> exact h1.setMcu.blPayload _

theorem State.fifosBounded.blStep (h : s.fifosBounded) (c : BootOp) (tx : Byte) : (blStep c tx s).state.fifosBounded := by
  unfold Machine.blStep
  split
  · exact h.blStepAddress c tx
  · exact h.blStepHeader c tx
  · exact h.setMcu.blPayload c
  · exact h

theorem State.fifosBounded.blByte (h : s.fifosBounded) (tx : Byte) : (blByte tx s).state.fifosBounded := by
  unfold Machine.blByte
  split
  · exact h.blAwaited tx
  · split
    · exact h.blUnstarted tx
    · split
      · exact h.blFrame tx
      · exact h.blStep _ tx

theorem State.fifosBounded.mcuExchange (h : s.fifosBounded) (tx : Byte) : (mcuExchange tx s).state.fifosBounded := by
  refine Res.bind_keeps ?_ fun _ _ h2 => h2
  split
  · exact h.setMcu.blByte tx
  · exact Res.bind_keeps (h.setMcu.push _ _ _) fun _ _ h1 => h1.mcuDecode

/-! ### The translator (R50) -/

theorem State.fifosBounded.writeThrough (h : s.fifosBounded) (addr : BitVec 20) (v : Byte) (p : Bool) :
    (writeThrough s addr v p).fifosBounded := by
  obtain ⟨arr, he, -⟩ := writeThrough_spec s addr v p
  rw [he]
  exact h.setArrays arr

end

/-! ### Resets (R40, R149, R151) -/

theorem warmReset_fifo (s : State) (d : Periph) (w : FifoId) : (warmReset s).fifo d w = [] := by
  cases d <;> cases w <;> rfl

theorem coldReset_fifo (s : State) (d : Periph) (w : FifoId) : (coldReset s).fifo d w = [] := by
  cases d <;> cases w <;> rfl

theorem State.resetOn_fifo (b : Board) (d : Periph) (w : FifoId) : (State.resetOn b).fifo d w = [] := by
  cases d <;> cases w <;> rfl

/-! ### Steps -/

/-- No update of a step passes the capacity of a FIFO: exchanges push, resets empty the FIFOs. -/
theorem kept_fifosBounded : Kept State.fifosBounded where
  regs _ _ hs := hs
  out _ _ hs := hs
  log _ _ hs := hs
  draws _ _ hs := hs
  rtc _ _ hs := hs
  fsm _ _ hs := hs
  script _ _ hs := hs
  rx _ a l hs := hs.writeCells .rx a l
  store _ addr v p hs := hs.writeThrough addr v p
  deselect _ hs := hs.setFlash (Nat.zero_le _) (Nat.zero_le _)
  mcuReset _ _ hs := hs.setMcu (Nat.zero_le _) (Nat.zero_le _)
  warm s _ := State.fifosBounded_of_empty (warmReset_fifo s)
  cold s _ _ := State.fifosBounded_of_empty (coldReset_fifo s)
  exchange d tx _ hs := match d with
    | .flash => hs.flashExchange tx
    | .card => hs.cardExchange tx
    | .mcu => hs.mcuExchange tx

/-- Settles O57: the bound is a kept property of steps. -/
theorem stepKeepsFifosBounded : Obligations.StepKeepsFifosBounded :=
  fun _ _ hs hstep => kept_fifosBounded.step hs hstep

/-! ## The state after reset (R12, R13, R31, R40) -/

theorem Board.illustration_wf : Board.illustration.wf = true := by decide

/-- The parameters of the machine meet the constraints: an ill-formed choice gives way to the illustration (log entry 1). -/
theorem Config.board_wf : Config.board.wf = true := by
  unfold Config.board
  split
  case isTrue hchoice => exact hchoice
  case isFalse => exact Board.illustration_wf

theorem FlashState.reset_form : FlashState.reset.Form where
  pending := nofun
  short := Nat.zero_le _
  dataMode _ := rfl
  asleep := nofun
  onlyWel := rfl
  sr1Zero := rfl
  sr2Zero := rfl

theorem CardState.reset_form : CardState.reset.Form where
  short := Nat.zero_le _
  framed := nofun
  status := .inr rfl
  capturing _ := rfl
  notCapturing _ := rfl
  block := List.length_replicate
  dataPhase := nofun
  crcPhase := nofun

theorem McuState.reset_form (b : Board) : (McuState.reset b.eepromWords).Form b where
  normal _ := ⟨rfl, rfl, rfl⟩
  unstarted _ := ⟨rfl, rfl⟩
  idle _ := rfl
  steps := Nat.zero_le _
  eepromSize := List.length_replicate

/-- Settles O59: the arrays are blank, the FIFOs empty, each peripheral is at its reset values. -/
theorem resetHasEveryForm : Obligations.ResetHasEveryForm :=
  ⟨Arrays.blank_wf, State.fifosBounded_of_empty (State.resetOn_fifo Config.board),
    ⟨FlashState.reset_form, CardState.reset_form, McuState.reset_form Config.board⟩, ⟨rfl, Config.board_wf⟩⟩

/-! ## Resets (R40, R196, R197, R200) -/

/-- A running block performs a WarmReset, nothing returned (R57, R197). -/
theorem exec_busWarmreset_running {s : State} (h : s.fault = none) :
    exec .busWarmreset s = .next (warmReset (s.setOut [])) :=
  operate_running s (fun s => done (warmReset s)) h

/-- A running block performs a ColdReset as a first power-up or as a warm one (R196, R197). -/
theorem exec_busColdreset_running {s : State} (h : s.fault = none) :
    exec .busColdreset s = .next (if s.poweredUp then warmReset (s.setOut []) else coldReset (s.setOut [])) :=
  operate_running s (fun s => done (if s.poweredUp then warmReset s else coldReset s)) h

/-- Settles O27: each clause is the reset run on an empty answer. The first ColdReset also clears `fault`, which a running
block does not have. -/
theorem resetsRestoreTheResetValues : Obligations.ResetsRestoreTheResetValues := by
  intro s h regs flash card mcu warm
  refine ⟨?warm, fun hon => ?later, fun hoff => ?first⟩
  case warm => rw [exec_busWarmreset_running h]; rfl
  case later => rw [exec_busColdreset_running h, if_pos hon]; rfl
  case first =>
    have hwarm : warm.fault = none := h
    rw [exec_busColdreset_running h, if_neg (by rw [hoff]; decide), hwarm]
    rfl

/-- Every reset operation leaves the register file at its reset values (R40). -/
theorem exec_reset_regs {s t : State} {i : Instr} (hi : i = .busWarmreset ∨ i = .busColdreset) (he : exec i s = .next t) :
    t.regs = Regs.reset := by
  rcases hi with rfl | rfl
  · obtain ⟨-, rfl⟩ := operate_next (f := fun s => done (warmReset s)) he
    rfl
  · obtain ⟨-, rfl⟩ := operate_next (f := fun s => done (if s.poweredUp then warmReset s else coldReset s)) he
    rw [done_state]
    split <;> rfl

theorem lockSet_reset (lk : Option (Fin 16)) : lockSet Regs.reset lk = false := by
  cases lk with
  | none => rfl
  | some k => exact BitVec.getLsbD_zero

theorem powBit_reset (k : Fin 8) : Regs.reset.powBit k = false := BitVec.getLsbD_zero

theorem clocked_reset (b : Board) : clocked b Regs.reset = false := powBit_reset b.powClock

theorem snoopActive_reset (b : Board) : snoopActive b Regs.reset = false := Bool.and_false _

/-- Settles O28: all of it is read off the register file, which every reset leaves at its reset values. -/
theorem engineIsQuietAfterEveryReset : Obligations.EngineIsQuietAfterEveryReset := by
  intro t ht
  have hregs : t.regs = Regs.reset := by
    rcases ht with rfl | ⟨s, i, hi, he⟩
    · rfl
    · exact exec_reset_regs hi he
  rw [hregs]
  exact ⟨clocked_reset _, rfl, rfl, snoopActive_reset _, powBit_reset _, fun lk _ => lockSet_reset lk⟩

/-! ## BOARD_REV (R29) -/

/-- Settles O8: `readPort` gives the parameter, `portWrite` does nothing at its port. -/
theorem boardRevisionIsReadOnly : Obligations.BoardRevisionIsReadOnly :=
  fun _ _ v hs hport => ⟨exec_busRegread_port hs hport, exec_busRegwrite_port v hs hport⟩

/-! ## The translator's order (R44, R48, R49) -/

theorem isBank_iff {n : Nat} (k : Option (Fin n)) (pb : Nat) : isBank k pb = true ↔ k.map Fin.val = some pb := by
  cases k with
  | none => simp [isBank]
  | some k => simp [isBank]

/-- The in-bank offset is the address modulo 65536 (R44). -/
theorem bankOffset_toNat (addr : BitVec 20) : (bankOffset addr).toNat = addr.toNat % 65536 :=
  BitVec.extractLsb'_toNat ..

/-- The index in a half, or in the boot alias, is the offset modulo 512 (R48, R49). -/
theorem halfIndex_eq (o : Half) : halfIndex o = o.toNat % 512 := BitVec.extractLsb'_toNat ..

/-- Settles O24: RAM space and ROM space are resolved in the order of R48 and of R49. -/
theorem translatorPriorityOrder : Obligations.TranslatorPriorityOrder := by
  intro b r addr isWrite isProbe pb o half mode
  unfold resolve
  cases hspace : spaceOf r (cpuBank addr) with
  | ram =>
    rw [if_pos (show spaceOf r (addr.extractLsb' 16 4) = .ram from hspace)]
    simp only [resolveRam, isBank_iff, halfIndex_eq, bankOffset_toNat]
    rfl
  | rom =>
    rw [if_neg fun hram : spaceOf r (addr.extractLsb' 16 4) = .ram => nomatch hspace.symm.trans hram]
    simp only [resolveRom, isBank_iff, halfIndex_eq, bankOffset_toNat]
    rfl

end Sys2Proof.Machine
end

section
/-! SUPPORT. The proofs of the statements about a cartridge write, the bank of an access and the first fetch after reset, with
the lemmas they rest on. -/

namespace Sys2Proof.Machine

/-! ## Cartridge accesses (R51, R86, R87) -/

/-- A running block runs a CartRead and returns its byte (R57, R86). -/
theorem exec_busCartread_running {s : State} (addr : BitVec 20) (h : s.fault = none) :
    exec (.busCartread addr) s = .next (s.setOut [cartByte s addr]) :=
  operate_running s (fun s => done (cartRead addr s)) h

/-- A running block runs a CartWrite, nothing returned (R57, R87). -/
theorem exec_busCartwrite_running {s : State} (addr : BitVec 20) (v : Byte) (h : s.fault = none) :
    exec (.busCartwrite addr v) s = .next (cartWrite addr v (s.setOut [])) :=
  operate_running s (fun s => done (cartWrite addr v s)) h

/-- A write the snoop does not take goes through the translator (R87). -/
theorem cartWrite_unsnooped {s : State} {addr : BitVec 20} (v : Byte) (h : snooped s addr = false) :
    cartWrite addr v s = writeThrough s addr v false :=
  if_neg (Bool.eq_false_iff.1 h)

/-- A read the snoop does not take is the byte the translator reaches (R86). -/
theorem cartByte_unsnooped {s : State} {addr : BitVec 20} (h : snooped s addr = false) :
    cartByte s addr = readThrough s addr false :=
  if_neg (Bool.eq_false_iff.1 h)

/-- Settles O21: outside the window of an active snoop the write goes through the translator, which stores at the place it
resolves and nowhere else. -/
theorem cartWriteStoresThroughTheTranslator : Obligations.CartWriteStoresThroughTheTranslator := by
  intro s addr v hf hout
  have hsnoop : snooped (s.setOut []) addr = false :=
    Bool.eq_false_iff.2 fun htaken => hout ((snooped_iff s addr hf).1 htaken)
  obtain ⟨arr, hwrite, hstores⟩ := writeThrough_spec (s.setOut []) addr v false
  rw [exec_busCartwrite_running addr v hf, cartWrite_unsnooped v hsnoop, hwrite]
  exact ⟨_, rfl, rfl, hstores⟩

/-! ## The bank of an access (R45 to R47) -/

/-- RAM space is CPU bank 1 with FLASH_EN clear (R45). -/
theorem spaceOf_ram_iff (r : Regs) (cb : BitVec 4) : spaceOf r cb = .ram ↔ cb = 1 ∧ r.flashEn.getLsbD 0 = false := by
  unfold spaceOf
  split
  case isTrue hram => exact iff_of_true rfl hram
  case isFalse hrom => exact iff_of_false nofun hrom

theorem lockSet_iff (r : Regs) (lk : Option (Fin 16)) :
    lockSet r lk = true ↔ ∃ k, lk = some k ∧ r.segMask.getLsbD k = true := by
  cases lk with
  | none => exact iff_of_false nofun nofun
  | some k => exact ⟨fun h => ⟨k, rfl, h⟩, fun | ⟨_, rfl, h⟩ => h⟩

/-- The bits of a bank number in a space (R47). -/
def Space.bankBits (sp : Space) : Nat := if sp = .ram then 4 else 9

/-- A half under the low `n` bits of another keeps of each of the two the low `n` bits. -/
theorem toNat_and_lowBits (x y : Half) {n : Nat} (hn : n ≤ 16) :
    (x &&& (y.extractLsb' 0 n).setWidth 16).toNat = x.toNat % 2 ^ n &&& y.toNat % 2 ^ n := by
  rw [BitVec.toNat_and, BitVec.toNat_setWidth_of_le hn, BitVec.extractLsb'_toNat, Nat.shiftRight_zero]
  refine Nat.eq_of_testBit_eq fun i => ?_
  simp only [Nat.testBit_and, Nat.testBit_mod_two_pow]
  cases decide (i < n) <;> simp

/-- The physical bank of a locked segment: the low bits of the raw bank under those of SEG_MASK (R47). -/
theorem physBank_of_locked {b : Board} {r : Regs} {cb : BitVec 4} (h : lockSet r (lockOf b cb) = true) :
    physBank b r cb =
      (rawBank r cb).toNat % 2 ^ (spaceOf r cb).bankBits &&& r.segMask.toNat % 2 ^ (spaceOf r cb).bankBits := by
  unfold physBank
  cases spaceOf r cb with
  | ram => simp only [h, if_true]; exact toNat_and_lowBits _ _ (by decide)
  | rom => simp only [h, if_true]; exact toNat_and_lowBits _ _ (by decide)

/-- The physical bank of a segment that is not locked: the low bits of the raw bank (R47). -/
theorem physBank_of_unlocked {b : Board} {r : Regs} {cb : BitVec 4} (h : lockSet r (lockOf b cb) = false) :
    physBank b r cb = (rawBank r cb).toNat % 2 ^ (spaceOf r cb).bankBits := by
  unfold physBank
  cases spaceOf r cb with
  | ram => rw [h]; exact Nat.and_two_pow_sub_one_eq_mod _ 4
  | rom => rw [h]; exact Nat.and_two_pow_sub_one_eq_mod _ 9

/-- In the raw bank of a linear window BANK_LINEAR stands four bits up (R46). -/
theorem shiftedLinear_eq_append (l : Byte) : l.setWidth 16 <<< 4 = (0#4 ++ l) ++ 0#4 := by
  have hhigh : (l.setWidth 16).extractLsb' 0 12 = 0#4 ++ l := by
    rw [← BitVec.setWidth_eq_extractLsb' (by decide), BitVec.setWidth_setWidth_of_le _ (by decide)]
    exact BitVec.setWidth_eq_append (by decide)
  rw [BitVec.shiftLeft_eq_concat_of_lt (by decide), ← hhigh]
  rfl

theorem widenedCpuBank_eq_append (cb : BitVec 4) : cb.setWidth 16 = 0#12 ++ cb :=
  BitVec.setWidth_eq_append (by decide)

/-- The raw bank and the lock bit of an access, by its CPU bank (R45, R46). -/
theorem rawBank_lockOf (b : Board) (r : Regs) (cb : BitVec 4) :
    (rawBank r cb, lockOf b cb) =
      if cb = 1 then (r.bankRam, b.lockRam) else if cb = 2 then (r.bankRom0, b.lockRom0)
      else if cb = 3 then (r.bankRom1, b.lockRom1)
      else (((0#4 ++ r.bankLinear) ++ 0#4) ||| (0#12 ++ cb), b.lockLinear) := by
  unfold rawBank lockOf
  rw [shiftedLinear_eq_append, widenedCpuBank_eq_append]
  split_ifs <;> rfl

/-- The low nine bits of `x` before a CPU bank are the low five bits of `x` before it: neither part overlaps the other. -/
theorem shifted_or_cpuBank_mod (x : BitVec 12) (cb : BitVec 4) :
    (x ++ 0#4 ||| 0#12 ++ cb).toNat % 2 ^ 9 = (x.extractLsb' 0 5 ++ cb).toNat := by
  have hlow : (x ++ cb).setWidth (5 + 4) = x.extractLsb' 0 5 ++ cb := by
    rw [BitVec.setWidth_append_of_eq rfl, BitVec.setWidth_eq, BitVec.setWidth_eq_extractLsb' (by decide)]
  rw [BitVec.or_append, BitVec.or_zero, BitVec.zero_or, ← hlow, BitVec.toNat_setWidth]

/-- The physical bank of an unlocked linear window: BANK_LINEAR selects 16 banks, the CPU bank one of them (R46, R47). -/
theorem physBank_linear {b : Board} {r : Regs} {cb : BitVec 4} (h1 : cb ≠ 1) (h2 : cb ≠ 2) (h3 : cb ≠ 3)
    (h : lockSet r b.lockLinear = false) : physBank b r cb = (r.bankLinear.extractLsb' 0 5 ++ cb).toNat := by
  have hsel := rawBank_lockOf b r cb
  rw [if_neg h1, if_neg h2, if_neg h3] at hsel
  obtain ⟨hraw, hlock⟩ := Prod.mk.inj hsel
  have hrom : (spaceOf r cb).bankBits = 9 := if_neg fun hram => h1 ((spaceOf_ram_iff r cb).1 hram).1
  have hfive : (0#4 ++ r.bankLinear).extractLsb' 0 5 = r.bankLinear.extractLsb' 0 5 :=
    BitVec.extractLsb'_append_eq_of_add_le (by decide)
  rw [physBank_of_unlocked (hlock ▸ h), hrom, hraw, ← hfive]
  exact shifted_or_cpuBank_mod (0#4 ++ r.bankLinear) cb

/-- Settles O23: the raw bank and the lock bit are the model's, and the physical bank is what R47 leaves of the raw bank. -/
theorem translatorSelectsTheBank : Obligations.TranslatorSelectsTheBank := by
  intro b r cb
  refine ⟨spaceOf_ram_iff r cb, fun raw lk hsel => ?bank, fun h1 h2 h3 hclear => ?linear⟩
  case bank =>
    obtain ⟨rfl, rfl⟩ := Prod.mk.inj (hsel.trans (rawBank_lockOf b r cb).symm)
    simp only [← lockSet_iff]
    exact ⟨physBank_of_locked, fun h => physBank_of_unlocked (Bool.eq_false_iff.2 h)⟩
  case linear =>
    refine physBank_linear h1 h2 h3 (Bool.eq_false_iff.2 fun hset => ?_)
    obtain ⟨k, hk, hbit⟩ := (lockSet_iff ..).1 hset
    exact Bool.false_ne_true ((hclear k hk).symm.trans hbit)

/-! ## The first fetch (R50, R199) -/

/-- After a reset the top CPU bank is the last physical bank of ROM space (R40, R46). -/
theorem physBank_reset_top (b : Board) : physBank b Regs.reset 0xF = 0x1FF :=
  physBank_linear (by decide) (by decide) (by decide) (lockSet_reset _)

/-- After a reset the first fetch resolves to the boot alias, 16 bytes before its end, unless bank 0x1FF is the IPC or the TX
segment: PSRAM never reaches that bank (R12, R49). -/
theorem resolve_reset_firstFetch {b : Board} (hb : b.wf = true) (hipc : b.ipcBankRom.map Fin.val ≠ some 0x1FF)
    (htx : b.txBankRom.map Fin.val ≠ some 0x1FF) :
    resolve b Regs.reset 0xFFFF0 false false = some (.boot 0x1F0) := by
  have hpsram : ¬ 0x1FF < b.psramBanks := Nat.not_lt.2 (Board.wf_psramBanks hb).2
  rw [translatorPriorityOrder, show (0xFFFF0 : BitVec 20).extractLsb' 16 4 = 0xF from rfl, physBank_reset_top,
    if_neg (by decide), if_neg hpsram, if_neg hipc, if_neg htx, if_pos rfl]
  rfl

/-- Byte 496 of the boot alias is 16 bytes before the end of the ROM image, where the image has that byte (R50). -/
theorem boot_cell_firstFetch (b : Board) :
    (Loc.boot 0x1F0).cell b = if 16 ≤ b.romSize then some (.rom, b.romSize - 16) else none := by
  by_cases hrom : 16 ≤ b.romSize
  · rw [if_pos hrom, Loc.cell, if_pos (by omega), show b.romSize + 0x1F0 - 512 = b.romSize - 16 by omega]
  · rw [if_neg hrom, Loc.cell, if_neg (by omega)]

/-- Settles O26: no snoop is active after a reset, the translator gives the boot alias, and nothing is written to the ROM
image. -/
theorem firstFetchReadsTheBootAlias : Obligations.FirstFetchReadsTheBootAlias := by
  intro b hb hipc htx
  have hsnoop : snooped (State.resetOn b) 0xFFFF0 = false := by
    rw [snooped, show snoopActive (State.resetOn b).board (State.resetOn b).regs = false from snoopActive_reset b,
      Bool.false_and]
  have hresolve : resolve (State.resetOn b).board (State.resetOn b).regs 0xFFFF0 false false = some (.boot 0x1F0) :=
    resolve_reset_firstFetch hb hipc htx
  have hplace : (State.resetOn b).placeOf 0xFFFF0 false false =
      if 16 ≤ b.romSize then some (.rom, b.romSize - 16) else none := by
    rw [State.placeOf, hresolve, Option.bind_some]
    exact boot_cell_firstFetch b
  rw [exec_busCartread_running _ rfl, cartByte_unsnooped hsnoop, readThrough_eq, State.byteThrough, hplace]
  split_ifs <;> rfl

end Sys2Proof.Machine
end

section
/-! SUPPORT. The proofs of the statements about the encoder and the decoder, with the lemmas they rest on: what the decoder of
each format reads from the frames of its rows, and that it reads nothing else. -/

namespace Sys2Proof

/-! ## Reading the frames of each format (R62, R63, R65, R67, R71, R74, R76) -/

/-- The last byte of an address field holds four bits (R62). -/
theorem whereHigh_lt (a : BitVec 20) : (0#4 ++ a.extractLsb' 16 4).toNat < 16 := by
  have small : ∀ x : BitVec 4, (0#4 ++ x).toNat < 16 := by decide
  exact small _

/-- A record of an access to cartridge space is read by its kind, with the address it was sent with (R62). -/
theorem decodeBus_where (kind : Byte) (a : BitVec 20) (v : Byte) (hlo : ¬ kind.toNat < 2) (hhi : kind.toNat < 6) :
    decodeBus (kind :: (whereBytes a ++ [v])) =
      if kind = 3 then .ok (.busCartwrite a v)
      else if kind = 5 then .ok (.busProbewrite a v)
      else if v ≠ 0 then .error .valueNotUsed
      else if kind = 2 then .ok (.busCartread a)
      else .ok (.busProberead a) := by
  have hkind : ¬ 8 ≤ kind.toNat := by omega
  have hwhere : ¬ 16 ≤ (0#4 ++ a.extractLsb' 16 4).toNat := Nat.not_le.2 (whereHigh_lt a)
  simp only [whereBytes, List.cons_append, List.nil_append, decodeBus, hkind, hlo, hhi, hwhere, busWhere_bytes, if_true,
    if_false]

/-- The row an SPI control word is, by its BUSY and MODE fields (R63). -/
def spiInstr (f : SpiFields) : Instr :=
  if f.busy = 0 then .spiCtrl f.bufidx f.dev f.clk390 f.mode f.len
  else if f.mode = 0 then .spiWrite f.bufidx f.dev f.clk390 f.len
  else if f.mode = 1 then .spiRead f.bufidx f.dev f.clk390 f.len
  else if f.mode = 2 then .spiExch f.bufidx f.dev f.clk390 f.len
  else .spiWaitread f.bufidx f.dev f.clk390 f.len

/-- Every control word is read as a row (R63, R77). -/
theorem decodeSpi_word (lo hi : Byte) : decodeSpi [lo, hi] = .ok (spiInstr (spiFields (le16 lo hi))) := by
  simp only [decodeSpi, spiInstr]
  split_ifs <;> rfl

/-- The control word of fields is read as the row of those fields (R63). -/
theorem decodeSpi_spiWord (f : SpiFields) : decodeSpi (le16Bytes (spiWord f)) = .ok (spiInstr f) := by
  rw [le16Bytes, decodeSpi_word, le16_le16Bytes, spiFields_spiWord]

/-- The row of a control word's fields is encoded as that word (R63). -/
theorem encode_spiInstr (b : Board) (f : SpiFields) : encode b (spiInstr f) = ⟨.spicnt, le16Bytes (spiWord f)⟩ := by
  obtain ⟨busy, bufidx, dev, clk390, mode, len⟩ := f
  have hbusy : busy ≠ 0 → busy = 1 := by revert busy; decide
  have hmode : mode ≠ 0 → mode ≠ 1 → mode ≠ 2 → mode = 3 := by revert mode; decide
  unfold spiInstr
  simp only
  split_ifs with h h0 h1 h2
  · rw [h]; rfl
  · rw [hbusy h, h0]; rfl
  · rw [hbusy h, h1]; rfl
  · rw [hbusy h, h2]; rfl
  · rw [hbusy h, hmode h0 h1 h2]; rfl

/-- A control word is well formed whatever its fields, and means the same in every state of the FSM. -/
theorem spiInstr_wf (b : Board) (fast : Bool) (f : SpiFields) :
    (spiInstr f).wf b = true ∧ (spiInstr f).fitsFast fast = true := by
  unfold spiInstr
  split_ifs <;> exact ⟨rfl, rfl⟩

/-- A flash frame of one opcode byte (R65, R66). -/
theorem decodeFlash_code (op : FlashOp) : decodeFlash [flashCode op] = decodeFlash1 op := by
  simp only [decodeFlash, flashOpOf_flashCode]

/-- A flash frame with an address (R65). -/
theorem decodeFlash_frame4 (op : FlashOp) (a : BitVec 24) (data : List Byte) :
    decodeFlash (flashFrame4 op a ++ data) = decodeFlash4 op a data := by
  simp only [flashFrame4, be24Bytes, List.cons_append, List.nil_append, decodeFlash, flashOpOf_flashCode, be24_be24Bytes]

/-- A card frame (R67, R68). -/
theorem decodeCard_frame (idx : BitVec 6) (f : CardArgs) (data : List Byte) :
    decodeCard (cardFrame idx f ++ data) = decodeCardOp (cardOpOf idx) idx f data := by
  simp only [cardFrame, be32Bytes, List.cons_append, List.nil_append, decodeCard, cardCommandByte_bit7,
    cardCommandByte_bit6, cardCommandByte_idx, be32_be32Bytes, Bool.false_eq_true, if_false]

/-- A card frame of a command of R70. -/
theorem decodeCard_op (op : CardOp) (f : CardArgs) (data : List Byte) :
    decodeCard (cardFrame (cardIndex op) f ++ data) = decodeCardOp (some op) (cardIndex op) f data := by
  rw [decodeCard_frame, cardOpOf_cardIndex]

/-- An MCU frame whose opcode is a command of the board (R71, R73). -/
theorem decodeMcu_op {b : Board} (hb : b.wf = true) {c : McuOp} {arg : BitVec 9} {ext : List Byte}
    (hlen : ext.length = mcuExtra c arg) :
    decodeMcu b (mcuFrame (mcuCode b c) arg ++ ext) = decodeMcuOp c arg ext := by
  simp only [mcuFrame, le16Bytes, List.cons_append, List.nil_append, decodeMcu, le16_le16Bytes, mcuWord_op, mcuWord_arg,
    mcuOpOf_mcuCode hb, hlen, if_true]

/-- An MCU command word whose opcode is none of the six (R73, R160). -/
theorem decodeMcu_unknown {b : Board} {op : BitVec 7} (h : mcuOpOf b op = none) (arg : BitVec 9) :
    decodeMcu b (mcuFrame op arg) = .ok (.mcUnknown op arg) := by
  simp only [mcuFrame, le16Bytes, decodeMcu, le16_le16Bytes, mcuWord_op, mcuWord_arg, h, if_true]

/-- A bootloader command, its right parity byte sent (R74, R75). -/
theorem decodeBoot_op (c : BootOp) (rest : List Byte) :
    decodeBoot (bootFrame (bootCode c) ++ rest) = decodeBootOp c rest := by
  simp only [bootFrame, List.cons_append, List.nil_append, decodeBoot, bootOpOf_bootCode, ne_eq, not_true_eq_false,
    if_false]

/-! ## Encoding, then decoding -/

/-- Bus records (R62). -/
theorem decode_encode_bus {b : Board} {fast : Bool} {i : Instr} (h : (encode b i).fmt = .bus) :
    decode b fast (encode b i) = .ok i := by
  cases i
  case busRegread off => exact (congrArg (fun w => decodeBus (0 :: (w ++ [0]))) (whereBytes_offset off)).trans rfl
  case busRegwrite off v => exact (congrArg (fun w => decodeBus (1 :: (w ++ [v]))) (whereBytes_offset off)).trans rfl
  case busCartread a => exact decodeBus_where 2 a 0 (by decide) (by decide)
  case busCartwrite a v => exact decodeBus_where 3 a v (by decide) (by decide)
  case busProberead a => exact decodeBus_where 4 a 0 (by decide) (by decide)
  case busProbewrite a v => exact decodeBus_where 5 a v (by decide) (by decide)
  case busColdreset | busWarmreset => rfl
  all_goals cases h

/-- SPI control words (R63). -/
theorem decode_encode_spicnt {b : Board} {fast : Bool} {i : Instr} (h : (encode b i).fmt = .spicnt) :
    decode b fast (encode b i) = .ok i := by
  cases i
  case spiCtrl bufidx dev clk390 mode len => exact decodeSpi_spiWord ⟨0, bufidx, dev, clk390, mode, len⟩
  case spiWrite bufidx dev clk390 len => exact decodeSpi_spiWord ⟨1, bufidx, dev, clk390, 0, len⟩
  case spiRead bufidx dev clk390 len => exact decodeSpi_spiWord ⟨1, bufidx, dev, clk390, 1, len⟩
  case spiExch bufidx dev clk390 len => exact decodeSpi_spiWord ⟨1, bufidx, dev, clk390, 2, len⟩
  case spiWaitread bufidx dev clk390 len => exact decodeSpi_spiWord ⟨1, bufidx, dev, clk390, 3, len⟩
  all_goals cases h

/-- Flash frames (R65, R66). -/
theorem decode_encode_flash {b : Board} {fast : Bool} {i : Instr} (hw : i.wf b = true) (h : (encode b i).fmt = .flash) :
    decode b fast (encode b i) = .ok i := by
  cases i
  case flRead a data => exact decodeFlash_frame4 .read a data
  case flProgram a data => exact decodeFlash_frame4 .program a data
  case flErase4k a => exact decodeFlash_frame4 .erase4k a []
  case flErase32k a => exact decodeFlash_frame4 .erase32k a []
  case flErase64k a => exact decodeFlash_frame4 .erase64k a []
  case flRdsr1 => exact decodeFlash_code .rdsr1
  case flRdsr2 => exact decodeFlash_code .rdsr2
  case flRdsr3 => exact decodeFlash_code .rdsr3
  case flMfrid => exact decodeFlash_code .mfrid
  case flJedecid => exact decodeFlash_code .jedecid
  case flUuid => exact decodeFlash_code .uuid
  case flWake => exact decodeFlash_code .wake
  case flSleep => exact decodeFlash_code .sleep
  case flWren => exact decodeFlash_code .wren
  case flWrdi => exact decodeFlash_code .wrdi
  case flUnknown op =>
    have hop : flashOpOf op = none := Option.isNone_iff_eq_none.1 hw
    simp only [encode, decode, decodeFlash, hop]
  all_goals cases h

/-- Card frames (R67, R68, R70). -/
theorem decode_encode_card {b : Board} {fast : Bool} {i : Instr} (hw : i.wf b = true) (h : (encode b i).fmt = .card) :
    decode b fast (encode b i) = .ok i := by
  cases i
  case cdReset f => exact decodeCard_op .reset f []
  case cdInit1 f => exact decodeCard_op .init1 f []
  case cdInit41 f => exact decodeCard_op .init41 f []
  case cdIfcond f => exact decodeCard_op .ifcond f []
  case cdStop f => exact decodeCard_op .stop f []
  case cdSetblklen f => exact decodeCard_op .setblklen f []
  case cdRead1 f => exact decodeCard_op .read1 f []
  case cdReadn f => exact decodeCard_op .readn f []
  case cdWrite1 f data => exact decodeCard_op .write1 f data
  case cdWriten f data => exact decodeCard_op .writen f data
  case cdIllegal idx f =>
    have hop : cardOpOf idx = none := Option.isNone_iff_eq_none.1 hw
    exact (decodeCard_frame idx f []).trans (by rw [hop]; rfl)
  all_goals cases h

/-- MCU normal-mode frames (R71, R73). -/
theorem decode_encode_mcu {b : Board} {fast : Bool} {i : Instr} (hb : b.wf = true) (hw : i.wf b = true)
    (h : (encode b i).fmt = .mcu) : decode b fast (encode b i) = .ok i := by
  cases i
  case mcEcho arg bytes => exact decodeMcu_op (c := .echo) hb (eq_of_beq hw)
  case mcEemodeset arg => exact decodeMcu_op (c := .eemodeset) (arg := arg) (ext := []) hb rfl
  case mcEemodeget arg => exact decodeMcu_op (c := .eemodeget) (arg := arg) (ext := []) hb rfl
  case mcEeread arg addr =>
    exact (decodeMcu_op (c := .eeread) (arg := arg) (ext := le16Bytes addr) hb rfl).trans
      (by rw [le16Bytes, decodeMcuOp, le16_le16Bytes])
  case mcUsbread arg => exact decodeMcu_op (c := .usbread) (arg := arg) (ext := []) hb rfl
  case mcUsbwrite arg bytes => exact decodeMcu_op (c := .usbwrite) hb (eq_of_beq hw)
  case mcUnknown op arg => exact decodeMcu_unknown (Option.isNone_iff_eq_none.1 hw) arg
  all_goals cases h

/-- Bootloader frames (R74, R75). -/
theorem decode_encode_boot {b : Board} {fast : Bool} {i : Instr} (hw : i.wf b = true) (h : (encode b i).fmt = .boot) :
    decode b fast (encode b i) = .ok i := by
  cases i
  case blSync | blAckbyte => rfl
  case blErase dest indices =>
    have hcount : indices.length < 65536 := of_decide_eq_true hw
    have hlen : (BitVec.ofNat 16 indices.length).toNat = indices.length := Nat.mod_eq_of_lt hcount
    change decodeBoot (bootFrame (bootCode .erase) ++ be32Bytes dest ++ be16Bytes (BitVec.ofNat 16 indices.length)
      ++ indexBytes indices) = _
    rw [List.append_assoc, List.append_assoc, decodeBoot_op]
    simp only [be32Bytes, be16Bytes, List.cons_append, List.nil_append, decodeBootOp, be16_be16Bytes, be32_be32Bytes,
      indexBytes_length, indexWords_indexBytes, hlen, if_true]
  case blWrite dest data =>
    have hcount : data.length < 256 := of_decide_eq_true hw
    have hlen : (BitVec.ofNat 8 data.length).toNat = data.length := Nat.mod_eq_of_lt hcount
    change decodeBoot (bootFrame (bootCode .write) ++ be32Bytes dest ++ [BitVec.ofNat 8 data.length] ++ data) = _
    rw [List.append_assoc, List.append_assoc, decodeBoot_op]
    simp only [be32Bytes, List.cons_append, List.nil_append, decodeBootOp, be32_be32Bytes, hlen, if_true]
  case blGo dest =>
    exact (decodeBoot_op .go (be32Bytes dest)).trans (by simp only [be32Bytes, decodeBootOp, be32_be32Bytes])
  case blNack op =>
    have hop : bootOpOf op = none := Option.isNone_iff_eq_none.1 hw
    simp only [encode, decode, bootFrame, decodeBoot, hop, ne_eq, not_true_eq_false, if_true, if_false]
  case blParity op par =>
    have hpar : par ≠ bootParity op := bne_iff_ne.1 hw
    simp only [encode, decode, decodeBoot, hpar, ne_eq, not_true_eq_false, not_false_eq_true, if_true, if_false]
  all_goals cases h

/-- Legacy frames, read in the state of the FSM they fit (R76). -/
theorem decode_encode_legacy {b : Board} {fast : Bool} {i : Instr} (hf : i.fitsFast fast = true)
    (h : (encode b i).fmt = .legacy) : decode b fast (encode b i) = .ok i := by
  cases i
  case lfUnlock1 o => exact congrArg (fun x => Except.ok (Instr.lfUnlock1 x)) (le16_le16Bytes o)
  case lfUnlock2 o => exact congrArg (fun x => Except.ok (Instr.lfUnlock2 x)) (le16_le16Bytes o)
  case lfFast o => exact congrArg (fun x => Except.ok (Instr.lfFast x)) (le16_le16Bytes o)
  case lfFastexit o => exact congrArg (fun x => Except.ok (Instr.lfFastexit x)) (le16_le16Bytes o)
  case lfErase o b5 =>
    rcases BitVec.eq_zero_or_eq_one b5 with rfl | rfl
    · exact congrArg (fun x => Except.ok (Instr.lfErase x 0)) (le16_le16Bytes o)
    · exact congrArg (fun x => Except.ok (Instr.lfErase x 1)) (le16_le16Bytes o)
  case lfWrite o x =>
    obtain rfl : fast = false := by cases fast; exacts [rfl, hf.symm]
    exact congrArg (fun y => Except.ok (Instr.lfWrite y x)) (le16_le16Bytes o)
  case lfFastwrite o x =>
    obtain rfl : fast = true := hf
    exact congrArg (fun y => Except.ok (Instr.lfFastwrite y x)) (le16_le16Bytes o)
  all_goals cases h

/-- Settles O1: each row is read from its frame by the decoder of its format. -/
theorem everyEncodingDecodesBack : Obligations.EveryEncodingDecodesBack := by
  intro b fast i hb hw hf
  cases hfmt : (encode b i).fmt with
  | bus => exact decode_encode_bus hfmt
  | spicnt => exact decode_encode_spicnt hfmt
  | flash => exact decode_encode_flash hw hfmt
  | card => exact decode_encode_card hw hfmt
  | mcu => exact decode_encode_mcu hb hw hfmt
  | boot => exact decode_encode_boot hw hfmt
  | legacy => exact decode_encode_legacy hf hfmt

/-! ## Decoding, then encoding -/

/-- A frame is the one of a well-formed row that means what it says in the given state of the FSM. -/
def IsFrameOf (b : Board) (fast : Bool) (f : Frame) (i : Instr) : Prop :=
  i.wf b = true ∧ i.fitsFast fast = true ∧ encode b i = f

/-- The records of the register accesses (R62). -/
theorem busFrame_offset (kind off v : Byte) : busFrame kind (0#12 ++ off) v = ⟨.bus, [kind, off, 0, 0, v]⟩ := by
  rw [busFrame, whereBytes_offset]; rfl

/-- The records of the accesses to cartridge space (R62). -/
theorem busFrame_where {w2 : Byte} (kind w0 w1 v : Byte) (h : ¬ 16 ≤ w2.toNat) :
    busFrame kind (busWhere w0 w1 w2) v = ⟨.bus, [kind, w0, w1, w2, v]⟩ := by
  rw [busFrame, whereBytes_busWhere w0 w1 w2 (Nat.lt_of_not_le h)]; rfl

/-- Nothing but the bus records of R62 is read as one. -/
theorem isFrameOf_of_decodeBus {b : Board} {fast : Bool} {bytes : List Byte} {i : Instr} (h : decodeBus bytes = .ok i) :
    IsFrameOf b fast ⟨.bus, bytes⟩ i := by
  unfold decodeBus at h
  split at h
  case h_2 => cases h
  case h_1 kind w0 w1 w2 v =>
    split_ifs at h with hrange hreg hwhere hwrite hvalue hcart hwhere hcartwrite hprobewrite hvalue hcartread hwhere hvalue
      hcold
    · cases h
      obtain ⟨rfl, rfl⟩ : w1 = 0 ∧ w2 = 0 := by tauto
      exact ⟨rfl, rfl, hwrite ▸ busFrame_offset 1 w0 v⟩
    · cases h
      obtain ⟨rfl, rfl, rfl⟩ : w1 = 0 ∧ w2 = 0 ∧ v = 0 := by tauto
      obtain rfl : kind = 0 := by bv_omega
      exact ⟨rfl, rfl, busFrame_offset 0 w0 0⟩
    · cases h
      exact ⟨rfl, rfl, hcartwrite ▸ busFrame_where 3 w0 w1 v hwhere⟩
    · cases h
      exact ⟨rfl, rfl, hprobewrite ▸ busFrame_where 5 w0 w1 v hwhere⟩
    · cases h
      obtain rfl : v = 0 := not_not.1 hvalue
      exact ⟨rfl, rfl, hcartread ▸ busFrame_where 2 w0 w1 0 hwhere⟩
    · cases h
      obtain rfl : v = 0 := not_not.1 hvalue
      obtain rfl : kind = 4 := by bv_omega
      exact ⟨rfl, rfl, busFrame_where 4 w0 w1 0 hwhere⟩
    · cases h
      obtain ⟨rfl, rfl, rfl, rfl⟩ : w0 = 0 ∧ w1 = 0 ∧ w2 = 0 ∧ v = 0 := by tauto
      exact ⟨rfl, rfl, hcold ▸ rfl⟩
    · cases h
      obtain ⟨rfl, rfl, rfl, rfl⟩ : w0 = 0 ∧ w1 = 0 ∧ w2 = 0 ∧ v = 0 := by tauto
      obtain rfl : kind = 7 := by bv_omega
      exact ⟨rfl, rfl, rfl⟩

/-- Nothing but the control words of R63 is read as one. -/
theorem isFrameOf_of_decodeSpi {b : Board} {fast : Bool} {bytes : List Byte} {i : Instr} (h : decodeSpi bytes = .ok i) :
    IsFrameOf b fast ⟨.spicnt, bytes⟩ i := by
  match bytes, h with
  | [lo, hi], h =>
    rw [decodeSpi_word] at h
    cases h
    obtain ⟨hw, hf⟩ := spiInstr_wf b fast (spiFields (le16 lo hi))
    exact ⟨hw, hf, by rw [encode_spiInstr, spiWord_spiFields, le16Bytes_le16]⟩

/-- Of the flash commands, a frame of one byte is none with an address (R65). -/
theorem isFrameOf_of_decodeFlash1 {b : Board} {fast : Bool} {op : FlashOp} {i : Instr} (h : decodeFlash1 op = .ok i) :
    IsFrameOf b fast ⟨.flash, [flashCode op]⟩ i := by
  cases op <;> cases h <;> exact ⟨rfl, rfl, rfl⟩

/-- A frame of four bytes is one with an address, and only FL.READ and FL.PROGRAM have a data phase (R65). -/
theorem isFrameOf_of_decodeFlash4 {b : Board} {fast : Bool} {op : FlashOp} {a : BitVec 24} {data : List Byte} {i : Instr}
    (h : decodeFlash4 op a data = .ok i) : IsFrameOf b fast ⟨.flash, flashFrame4 op a ++ data⟩ i := by
  unfold decodeFlash4 at h
  split at h <;> cases h <;> exact ⟨rfl, rfl, rfl⟩

/-- Nothing but the flash frames of R65 and R66 is read as one. -/
theorem isFrameOf_of_decodeFlash {b : Board} {fast : Bool} {bytes : List Byte} {i : Instr}
    (h : decodeFlash bytes = .ok i) : IsFrameOf b fast ⟨.flash, bytes⟩ i := by
  unfold decodeFlash at h
  split at h
  case h_1 => cases h
  case h_2 c rest =>
    split at h
    case h_1 hop =>
      cases h
      exact ⟨Option.isNone_iff_eq_none.2 hop, rfl, rfl⟩
    case h_2 op hop => exact flashCode_of_flashOpOf hop ▸ isFrameOf_of_decodeFlash1 h
    case h_3 op a2 a1 a0 data hop =>
      have hframe := isFrameOf_of_decodeFlash4 (b := b) (fast := fast) h
      rwa [flashFrame4, be24Bytes_be24, flashCode_of_flashOpOf hop] at hframe
    case h_4 => cases h

/-- A card frame is read as the command of its index, and only the writes have a data phase (R68, R70). -/
theorem isFrameOf_of_decodeCardOp {b : Board} {fast : Bool} {idx : BitVec 6} {f : CardArgs} {data : List Byte} {i : Instr}
    (h : decodeCardOp (cardOpOf idx) idx f data = .ok i) : IsFrameOf b fast ⟨.card, cardFrame idx f ++ data⟩ i := by
  cases hop : cardOpOf idx with
  | none =>
    rw [hop] at h
    cases data with
    | nil => cases h; exact ⟨Option.isNone_iff_eq_none.2 hop, rfl, rfl⟩
    | cons => cases h
  | some op =>
    rw [hop] at h
    obtain rfl := cardIndex_of_cardOpOf hop
    cases op
    case write1 | writen => cases h; exact ⟨rfl, rfl, rfl⟩
    all_goals
      cases data with
      | nil => cases h; exact ⟨rfl, rfl, rfl⟩
      | cons => cases h

/-- Nothing but the card frames of R67, R68 and R70 is read as one. -/
theorem isFrameOf_of_decodeCard {b : Board} {fast : Bool} {bytes : List Byte} {i : Instr} (h : decodeCard bytes = .ok i) :
    IsFrameOf b fast ⟨.card, bytes⟩ i := by
  unfold decodeCard at h
  split at h
  case h_2 => cases h
  case h_1 c0 a3 a2 a1 a0 crc data =>
    split at h
    case isTrue => cases h
    case isFalse hbit7 =>
      have hframe := isFrameOf_of_decodeCardOp (b := b) (fast := fast) h
      rwa [cardFrame, be32Bytes_be32, cardCommandByte_fields c0 (Bool.eq_false_iff.2 hbit7)] at hframe

/-- An MCU frame is read as its command with the bytes the command asks for (R71, R73). -/
theorem isFrameOf_of_decodeMcuOp {b : Board} {fast : Bool} {c : McuOp} {arg : BitVec 9} {ext : List Byte} {i : Instr}
    (hlen : ext.length = mcuExtra c arg) (h : decodeMcuOp c arg ext = .ok i) :
    IsFrameOf b fast ⟨.mcu, mcuFrame (mcuCode b c) arg ++ ext⟩ i := by
  cases c
  case echo | usbwrite => cases h; exact ⟨beq_iff_eq.2 hlen, rfl, rfl⟩
  case eeread =>
    match ext, h with
    | [a0, a1], h => cases h; exact ⟨rfl, rfl, by rw [encode, le16Bytes_le16]⟩
  all_goals
    obtain rfl := List.eq_nil_of_length_eq_zero hlen
    cases h
    exact ⟨rfl, rfl, rfl⟩

/-- Nothing but the MCU frames of R71 and R73 is read as one. -/
theorem isFrameOf_of_decodeMcu {b : Board} {fast : Bool} {bytes : List Byte} {i : Instr} (h : decodeMcu b bytes = .ok i) :
    IsFrameOf b fast ⟨.mcu, bytes⟩ i := by
  unfold decodeMcu at h
  split at h
  case h_2 => cases h
  case h_1 w0 w1 ext =>
    have hword : mcuFrame ((le16 w0 w1).extractLsb' 0 7) ((le16 w0 w1).extractLsb' 7 9) = [w0, w1] := by
      rw [mcuFrame, mcuWord_fields, le16Bytes_le16]
    cases hop : mcuOpOf b ((le16 w0 w1).extractLsb' 0 7) with
    | none =>
      simp only [hop] at h
      split_ifs at h with hext
      cases h
      exact ⟨Option.isNone_iff_eq_none.2 hop, rfl, by rw [encode, hword, hext]⟩
    | some c =>
      simp only [hop] at h
      split_ifs at h with hlen
      have hframe := isFrameOf_of_decodeMcuOp (b := b) (fast := fast) hlen h
      rwa [mcuCode_of_mcuOpOf hop, hword] at hframe

/-- The operands of a bootloader command are read back whole, their count among them (R74, R75). -/
theorem isFrameOf_of_decodeBootOp {b : Board} {fast : Bool} {c : BootOp} {bytes : List Byte} {i : Instr}
    (h : decodeBootOp c bytes = .ok i) : IsFrameOf b fast ⟨.boot, bootFrame (bootCode c) ++ bytes⟩ i := by
  unfold decodeBootOp at h
  split at h
  case h_1 d3 d2 d1 d0 => cases h; exact ⟨rfl, rfl, by rw [encode, be32Bytes_be32]⟩
  case h_2 d3 d2 d1 d0 n data =>
    split_ifs at h with hlen
    cases h
    have hcount : BitVec.ofNat 8 data.length = n := by rw [hlen, BitVec.ofNat_toNat, BitVec.setWidth_eq]
    exact ⟨decide_eq_true (hlen ▸ n.isLt), rfl, by rw [encode, be32Bytes_be32, hcount]; rfl⟩
  case h_3 d3 d2 d1 d0 c1 c0 idx =>
    split_ifs at h with hlen
    cases h
    obtain ⟨hbytes, hwords⟩ := indexBytes_indexWords _ _ hlen
    have hcount : BitVec.ofNat 16 (indexWords idx).length = be16 c1 c0 := by
      rw [hwords, BitVec.ofNat_toNat, BitVec.setWidth_eq]
    exact ⟨decide_eq_true (hwords ▸ (be16 c1 c0).isLt), rfl,
      by rw [encode, be32Bytes_be32, hcount, be16Bytes_be16, hbytes]; rfl⟩
  case h_4 => cases h

/-- Nothing but the bootloader frames of R74 and R75 is read as one. -/
theorem isFrameOf_of_decodeBoot {b : Board} {fast : Bool} {bytes : List Byte} {i : Instr} (h : decodeBoot bytes = .ok i) :
    IsFrameOf b fast ⟨.boot, bytes⟩ i := by
  unfold decodeBoot at h
  split at h
  case h_1 c =>
    split_ifs at h with hsync hack
    · cases h; exact ⟨rfl, rfl, hsync ▸ rfl⟩
    · cases h; exact ⟨rfl, rfl, hack ▸ rfl⟩
  case h_2 c op par rest =>
    split at h
    case isTrue => cases h
    case isFalse hstart =>
    obtain rfl : c = bootStart := not_not.1 hstart
    split at h
    case isTrue hpar =>
      split_ifs at h with hrest
      cases h
      exact ⟨bne_iff_ne.2 hpar, rfl, hrest ▸ rfl⟩
    case isFalse hpar =>
      obtain rfl : par = bootParity op := not_not.1 hpar
      cases hop : bootOpOf op with
      | none =>
        simp only [hop] at h
        split_ifs at h with hrest
        cases h
        exact ⟨Option.isNone_iff_eq_none.2 hop, rfl, hrest ▸ rfl⟩
      | some k =>
        simp only [hop] at h
        obtain rfl := bootCode_of_bootOpOf hop
        exact isFrameOf_of_decodeBootOp h
  case h_3 => cases h

/-- The legacy frame of an offset of the window, given by its two bytes (R76). -/
theorem legacyFrame_le16 (o0 o1 : Byte) (bytes : List Byte) :
    legacyFrame (le16 o0 o1) bytes = ⟨.legacy, o0 :: o1 :: bytes⟩ := by
  rw [legacyFrame, le16Bytes_le16]; rfl

/-- Nothing but the legacy frames of R76 is read as one, `A0 X` by the state of the FSM. -/
theorem isFrameOf_of_decodeLegacy {b : Board} {fast : Bool} {bytes : List Byte} {i : Instr}
    (h : decodeLegacy fast bytes = .ok i) : IsFrameOf b fast ⟨.legacy, bytes⟩ i := by
  unfold decodeLegacy at h
  split at h
  case h_1 o0 o1 v =>
    have hframe := legacyFrame_le16 o0 o1 [v]
    split_ifs at h with hv hv hv hv hv hv
    all_goals
      subst hv
      cases h
      exact ⟨rfl, rfl, hframe⟩
  case h_2 o0 o1 v x =>
    have hframe := legacyFrame_le16 o0 o1 [v, x]
    split at h
    case isTrue hv =>
      subst hv
      cases fast with
      | false => cases h; exact ⟨rfl, rfl, hframe⟩
      | true => cases h; exact ⟨rfl, rfl, hframe⟩
    case isFalse => cases h
  case h_3 => cases h

/-- Settles O2: the decoder of each format reads nothing but frames of that format. -/
theorem decodedFramesAreCanonical : Obligations.DecodedFramesAreCanonical := by
  rintro b fast ⟨fmt, bytes⟩ i h
  cases fmt with
  | bus => exact isFrameOf_of_decodeBus h
  | spicnt => exact isFrameOf_of_decodeSpi h
  | flash => exact isFrameOf_of_decodeFlash h
  | card => exact isFrameOf_of_decodeCard h
  | mcu => exact isFrameOf_of_decodeMcu h
  | boot => exact isFrameOf_of_decodeBoot h
  | legacy => exact isFrameOf_of_decodeLegacy h

/-! ## Frames written out -/

/-- Settles O3: the frames are closed but for the board, which none of these formats reads, so each is read by computing the
decoder. -/
theorem writtenOutFramesDecode : Obligations.WrittenOutFramesDecode :=
  fun _ => ⟨rfl, rfl, rfl, rfl, rfl, rfl, rfl, rfl, rfl, rfl⟩

end Sys2Proof
end

section
/-! SUPPORT. The proofs of the statements about writes of SPI_CNT and the transfers they start, with the lemmas they rest
on. -/

namespace Sys2Proof.Machine

/-! ## Writes that only store or are rejected (R94, R95, R97) -/

/-- While BUSY is 1 a write of either byte is rejected (R94). -/
theorem spiCntWrite_busy {s : State} (p : BytePort) (v : Byte) (h : s.regs.busy = true) :
    spiCntWrite p v s = .ok () (s.addLog .busyWriteConflict) := by
  unfold spiCntWrite
  rw [if_pos h]
  rfl

/-- A write of the low byte only stores it (R95). -/
theorem spiCntWrite_lo_idle {s : State} (v : Byte) (h : s.regs.busy = false) :
    spiCntWrite .lo v s = .ok () (s.setRegs { s.regs with spiCnt := withLo s.regs.spiCnt v }) := by
  rw [spiCntWrite, if_neg (Bool.eq_false_iff.1 h)]; rfl

/-- A write of the high byte is stored, then the engine runs (R96). -/
theorem spiCntWrite_hi_idle {s : State} (v : Byte) (h : s.regs.busy = false) :
    spiCntWrite .hi v s = runEngine s.regs.dev (s.setRegs { s.regs with spiCnt := withHi s.regs.spiCnt v }) := by
  rw [spiCntWrite, if_neg (Bool.eq_false_iff.1 h)]

/-- Whether a control word clocks the engine is bit 3 of its high byte or POW_CNT (R24, R97). -/
theorem clocked_append (b : Board) (r : Regs) (hi lo : Byte) :
    clocked b { r with spiCnt := hi ++ lo } = (hi.getLsbD 3 || r.powBit b.powClock) :=
  congrArg (· || r.powBit b.powClock) (getLsbD_append8 hi lo 11)

/-- A stored control word with which the engine is un-clocked starts nothing, BUSY included (R97). -/
theorem runEngine_unclocked {s : State} {hi : Byte} (old : BitVec 2) (lo : Byte) (hclk : hi.getLsbD 3 = false)
    (hpow : s.regs.powBit s.board.powClock = false) :
    runEngine old (s.setRegs { s.regs with spiCnt := hi ++ lo }) = .ok () (s.setRegs { s.regs with spiCnt := hi ++ lo }) := by
  have hclock : clocked s.board { s.regs with spiCnt := hi ++ lo } = false := by
    rw [clocked_append, hclk, hpow]; rfl
  rw [runEngine_eq]
  exact if_pos hclock

/-- A busy engine takes no frame of a peripheral (R94; log entry 4). -/
theorem canTransfer_busy {s : State} (h : s.regs.busy = true) : canTransfer s = false := by
  simp [canTransfer, h]

/-- An un-clocked engine takes no frame of a peripheral (R97; log entry 4). -/
theorem canTransfer_unclocked {s : State} (h : clocked s.board s.regs = false) : canTransfer s = false := by
  simp [canTransfer, h]

/-- Settles O11: each byte of a control word is a write of SPI_CNT, and the engine rejects both. -/
theorem busyEngineRejectsWrites : Obligations.BusyEngineRejectsWrites := by
  intro s hs hbusy
  refine ⟨fun off v p hport => ?byte, fun hlo hhi i hi => ?word, fun i hi => ?row⟩
  case byte =>
    have hwrite : portWrite (.spiCnt p) v (s.setOut []) = .ok () ((s.setOut []).addLog .busyWriteConflict) :=
      spiCntWrite_busy p v hbusy
    rw [exec_busRegwrite_port v hs hport, hwrite]
    rfl
  case word =>
    obtain ⟨lo, hi, he⟩ := encode_spicnt_bytes hi
    rw [exec_spi he, operate_running _ _ hs.noFault, spiWordWrite_busy (hi ++ lo) (s.setOut []) hs.board ⟨hlo, hhi⟩ hbusy,
      Res.state_ok]
    exact congrArg (fun l => Host.Outcome.next { s with log := l, out := [] }) (List.append_assoc s.log _ _)
  case row => exact exec_silent hi hs.noFault (canTransfer_busy hbusy)

/-- Settles O12: a low byte is stored, and so is what is written to an engine that neither the word nor POW_CNT clocks. -/
theorem lowByteAndUnclockedWritesOnlyStore : Obligations.LowByteAndUnclockedWritesOnlyStore := by
  intro s hs hidle
  refine ⟨fun off v hport => ?low, fun hpow => ⟨fun off v hport hclk => ?high, fun hlo hhi i lo hi he hclk => ?word,
    fun hclk i hi => ?row⟩⟩
  case low =>
    have hwrite := spiCntWrite_lo_idle (s := s.setOut []) v hidle
    rw [exec_busRegwrite_port v hs hport, portWrite, hwrite]
    rfl
  case high =>
    have hwrite := (spiCntWrite_hi_idle (s := s.setOut []) v hidle).trans
      (runEngine_unclocked _ (loByte s.regs.spiCnt) hclk hpow)
    rw [exec_busRegwrite_port v hs hport, portWrite, hwrite]
    rfl
  case word =>
    have hwrite := (spiWordWrite_idle (hi ++ lo) (s.setOut []) hs.board ⟨hlo, hhi⟩ hidle).trans
      (runEngine_unclocked _ lo hclk hpow)
    rw [exec_spi he, operate_running _ _ hs.noFault, hwrite]
    rfl
  case row =>
    have hclock : clocked s.board s.regs = false := Bool.or_eq_false_iff.2 ⟨hclk, hpow⟩
    exact exec_silent hi hs.noFault (canTransfer_unclocked hclock)

/-! ## Control words on a ready engine (R63, R96) -/

/-- An SPICNT row on a ready engine stores its control word; with BUSY = 1 a transfer runs (R63, R96). -/
theorem exec_spi_ready {s : State} {i : Instr} {f : SpiFields} (hs : EngineReady s f.clk390)
    (he : encode s.board i = ⟨.spicnt, le16Bytes (spiWord f)⟩) :
    exec i s = .next (if f.busy = 1 then transfer (s.transferStart (spiWord f) f.dev)
      else .ok () (s.transferStart (spiWord f) f.dev)).state := by
  have hword : (spiWord f).extractLsb' 8 8 ++ (spiWord f).extractLsb' 0 8 = spiWord f := split8 _
  rw [exec_spi he, hword, operate_running _ _ hs.noFault, spiWordWrite_ready s f hs]

/-- Settles O13: SPI.CTRL is the control word with BUSY = 0, stored by a ready engine. -/
theorem controlWordSelectsTheDevice : Obligations.ControlWordSelectsTheDevice := by
  intro s bufidx dev clk390 mode len hs
  exact exec_spi_ready (f := ⟨0, bufidx, dev, clk390, mode, len⟩) hs rfl

/-! ## Transfers (R64, R99, R100) -/

/-- A transfer is about to run with a peripheral: what its control word says (R24, R63), nothing returned yet. -/
structure Transferring (s : State) (d : Periph) (mode : BitVec 2) (h : BitVec 1) (len : BitVec 9) : Prop where
  dev : s.regs.dev = periphDev d
  mode : s.regs.mode = mode
  bufidx : s.regs.bufidx = h
  len : s.regs.len = len
  out : s.out = []

/-- A control word stored in a ready engine says what its fields say (R63, R96). -/
theorem transferStart_transferring (s : State) (d : Periph) (mode : BitVec 2) (h clk390 : BitVec 1) (len : BitVec 9) :
    Transferring (s.transferStart (spiWord ⟨1, h, periphDev d, clk390, mode, len⟩) (periphDev d)) d mode h len := by
  obtain ⟨-, hbuf, hdev, -, hmode, hlen⟩ := spiWord_fields
    (s.transferStart (spiWord ⟨1, h, periphDev d, clk390, mode, len⟩) (periphDev d)).regs
    ⟨1, h, periphDev d, clk390, mode, len⟩ rfl
  exact ⟨hdev, hmode, hbuf, hlen, rfl⟩

/-- The bytes sent in the modes 0 to 2: 0xFF in the read mode, the TX half in the others (R64). -/
theorem transferTx_eq {mode : BitVec 2} (hmode : mode ≠ 3) (h : BitVec 1) (k : Nat) (s : State) :
    transferTx mode h k s = if mode = 1 then 0xFF else s.readCell .tx (512 * h.toNat + k) := by
  have hwrites : (mode = 0 ∨ mode = 2) ↔ ¬ mode = 1 := by revert mode; decide
  simp only [transferTx, bufOffset, hwrites, ite_not]

/-- A state that differs from given surroundings in what is returned alone, put back into them with another RX buffer. -/
theorem withOutside_rx {t : State} {ex : Outside} (m : Memory) (h : t.outside = { ex with out := t.out }) :
    t.withOutside { ex with rx := m } = { t with arrays := { t.arrays with rx := m }, out := ex.out } := by
  have hex : ex = { t.outside with out := ex.out } := by rw [h]
  rw [hex]
  rfl

/-- What stands in the RX buffer after a frame: what it held before, or the received bytes (R64). -/
theorem keptRx_arrays {s t : State} (mode : BitVec 2) (lo : Nat) (o : List Byte) (h : t.arrays.rx = s.arrays.rx) :
    ({ t.arrays with rx := keptRx mode s.arrays.rx lo o } : Arrays) =
      if mode = 0 then t.arrays else { t.arrays with rx := t.arrays.rx.write lo o } := by
  unfold keptRx
  rw [← h]
  split <;> rfl

/-- The state a transfer in the modes 0 to 2 leaves its received bytes in, before BUSY is cleared. -/
def receivedIn (mode : BitVec 2) (h : BitVec 1) (t : State) : State :=
  { t with
    arrays := if mode = 0 then t.arrays else { t.arrays with rx := t.arrays.rx.write (512 * h.toNat) t.out }
    out := [] }

/-- A transfer in the modes 0 to 2 exchanges the bytes of its mode as one frame, keeps what comes back, and ends by clearing
BUSY (R64, R100, R102). -/
theorem transfer_eq_feed {s : State} {d : Periph} {mode : BitVec 2} {h : BitVec 1} {len : BitVec 9}
    (ht : Transferring s d mode h len) (hmode : mode ≠ 3) (hrx : s.arrays.rx.wf = true) :
    transfer s =
      ((feed d ((List.range (len.toNat + 1)).map fun k => if mode = 1 then 0xFF else s.readCell .tx (512 * h.toNat + k))
        s).onState (receivedIn mode h)).bind fun _ t => done (finishTransfer t) := by
  obtain ⟨hdev, hm, hbuf, hlen, hout⟩ := ht
  have hloop := transferLoop_eq_feed d mode h (len.toNat + 1) 0 s hrx
  simp only [Nat.zero_add, transferTx_eq hmode, show s.setOut [] = s from hout ▸ rfl] at hloop
  simp only [transfer, hdev, hm, hbuf, hlen, if_neg hmode, hloop]
  generalize (List.range (len.toNat + 1)).map (fun k => if mode = 1 then (0xFF : Byte) else s.readCell .tx (512 * h.toNat + k))
    = sent
  have houtside := feed_outside d sent s
  have received (t : State) (hto : t.outside = { s.outside with out := t.out }) :
      t.withOutside { s.outside with rx := keptRx mode s.arrays.rx (bufOffset h 0) t.out } = receivedIn mode h t := by
    rw [withOutside_rx _ hto, keptRx_arrays mode _ _ (congrArg Outside.rx hto)]
    exact congrArg (fun o => { receivedIn mode h t with out := o }) hout
  cases hfeed : feed d sent s with
  | ok u t => rw [hfeed] at houtside; rw [Res.onState_ok, Res.onState_ok, received t houtside]
  | halt t => rw [hfeed] at houtside; rw [Res.onState_halt, Res.onState_halt, received t houtside]

/-- Settles O16: the row's control word starts a transfer, which is a frame of the bytes of its mode; what the frame leaves
is kept in the RX half, and BUSY is cleared unless the fault is taken. -/
theorem transferExchangesTheBuffer : Obligations.TransferExchangesTheBuffer := by
  refine ⟨fun s bufidx clk390 d len i m hs hwf hi => ?transfer, fun s d i fmt bytes hs he hf hi => ?row⟩
  case row =>
    rw [exec_selected hi hf hs he, operate_running _ _ hs.noFault]
    rfl
  case transfer =>
    intro w sent kept
    obtain ⟨hrow, hmode⟩ :
        encode s.board i = ⟨.spicnt, le16Bytes (spiWord ⟨1, bufidx, periphDev d, clk390, m, len⟩)⟩ ∧ m ≠ 3 := by
      simp only [List.mem_cons, List.not_mem_nil, or_false, Prod.mk.injEq] at hi
      rcases hi with ⟨rfl, rfl⟩ | ⟨rfl, rfl⟩ | ⟨rfl, rfl⟩ <;> exact ⟨rfl, by decide⟩
    have hexec : exec i s = .next (transfer (s.transferStart w (periphDev d))).state := exec_spi_ready hs hrow
    have htransfer : transfer (s.transferStart w (periphDev d)) =
        ((feed d sent (s.transferStart w (periphDev d))).onState (receivedIn m bufidx)).bind
          fun _ t => done (finishTransfer t) :=
      transfer_eq_feed (transferStart_transferring s d m bufidx clk390 len) hmode (hwf .rx)
    have houtside := feed_outside d sent (s.transferStart w (periphDev d))
    rw [hexec, htransfer]
    cases hfeed : feed d sent (s.transferStart w (periphDev d)) with
    | halt t => rfl
    | ok u t =>
      have hregs : t.regs = { s.regs with spiCnt := w } := by
        rw [hfeed] at houtside
        exact congrArg Outside.regs houtside
      have hclear : t.regs.clearBusy = { s.regs with spiCnt := w &&& 0x7FFF } := by rw [hregs]; rfl
      exact congrArg (fun r => Host.Outcome.next { receivedIn m bufidx t with regs := r }) hclear

/-! ## Wait-reads (R100, R101) -/

/-- A transfer in mode 3 is a wait-read; if a byte came, the remaining positions are read (R100, R101). -/
theorem transfer_waits {s : State} {d : Periph} {h : BitVec 1} {len : BitVec 9} (ht : Transferring s d 3 h len) :
    transfer s = (waitRead (periphDev d) h s.board.waitReadLimit 0 s).bind fun got s1 =>
      if got then (transferLoop (periphDev d) 3 h len.toNat 1 s1).bind fun _ s2 => done (finishTransfer s2)
      else done s1 := by
  obtain ⟨hdev, hm, hbuf, hlen, -⟩ := ht
  simp only [transfer, hdev, hm, hbuf, hlen, if_true, Nat.add_sub_cancel]

/-- What an exchanged frame does and returns does not depend on the surroundings, nor on what was returned before
(R36, R99). -/
theorem feed_surroundings {d : Periph} {l : List Byte} {u t : State} {ex : Outside}
    (h : feed d l (u.withOutside ex) = .ok () t) :
    ∃ v : State, t = v.withOutside { ex with out := ex.out ++ v.out } ∧
      ∀ ex' : Outside, feed d l (u.withOutside ex') = .ok () (v.withOutside { ex' with out := ex'.out ++ v.out }) := by
  rw [feed_withOutside] at h
  cases hv : feed d l (u.setOut []) with
  | halt v => rw [hv] at h; cases h
  | ok a v =>
    rw [hv] at h
    cases h
    exact ⟨v, rfl, fun ex' => by rw [feed_withOutside, hv]; rfl⟩

/-- The remaining positions of a wait-read, as the frame that reads them: its bytes stand behind the one at position 0
(R64, R100). -/
theorem transferLoop_rest {d : Periph} {h : BitVec 1} {n : Nat} {b : Byte} {s t : State} (hout : s.out = [])
    (hrx : s.arrays.rx.wf = true) (hf : feed d (List.replicate n 0xFF) (s.setOut [b]) = .ok () t) :
    transferLoop (periphDev d) 3 h n 1 (s.writeCells .rx (bufOffset h 0) [b]) =
      .ok () { t with arrays := { t.arrays with rx := s.arrays.rx.write (bufOffset h 0) t.out }, out := [] } := by
  have hsent : ((List.range n).map fun j => transferTx 3 h (1 + j) (s.writeCells .rx (bufOffset h 0) [b]))
      = List.replicate n 0xFF := by
    rw [← List.length_range (n := n), ← List.map_const', List.length_range]
    rfl
  obtain ⟨v, rfl, hv⟩ := feed_surroundings (ex := { s.outside with out := [b] }) hf
  have hwrite : keptRx 3 (s.arrays.rx.write (bufOffset h 0) [b]) (bufOffset h 1) v.out
      = s.arrays.rx.write (bufOffset h 0) ([b] ++ v.out) := (Memory.write_append s.arrays.rx _ [b] v.out hrx).symm
  have hfeed := hv { s.outside with rx := s.arrays.rx.write (bufOffset h 0) [b], out := [] }
  have hstart : (s.writeCells .rx (bufOffset h 0) [b]).setOut []
      = s.withOutside { s.outside with rx := s.arrays.rx.write (bufOffset h 0) [b], out := [] } := rfl
  rw [transferLoop_eq_feed d 3 h n 1 _ (Memory.write_wf _ _ _ hrx), hsent, hstart, hfeed]
  change Res.ok () (v.withOutside { s.outside with
    rx := keptRx 3 (s.arrays.rx.write (bufOffset h 0) [b]) (bufOffset h 1) v.out, out := s.out }) = _
  rw [hwrite, hout]
  rfl

/-- A wait-read whose dummy exchanges all return 0xFF times out: BUSY stays, no RX byte is written (R101). -/
theorem transfer_timeout {s t : State} {d : Periph} {h : BitVec 1} {len : BitVec 9} (ht : Transferring s d 3 h len)
    (hf : feed d (List.replicate s.board.waitReadLimit 0xFF) s = .ok () t)
    (hout : t.out = List.replicate s.board.waitReadLimit 0xFF) :
    transfer s = .ok () ((t.setOut []).addLog .waitReadTimeout) := by
  have hempty : s.setOut [] = s := ht.out ▸ rfl
  rw [transfer_waits ht, waitRead_timeout d h _ 0 s t (hempty ▸ hf) hout, Res.bind_ok, ht.out]
  rfl

/-- A wait-read whose exchange `j` is the first to return another byte reads the remaining positions behind that byte, and
ends by clearing BUSY (R100 to R102). -/
theorem transfer_answered {s t t' : State} {d : Periph} {h : BitVec 1} {len : BitVec 9} {j : Nat} {b : Byte}
    (ht : Transferring s d 3 h len) (hrx : s.arrays.rx.wf = true) (hj : j < s.board.waitReadLimit) (hb : b ≠ 0xFF)
    (hf : feed d (List.replicate (j + 1) 0xFF) s = .ok () t) (hout : t.out = List.replicate j 0xFF ++ [b])
    (hrest : feed d (List.replicate len.toNat 0xFF) ((t.setOut [b]).addLog (.waitReadSkipped j)) = .ok () t') :
    transfer s = .ok () (finishTransfer { t' with
      arrays := { t'.arrays with rx := t.arrays.rx.write (bufOffset h 0) t'.out }, out := [] }) := by
  have hfeed : feed d (List.replicate (j + 1) 0xFF) (s.setOut []) = .ok () t := by
    rw [show s.setOut [] = s from ht.out ▸ rfl]
    exact hf
  have hstart := feed_outside d (List.replicate (j + 1) 0xFF) s
  rw [hf] at hstart
  have hwf : t.arrays.rx.wf = true := (congrArg (fun ex => ex.rx.wf) hstart).trans hrx
  have hloop := transferLoop_rest (h := h) (s := (t.setOut []).addLog (.waitReadSkipped j)) rfl hwf hrest
  have hskip : waitRead (periphDev d) h s.board.waitReadLimit 0 s =
      .ok true (((t.setOut []).addLog (.waitReadSkipped j)).writeCells .rx (bufOffset h 0) [b]) := by
    rw [waitRead_skips d h j _ 0 b s t hj hb hfeed hout, ht.out, Nat.zero_add]
    rfl
  rw [transfer_waits ht, hskip, Res.bind_ok, if_pos rfl]
  exact congrArg (fun r => r.bind fun _ u => done (finishTransfer u)) hloop

/-- Settles O17: the dummy exchanges are a frame of 0xFF, and so are the remaining positions. -/
theorem waitReadMakesDummyExchanges : Obligations.WaitReadMakesDummyExchanges := by
  intro s bufidx clk390 d len hs hwf w
  have htr : Transferring (s.transferStart w (periphDev d)) d 3 bufidx len :=
    transferStart_transferring s d 3 bufidx clk390 len
  have hexec : exec (.spiWaitread bufidx (periphDev d) clk390 len) s =
      .next (transfer (s.transferStart w (periphDev d))).state :=
    exec_spi_ready (f := ⟨1, bufidx, periphDev d, clk390, 3, len⟩) hs rfl
  refine ⟨fun t hf hout => ?timeout, fun j b t t' hj hb hf hout hrest => ?answer⟩
  case timeout =>
    rw [hexec, transfer_timeout htr hf hout]
    rfl
  case answer =>
    have hstart := feed_outside d (List.replicate (j + 1) 0xFF) (s.transferStart w (periphDev d))
    have hend := feed_outside d (List.replicate len.toNat 0xFF) ((t.setOut [b]).addLog (.waitReadSkipped j))
    rw [hf] at hstart
    rw [show feed d _ ((t.setOut [b]).addLog (.waitReadSkipped j)) = .ok () t' from hrest] at hend
    have hrx : t.arrays.rx = t'.arrays.rx := (congrArg Outside.rx hend).symm
    have hregs : t'.regs = { s.regs with spiCnt := w } :=
      (congrArg Outside.regs hend).trans (congrArg Outside.regs hstart)
    have hclear : t'.regs.clearBusy = { s.regs with spiCnt := w &&& 0x7FFF } := by rw [hregs]; rfl
    rw [hexec, transfer_answered htr (hwf .rx) hj hb hf hout hrest, hrx]
    exact congrArg (fun r => Host.Outcome.next { t' with
      regs := r, arrays := { t'.arrays with rx := t'.arrays.rx.write (512 * bufidx.toNat) t'.out }, out := [] }) hclear

end Sys2Proof.Machine
end

section
/-! SUPPORT. The proofs of the statements about rows sent to a ready flash, card or MCU, with the lemmas they rest on. -/

namespace Sys2Proof.Machine

/-! ## Flash rows (R65, R66, R108 to R117) -/

/-- The frame of FL.READ or FL.PROGRAM on a ready flash: four reply bytes, then the data bytes are exchanged in the mode the
command sets (R65, R109, R116, R117). -/
theorem feed_flash_streams {s : State} {c : FlashOp} {a : BitVec 24} {mode : FlashMode} (data : List Byte) (hs : FlashReady s)
    (ha : flashAddressed c = true)
    (hc : ∀ u : State, flashCommand c a u = .ok () (u.setFlash { u.flash with cursor := a.toNat, mode := mode })) :
    feed .flash (flashFrame4 c a ++ data) (s.setOut []) = feed .flash data { s with
      flash := { s.flash with mode := mode, cursor := a.toNat, reply := s.flash.reply.drop 4 }
      out := (popFifo s.flash.reply 4).out } := by
  have hframe := feed_flash_frame4 (c := c) (a := a) (s := s.setOut []) hs.idle hs.noFrame hs.awake
    (Board.wf_fifoCap hs.board) ha
  rw [feed_append, hframe, hc, Res.bind_ok, Res.bind_ok, popFifo_out_snoc s.flash.reply 3]
  rfl

/-- Settles O32: after the frame every exchange is one of the mode `Read`. -/
theorem flashReadStreamsTheImage : Obligations.FlashReadStreamsTheImage := by
  intro s a data hs
  rw [exec_selected (fmt := .flash) rfl (by decide) hs.toRunning hs.toExchanging, operate_running _ _ hs.noFault,
    feed_flash_streams (mode := .read) data hs rfl fun _ => rfl, feed_flash_read data _ rfl]
  rfl

/-- Settles O33: after the frame every exchange is one of the mode `Write`, from the first place of the page on. -/
theorem flashProgramStaysInItsPage : Obligations.FlashProgramStaysInItsPage := by
  intro s a data hs place
  have hexec : exec (.flProgram a data) s = .next (feed .flash (flashFrame4 .program a ++ data) (s.setOut [])).state := by
    rw [exec_selected (fmt := .flash) rfl (by decide) hs.toRunning hs.toExchanging, operate_running _ _ hs.noFault]
  rw [feed_flash_streams (mode := .write) data hs rfl fun _ => rfl] at hexec
  obtain ⟨t, hfeed, ht, hstored⟩ := feed_flash_write data { s with
    flash := { s.flash with mode := .write, cursor := a.toNat, reply := s.flash.reply.drop 4 }
    out := (popFifo s.flash.reply 4).out } rfl
  have hcursor : (if data = [] then a.toNat else place data.length) = place data.length := by
    split
    case isTrue hnil => subst hnil; simp only [place, List.length_nil]; omega
    case isFalse => rfl
  rw [hfeed] at hexec
  refine ⟨t, hexec, ht.trans ?_, hstored⟩
  exact congrArg (fun c => { s with
    flash := { s.flash with mode := .write, cursor := c, reply := s.flash.reply.drop 4 }
    arrays := t.arrays
    out := (popFifo s.flash.reply 4).out ++ fill data.length }) hcursor

/-- An opcode byte that is none of the fifteen of R66 names no command. -/
theorem flashOpOf_eq_none {op : Byte} :
    flashOpOf op = none ↔ op ∉ [0x03#8, 0x02#8, 0x20#8, 0x52#8, 0xD8#8, 0x05#8, 0x35#8, 0x15#8, 0x90#8, 0x9F#8, 0x4B#8,
      0xAB#8, 0xB9#8, 0x06#8, 0x04#8] := by
  simp only [flashOpOf, flashOps, flashCode, List.find?_eq_none, List.mem_cons, List.not_mem_nil, or_false, beq_iff_eq,
    forall_eq_or_imp, forall_eq, not_or, eq_comm (a := op)]
  exact Iff.rfl

/-- Settles O38: a ready flash decodes the byte as an unknown opcode; a sleeping one rejects each byte of the frame. -/
theorem flashRejectsUnknownAndSleepingBytes : Obligations.FlashRejectsUnknownAndSleepingBytes := by
  refine ⟨fun s op hs hop => ?unknown, fun s i bytes hs he hidle hasleep hi hwake => ?asleep⟩
  case unknown =>
    have hcap := Board.wf_fifoCap hs.board
    have hroom : (s.setOut []).flash.cmd.length < (s.setOut []).board.fifoCap := by
      rw [State.setOut_flash, State.setOut_board, hs.noFrame, List.length_nil]; omega
    have hcmd : s.flash.cmd ++ [op] = op :: [] := by rw [hs.noFrame]; rfl
    rw [exec_selected (fmt := .flash) (bytes := [op]) rfl (by decide) hs.toRunning hs.toExchanging,
      operate_running _ _ hs.noFault, feed_cons, exchange_flash,
      flashExchange_idle (s := s.setOut []) hs.idle (.inl hs.awake) hroom,
      flashDecode_unknown hcmd (flashOpOf_eq_none.2 hop)]
    exact congrArg (fun c => Host.Outcome.next { s with
      flash := { s.flash with reply := s.flash.reply.tail, cmd := c }
      log := s.log ++ [Event.flashUnknownOpcode op]
      out := [s.flash.reply.headD 0xFF] }) hs.noFrame.symm
  case asleep =>
    rw [exec_selected hi (by decide) hs he, operate_running _ _ hs.noFault,
      feed_flash_asleep bytes (s.setOut []) hidle hasleep hwake]
    rfl

/-! ## Card rows (R67, R68, R134 to R138, R144 to R147) -/

/-- A status reply that fits (R69, R134). -/
theorem cardReplyStatus_fits {flags : Byte} {s : State} (h : s.card.reply.length < s.board.fifoCap) :
    cardReplyStatus flags s = .ok () (s.setCard { s.card with reply := s.card.reply ++ [s.card.status ||| flags] }) := by
  rw [cardReplyStatus, push_fits (by simpa [State.fifo] using h)]
  rfl

/-- A command frame sent to a ready card with bytes behind it: six reply bytes, the command run before the last of them is
returned, then the bytes (R67, R132, R133). -/
theorem feed_card_ready {s t : State} {idx : BitVec 6} {f : CardArgs} (data : List Byte) (hs : CardReady s)
    (hc : cardCommand idx f.arg ((s.setCard { s.card with reply := s.card.reply.drop 6 }).setOut
      (popFifo s.card.reply 5).out) = .ok () t) :
    feed .card (cardFrame idx f ++ data) (s.setOut []) = feed .card data (t.addOut (s.card.reply.getD 5 0xFF)) := by
  have hcap := Board.wf_fifoCap hs.board
  have hframe := feed_card_frame (idx := idx) (f := f) (s := s.setOut []) hs.notCapturing hs.noFrame hs.noRefill
    (by rw [State.setOut_board]; omega)
  have hrun : feed .card (cardFrame idx f) (s.setOut []) = .ok () (t.addOut (s.card.reply.getD 5 0xFF)) :=
    hframe.trans (congrArg (fun x => x.bind fun _ u => Res.ok () (u.addOut (s.card.reply.getD 5 0xFF))) hc)
  rw [feed_append, hrun, Res.bind_ok]

/-- A ready card has room for the status behind what the frame leaves of its replies. -/
theorem cardReady_room {s : State} (hs : CardReady s) : (s.card.reply.drop 6).length < s.board.fifoCap := by
  have hcap := Board.wf_fifoCap hs.board
  have hbound := hs.bounded
  rw [List.length_drop]
  omega

/-- The status with no flag, and the block at the position behind it: what both read commands queue (R134, R135). -/
theorem cardStatusThenBlock_fits {s : State}
    (h : s.card.reply.length + (s.board.cardReadGap + 514) ≤ s.board.fifoCap) :
    ((cardReplyStatus 0 s).bind fun _ s1 => cardQueueBlock s1) =
      .ok () ((s.setCard { s.card with
        pos := s.card.pos + 512
        reply := s.card.reply ++ s.card.status :: List.replicate s.board.cardReadGap 0xFF ++ 0xFE :: cardBlock s }).addDraws
          (cardBlockDraws s)) := by
  have hstatus : s.card.status ||| 0 = s.card.status := BitVec.or_zero
  have hreply : s.card.reply.length < s.board.fifoCap := by omega
  have hblock : (s.card.reply ++ [s.card.status]).length + (s.board.cardReadGap + 513) ≤ s.board.fifoCap := by
    rw [List.length_append, List.length_singleton]; linarith
  have happend : s.card.reply ++ [s.card.status] ++ List.replicate s.board.cardReadGap 0xFF
      = s.card.reply ++ s.card.status :: List.replicate s.board.cardReadGap 0xFF := List.append_assoc _ _ _
  rw [cardReplyStatus_fits hreply, Res.bind_ok, hstatus,
    cardQueueBlock_fits (s := s.setCard { s.card with reply := s.card.reply ++ [s.card.status] }) hblock,
    State.setCard_card, State.setCard_board, happend]
  rfl

/-- The block a card queues is the image's from its position on, or draws (R135). -/
theorem cardBlock_eq (s : State) :
    cardBlock s = (List.range 512).map fun j =>
      match s.board.cardSize with
      | some n => if s.card.pos + j < n then s.readCell .card (s.card.pos + j) else 0xFF
      | none => Config.cardNoStoreByte (s.draws + j) := by
  unfold cardBlock
  cases s.board.cardSize <;> rfl

/-- A block without an image takes a draw for each byte (R135). -/
theorem draws_add_cardBlockDraws (s : State) :
    s.draws + cardBlockDraws s = if s.board.cardSize = none then s.draws + 512 else s.draws := by
  unfold cardBlockDraws
  cases s.board.cardSize <;> rfl

/-- CD.READN is CD.READ1, then streaming (R145). -/
theorem cardCmdReadn_eq (arg : BitVec 32) (s : State) :
    cardCmdReadn arg s = (cardCmdRead1 arg s).bind fun _ t => .ok () (t.setCard { t.card with streaming := true }) :=
  (Res.bind_assoc _ _ _).symm

/-- Settles O42: each command is its status and a block, and CD.READN sets `streaming` behind them. -/
theorem cardReadsQueueABlock : Obligations.CardReadsQueueABlock := by
  intro s f i streams hs hi hroom block
  let start : State := ((s.setCard { s.card with reply := s.card.reply.drop 6 }).setOut (popFifo s.card.reply 5).out).setCard
    { s.card with reply := s.card.reply.drop 6, pos := f.arg.toNat }
  have hqueue := cardStatusThenBlock_fits (s := start) hroom
  have hblock : cardBlock start = block := cardBlock_eq start
  have hdraws : s.draws + cardBlockDraws start = if s.board.cardSize = none then s.draws + 512 else s.draws :=
    draws_add_cardBlockDraws start
  simp only [List.mem_cons, List.not_mem_nil, or_false, Prod.mk.injEq] at hi
  have hread : cardCmdRead1 f.arg ((s.setCard { s.card with reply := s.card.reply.drop 6 }).setOut
      (popFifo s.card.reply 5).out) = _ := hqueue
  have hreadn := cardCmdReadn_eq f.arg ((s.setCard { s.card with reply := s.card.reply.drop 6 }).setOut
    (popFifo s.card.reply 5).out)
  rw [hread, Res.bind_ok, hblock] at hreadn
  rw [hblock] at hread
  rw [← hdraws, popFifo_out_snoc s.card.reply 5]
  rcases hi with ⟨rfl, rfl⟩ | ⟨rfl, rfl⟩
  · have hrun := feed_card_ready (idx := cardIndex .read1) [] hs hread
    rw [List.append_nil, feed_nil] at hrun
    rw [exec_selected (fmt := .card) rfl (by decide) hs.toRunning hs.toExchanging, operate_running _ _ hs.noFault, hrun]
    simp only [Res.state_ok, State.addOut, State.addDraws, State.setCard, State.setOut, start]
  · have hrun := feed_card_ready (idx := cardIndex .readn) [] hs hreadn
    rw [List.append_nil, feed_nil] at hrun
    rw [exec_selected (fmt := .card) rfl (by decide) hs.toRunning hs.toExchanging, operate_running _ _ hs.noFault, hrun]
    simp only [Res.state_ok, State.addOut, State.addDraws, State.setCard, State.setOut, start]

/-- A ready card after a write command at `arg`: six reply bytes are returned, the status queued, the capture armed (R146,
R147). -/
def State.armed (s : State) (w : Capture) (arg : BitVec 32) : State :=
  { s with
    card := { s.card with
      wcap := w, wphase := .waitToken, wpos := arg.toNat, reply := s.card.reply.drop 6 ++ [s.card.status] }
    out := (popFifo s.card.reply 6).out }

/-- A row of a write command on a ready card arms the capture and exchanges the bytes behind its frame (R146, R147). -/
theorem exec_card_write {s : State} {i : Instr} {c : CardOp} {w : Capture} {f : CardArgs} {data : List Byte}
    (hs : CardReady s) (hi : encode s.board i = ⟨.card, cardFrame (cardIndex c) f ++ data⟩)
    (hc : ∀ u : State, cardCommand (cardIndex c) f.arg u = cardCmdWrite w f.arg u) :
    exec i s = .next (feed .card data (s.armed w f.arg)).state := by
  have hstatus : s.card.status ||| 0 = s.card.status := BitVec.or_zero
  have hreply := cardReplyStatus_fits (flags := 0) (s := (s.setCard { s.card with reply := s.card.reply.drop 6 }).setOut
    (popFifo s.card.reply 5).out) (cardReady_room hs)
  rw [State.setOut_card, State.setCard_card, hstatus] at hreply
  have hwrite := hc ((s.setCard { s.card with reply := s.card.reply.drop 6 }).setOut (popFifo s.card.reply 5).out)
  rw [cardCmdWrite, hreply, Res.bind_ok] at hwrite
  rw [exec_selected hi (by decide) hs.toRunning hs.toExchanging, operate_running _ _ hs.noFault,
    feed_card_ready data hs hwrite, State.armed, popFifo_out_snoc s.card.reply 5]
  rfl

/-- A block sent to a capture that waits for its token is written where the capture stands, acknowledged, and leaves the
capture ended or waiting one block on (R137, R138). -/
theorem feed_card_captured {s : State} {left : Capture} {k : Nat} {token c1 c0 : Byte} {block data : List Byte}
    (hb : s.board.wf = true) (hp : s.card.wphase = .waitToken) (hw : s.card.wblock.length = 512)
    (hr : s.card.reply.length ≤ s.board.fifoCap) (hl : block.length = 512)
    (hd : data = List.replicate k 0xFF ++ token :: block ++ [c1, c0])
    (ht : (s.card.wcap, left, token) ∈ [(Capture.single, Capture.none, 0xFE#8), (.multi, .multi, 0xFC#8),
      (.multi, .multi, 0xFD#8)]) :
    ∃ t, feed .card data s = .ok () t ∧
      t = { s with
        card := { s.card with
          wcap := left
          wphase := .waitToken
          wblock := block
          wpos := s.card.wpos + 512
          reply := s.card.reply.drop data.length ++ [0x05] }
        arrays := t.arrays
        out := s.out ++ (popFifo s.card.reply data.length).out } ∧
      s.storesOnly t .card (fun x =>
        if s.card.wpos ≤ x ∧ x < s.card.wpos + 512 ∧ (∃ n, s.board.cardSize = some n ∧ x < n)
        then block[x - s.card.wpos]? else none) := by
  obtain ⟨hcap, hx, htoken, hleft⟩ : s.card.wcap ≠ .none ∧ token ≠ 0xFF ∧ captureToken s.card.wcap token = true ∧
      (if s.card.wcap = .single then Capture.none else s.card.wcap) = left := by
    simp only [List.mem_cons, List.not_mem_nil, or_false, Prod.mk.injEq] at ht
    rcases ht with ⟨hcap, rfl, rfl⟩ | ⟨hcap, rfl, rfl⟩ | ⟨hcap, rfl, rfl⟩ <;> rw [hcap] <;> decide
  have hlen : data.length = k + 515 := by
    rw [hd]
    simp only [List.length_append, List.length_replicate, List.length_cons, List.length_nil, hl]
  have hfeed := feed_card_capture k token c1 c0 block s hcap hp hx htoken hl hw hr
    (by have := Board.wf_fifoCap hb; omega)
  rw [← hd, hleft, ← hlen] at hfeed
  exact ⟨_, hfeed, rfl, State.storesOnly_congr (cardKept_reads s s.card.wpos block hl) rfl rfl fun _ => rfl⟩

/-- Settles O44: the frame arms the capture, and a block sent to an armed capture is written, whatever armed it. -/
theorem cardWritesCaptureABlock : Obligations.CardWritesCaptureABlock := by
  refine ⟨fun s f hs => ⟨?single, ?multi, fun i data left k token c1 c0 block hl hw hd hi => ?row⟩,
    fun s left k token c1 c0 block data hb hp hw hr hl hd ht => feed_card_captured hb hp hw hr hl hd ht⟩
  case single => exact exec_card_write (data := []) hs rfl fun _ => rfl
  case multi => exact exec_card_write (data := []) hs rfl fun _ => rfl
  case row =>
    obtain ⟨w, hexec, ht⟩ : ∃ w, exec i s = .next (feed .card data (s.armed w f.arg)).state ∧
        (w, left, token) ∈ [(Capture.single, Capture.none, 0xFE#8), (.multi, .multi, 0xFC#8), (.multi, .multi, 0xFD#8)] := by
      simp only [List.mem_cons, List.not_mem_nil, or_false, Prod.mk.injEq] at hi
      rcases hi with ⟨rfl, rfl, rfl⟩ | ⟨rfl, rfl, rfl⟩ | ⟨rfl, rfl, rfl⟩
      · exact ⟨.single, exec_card_write hs rfl fun _ => rfl, by decide⟩
      · exact ⟨.multi, exec_card_write hs rfl fun _ => rfl, by decide⟩
      · exact ⟨.multi, exec_card_write hs rfl fun _ => rfl, by decide⟩
    have hroom : (s.armed w f.arg).card.reply.length ≤ s.board.fifoCap := List.length_append.trans_le (cardReady_room hs)
    obtain ⟨t, hfeed, ht, hstored⟩ := feed_card_captured (s := s.armed w f.arg) hs.board rfl hw hroom hl hd ht
    rw [hfeed] at hexec
    exact ⟨t, hexec, ht, hstored⟩

/-! ## MCU rows (R71, R73, R153, R160) -/

/-- The first byte of a command word only joins the FIFO (R153). -/
theorem mcuByte_first {tx : Byte} {s : State} (hc : s.mcu.cmd = []) (hb : 1 ≤ s.board.fifoCap) :
    mcuByte tx s = .ok () (s.setMcu { s.mcu with cmd := [tx] }) := by
  rw [mcuByte, push_fits (by simpa [State.fifo, hc] using hb), Res.bind_ok,
    mcuDecode_short (by simp [State.setFifo, State.fifo, hc])]
  simp only [State.setFifo, State.fifo, hc, List.nil_append]

/-- The first byte of a command word, exchanged (R150, R153). -/
theorem feed_mcu_first {tx : Byte} {rest : List Byte} {s : State} (hm : s.mcu.bootMode = false) (hn : s.mcu.cmd = [])
    (hb : 1 ≤ s.board.fifoCap) :
    feed .mcu (tx :: rest) s =
      feed .mcu rest ((s.setMcu { s.mcu with cmd := [tx], reply := s.mcu.reply.tail }).addOut (s.mcu.reply.headD 0xFF)) := by
  rw [feed_cons, exchange_mcu, mcuExchange_normal hm,
    mcuByte_first (s := s.setMcu { s.mcu with reply := s.mcu.reply.tail }) hn hb]
  rfl

/-- The second byte of a command word whose opcode is unknown, exchanged (R150, R160). -/
theorem feed_mcu_discarded {w0 w1 : Byte} {op : BitVec 7} {s : State} (hm : s.mcu.bootMode = false) (hp : s.mcu.cmd = [w0])
    (hop : (le16 w0 w1).extractLsb' 0 7 = op) (hc : mcuOpOf s.board op = none) (hb : 2 ≤ s.board.fifoCap) :
    feed .mcu [w1] s =
      .ok () (((s.setMcu { s.mcu with cmd := [], reply := s.mcu.reply.tail }).addLog (.mcuUnknownOpcode op)).addOut
        (s.mcu.reply.headD 0xFF)) := by
  subst hop
  rw [feed_cons, exchange_mcu, mcuExchange_normal hm,
    mcuByte_unknown (w0 := w0) (s := s.setMcu { s.mcu with reply := s.mcu.reply.tail }) hc hp hb]
  rfl

/-- A command word whose opcode the board does not have, sent to an MCU in normal mode: two reply bytes and a log entry
(R71, R160). -/
theorem feed_mcu_unknown {op : BitVec 7} {arg : BitVec 9} {s : State} (hm : s.mcu.bootMode = false) (hn : s.mcu.cmd = [])
    (hc : mcuOpOf s.board op = none) (hb : 2 ≤ s.board.fifoCap) :
    feed .mcu (mcuFrame op arg) s = .ok () (((s.setMcu { s.mcu with reply := s.mcu.reply.drop 2 }).addLog
      (.mcuUnknownOpcode op)).setOut (s.out ++ (popFifo s.mcu.reply 2).out)) := by
  have hop : (le16 ((mcuWord op arg).extractLsb' 0 8) ((mcuWord op arg).extractLsb' 8 8)).extractLsb' 0 7 = op := by
    rw [le16_le16Bytes, mcuWord_op]
  have hdrop : s.mcu.reply.drop 2 = s.mcu.reply.tail.tail := by rw [← List.drop_one, List.drop_tail]
  have hpop : s.out ++ (popFifo s.mcu.reply 2).out = s.out ++ [s.mcu.reply.headD 0xFF] ++ [s.mcu.reply.tail.headD 0xFF] := by
    simp only [popFifo_out_succ, popFifo_out_zero, pop1_eq, pop1Rest_eq, List.append_assoc, List.singleton_append]
  rw [mcuFrame, le16Bytes, feed_mcu_first hm hn (by omega), feed_mcu_discarded (by exact hm) rfl hop (by exact hc) (by exact hb),
    hdrop, hpop]
  exact congrArg (fun c => Res.ok () { s with
    mcu := { s.mcu with cmd := c, reply := s.mcu.reply.tail.tail }
    log := s.log ++ [Event.mcuUnknownOpcode op]
    out := s.out ++ [s.mcu.reply.headD 0xFF] ++ [s.mcu.reply.tail.headD 0xFF] }) hn.symm

/-- Settles O49: an opcode that is none of the six names no command, so its word is discarded. -/
theorem mcuDiscardsUnknownOpcodes : Obligations.McuDiscardsUnknownOpcodes := by
  intro s op arg hs hop
  have hcap := Board.wf_fifoCap hs.board
  rw [exec_selected (fmt := .mcu) rfl (by decide) hs.toRunning hs.toExchanging, operate_running _ _ hs.noFault,
    feed_mcu_unknown (s := s.setOut []) hs.normal hs.noFrame (mcuOpOf_eq_none.2 hop) (by rw [State.setOut_board]; omega)]
  rfl

end Sys2Proof.Machine
end

section
/-! SUPPORT. The proofs of the statements about a write of POW_CNT, a cartridge read and the probe accesses, with the lemmas
they rest on. -/

namespace Sys2Proof.Machine

/-! ## POW_CNT (R84, R151) -/

/-- A POW_CNT write with the mcu_reset bit set is a reset event of the MCU, after the byte is stored (R84). -/
theorem powWrite_reset {s : State} {v : Byte} (h : v.getLsbD s.board.powMcuReset = true) :
    powWrite v s = mcuResetEvent (v.getLsbD s.board.powMcuBoot) (s.setRegs { s.regs with powCnt := v }) :=
  if_pos h

/-- A POW_CNT write with the mcu_reset bit clear only stores the byte (R84). -/
theorem powWrite_noReset {s : State} {v : Byte} (h : ¬ v.getLsbD s.board.powMcuReset = true) :
    powWrite v s = s.setRegs { s.regs with powCnt := v } :=
  if_neg h

/-- Settles O10: the write is `powWrite`, by cases on the mcu_reset bit of the byte. -/
theorem powerWriteResetsTheMcu : Obligations.PowerWriteResetsTheMcu := by
  intro s off v hs hport
  rw [exec_busRegwrite_port v hs hport, portWrite, done_state]
  by_cases hreset : v.getLsbD s.board.powMcuReset = true
  · rw [powWrite_reset (s := s.setOut []) hreset, if_pos hreset]
    rfl
  · rw [powWrite_noReset (s := s.setOut []) hreset, if_neg hreset]
    rfl

/-! ## Cartridge reads (R51, R86, R172) -/

/-- The FSM gives a synthetic byte in `Fast` and in `Erase` only (R172). -/
theorem fsmRead_eq_none {f : Legacy} : fsmRead f = none ↔ f ≠ .fast ∧ f ≠ .erase := by
  cases f <;> decide

/-- In the window of an active snoop the byte is the synthetic one, where the FSM gives one (R86, R172). -/
theorem cartByte_synthetic {s : State} {addr : BitVec 20} {b : Byte} (hs : snooped s addr = true)
    (hf : fsmRead s.fsm = some b) : cartByte s addr = b := by
  rw [cartByte, if_pos hs, hf, Option.getD_some]

/-- Where the snoop is not consulted or gives no synthetic byte, the byte is the one the translator reaches (R86, R172). -/
theorem cartByte_translated {s : State} {addr : BitVec 20} (h : snooped s addr = true → fsmRead s.fsm = none) :
    cartByte s addr = s.byteThrough addr false := by
  rw [← readThrough_eq]
  cases hs : snooped s addr with
  | false => exact cartByte_unsnooped hs
  | true => rw [cartByte, if_pos hs, h hs, Option.getD_none]

/-- Settles O20: the read returns `cartByte`, which is the FSM's synthetic byte in the first two clauses and the
translator's in the third. -/
theorem cartReadReturnsTheTranslatedByte : Obligations.CartReadReturnsTheTranslatedByte := by
  intro s addr hf
  have hsnoop := snooped_iff s addr hf
  rw [exec_busCartread_running addr hf]
  refine ⟨fun hact hbank hfsm => ?fast, fun hact hbank hfsm => ?erase, fun hother => ?translated⟩
  case fast => rw [cartByte_synthetic (b := 0x00) (hsnoop.2 ⟨hact, hbank⟩) (by rw [hfsm]; rfl)]; rfl
  case erase => rw [cartByte_synthetic (b := 0xFF) (hsnoop.2 ⟨hact, hbank⟩) (by rw [hfsm]; rfl)]; rfl
  case translated =>
    rw [cartByte_translated fun hin => fsmRead_eq_none.2 (hother (hsnoop.1 hin))]
    rfl

/-! ## Probe accesses (R51, R88, R173) -/

/-- A running block runs a ProbeRead and returns the byte the translator reaches for a probe (R57, R88). -/
theorem exec_busProberead_running {s : State} (addr : BitVec 20) (h : s.fault = none) :
    exec (.busProberead addr) s = .next (s.setOut [readThrough s addr true]) :=
  operate_running s (fun s => done (probeRead addr s)) h

/-- A running block runs a ProbeWrite through the translator, nothing returned (R57, R88). -/
theorem exec_busProbewrite_running {s : State} (addr : BitVec 20) (v : Byte) (h : s.fault = none) :
    exec (.busProbewrite addr v) s = .next (writeThrough (s.setOut []) addr v true) :=
  operate_running s (fun s => done (probeWrite addr v s)) h

/-- Settles O22: both accesses are the translator's alone, whatever the snoop; its write stores at the place it resolves and
changes nothing but the arrays. -/
theorem probeAccessBypassesTheSnoop : Obligations.ProbeAccessBypassesTheSnoop := by
  intro s addr v hf
  rw [exec_busProberead_running addr hf, exec_busProbewrite_running addr v hf, readThrough_eq]
  obtain ⟨arr, hwrite, hstores⟩ := writeThrough_spec (s.setOut []) addr v true
  exact ⟨rfl, _, congrArg _ hwrite, rfl, hstores⟩

end Sys2Proof.Machine
end

section
/-! SUPPORT. The proofs of the statements about the byte FIFOs, with the lemmas they rest on. -/

namespace Sys2Proof.Machine

/-! ## Pushes (R89) -/

/-- Replacing a FIFO of the flash keeps the flash's other fields and the rest of the state. -/
theorem State.setFifo_flash (s : State) (w : FifoId) (l : List Byte) :
    s.setFifo .flash w l = { s with flash := { s.flash with
      cmd := (s.setFifo .flash w l).flash.cmd, reply := (s.setFifo .flash w l).flash.reply } } := by
  cases w <;> rfl

/-- Replacing a FIFO of the card keeps the card's other fields and the rest of the state. -/
theorem State.setFifo_card (s : State) (w : FifoId) (l : List Byte) :
    s.setFifo .card w l = { s with card := { s.card with
      cmd := (s.setFifo .card w l).card.cmd, reply := (s.setFifo .card w l).card.reply } } := by
  cases w <;> rfl

/-- Replacing a FIFO of the MCU keeps the MCU's other fields and the rest of the state. -/
theorem State.setFifo_mcu (s : State) (w : FifoId) (l : List Byte) :
    s.setFifo .mcu w l = { s with mcu := { s.mcu with
      cmd := (s.setFifo .mcu w l).mcu.cmd, reply := (s.setFifo .mcu w l).mcu.reply } } := by
  cases w <;> rfl

/-- Settles O29: a push that fits replaces one FIFO by its contents and the bytes, one that does not takes the fault. -/
theorem pushAppendsOrOverflows : Obligations.PushAppendsOrOverflows := by
  intro d w bytes s
  refine ⟨fun hfits => ⟨_, push_fits hfits, s.fifo_setFifo_same d w _, fun d' w' hother => ?other, ?frame⟩,
    push_overflows⟩
  case other => exact s.fifo_setFifo_other d d' w w' _ hother
  case frame =>
    cases d with
    | flash => exact s.setFifo_flash w _
    | card => exact s.setFifo_card w _
    | mcu => exact s.setFifo_mcu w _

/-! ## Pops (R90) -/

/-- Every byte a pop gives is the FIFO's byte at its place, 0xFF past the FIFO's end. -/
theorem popFifo_out_getD {n k : Nat} (l : List Byte) (hk : k < n) : (popFifo l n).out.getD k 0 = l.getD k 0xFF := by
  induction n generalizing l k with
  | zero => omega
  | succ n ih =>
    rw [popFifo_out_succ]
    cases k with
    | zero => cases l <;> rfl
    | succ k =>
      rw [List.getD_cons_succ, ih _ (by omega)]
      cases l <;> rfl

/-- The flag of a pop: a byte was asked for and there was one. -/
theorem popFifo_any_iff (l : List Byte) (n : Nat) : (popFifo l n).any = true ↔ 0 < n ∧ l ≠ [] := by
  rw [popFifo, decide_eq_true_iff, Nat.lt_min, List.length_pos_iff]

/-- Settles O30: the bytes, what stays and the flag, each by the rule that says what the pop makes of it. -/
theorem popPadsWithFill : Obligations.PopPadsWithFill := fun data n =>
  ⟨popFifo_out_length data n, fun _ => popFifo_out_getD data, List.length_drop, List.take_append_drop n data,
    popFifo_any_iff data n⟩

/-! ## A push, then a pop (R93) -/

/-- A pop of a FIFO's whole contents gives them and empties the FIFO. -/
theorem popFifo_whole (l : List Byte) : popFifo l l.length = ⟨l, decide (0 < l.length), []⟩ := by
  simp [popFifo, fill]

/-- A pop of more than there is gives all of it, then 0xFF. -/
theorem popFifo_out_length_add (l : List Byte) (m : Nat) :
    (popFifo l (l.length + m)).out = l ++ List.replicate m 0xFF := by
  rw [popFifo_out_add, popFifo_out_of_length rfl, List.drop_length, popFifo_out_nil]

/-- Settles O31: a push that fits leaves an empty FIFO holding its bytes, and a pop gives the contents, padded. -/
theorem pushThenPopRoundTrips : Obligations.PushThenPopRoundTrips := by
  intro d w bytes m s hempty hfits
  have hpush : push d w bytes s = .ok () (s.setFifo d w bytes) := by
    rw [push_fits (by rw [hempty, List.length_nil]; omega), hempty, List.nil_append]
  refine ⟨_, hpush, ?_⟩
  rw [State.fifo_setFifo_same]
  exact ⟨popFifo_whole bytes, popFifo_out_length_add bytes m, List.drop_eq_nil_of_le (Nat.le_add_right _ m)⟩

end Sys2Proof.Machine
end

section
/-! SUPPORT. The proofs of the statements about transfers with no device, a wait-read of a card and a read of a streaming
flash, with the lemmas they rest on. None of them asks for the one form of the arrays: the bytes a loop receives are one
write of the RX buffer, whatever its cells. -/

namespace Sys2Proof.Machine

/-! ## A row that starts a transfer, whatever its device (R63, R100, R102) -/

/-- What a transfer does, by the fields of the control word that starts it (R63, R100). -/
theorem transfer_transferStart (s : State) (f : SpiFields) :
    transfer (s.transferStart (spiWord f) f.dev) =
      if f.mode = 3 then
        (waitRead f.dev f.bufidx s.board.waitReadLimit 0 (s.transferStart (spiWord f) f.dev)).bind fun got s1 =>
          if got then (transferLoop f.dev f.mode f.bufidx f.len.toNat 1 s1).bind fun _ s2 => done (finishTransfer s2)
          else done s1
      else (transferLoop f.dev f.mode f.bufidx (f.len.toNat + 1) 0 (s.transferStart (spiWord f) f.dev)).bind
        fun _ s1 => done (finishTransfer s1) := by
  obtain ⟨-, hbuf, hdev, -, hmode, hlen⟩ := spiWord_fields (s.transferStart (spiWord f) f.dev).regs f rfl
  simp only [transfer, hbuf, hdev, hmode, hlen, Nat.add_sub_cancel]
  rfl

/-- A transfer that ends keeps its control word, with BUSY = 0 (R102). -/
theorem finishTransfer_spiWord {r : Regs} {t : State} (f : SpiFields) (h : t.regs = { r with spiCnt := spiWord f }) :
    finishTransfer t = t.setRegs { r with spiCnt := spiWord { f with busy := 0 } } := by
  rw [← spiWord_clearBusy, finishTransfer, h]
  rfl

/-- A row of the modes 0 to 2 on a ready engine: where its loop runs whole, BUSY is cleared behind it (R100, R102). -/
theorem exec_transfer_whole {s t : State} {i : Instr} {f : SpiFields} (hs : EngineReady s f.clk390)
    (he : encode s.board i = ⟨.spicnt, le16Bytes (spiWord f)⟩) (hbusy : f.busy = 1) (hmode : f.mode ≠ 3)
    (hloop : transferLoop f.dev f.mode f.bufidx (f.len.toNat + 1) 0 (s.transferStart (spiWord f) f.dev) = .ok () t)
    (hregs : t.regs = { s.regs with spiCnt := spiWord f }) :
    exec i s = .next (t.setRegs { s.regs with spiCnt := spiWord { f with busy := 0 } }) := by
  rw [exec_spi_ready hs he, if_pos hbusy, transfer_transferStart, if_neg hmode, hloop, Res.bind_ok,
    finishTransfer_spiWord f hregs, done_state]

/-- A row of the mode 3 on a ready engine: a wait-read that gets no byte ends it, BUSY = 1 (R100, R101). -/
theorem exec_waitRead_unanswered {s t : State} {i : Instr} {f : SpiFields} (hs : EngineReady s f.clk390)
    (he : encode s.board i = ⟨.spicnt, le16Bytes (spiWord f)⟩) (hbusy : f.busy = 1) (hmode : f.mode = 3)
    (hwait : waitRead f.dev f.bufidx s.board.waitReadLimit 0 (s.transferStart (spiWord f) f.dev) = .ok false t) :
    exec i s = .next t := by
  rw [exec_spi_ready hs he, if_pos hbusy, transfer_transferStart, if_pos hmode, hwait, Res.bind_ok,
    if_neg Bool.false_ne_true, done_state]

/-- A row of the mode 3 and of one position: the byte a wait-read gets is the whole transfer, and BUSY is cleared
(R100 to R102). -/
theorem exec_waitRead_one {s t : State} {i : Instr} {f : SpiFields} (hs : EngineReady s f.clk390)
    (he : encode s.board i = ⟨.spicnt, le16Bytes (spiWord f)⟩) (hbusy : f.busy = 1) (hmode : f.mode = 3)
    (hlen : f.len = 0)
    (hwait : waitRead f.dev f.bufidx s.board.waitReadLimit 0 (s.transferStart (spiWord f) f.dev) = .ok true t)
    (hregs : t.regs = { s.regs with spiCnt := spiWord f }) :
    exec i s = .next (t.setRegs { s.regs with spiCnt := spiWord { f with busy := 0 } }) := by
  have hnone : f.len.toNat = 0 := hlen ▸ rfl
  rw [exec_spi_ready hs he, if_pos hbusy, transfer_transferStart, if_pos hmode, hwait, Res.bind_ok, if_pos rfl,
    hnone, transferLoop, Res.bind_done, finishTransfer_spiWord f hregs, done_state]

/-! ## The bytes a loop receives (R64, R100) -/

/-- A byte written, then bytes behind it, are one write. -/
theorem Memory.write_cons (m : Memory) (lo : Nat) (b : Byte) (bytes : List Byte) :
    (m.write lo [b]).write (lo + 1) bytes = m.write lo (b :: bytes) := by
  have hlow (a : Nat) : (decide (a < lo + 1) && decide (a < lo)) = decide (a < lo) := by grind
  have hgap (a : Nat) : (decide (a < lo + 1) && decide (lo + 1 ≤ a)) = false := by grind
  have hnone (a : Nat) : (decide (lo + 1 + bytes.length ≤ a) && decide (a < lo)) = false := by grind
  have hhigh (a : Nat) : (decide (lo + 1 + bytes.length ≤ a) && decide (lo + 1 ≤ a))
      = decide (lo + (bytes.length + 1) ≤ a) := by grind
  have hin : lo < lo + 1 := Nat.lt_succ_self lo
  have hout : ¬ lo + 1 + bytes.length ≤ lo := by omega
  simp only [Memory.write, List.filter_append, List.filter_filter, List.zipIdx_cons, List.zipIdx_nil, List.map_cons,
    List.map_nil, List.filter_cons, List.length_cons, List.length_nil, Nat.zero_add, hlow, hgap, hnone,
    hhigh, hin, hout, decide_true, decide_false, if_true, if_false, Bool.false_eq_true, List.filter_false,
    List.nil_append, List.append_assoc, List.cons_append]

theorem State.writeCells_cons (s : State) (r : Region) (lo : Nat) (b : Byte) (bytes : List Byte) :
    (s.writeCells r lo [b]).writeCells r (lo + 1) bytes = s.writeCells r lo (b :: bytes) := by
  cases r <;> simp only [State.writeCells, State.setArrays, Arrays.set, Arrays.get, Memory.write_cons]

/-- An exchange neither reads nor writes the RX buffer (R99). -/
theorem exchange_writeRx {dev : BitVec 2} {tx b : Byte} {s t : State} (lo : Nat) (bytes : List Byte)
    (h : exchange dev tx s = .ok b t) :
    exchange dev tx (s.writeCells .rx lo bytes) = .ok b (t.writeCells .rx lo bytes) := by
  have houtside : t.outside = s.outside := by
    rw [← exchange_outside dev tx s, h, Res.state_ok]
  have hwrite (v : State) : v.writeCells .rx lo bytes
      = v.withOutside { v.outside with rx := v.outside.rx.write lo bytes } := rfl
  rw [hwrite s, exchange_withOutside, h, hwrite t, houtside, Res.onState_ok]

/-- One position of a loop in a mode that reads (R64, R100). -/
theorem transferLoop_position {dev mode : BitVec 2} {h : BitVec 1} {i : Nat} {b : Byte} {s t : State} (n : Nat)
    (hmode : mode ≠ 0) (hexchange : exchange dev (transferTx mode h i s) s = .ok b t) :
    transferLoop dev mode h (n + 1) i s = transferLoop dev mode h n (i + 1) (t.writeCells .rx (bufOffset h i) [b]) := by
  rw [transferLoop, hexchange, Res.bind_ok, transferRx, if_neg hmode]

/-- A device that goes from `u j` to `u (j + 1)` and returns `byte j`, whatever is sent: a loop in a mode that reads stores
the bytes it returns, in order (R64, R99, R100). -/
theorem transferLoop_receives {dev mode : BitVec 2} {h : BitVec 1} {u : Nat → State} {byte : Nat → Byte}
    (hmode : mode ≠ 0) (hu : ∀ j tx, exchange dev tx (u j) = .ok (byte j) (u (j + 1))) (k i : Nat) :
    transferLoop dev mode h (k + 1) i (u 0) =
      .ok () ((u (k + 1)).writeCells .rx (bufOffset h i) ((List.range (k + 1)).map byte)) := by
  induction k generalizing i u byte with
  | zero => exact transferLoop_position 0 hmode (hu 0 _)
  | succ k ih =>
    have hrest := ih (u := fun j => (u (j + 1)).writeCells .rx (bufOffset h i) [byte 0]) (byte := fun j => byte (j + 1))
      (fun j tx => exchange_writeRx _ _ (hu (j + 1) tx)) (i + 1)
    rw [transferLoop_position (k + 1) hmode (hu 0 _), hrest, List.range_succ_eq_map (n := k + 1), List.map_cons,
      List.map_map]
    exact congrArg (Res.ok ()) (State.writeCells_cons _ .rx (bufOffset h i) _ _)

/-- A row of a mode that reads, on a ready engine, with such a device: the bytes it returns fill the RX half up to the
length, and BUSY is cleared (R64, R100, R102). -/
theorem exec_transfer_receives {s : State} {i : Instr} {f : SpiFields} {u : Nat → State} {byte : Nat → Byte}
    (hs : EngineReady s f.clk390) (he : encode s.board i = ⟨.spicnt, le16Bytes (spiWord f)⟩) (hbusy : f.busy = 1)
    (hmode : f.mode ≠ 0 ∧ f.mode ≠ 3) (hstart : u 0 = s.transferStart (spiWord f) f.dev)
    (hregs : ∀ j, (u j).regs = { s.regs with spiCnt := spiWord f })
    (hu : ∀ j tx, exchange f.dev tx (u j) = .ok (byte j) (u (j + 1))) :
    exec i s = .next (((u (f.len.toNat + 1)).writeCells .rx (512 * f.bufidx.toNat)
      ((List.range (f.len.toNat + 1)).map byte)).setRegs { s.regs with spiCnt := spiWord { f with busy := 0 } }) :=
  exec_transfer_whole hs he hbusy hmode.2 (hstart ▸ transferLoop_receives hmode.1 hu f.len.toNat 0) (hregs _)

/-- What a write of `n` bytes leaves of memory, with the bytes given by their place. -/
theorem State.storesOnly_writeRange (s : State) (r : Region) (lo n : Nat) (byte : Nat → Byte) :
    s.storesOnly (s.writeCells r lo ((List.range n).map byte)) r
      (fun x => if lo ≤ x ∧ x < lo + n then some (byte (x - lo)) else none) := by
  refine State.storesOnly_congr (State.storesOnly_writeCells s r lo _) rfl rfl fun x => ?_
  rw [List.length_map, List.length_range]
  split
  case isFalse => rfl
  case isTrue hx =>
    have hlt : x - lo < n := by omega
    rw [List.getD_eq_getElem _ _ (by rwa [List.length_map, List.length_range]), List.getElem_map, List.getElem_range]

/-! ## No device (R99, R101, R104 to R107) -/

/-- With no device a loop of the write mode does nothing (R99, R104). -/
theorem transferLoop_noDevice_write (h : BitVec 1) (k i : Nat) (s : State) : transferLoop 0 0 h k i s = .ok () s := by
  induction k generalizing i with
  | zero => rfl
  | succ k ih => rw [transferLoop, exchange_none, Res.bind_ok]; exact ih (i + 1)

/-- With no device a wait-read times out, whatever its limit (R99, R101). -/
theorem waitRead_noDevice (h : BitVec 1) (left skipped : Nat) (s : State) :
    waitRead 0 h left skipped s = .ok false (s.addLog .waitReadTimeout) := by
  induction left generalizing skipped with
  | zero => rfl
  | succ left ih => rw [waitRead, exchange_none, Res.bind_ok]; exact ih (skipped + 1)

/-- With no device 0xFF is returned for each byte sent (R99). -/
theorem exchangeAll_noDevice (bytes : List Byte) (s : State) :
    exchangeAll 0 bytes s = .ok () (s.setOut (s.out ++ List.replicate bytes.length 0xFF)) := by
  induction bytes generalizing s with
  | nil => rw [List.length_nil, List.replicate_zero, List.append_nil]; rfl
  | cons tx rest ih =>
    rw [exchangeAll, exchange_none, Res.bind_ok, ih, State.addOut_out, List.append_assoc, List.length_cons,
      List.replicate_succ]
    rfl

/-- A row of the flash, card or MCU format sends its frame to whichever device is selected (R99; log entry 4). -/
theorem exec_sends_frame {fmt : Format} {i : Instr} {s : State} {bytes : List Byte} (h : encode s.board i = ⟨fmt, bytes⟩)
    (hf : fmt ∈ [Format.flash, .card, .mcu]) : exec i s = operate s (sendFrame bytes) := by
  simp only [List.mem_cons, List.not_mem_nil, or_false] at hf
  rcases hf with rfl | rfl | rfl
  · exact exec_flash h
  · exact exec_card h
  · exact exec_mcu h

/-- Settles O15: each mode by what its loop does with no device; a row is exchanged with no device as well. -/
theorem transferWithNoDevice : Obligations.TransferWithNoDevice := by
  refine ⟨fun s bufidx clk390 len hs => ⟨?write, fun i m hi => ?reads, ?wait⟩,
    fun s clk390 i fmt bytes hs hclk hdev hf he => ?row⟩
  case write =>
    exact exec_transfer_whole (f := ⟨1, bufidx, 0, clk390, 0, len⟩) hs rfl rfl (by decide : (0 : BitVec 2) ≠ 3)
      (transferLoop_noDevice_write _ _ _ _) rfl
  case reads =>
    obtain ⟨hrow, hmode⟩ : encode s.board i = ⟨.spicnt, le16Bytes (spiWord ⟨1, bufidx, 0, clk390, m, len⟩)⟩ ∧
        m ≠ 0 ∧ m ≠ 3 := by
      simp only [List.mem_cons, List.not_mem_nil, or_false, Prod.mk.injEq] at hi
      rcases hi with ⟨rfl, rfl⟩ | ⟨rfl, rfl⟩ <;> exact ⟨rfl, by decide⟩
    have hexec := exec_transfer_receives (f := ⟨1, bufidx, 0, clk390, m, len⟩) (byte := fun _ => 0xFF)
      (u := fun _ => s.transferStart (spiWord ⟨1, bufidx, 0, clk390, m, len⟩) 0) hs hrow rfl hmode rfl (fun _ => rfl)
      fun _ tx => exchange_none tx _
    exact ⟨_, hexec, rfl, State.storesOnly_writeRange s .rx _ _ _⟩
  case wait =>
    exact exec_waitRead_unanswered (f := ⟨1, bufidx, 0, clk390, 3, len⟩) hs rfl rfl rfl (waitRead_noDevice _ _ _ _)
  case row =>
    have hclocked : clocked s.board s.regs = true := by
      refine Bool.or_eq_true_iff.2 (hs.clocked.imp_left fun hone => ?_)
      have hbit := congrArg (·.getLsbD 0) (hclk.trans hone)
      rwa [BitVec.getLsbD_extractLsb'] at hbit
    have hcan : canTransfer (s.setOut []) = true := (canTransfer_iff _ hs.board).2 ⟨hs.high, hs.notBusy, hclocked⟩
    have hnone : (s.setOut []).regs.dev = 0 := hdev
    rw [exec_sends_frame he hf, operate_running _ _ hs.noFault, sendFrame, if_pos hcan, hnone, exchangeAll_noDevice]
    rfl

/-! ## A card with replies queued (R101, R107, R132, R133) -/

/-- Filler reads out what a card has queued, 0xFF once it is empty, and changes nothing else, as long as no refill falls due
(R132, R133). -/
theorem feed_card_queued (filler : List Byte) (s : State) (hs : CardIdle s) (hbit7 : ∀ x ∈ filler, x.getLsbD 7 = true)
    (hrefill : s.card.streaming = true → filler.length ≤ s.card.reply.length) :
    feed .card filler s = .ok () ((s.setCard { s.card with reply := s.card.reply.drop filler.length }).setOut
      (s.out ++ (popFifo s.card.reply filler.length).out)) := by
  induction filler generalizing s with
  | nil => rw [feed_nil, List.length_nil, popFifo_out_zero, List.append_nil]; rfl
  | cons tx rest ih =>
    have hqueued (hstream : s.card.streaming = true) : rest.length + 1 ≤ s.card.reply.length := hrefill hstream
    have hnot : ¬ (s.card.streaming = true ∧ s.card.reply = [] ∧ s.card.cmd = []) := by
      rintro ⟨hstream, hempty, -⟩
      have hroom := hqueued hstream
      rw [hempty, List.length_nil] at hroom
      omega
    have htail := ih ((s.setCard { s.card with reply := s.card.reply.tail }).addOut (s.card.reply.headD 0xFF))
      ⟨hs.notCapturing, hs.noFrame⟩ (fun x hx => hbit7 x (List.mem_cons_of_mem _ hx))
      (fun hstream => by
        rw [State.addOut_card, State.setCard_card, List.length_tail]
        exact Nat.le_sub_one_of_lt (hqueued hstream))
    rw [feed_cons, exchange_card, cardExchange_scans hs.notCapturing hnot,
      cardScan_filler (by exact hs.noFrame) (hbit7 tx List.mem_cons_self), Res.bind_ok, Res.bind_ok, htail, List.length_cons,
      popFifo_out_succ]
    simp only [State.addOut_card, State.setCard_card, State.addOut_out, List.drop_tail, List.append_assoc]
    rfl

/-- A pop of the first part of a FIFO. -/
theorem popFifo_out_append {xs : List Byte} {n : Nat} (ys : List Byte) (h : xs.length = n) :
    (popFifo (xs ++ ys) n).out = xs := by
  subst h
  simp [popFifo, fill]

/-- The dummy exchanges of a wait-read reach the byte behind the queued 0xFF and leave the rest queued (R101, R133). -/
theorem feed_card_skips {s : State} {j : Nat} {b : Byte} {rest : List Byte} (hs : CardIdle s)
    (hstream : s.card.streaming = false) (hreply : s.card.reply = List.replicate j 0xFF ++ b :: rest) :
    feed .card (List.replicate (j + 1) 0xFF) s =
      .ok () ((s.setCard { s.card with reply := rest }).setOut (s.out ++ (List.replicate j 0xFF ++ [b]))) := by
  have hlen : (List.replicate j (0xFF : Byte) ++ [b]).length = j + 1 := by
    rw [List.length_append, List.length_replicate, List.length_singleton]
  have hsplit : s.card.reply = (List.replicate j 0xFF ++ [b]) ++ rest := by
    rw [hreply, List.append_assoc, List.singleton_append]
  rw [feed_card_queued _ s hs (fun x hx => by rw [List.eq_of_mem_replicate hx]; rfl)
    (fun h => absurd h (Bool.eq_false_iff.1 hstream)), List.length_replicate, hsplit, popFifo_out_append _ hlen,
    List.drop_left' hlen]

/-- Settles O18: the dummy exchanges read out the queue up to the byte that is not 0xFF, and no position remains. -/
theorem waitReadSkipsTheCardGap : Obligations.WaitReadSkipsTheCardGap := by
  intro s bufidx clk390 j b rest hs hcard hstream hj hb hreply
  have hskip := waitRead_skips .card bufidx j s.board.waitReadLimit 0 b
    (s.transferStart (spiWord ⟨1, bufidx, 1, clk390, 3, 0⟩) 1) _ hj hb
    (feed_card_skips ⟨hcard.notCapturing, hcard.noFrame⟩ hstream hreply) rfl
  rw [Nat.zero_add] at hskip
  exact exec_waitRead_one (f := ⟨1, bufidx, 1, clk390, 3, 0⟩) hs rfl rfl rfl rfl hskip rfl

/-! ## A flash in `Read` (R105, R110) -/

/-- Every exchange with a flash in `Read` returns the byte at its cursor and moves the cursor on (R110). -/
theorem exchange_flash_read {s : State} (tx : Byte) (hmode : s.flash.mode = .read) :
    exchange 2 tx s =
      .ok (flashByte s s.flash.cursor) (s.setFlash { s.flash with cursor := s.flash.cursor + 1 }) := by
  rw [show exchange 2 tx s = flashExchange tx s from rfl, flashExchange, hmode]
  rfl

/-- Settles O19: the flash goes from one cursor to the next and returns the byte there, so that the RX half holds the bytes
from the cursor on. -/
theorem spiReadStreamsTheFlash : Obligations.SpiReadStreamsTheFlash := by
  intro s bufidx clk390 len hs hread
  have hselected : s.flashSelected 2 = s.flash := if_neg fun h => h.2 rfl
  have hexec := exec_transfer_receives (f := ⟨1, bufidx, 2, clk390, 1, len⟩) (i := .spiRead bufidx 2 clk390 len)
    (byte := fun j => flashByte s (s.flash.cursor + j))
    (u := fun j => (s.transferStart (spiWord ⟨1, bufidx, 2, clk390, 1, len⟩) 2).setFlash
      { s.flash with cursor := s.flash.cursor + j }) hs rfl rfl (by decide : (1 : BitVec 2) ≠ 0 ∧ (1 : BitVec 2) ≠ 3)
    (congrArg (fun fl => (s.transferStart (spiWord ⟨1, bufidx, 2, clk390, 1, len⟩) 2).setFlash fl) hselected.symm)
    (fun _ => rfl) (fun j tx => exchange_flash_read tx hread)
  exact ⟨_, hexec, rfl, State.storesOnly_writeRange s .rx _ _ _⟩

end Sys2Proof.Machine
end

section
/-! SUPPORT. The proof that every step keeps the forms of the three peripherals, with the lemmas it rests on. -/

namespace Sys2Proof.Machine

/-! ## The forms of the three peripherals (R109, R112, R128, R131, R133, R137, R161 to R168)

Only a byte that joins a command FIFO of the flash or the card can break a form, and the decoding that follows it within
the same exchange mends it. -/

/-- The second piece of a sequence may leave a weaker property than the first one does. -/
theorem Res.bind_weakens {α β : Type} {P Q : State → Prop} {r : Res α} {f : α → State → Res β} (hr : P r.state)
    (hpq : ∀ s, P s → Q s) (hf : ∀ a s, P s → Q (f a s).state) : Q (r.bind f).state := by
  cases r with
  | ok a s => exact hf a s hr
  | halt s => exact hpq s hr

section
variable {s : State}

theorem State.peripheralsFormed.congr {t : State} (h : s.peripheralsFormed) (hboard : t.board = s.board)
    (hflash : t.flash = s.flash) (hcard : t.card = s.card) (hmcu : t.mcu = s.mcu) : t.peripheralsFormed :=
  ⟨hflash ▸ h.flash, hcard ▸ h.card, by rw [hboard, hmcu]; exact h.mcu⟩

theorem State.peripheralsFormed.setFlash {f : FlashState} (h : s.peripheralsFormed) (hf : f.Form) :
    (s.setFlash f).peripheralsFormed := ⟨hf, h.card, h.mcu⟩

theorem State.peripheralsFormed.setCard {c : CardState} (h : s.peripheralsFormed) (hc : c.Form) :
    (s.setCard c).peripheralsFormed := ⟨h.flash, hc, h.mcu⟩

theorem State.peripheralsFormed.setMcu {m : McuState} (h : s.peripheralsFormed) (hm : m.Form s.board) :
    (s.setMcu m).peripheralsFormed := ⟨h.flash, h.card, hm⟩

theorem State.peripheralsFormed.addLog (h : s.peripheralsFormed) (e : Event) : (s.addLog e).peripheralsFormed :=
  h.congr rfl rfl rfl rfl
theorem State.peripheralsFormed.addDraws (h : s.peripheralsFormed) (n : Nat) : (s.addDraws n).peripheralsFormed :=
  h.congr rfl rfl rfl rfl
theorem State.peripheralsFormed.addUsb (h : s.peripheralsFormed) (l : List Byte) : (s.addUsb l).peripheralsFormed :=
  h.congr rfl rfl rfl rfl
theorem State.peripheralsFormed.setFault (h : s.peripheralsFormed) (f : Fault) : (s.setFault f).peripheralsFormed :=
  h.congr rfl rfl rfl rfl
theorem State.peripheralsFormed.setArrays (h : s.peripheralsFormed) (a : Arrays) : (s.setArrays a).peripheralsFormed :=
  h.congr rfl rfl rfl rfl

/-! ### Fields no form speaks of -/

theorem FlashState.Form.setRest {f : FlashState} (h : f.Form) (cursor : Nat) (reply : List Byte) :
    { f with cursor := cursor, reply := reply }.Form :=
  ⟨h.pending, h.short, h.dataMode, h.asleep, h.onlyWel, h.sr1Zero, h.sr2Zero⟩

theorem CardState.Form.setRest {c : CardState} (h : c.Form) (streaming : Bool) (pos wpos : Nat) (reply : List Byte) :
    { c with streaming := streaming, pos := pos, wpos := wpos, reply := reply }.Form :=
  ⟨h.short, h.framed, h.status, h.capturing, h.notCapturing, h.block, h.dataPhase, h.crcPhase⟩

theorem McuState.Form.setRest {b : Board} {m : McuState} (h : m.Form b) (cmd reply : List Byte) (eraseCount : Half)
    (dest : BitVec 32) (need : Nat) (eepromMode : Byte) :
    { m with cmd := cmd, reply := reply, eraseCount := eraseCount, dest := dest, need := need,
             eepromMode := eepromMode }.Form b :=
  ⟨h.normal, h.unstarted, h.idle, h.steps, h.eepromSize⟩

/-! ### Pushes (R89) -/

/-- A push keeps the forms if the appended bytes do: one that does not fit leaves its FIFO as it is (R89). -/
theorem State.peripheralsFormed.push {d : Periph} {w : FifoId} {l : List Byte} (h : s.peripheralsFormed)
    (hset : (s.setFifo d w (s.fifo d w ++ l)).peripheralsFormed) : (push d w l s).state.peripheralsFormed := by
  rcases push_cases d w l s with ⟨-, he⟩ | ⟨-, he⟩ <;> rw [he]
  · exact h.setFault _
  · exact hset

theorem State.peripheralsFormed.pushReply (h : s.peripheralsFormed) (d : Periph) (l : List Byte) :
    (Machine.push d .reply l s).state.peripheralsFormed :=
  h.push <| match d with
    | .flash => h.setFlash (h.flash.setRest _ _)
    | .card => h.setCard (h.card.setRest _ _ _ _)
    | .mcu => h.setMcu (h.mcu.setRest _ _ _ _ _ _)

theorem State.peripheralsFormed.pushMcu (h : s.peripheralsFormed) (w : FifoId) (l : List Byte) :
    (Machine.push .mcu w l s).state.peripheralsFormed :=
  h.push <| match w with
    | .cmd => h.setMcu (h.mcu.setRest _ _ _ _ _ _)
    | .reply => h.setMcu (h.mcu.setRest _ _ _ _ _ _)

/-! ### Flash (R109, R112, R128, R131) -/

/-- A flash without a pending frame needs the status registers' form, and to be idle while asleep. -/
theorem FlashState.Form.ofNoFrame {f g : FlashState} (h : f.Form) (hcmd : g.cmd = [])
    (hasleep : g.sleeping = true → g.mode = .idle) (hsr0 : g.sr0 = f.sr0) (hsr1 : g.sr1 = f.sr1) (hsr2 : g.sr2 = f.sr2) :
    g.Form where
  pending _ _ hp := by rw [hcmd] at hp; cases hp
  short := by rw [hcmd]; exact Nat.zero_le _
  dataMode _ := hcmd
  asleep hs := ⟨hasleep hs, hcmd⟩
  onlyWel := hsr0 ▸ h.onlyWel
  sr1Zero := hsr1.trans h.sr1Zero
  sr2Zero := hsr2.trans h.sr2Zero

/-- The commands with an address are the five whose frame may be pending (R65, R66). -/
theorem flashAddressed_iff {op : Byte} {c : FlashOp} (h : flashOpOf op = some c) :
    flashAddressed c = true ↔ op ∈ [0x03#8, 0x02#8, 0x20#8, 0x52#8, 0xD8#8] := by
  rw [← flashCode_of_flashOpOf h]
  cases c <;> decide

/-- A pending frame is one of a command with an address (R109). -/
theorem FlashState.Form.pendingOp {f : FlashState} {op : Byte} {rest : List Byte} (h : f.Form) (hcmd : f.cmd = op :: rest) :
    ∃ c, flashOpOf op = some c ∧ flashAddressed c = true := by
  have hop := h.pending op rest hcmd
  simp only [List.mem_cons, List.not_mem_nil, or_false] at hop
  rcases hop with rfl | rfl | rfl | rfl | rfl
  · exact ⟨.read, rfl, rfl⟩
  · exact ⟨.program, rfl, rfl⟩
  · exact ⟨.erase4k, rfl, rfl⟩
  · exact ⟨.erase32k, rfl, rfl⟩
  · exact ⟨.erase64k, rfl, rfl⟩

/-- A write of WEL keeps the flash's form: no other bit of `sr[0]` is set (R129 to R131). -/
theorem FlashState.Form.setSr0 {f : FlashState} {v : Byte} (h : f.Form) (hv : v &&& 0xFD = 0) : { f with sr0 := v }.Form :=
  ⟨h.pending, h.short, h.dataMode, h.asleep, hv, h.sr1Zero, h.sr2Zero⟩

theorem State.peripheralsFormed.flashErase (h : s.peripheralsFormed) (size : Nat) (a : BitVec 24) :
    (flashErase size a s).peripheralsFormed := by
  rw [flashErase_eq]; exact h.setArrays _

theorem State.peripheralsFormed.flashStore (h : s.peripheralsFormed) (cursor : Nat) (v : Byte) :
    (flashStore s cursor v).peripheralsFormed := by
  rw [flashStore_eq]; exact h.setArrays _

/-- A command run with its frame consumed: only an awake flash goes into a data mode (R112). -/
theorem State.peripheralsFormed.flashCommand {c : FlashOp} (h : s.peripheralsFormed) (a : BitVec 24)
    (hmode : s.flash.mode = .idle) (hcmd : s.flash.cmd = []) (hawake : s.flash.sleeping = false ∨ c = .wake) :
    (flashCommand c a s).state.peripheralsFormed := by
  have intoMode (n : Nat) (m : FlashMode) (hc : c ≠ .wake) : { s.flash with cursor := n, mode := m }.Form :=
    h.flash.ofNoFrame hcmd (fun hs => absurd hs (by simp [hawake.resolve_right hc])) rfl rfl rfl
  cases c
  case read | program | rdsr1 | rdsr2 | rdsr3 => exact h.setFlash (intoMode _ _ (by decide))
  case erase4k | erase32k | erase64k =>
    exact (h.flashErase _ a).setFlash (intoMode _ _ (by decide))
  case mfrid | jedecid | uuid => exact h.pushReply _ _
  case wake | sleep => exact h.setFlash (h.flash.ofNoFrame hcmd (fun _ => hmode) rfl rfl rfl)
  case wren =>
    refine h.setFlash (h.flash.setSr0 ?_)
    rw [BitVec.and_comm, BitVec.and_or_distrib_left, BitVec.and_comm, h.flash.onlyWel]
    rfl
  case wrdi =>
    refine h.setFlash (h.flash.setSr0 ?_)
    rw [BitVec.and_assoc, BitVec.and_self]
    exact h.flash.onlyWel

/-- An awake idle flash may wait for the rest of the frame of a command with an address (R109). -/
theorem FlashState.Form.setPending {f : FlashState} {op : Byte} {c : FlashOp} {pre : List Byte} (h : f.Form)
    (hmode : f.mode = .idle) (hawake : f.sleeping = false) (hop : flashOpOf op = some c) (haddr : flashAddressed c = true)
    (hlen : pre.length < 3) : { f with cmd := op :: pre }.Form where
  pending _ _ hcmd := by
    obtain ⟨rfl, -⟩ := List.cons.inj hcmd
    exact (flashAddressed_iff hop).1 haddr
  short := hlen
  dataMode hdata := absurd hmode hdata
  asleep hs := absurd (hs.symm.trans hawake) (by decide)
  onlyWel := h.onlyWel
  sr1Zero := h.sr1Zero
  sr2Zero := h.sr2Zero

/-- Decoding a frame of a command with an address, whole or unfinished, keeps the forms (R109). -/
theorem State.peripheralsFormed.flashDecodeAddressed {op : Byte} {c : FlashOp} {pre : List Byte} (h : s.peripheralsFormed)
    (hmode : s.flash.mode = .idle) (hawake : s.flash.sleeping = false) (hop : flashOpOf op = some c)
    (haddr : flashAddressed c = true) (hlen : pre.length ≤ 3) :
    (flashDecode (s.setFlash { s.flash with cmd := op :: pre })).state.peripheralsFormed := by
  rcases hlen.lt_or_eq with hshort | hwhole
  · rw [flashDecode_waits rfl hop haddr hshort]
    exact h.setFlash (h.flash.setPending hmode hawake hop haddr hshort)
  · obtain ⟨a2, a1, a0, rfl⟩ := List.length_eq_three.1 hwhole
    rw [flashDecode_addressed rfl hop haddr]
    have emptied : (s.setFlash { s.flash with cmd := [] }).peripheralsFormed :=
      h.setFlash (h.flash.ofNoFrame rfl (fun _ => hmode) rfl rfl rfl)
    exact emptied.flashCommand _ hmode rfl (.inl hawake)

/-- Decoding a first byte that the flash takes keeps the forms (R109, R113). -/
theorem State.peripheralsFormed.flashDecodeFirst {tx : Byte} (h : s.peripheralsFormed) (hmode : s.flash.mode = .idle)
    (htakes : s.flash.sleeping = false ∨ tx = wakeByte) :
    (flashDecode (s.setFlash { s.flash with cmd := [tx] })).state.peripheralsFormed := by
  have emptied : (s.setFlash { s.flash with cmd := [] }).peripheralsFormed :=
    h.setFlash (h.flash.ofNoFrame rfl (fun _ => hmode) rfl rfl rfl)
  cases hop : flashOpOf tx with
  | none => rw [flashDecode_unknown rfl hop]; exact emptied.addLog _
  | some c =>
    have hawake : s.flash.sleeping = false ∨ c = .wake :=
      htakes.imp_right fun hwake => (Option.some.inj ((hwake ▸ hop).symm.trans rfl))
    cases haddr : flashAddressed c with
    | false => rw [flashDecode_byte rfl hop haddr]; exact emptied.flashCommand 0 hmode rfl hawake
    | true =>
      have hne : c ≠ .wake := fun hc => absurd haddr (by rw [hc]; decide)
      exact h.flashDecodeAddressed hmode (hawake.resolve_right hne) hop haddr (Nat.zero_le _)

/-- A byte that an idle flash takes joins the pending frame, if there is one, and is decoded: the forms are kept (R108,
R109). -/
theorem State.peripheralsFormed.flashDecode {tx : Byte} (h : s.peripheralsFormed) (hmode : s.flash.mode = .idle)
    (htakes : s.flash.sleeping = false ∨ tx = wakeByte) :
    (flashDecode (s.setFlash { s.flash with cmd := s.flash.cmd ++ [tx] })).state.peripheralsFormed := by
  cases hcmd : s.flash.cmd with
  | nil => exact h.flashDecodeFirst hmode htakes
  | cons op rest =>
    have hawake : s.flash.sleeping = false := by
      refine Bool.eq_false_iff.2 fun hs => ?_
      have hnone := (h.flash.asleep hs).2
      exact absurd (hcmd.symm.trans hnone) (List.cons_ne_nil _ _)
    have hlen : (rest ++ [tx]).length ≤ 3 := by
      have hshort := h.flash.short
      rw [hcmd] at hshort
      rwa [List.length_append]
    obtain ⟨c, hop, haddr⟩ := h.flash.pendingOp hcmd
    exact h.flashDecodeAddressed hmode hawake hop haddr hlen

theorem State.peripheralsFormed.flashIdle {tx : Byte} (h : s.peripheralsFormed) (hmode : s.flash.mode = .idle)
    (htakes : s.flash.sleeping = false ∨ tx = wakeByte) : (flashIdle tx s).state.peripheralsFormed := by
  have popped : (s.setFlash { s.flash with reply := pop1Rest s.flash.reply }).peripheralsFormed :=
    h.setFlash (h.flash.setRest _ _)
  unfold Machine.flashIdle
  rcases push_cases .flash .cmd [tx] (s.setFlash { s.flash with reply := pop1Rest s.flash.reply }) with
    ⟨-, he⟩ | ⟨-, he⟩ <;> rw [he]
  · exact popped.setFault _
  · rw [Res.bind_ok]
    exact Res.bind_keeps (popped.flashDecode hmode htakes) fun _ _ hdecoded => hdecoded

theorem State.peripheralsFormed.flashExchange (h : s.peripheralsFormed) (tx : Byte) :
    (flashExchange tx s).state.peripheralsFormed := by
  cases hmode : s.flash.mode <;> simp only [Machine.flashExchange, hmode]
  case read => exact h.setFlash (h.flash.setRest _ _)
  case write => exact (h.flashStore _ tx).setFlash (h.flash.setRest _ _)
  case erase | status => exact h
  case idle =>
    split
    case isTrue => exact h.addLog _
    case isFalse hn =>
      exact h.flashIdle hmode (by
        by_cases hs : s.flash.sleeping = true
        · exact .inr (by_contra fun htx => hn ⟨hs, htx⟩)
        · exact .inl (Bool.eq_false_iff.2 hs))

/-! ### Card (R133, R137, R139, R140) -/

theorem CardState.Form.setStatus {c : CardState} {v : Byte} (h : c.Form) (hv : v = 0x00 ∨ v = 0x01) :
    { c with status := v }.Form :=
  ⟨h.short, h.framed, hv, h.capturing, h.notCapturing, h.block, h.dataPhase, h.crcPhase⟩

/-- A card that does not capture may have a frame of at most five bytes pending, bit 7 of the first one clear (R133). -/
theorem CardState.Form.setFrame {c : CardState} {frame : List Byte} (h : c.Form) (hwcap : c.wcap = .none)
    (hlen : frame.length ≤ 5) (hbit7 : ∀ b rest, frame = b :: rest → b.getLsbD 7 = false) :
    { c with cmd := frame }.Form :=
  ⟨hlen, hbit7, h.status, fun hcap => absurd hwcap hcap, h.notCapturing, h.block, h.dataPhase, h.crcPhase⟩

/-- A capture armed, ended or between two blocks waits for a token (R137, R138, R146, R147). -/
theorem CardState.Form.setWaiting {c : CardState} {w : Capture} (h : c.Form) (hcmd : w ≠ .none → c.cmd = []) (wpos : Nat) :
    { c with wcap := w, wphase := .waitToken, wpos := wpos }.Form :=
  ⟨h.short, h.framed, h.status, hcmd, fun _ => rfl, h.block, nofun, nofun⟩

/-- A capture goes on to a place in range (R137). -/
theorem CardState.Form.setCapturing {c : CardState} {phase : CapturePhase} {block : List Byte} (h : c.Form)
    (hwcap : c.wcap ≠ .none) (hblock : block.length = 512) (hdata : ∀ k, phase = .data k → k < 512)
    (hcrc : ∀ k, phase = .crc k → k < 2) : { c with wphase := phase, wblock := block }.Form :=
  ⟨h.short, h.framed, h.status, h.capturing, fun hnone => absurd hnone hwcap, hblock, hdata, hcrc⟩

/-- A capture past its token is going on (R137). -/
theorem CardState.Form.capturing_of_phase {c : CardState} (h : c.Form) (hphase : c.wphase ≠ .waitToken) : c.wcap ≠ .none :=
  fun hnone => hphase (h.notCapturing hnone)

theorem State.peripheralsFormed.cardQueueBlock (h : s.peripheralsFormed) : (cardQueueBlock s).state.peripheralsFormed :=
  Res.bind_keeps (h.pushReply _ _) fun _ _ hgap => Res.bind_keeps (hgap.pushReply _ _) fun _ _ htoken =>
    Res.bind_keeps ((htoken.addDraws _).pushReply _ _) fun _ _ hblock => Res.bind_keeps (hblock.pushReply _ _)
      fun _ _ hcrc => hcrc.setCard (hcrc.card.setRest _ _ _ _)

/-- A write command arms its capture once its reply is queued (R146, R147). -/
theorem State.peripheralsFormed.cardCmdWrite (h : s.peripheralsFormed) (hcmd : s.card.cmd = []) (w : Capture)
    (arg : BitVec 32) : (cardCmdWrite w arg s).state.peripheralsFormed := by
  unfold Machine.cardCmdWrite cardReplyStatus
  rcases push_cases .card .reply [s.card.reply1 0] s with ⟨-, he⟩ | ⟨-, he⟩ <;> rw [he]
  · exact h.setFault _
  · have replied := h.setCard (h.card.setRest s.card.streaming s.card.pos s.card.wpos (s.card.reply ++ [s.card.reply1 0]))
    exact replied.setCard (replied.card.setWaiting (fun _ => hcmd) _)

/-- A command run with its frame consumed. -/
theorem State.peripheralsFormed.cardCommand (h : s.peripheralsFormed) (hcmd : s.card.cmd = []) (idx : BitVec 6)
    (arg : BitVec 32) : (cardCommand idx arg s).state.peripheralsFormed := by
  have moved (streaming : Bool) (pos : Nat) (reply : List Byte) :
      (s.setCard { s.card with streaming := streaming, pos := pos, reply := reply }).peripheralsFormed :=
    h.setCard (h.card.setRest streaming pos s.card.wpos reply)
  cases ho : cardOpOf idx with
  | none => simp only [Machine.cardCommand, ho]; exact h.pushReply _ _
  | some c =>
    cases c <;> simp only [Machine.cardCommand, ho]
    case reset => exact (h.setCard (h.card.setStatus (.inr rfl))).pushReply _ _
    case init1 | init41 => exact (h.setCard (h.card.setStatus (.inl rfl))).pushReply _ _
    case ifcond | setblklen => exact h.pushReply _ _
    case stop => exact (moved _ _ _).pushReply _ _
    case read1 => exact Res.bind_keeps ((moved _ _ _).pushReply _ _) fun _ _ hreplied => hreplied.cardQueueBlock
    case readn =>
      exact Res.bind_keeps ((moved _ _ _).pushReply _ _) fun _ _ hreplied => Res.bind_keeps hreplied.cardQueueBlock
        fun _ _ hqueued => hqueued.setCard (hqueued.card.setRest _ _ _ _)
    case write1 | writen => exact h.cardCmdWrite hcmd _ _

/-- The framer takes a byte: it waits for more, or runs the command of a whole frame (R133). -/
theorem State.peripheralsFormed.cardScan (h : s.peripheralsFormed) (hwcap : s.card.wcap = .none) (tx : Byte) :
    (cardScan tx s).state.peripheralsFormed := by
  unfold Machine.cardScan
  split
  case isTrue => exact h
  case isFalse hframed =>
    have hbit7 : ∀ b rest, s.card.cmd ++ [tx] = b :: rest → b.getLsbD 7 = false := by
      intro b rest hcons
      cases hcmd : s.card.cmd with
      | nil =>
        rw [hcmd] at hcons
        obtain ⟨rfl, -⟩ := List.cons.inj hcons
        exact Bool.eq_false_iff.2 fun hset => hframed ⟨hcmd, hset⟩
      | cons c pre =>
        rw [hcmd] at hcons
        obtain ⟨rfl, -⟩ := List.cons.inj hcons
        exact h.card.framed _ _ hcmd
    have hlen : (s.card.cmd ++ [tx]).length ≤ 6 := by
      rw [List.length_append]
      exact Nat.succ_le_succ h.card.short
    rcases push_cases .card .cmd [tx] s with ⟨-, he⟩ | ⟨-, he⟩ <;> rw [he]
    · exact h.setFault _
    · rw [Res.bind_ok]
      split
      case isTrue =>
        have hnone : (s.card.cmd ++ [tx]).drop 6 = [] := List.drop_eq_nil_of_le hlen
        have consumed : (s.setCard { s.card with cmd := (s.card.cmd ++ [tx]).drop 6 }).peripheralsFormed :=
          h.setCard (h.card.setFrame hwcap (by rw [hnone]; exact Nat.zero_le _) (by rw [hnone]; nofun))
        exact consumed.cardCommand hnone _ _
      case isFalse hunfinished =>
        exact h.setCard (h.card.setFrame hwcap (Nat.le_of_lt_succ (lt_of_le_of_ne hlen hunfinished)) hbit7)

/-- A block is committed: its bytes stored, the acknowledgment queued, the capture ended or waiting for the next token
(R138). -/
theorem State.peripheralsFormed.cardCommit (h : s.peripheralsFormed) : (cardCommit s).state.peripheralsFormed := by
  have stored : ((s.writeCells .card s.card.wpos (cardKept s.board s.card.wpos s.card.wblock)).setCard
      { s.card with wpos := s.card.wpos + cardBlockSize }).peripheralsFormed :=
    (h.setArrays _).setCard (h.card.setRest _ _ _ _)
  refine Res.bind_keeps (stored.pushReply _ _) fun _ u hacked => hacked.setCard (hacked.card.setWaiting ?_ _)
  intro hstill
  refine hacked.card.capturing fun hnone => hstill ?_
  rw [hnone]
  rfl

theorem State.peripheralsFormed.cardCapture (h : s.peripheralsFormed) (hwcap : s.card.wcap ≠ .none) (tx : Byte) :
    (cardCapture tx s).state.peripheralsFormed := by
  cases hphase : s.card.wphase <;> simp only [Machine.cardCapture, hphase]
  case waitToken =>
    split
    · exact h
    · split
      · exact h.setCard (h.card.setCapturing hwcap h.card.block (by rintro k ⟨⟩; decide) nofun)
      · exact ((h.addLog _).setCard (h.card.setWaiting (fun hne => absurd rfl hne) _)).cardScan rfl tx
  case data k =>
    rw [if_neg (by simp [cardWriteCrcLen])]
    refine h.setCard (h.card.setCapturing hwcap ((List.length_set ..).trans h.card.block) ?_ ?_)
    · intro j hj
      split at hj <;> cases hj
      omega
    · intro j hj
      split at hj <;> cases hj
      decide
  case crc k =>
    have hk := h.card.crcPhase k hphase
    split
    case isTrue => exact h.cardCommit
    case isFalse hmore =>
      refine h.setCard (h.card.setCapturing hwcap h.card.block nofun ?_)
      rintro j ⟨⟩
      exact lt_of_le_of_ne hk hmore

theorem State.peripheralsFormed.cardRefill (h : s.peripheralsFormed) : (cardRefill s).state.peripheralsFormed := by
  unfold Machine.cardRefill
  split
  · exact h.cardQueueBlock
  · exact h

theorem State.peripheralsFormed.cardExchange (h : s.peripheralsFormed) (tx : Byte) :
    (cardExchange tx s).state.peripheralsFormed := by
  refine Res.bind_keeps h.cardRefill fun _ s1 hrefilled => Res.bind_keeps ?_ fun _ _ htaken => htaken
  have popped : (s1.setCard { s1.card with reply := pop1Rest s1.card.reply }).peripheralsFormed :=
    hrefilled.setCard (hrefilled.card.setRest _ _ _ _)
  split
  case isTrue hwcap => exact popped.cardCapture hwcap tx
  case isFalse hwcap => exact popped.cardScan (not_not.1 hwcap) tx

/-! ### MCU, normal mode (R153 to R160) -/

theorem State.peripheralsFormed.mcuCommand (h : s.peripheralsFormed) (c : McuOp) (arg : BitVec 9) (bytes : List Byte) :
    (mcuCommand c arg bytes s).state.peripheralsFormed := by
  cases c with
  | echo | eemodeget | eeread => exact h.pushReply _ _
  | eemodeset => exact (h.setMcu (h.mcu.setRest _ _ _ _ _ _)).pushReply _ _
  | usbread => exact (h.addDraws 1).pushReply _ _
  | usbwrite => exact ((h.addDraws 1).addUsb _).pushReply _ _

theorem State.peripheralsFormed.mcuDecode (h : s.peripheralsFormed) : (mcuDecode s).state.peripheralsFormed := by
  have consumed (rest : List Byte) : (s.setMcu { s.mcu with cmd := rest }).peripheralsFormed :=
    h.setMcu (h.mcu.setRest _ _ _ _ _ _)
  unfold Machine.mcuDecode
  split
  · exact h
  · dsimp only
    split
    · exact (consumed _).addLog _
    · split
      · exact h
      · exact (consumed _).mcuCommand _ _ _

theorem State.peripheralsFormed.mcuByte (h : s.peripheralsFormed) (tx : Byte) : (mcuByte tx s).state.peripheralsFormed :=
  Res.bind_keeps (h.pushMcu _ _) fun _ _ hjoined => hjoined.mcuDecode

end

/-! ### MCU, bootloader (R161 to R168) -/

/-- A formed block whose bootloader is started. -/
structure State.Booted (s : State) : Prop extends s.peripheralsFormed where
  boot : s.mcu.bootMode = true
  started : s.mcu.started = true

/-- A started bootloader in the command `c`. -/
structure State.InCommand (s : State) (c : BootOp) : Prop extends s.Booted where
  command : s.mcu.blCmd = some c

section
variable {s : State} {c : BootOp}

theorem State.Booted.addLog (h : s.Booted) (e : Event) : (s.addLog e).Booted :=
  ⟨h.toperipheralsFormed.addLog e, h.boot, h.started⟩

theorem State.InCommand.addLog (h : s.InCommand c) (e : Event) : (s.addLog e).InCommand c :=
  ⟨h.toBooted.addLog e, h.command⟩

/-- A started bootloader stays formed at any of the steps 0 to 3, at step 0 without a command. -/
theorem State.Booted.setMcu (h : s.Booted) (cmd reply : List Byte) (waitingAck : Bool) (blCmd : Option BootOp) (step : Nat)
    (eraseCount : Half) (dest : BitVec 32) (need : Nat) (hidle : blCmd = none → step = 0) (hsteps : step ≤ 3) :
    (s.setMcu { s.mcu with
      cmd := cmd, reply := reply, waitingAck := waitingAck, blCmd := blCmd, step := step, eraseCount := eraseCount
      dest := dest, need := need }).Booted where
  toperipheralsFormed := h.toperipheralsFormed.setMcu
    ⟨fun hnormal => absurd (hnormal.symm.trans h.boot) (by decide),
      fun hunstarted => absurd (hunstarted.symm.trans h.started) (by decide), hidle, hsteps, h.mcu.eepromSize⟩
  boot := h.boot
  started := h.started

/-- A started bootloader stays in its command at any of the steps 0 to 3. -/
theorem State.InCommand.setMcu (h : s.InCommand c) (cmd : List Byte) (step : Nat) (eraseCount : Half) (dest : BitVec 32)
    (need : Nat) (hsteps : step ≤ 3) :
    (s.setMcu { s.mcu with
      cmd := cmd, step := step, eraseCount := eraseCount, dest := dest, need := need }).InCommand c :=
  ⟨h.toBooted.setMcu _ _ _ _ _ _ _ _ (fun hnone => absurd (hnone.symm.trans h.command) nofun) hsteps, h.command⟩

theorem State.Booted.push (h : s.Booted) (w : FifoId) (l : List Byte) : (push .mcu w l s).state.Booted := by
  have formed := h.toperipheralsFormed.pushMcu w l
  rcases push_cases .mcu w l s with ⟨-, he⟩ | ⟨-, he⟩ <;> rw [he] at formed ⊢
  · exact ⟨formed, h.boot, h.started⟩
  · cases w <;> exact ⟨formed, h.boot, h.started⟩

theorem State.InCommand.push (h : s.InCommand c) (w : FifoId) (l : List Byte) : (push .mcu w l s).state.InCommand c := by
  have booted := h.toBooted.push w l
  rcases push_cases .mcu w l s with ⟨-, he⟩ | ⟨-, he⟩ <;> rw [he] at booted ⊢
  · exact ⟨booted, h.command⟩
  · cases w <;> exact ⟨booted, h.command⟩

/-- A reply to acknowledge: ACK or NACK (R161). -/
theorem State.Booted.pushAwaited (h : s.Booted) (reply : Byte) :
    ((Machine.push .mcu .reply [reply] s).bind fun _ u =>
      done (u.setMcu { u.mcu with waitingAck := true })).state.Booted :=
  Res.bind_keeps (h.push _ _) fun _ _ hu => hu.setMcu _ _ _ _ _ _ _ _ hu.mcu.idle hu.mcu.steps

theorem State.Booted.blAck (h : s.Booted) : (blAck s).state.Booted := h.pushAwaited bootAck

theorem State.Booted.blNack (h : s.Booted) : (blNack s).state.Booted := h.pushAwaited bootNack

theorem State.Booted.blSelect (h : s.Booted) (op par : Byte) : (blSelect op par s).state.Booted := by
  unfold Machine.blSelect
  split
  · exact h.addLog _
  · split
    · exact h.blNack
    · exact (h.setMcu _ _ _ _ _ _ _ _ (by rintro ⟨⟩) (by decide)).blAck

theorem State.Booted.blFrame (h : s.Booted) (tx : Byte) : (blFrame tx s).state.Booted := by
  unfold Machine.blFrame
  split
  · exact h
  · refine Res.bind_keeps (h.push _ _) fun _ u hu => ?_
    split
    · exact hu
    · exact (hu.setMcu _ _ _ _ _ _ _ _ hu.mcu.idle hu.mcu.steps).blSelect _ _

theorem State.InCommand.blPayload (h : s.InCommand c) : (blPayload c s).state.Booted := by
  unfold Machine.blPayload
  split
  · exact ((h.addLog _).toBooted.setMcu _ _ _ _ _ _ _ _ (fun _ => rfl) (by decide)).blAck
  · exact h.toBooted

theorem State.InCommand.blStepAddress (h : s.InCommand c) (tx : Byte) : (blStepAddress c tx s).state.Booted := by
  refine Res.bind_weakens (P := (State.InCommand · c)) (h.push _ _) (fun _ hu => hu.toBooted) fun _ u hu => ?_
  split
  · exact hu.toBooted
  · cases c with
    | go => exact ((hu.addLog _).setMcu _ _ _ _ _ (by decide)).toBooted.blAck
    | write | erase => exact (hu.setMcu _ _ _ _ _ (by decide)).toBooted.blAck

theorem State.InCommand.blStepHeader (h : s.InCommand c) (tx : Byte) : (blStepHeader c tx s).state.Booted := by
  refine Res.bind_weakens (P := (State.InCommand · c)) (h.push _ _) (fun _ hu => hu.toBooted) fun _ u hu => ?_
  split
  · exact hu.toBooted
  · cases c <;> exact (hu.setMcu _ _ _ _ _ (by decide)).blPayload

theorem State.InCommand.blStep (h : s.InCommand c) (tx : Byte) : (blStep c tx s).state.Booted := by
  unfold Machine.blStep
  split
  · exact h.blStepAddress tx
  · exact h.blStepHeader tx
  · exact (h.setMcu _ _ _ _ _ h.mcu.steps).blPayload
  · exact h.toBooted

/-- A bootloader that waits for an acknowledgment is started (R161). -/
theorem State.peripheralsFormed.booted_of_waiting (h : s.peripheralsFormed) (hboot : s.mcu.bootMode = true)
    (hwait : s.mcu.waitingAck = true) : s.Booted :=
  ⟨h, hboot, by_contra fun hs =>
    absurd (hwait.symm.trans (h.mcu.unstarted (Bool.eq_false_iff.2 hs)).2) (by decide)⟩

/-- The acknowledgment of a BL.GO leaves the bootloader stopped, in normal mode (R168). -/
theorem State.peripheralsFormed.blExit (h : s.peripheralsFormed) (hsettled : s.mcu.waitingAck = false) :
    (blExit s).peripheralsFormed :=
  h.setMcu ⟨fun _ => ⟨rfl, hsettled, rfl⟩, fun _ => ⟨rfl, hsettled⟩, fun _ => rfl, Nat.zero_le _, h.mcu.eepromSize⟩

theorem State.Booted.blAwaited (h : s.Booted) (tx : Byte) : (blAwaited tx s).state.peripheralsFormed := by
  have settled := h.setMcu s.mcu.cmd s.mcu.reply false s.mcu.blCmd s.mcu.step s.mcu.eraseCount s.mcu.dest s.mcu.need
    h.mcu.idle h.mcu.steps
  unfold Machine.blAwaited
  split
  · dsimp only
    split
    · exact settled.blExit rfl
    · exact settled.toperipheralsFormed
  · exact h.toperipheralsFormed

/-- The sync byte starts the bootloader (R163). -/
theorem State.peripheralsFormed.blUnstarted (h : s.peripheralsFormed) (hboot : s.mcu.bootMode = true) (tx : Byte) :
    (blUnstarted tx s).state.peripheralsFormed := by
  unfold Machine.blUnstarted
  split
  · have started : (s.setMcu { s.mcu with started := true }).Booted :=
      ⟨h.setMcu ⟨fun hnormal => absurd (hnormal.symm.trans hboot) (by decide), nofun, h.mcu.idle, h.mcu.steps,
        h.mcu.eepromSize⟩, hboot, rfl⟩
    exact started.blAck.toperipheralsFormed
  · exact h

theorem State.peripheralsFormed.blByte (h : s.peripheralsFormed) (hboot : s.mcu.bootMode = true) (tx : Byte) :
    (blByte tx s).state.peripheralsFormed := by
  unfold Machine.blByte
  split
  case isTrue hwait => exact (h.booted_of_waiting hboot hwait).blAwaited tx
  case isFalse =>
    split
    case isTrue => exact h.blUnstarted hboot tx
    case isFalse hstarted =>
      have booted : s.Booted := ⟨h, hboot, Bool.eq_true_of_not_eq_false hstarted⟩
      cases hcommand : s.mcu.blCmd with
      | none => exact (booted.blFrame tx).toperipheralsFormed
      | some c => exact (State.InCommand.blStep ⟨booted, hcommand⟩ tx).toperipheralsFormed

theorem State.peripheralsFormed.mcuExchange (h : s.peripheralsFormed) (tx : Byte) :
    (mcuExchange tx s).state.peripheralsFormed := by
  have popped : (s.setMcu { s.mcu with reply := pop1Rest s.mcu.reply }).peripheralsFormed :=
    h.setMcu (h.mcu.setRest _ _ _ _ _ _)
  refine Res.bind_keeps ?_ fun _ _ htaken => htaken
  split
  case isTrue hboot => exact popped.blByte hboot tx
  case isFalse => exact popped.mcuByte tx

end

/-! ### Resets and steps (R114, R149, R151, R196, R197) -/

theorem cardReset_form {c : CardState} (h : c.Form) : (cardReset c).Form :=
  ⟨Nat.zero_le _, nofun, .inr rfl, fun _ => rfl, fun _ => rfl, h.block, nofun, nofun⟩

theorem mcuResetEvent_form {b : Board} {m : McuState} (h : m.Form b) (boot : Bool) :
    { mcuResetTransient m with bootMode := boot }.Form b :=
  ⟨fun _ => ⟨rfl, rfl, rfl⟩, fun _ => ⟨rfl, rfl⟩, fun _ => rfl, Nat.zero_le _, h.eepromSize⟩

theorem State.peripheralsFormed.writeThrough {s : State} (h : s.peripheralsFormed) (addr : BitVec 20) (v : Byte) (p : Bool) :
    (writeThrough s addr v p).peripheralsFormed := by
  obtain ⟨arr, he, -⟩ := writeThrough_spec s addr v p
  rw [he]
  exact h.setArrays arr

/-- No update of a step breaks the form of a peripheral. -/
theorem kept_peripheralsFormed : Kept State.peripheralsFormed where
  regs _ _ hs := hs.congr rfl rfl rfl rfl
  out _ _ hs := hs.congr rfl rfl rfl rfl
  log _ e hs := hs.addLog e
  draws _ n hs := hs.addDraws n
  rtc _ _ hs := hs.congr rfl rfl rfl rfl
  fsm _ _ hs := hs.congr rfl rfl rfl rfl
  script _ _ hs := hs.congr rfl rfl rfl rfl
  rx _ _ _ hs := hs.setArrays _
  store _ addr v p hs := hs.writeThrough addr v p
  deselect _ hs := hs.setFlash (hs.flash.ofNoFrame rfl (fun _ => rfl) rfl rfl rfl)
  mcuReset _ boot hs := hs.setMcu (mcuResetEvent_form hs.mcu boot)
  warm _ hs := ⟨FlashState.reset_form, cardReset_form hs.card, mcuResetEvent_form hs.mcu false⟩
  cold s _ hs := ⟨FlashState.reset_form, cardReset_form hs.card, McuState.reset_form s.board⟩
  exchange d tx _ hs := match d with
    | .flash => hs.flashExchange tx
    | .card => hs.cardExchange tx
    | .mcu => hs.mcuExchange tx

/-- Settles O58: the forms are a kept property of steps. -/
theorem stepKeepsThePeripheralForms : Obligations.StepKeepsThePeripheralForms :=
  fun _ _ hs hstep => kept_peripheralsFormed.step hs hstep

end Sys2Proof.Machine
end

section
/-! SUPPORT. The proofs of the statements about the erases, the one-byte commands and the data modes of the flash, with the
lemmas they rest on. -/

namespace Sys2Proof.Machine

/-! ## Erases (R109, R115, R118 to R120) -/

/-- The base of the block of `size` bytes that holds an address, `size` a power of two: the address with the low bits
cleared is the address rounded down to a multiple of `size` (R115). -/
theorem toNat_and_blockMask {size k : Nat} (a : BitVec 24) (hsize : size = 2 ^ k)
    (hmask : ~~~ BitVec.ofNat 24 (size - 1) = BitVec.allOnes 24 <<< k) :
    (a &&& ~~~ BitVec.ofNat 24 (size - 1)).toNat = a.toNat / size * size := by
  rw [hmask, ← BitVec.shiftLeft_ushiftRight, BitVec.toNat_shiftLeft, BitVec.toNat_ushiftRight,
    Nat.shiftRight_eq_div_pow, Nat.shiftLeft_eq, ← hsize]
  exact Nat.mod_eq_of_lt ((Nat.div_mul_le_self _ _).trans_lt a.isLt)

/-- An erase row on a ready flash: four reply bytes, then the erase of the block of `size` bytes that holds the address. -/
theorem exec_flash_erase {s : State} {i : Instr} {c : FlashOp} {a : BitVec 24} {size k : Nat} (hs : FlashReady s)
    (hi : encode s.board i = ⟨.flash, flashFrame4 c a⟩) (haddr : flashAddressed c = true)
    (hc : ∀ u, flashCommand c a u = flashEraseBlock size a u) (hsize : size = 2 ^ k)
    (hmask : ~~~ BitVec.ofNat 24 (size - 1) = BitVec.allOnes 24 <<< k) :
    let base := (a &&& ~~~ BitVec.ofNat 24 (size - 1)).toNat
    ∃ t, exec i s = .next t ∧
      t = { s with
        flash := { s.flash with mode := .erase, cursor := a.toNat, reply := s.flash.reply.drop 4 }
        arrays := t.arrays
        out := (popFifo s.flash.reply 4).out } ∧
      s.storesOnly t .flash (fun x =>
        match s.board.flashSize with
        | none => none
        | some n =>
          if s.board.flashEraseFills = true ∧ base ≤ x ∧ x < base + size ∧ x < n then some 0xFF else none) := by
  intro base
  have hbase : base = a.toNat / size * size := toNat_and_blockMask a hsize hmask
  have hframe := feed_flash_frame4 (c := c) (a := a) (s := s.setOut []) hs.idle hs.noFrame hs.awake
    (Board.wf_fifoCap hs.board) haddr
  have hreads := flashErase_reads size a ((s.setFlash { s.flash with reply := s.flash.reply.drop 4 }).setOut
    (popFifo s.flash.reply 3).out)
  rw [exec_selected hi (by decide) hs.toRunning hs.toExchanging, operate_running _ _ hs.noFault, hframe, hc,
    flashEraseBlock, Res.bind_done, flashErase_eq, hbase,
    popFifo_out_snoc s.flash.reply 3]
  exact ⟨_, rfl, rfl, State.storesOnly_congr hreads rfl rfl fun _ => rfl⟩

/-- Settles O34: each row is an erase of its size, and the base of its block is the address rounded down. -/
theorem flashEraseFillsItsBlock : Obligations.FlashEraseFillsItsBlock := by
  intro s a i size hs hi
  simp only [List.mem_cons, List.not_mem_nil, or_false, Prod.mk.injEq] at hi
  rcases hi with ⟨rfl, rfl⟩ | ⟨rfl, rfl⟩ | ⟨rfl, rfl⟩
  · exact exec_flash_erase (c := .erase4k) (k := 12) hs rfl rfl (fun _ => rfl) rfl (by decide)
  · exact exec_flash_erase (c := .erase32k) (k := 15) hs rfl rfl (fun _ => rfl) rfl (by decide)
  · exact exec_flash_erase (c := .erase64k) (k := 16) hs rfl rfl (fun _ => rfl) rfl (by decide)

/-! ## One-byte commands (R121 to R130) -/

/-- A row of a one-byte command on an idle flash that takes it: the reply byte is popped, then the command runs (R108,
R109). -/
theorem exec_flash_byte {s : State} {i : Instr} {c : FlashOp} (hs : FlashIdle s)
    (hawake : s.flash.sleeping = false ∨ c = .wake) (hi : encode s.board i = ⟨.flash, [flashCode c]⟩)
    (haddr : flashAddressed c = false) :
    exec i s = .next ((flashCommand c 0 { s with
      flash := { s.flash with reply := s.flash.reply.tail }, out := [] }).bind fun _ t =>
        .ok () (t.addOut (s.flash.reply.headD 0xFF))).state := by
  rw [exec_selected hi (by decide) hs.toRunning hs.toExchanging, operate_running _ _ hs.noFault,
    feed_flash_byte (s := s.setOut []) hs.idle hs.noFrame (hawake.imp_right fun hc => hc ▸ rfl) (Board.wf_fifoCap hs.board)
      (flashOpOf_flashCode c) haddr]
  rfl

/-- A one-byte row sent to a selected flash is one exchange with it (R99). -/
theorem exec_flash_exchange {s t : State} {i : Instr} {op v : Byte} (hs : s.Running) (he : Exchanging s .flash)
    (hi : encode s.board i = ⟨.flash, [op]⟩) (hx : flashExchange op (s.setOut []) = .ok v t) :
    exec i s = .next (t.addOut v) := by
  rw [exec_selected hi (by decide) hs he, operate_running _ _ hs.noFault, feed_cons, exchange_flash, hx]
  rfl

/-- A flash in `Status(k)` echoes `sr[k]` at every one-byte row, and nothing changes (R110). -/
theorem exec_flash_status {s : State} {i : Instr} {op : Byte} {k : Fin 3} (hs : s.Running) (he : Exchanging s .flash)
    (hi : encode s.board i = ⟨.flash, [op]⟩) (hmode : s.flash.mode = .status k) :
    exec i s = .next { s with out := [s.flash.srAt k] } :=
  exec_flash_exchange hs he hi (flashExchange_still (s := s.setOut []) (.inr ⟨k, hmode, rfl⟩))

/-- A row of a status read latches its mode, and the rows after it read the register (R121 to R123). -/
theorem exec_flash_statusRead {s : State} {i : Instr} {c : FlashOp} {k : Fin 3} (hs : FlashReady s)
    (hi : encode s.board i = ⟨.flash, [flashCode c]⟩) (haddr : flashAddressed c = false)
    (hc : ∀ u, flashCommand c 0 u = flashStatus k u) :
    ∃ t, exec i s = .next t ∧
      t = { s with
        flash := { s.flash with mode := .status k, reply := s.flash.reply.tail }
        out := [s.flash.reply.headD 0xFF] } ∧
      ∀ j op, encode s.board j = ⟨.flash, [op]⟩ → exec j t = .next { t with out := [s.flash.srAt k] } := by
  refine ⟨_, (exec_flash_byte hs.toFlashIdle (.inl hs.awake) hi haddr).trans ?_, rfl, fun j op hj => ?_⟩
  · rw [hc]
    rfl
  · exact exec_flash_status ⟨hs.noFault, hs.board⟩ ⟨hs.reached, hs.notBusy, hs.clocked, hs.selected⟩ hj rfl

/-- Settles O35: each row is the status read of its register. -/
theorem flashStatusReadsEchoTheirRegister : Obligations.FlashStatusReadsEchoTheirRegister := by
  intro s i k v hs hi
  simp only [List.mem_cons, List.not_mem_nil, or_false, Prod.mk.injEq] at hi
  rcases hi with ⟨rfl, rfl, rfl⟩ | ⟨rfl, rfl, rfl⟩ | ⟨rfl, rfl, rfl⟩
  · exact exec_flash_statusRead (c := .rdsr1) hs rfl rfl fun _ => rfl
  · exact exec_flash_statusRead (c := .rdsr2) hs rfl rfl fun _ => rfl
  · exact exec_flash_statusRead (c := .rdsr3) hs rfl rfl fun _ => rfl

/-- A row of an identity command on a ready flash queues its response behind the replies, or takes the fault with the byte
popped (R124 to R126, R181). -/
theorem exec_flash_identity {s : State} {i : Instr} {c : FlashOp} {resp : Board → List Byte} (hs : FlashReady s)
    (hi : encode s.board i = ⟨.flash, [flashCode c]⟩) (haddr : flashAddressed c = false)
    (hc : ∀ u, flashCommand c 0 u = push .flash .reply (resp u.board) u) :
    (s.flash.reply.tail.length + (resp s.board).length ≤ s.board.fifoCap →
      exec i s = .next { s with
        flash := { s.flash with reply := s.flash.reply.tail ++ resp s.board }, out := [s.flash.reply.headD 0xFF] }) ∧
    (s.board.fifoCap < s.flash.reply.tail.length + (resp s.board).length →
      exec i s = .next { s with
        flash := { s.flash with reply := s.flash.reply.tail }
        fault := some (.fifoOverflow .flash .reply)
        out := [] }) := by
  rw [exec_flash_byte hs.toFlashIdle (.inl hs.awake) hi haddr, hc]
  refine ⟨fun hfits => ?_, fun hover => ?_⟩
  · rw [push_fits (by exact hfits)]
    rfl
  · rw [push_overflows (by exact hover)]
    rfl

/-- Settles O36: each row is the identity command of its response. -/
theorem flashIdentitiesQueueTheirResponse : Obligations.FlashIdentitiesQueueTheirResponse := by
  intro s i resp hs hi
  simp only [List.mem_cons, List.not_mem_nil, or_false, Prod.mk.injEq] at hi
  rcases hi with ⟨rfl, rfl⟩ | ⟨rfl, rfl⟩ | ⟨rfl, rfl⟩
  · exact exec_flash_identity (c := .mfrid) (resp := Board.flashRespMfrDev) hs rfl rfl fun _ => rfl
  · exact exec_flash_identity (c := .jedecid) (resp := Board.flashRespJedec) hs rfl rfl fun _ => rfl
  · exact exec_flash_identity (c := .uuid) (resp := Board.flashRespUuid) hs rfl rfl fun _ => rfl

/-- Settles O37: each row is a one-byte command that writes its flag; only FL.WAKE needs no awake flash. -/
theorem flashFlagCommandsSetTheirFlag : Obligations.FlashFlagCommandsSetTheirFlag := by
  refine fun s => ⟨fun hs => ?wake, fun hs => ?sleep, fun hs => ?wren, fun hs => ?wrdi⟩
  case wake => exact exec_flash_byte (c := .wake) hs (.inr rfl) rfl rfl
  case sleep => exact exec_flash_byte (c := .sleep) hs.toFlashIdle (.inl hs.awake) rfl rfl
  case wren => exact exec_flash_byte (c := .wren) hs.toFlashIdle (.inl hs.awake) rfl rfl
  case wrdi => exact exec_flash_byte (c := .wrdi) hs.toFlashIdle (.inl hs.awake) rfl rfl

/-! ## Data modes (R110, R111) -/

/-- A programmed byte is stored at its cursor if an image reaches that far, and nowhere else (R110). -/
theorem flashStore_storesOnly (s : State) (cursor : Nat) (v : Byte) :
    s.storesOnly (flashStore s cursor v) .flash (fun x =>
      if x = cursor ∧ (∃ n, s.board.flashSize = some n ∧ x < n) then some v else none) := by
  refine State.storesOnly_congr (flashStore_reads s cursor v) rfl rfl fun x => ?_
  cases s.board.flashSize with
  | none => simp
  | some n =>
    by_cases hx : x = cursor
    · subst hx; simp
    · simp [hx, Ne.symm hx]

/-- Settles O39: one exchange in each mode. -/
theorem flashDataModesTakeBytesAsData : Obligations.FlashDataModesTakeBytesAsData := by
  intro s i op hs he hi
  refine ⟨fun hmode => ?read, fun hmode => ?write, fun hmode => ?erase, fun hmode => ?sr0, fun hmode => ?sr1,
    fun hmode => ?sr2⟩
  case read =>
    exact exec_flash_exchange hs he hi (show exchange 2 op (s.setOut []) = _ from exchange_flash_read op hmode)
  case write =>
    have hx : flashExchange op (s.setOut []) =
        .ok (flashWriteByte op (s.setOut [])).1 (flashWriteByte op (s.setOut [])).2 := by
      rw [flashExchange, State.setOut_flash, hmode]
    rw [flashWriteByte, flashStore_eq] at hx
    exact ⟨_, exec_flash_exchange hs he hi hx, rfl,
      State.storesOnly_congr (flashStore_storesOnly (s.setOut []) s.flash.cursor op) rfl rfl fun _ => rfl⟩
  case erase => exact exec_flash_exchange hs he hi (flashExchange_still (s := s.setOut []) (.inl ⟨hmode, rfl⟩))
  case sr0 | sr1 | sr2 => exact exec_flash_status hs he hi hmode

end Sys2Proof.Machine
end

section
/-! SUPPORT. The proofs of the statements about a card's one-reply commands, the streaming refill and a capture that ends at
an unexpected token, with the lemmas they rest on. -/

namespace Sys2Proof.Machine

/-! ## Commands that only reply (R134, R139 to R143, R148) -/

/-- A ready card when the sixth byte of a frame runs the command: the six bytes have popped the reply FIFO, five of them are
returned (R132, R133). -/
def State.atCommand (s : State) : State :=
  { s with card := { s.card with reply := s.card.reply.drop 6 }, out := (popFifo s.card.reply 5).out }

/-- A row of one frame on a ready card whose command only changes the card: six reply bytes are returned (R67, R133). -/
theorem exec_card_command {s : State} {i : Instr} {idx : BitVec 6} {f : CardArgs} {c : CardState} (hs : CardReady s)
    (hi : encode s.board i = ⟨.card, cardFrame idx f⟩)
    (hc : cardCommand idx f.arg s.atCommand = .ok () (s.atCommand.setCard c)) :
    exec i s = .next { s with card := c, out := (popFifo s.card.reply 6).out } := by
  have hrun := feed_card_ready [] hs hc
  rw [List.append_nil, feed_nil] at hrun
  rw [exec_selected hi (by decide) hs.toRunning hs.toExchanging, operate_running _ _ hs.noFault, hrun,
    popFifo_out_snoc s.card.reply 5]
  rfl

/-- A row on a ready card whose command sets the latched status and replies it with its flags (R134). -/
theorem exec_card_status {s : State} {i : Instr} {idx : BitVec 6} {f : CardArgs} {status flags : Byte} (hs : CardReady s)
    (hi : encode s.board i = ⟨.card, cardFrame idx f⟩)
    (hc : cardCommand idx f.arg s.atCommand =
      cardReplyStatus flags (s.atCommand.setCard { s.atCommand.card with status := status })) :
    exec i s = .next { s with
      card := { s.card with status := status, reply := s.card.reply.drop 6 ++ [status ||| flags] }
      out := (popFifo s.card.reply 6).out } :=
  exec_card_command hs hi (hc.trans (cardReplyStatus_fits (cardReady_room hs)))

/-- An index that is none of the ten of R70 names no command. -/
theorem cardOpOf_eq_none {idx : BitVec 6} :
    cardOpOf idx = none ↔ idx ∉ [0#6, 1#6, 41#6, 8#6, 12#6, 16#6, 17#6, 18#6, 24#6, 25#6] := by
  simp only [cardOpOf, cardOps, cardIndex, List.find?_eq_none, List.mem_cons, List.not_mem_nil, or_false, beq_iff_eq,
    forall_eq_or_imp, forall_eq, not_or, eq_comm (a := idx)]
  exact Iff.rfl

/-- Settles O40: each row replies the status it leaves, with its flag. -/
theorem cardStatusCommandsReplyOneByte : Obligations.CardStatusCommandsReplyOneByte := by
  intro s f idx hs
  refine ⟨?reset, fun i hi => ?init, ?setblklen, fun hidx => ?illegal⟩
  case reset => exact exec_card_status (status := 0x01) (flags := 0) hs rfl rfl
  case init =>
    simp only [List.mem_cons, List.not_mem_nil, or_false] at hi
    rcases hi with rfl | rfl
    · exact exec_card_status (status := 0x00) (flags := 0) hs rfl rfl
    · exact exec_card_status (status := 0x00) (flags := 0) hs rfl rfl
  case setblklen =>
    have hflag : (if f.arg = 512 then (0x00 : Byte) else 0x40) = if f.arg.toNat = cardBlockSize then 0 else cardParamFlag :=
      if_congr BitVec.toNat_inj.symm rfl rfl
    rw [hflag]
    exact exec_card_status (status := s.card.status) hs rfl rfl
  case illegal =>
    refine exec_card_status (status := s.card.status) (flags := cardIllegalFlag) hs rfl ?_
    rw [cardCommand, cardOpOf_eq_none.2 hidx]
    rfl

/-- Settles O41: each command is one push that fits, behind the replies the frame leaves or, after the flush, alone. -/
theorem cardConditionAndStopReplies : Obligations.CardConditionAndStopReplies := by
  intro s f hs
  have hstatus : s.card.status ||| 0 = s.card.status := BitVec.or_zero
  rw [← hstatus]
  refine ⟨exec_card_command hs rfl (push_fits ?ifcond), fun hroom => exec_card_command hs rfl (push_fits ?stop)⟩
  case ifcond =>
    have hcap := Board.wf_fifoCap hs.board
    have hbound := hs.bounded
    have htail := Board.wf_ifcondTail hs.board
    change (s.card.reply.drop 6).length + (s.board.cardIfcondTail.length + 1) ≤ s.board.fifoCap
    rw [List.length_drop]
    omega
  case stop =>
    change 0 + (s.board.cardStopBusy.length + 1) ≤ s.board.fifoCap
    omega

/-! ## Card rows byte by byte (R67) -/

/-- Every card row's bytes begin with a command byte: bit 7 is clear (R67). -/
theorem encode_card_starts {b : Board} {i : Instr} (h : (encode b i).fmt = .card) :
    ∃ c rest, encode b i = ⟨.card, c :: rest⟩ ∧ c.getLsbD 7 = false := by
  cases i
  case cdReset | cdInit1 | cdInit41 | cdIfcond | cdStop | cdSetblklen | cdRead1 | cdReadn | cdWrite1 | cdWriten | cdIllegal =>
    exact ⟨_, _, rfl, cardCommandByte_bit7 _ _⟩
  all_goals cases h

/-- A card row with the card selected runs alike on two states that agree outside the card, the log and the draws, and from
which its bytes are exchanged alike (R99; log entry 4). -/
theorem exec_card_congr {s : State} {i : Instr} {bytes : List Byte} {c : CardState} {log : List Event} {draws : Nat}
    (hs : s.Running) (he : Exchanging s .card) (hi : encode s.board i = ⟨.card, bytes⟩)
    (hfeed : feed .card bytes (s.setOut []) = feed .card bytes { s with card := c, log := log, draws := draws, out := [] }) :
    exec i s = exec i { s with card := c, log := log, draws := draws } := by
  rw [exec_selected hi (by decide) hs he, exec_selected (s := { s with card := c, log := log, draws := draws }) hi (by decide)
    ⟨hs.noFault, hs.board⟩ ⟨he.reached, he.notBusy, he.clocked, he.selected⟩, operate_running _ _ hs.noFault,
    operate_running _ _ (by exact hs.noFault), hfeed]
  rfl

/-! ## The streaming refill (R132, R135, R136) -/

/-- A drained card with the next block queued and its position past it (R135). -/
def State.refilled (s : State) : State :=
  { s with
    card := { s.card with
      pos := s.card.pos + 512, reply := List.replicate s.board.cardReadGap 0xFF ++ 0xFE :: cardBlock s }
    draws := s.draws + cardBlockDraws s }

/-- A block fits a drained FIFO (R12, R135). -/
theorem cardQueueBlock_drained {s : State} (hb : s.board.wf = true) (hr : s.card.reply = []) :
    cardQueueBlock s = .ok () s.refilled := by
  have hblock := Board.wf_cardBlock hb
  rw [cardQueueBlock_fits (by rw [hr, List.length_nil]; linarith), hr, List.nil_append]
  rfl

/-- What is exchanged with a streaming card whose FIFO is drained is exchanged with the refilled card (R132, R136). -/
theorem feed_card_refills {s : State} (x : Byte) (rest : List Byte) (hs : CardIdle s) (hb : s.board.wf = true)
    (hstream : s.card.streaming = true) (hr : s.card.reply = []) :
    feed .card (x :: rest) s = feed .card (x :: rest) s.refilled := by
  have hqueued : s.refilled.card.reply ≠ [] := List.append_ne_nil_of_right_ne_nil _ (List.cons_ne_nil _ _)
  rw [feed_cons, feed_cons, exchange_card, exchange_card,
    cardExchange_refills hstream hr hs.noFrame hs.notCapturing (cardQueueBlock_drained hb hr) hqueued]

/-- Settles O43: the first exchange refills, whatever sends it; a queue is read out by filler as in a wait-read. -/
theorem streamingRefillsTheReply : Obligations.StreamingRefillsTheReply := by
  intro s hcmd hwcap block refilled
  have hcard : CardIdle s := ⟨hwcap, hcmd⟩
  have hblock : cardBlock s = block := cardBlock_eq s
  have hrefilled : refilled = s.refilled := by
    simp only [refilled, State.refilled, hblock, draws_add_cardBlockDraws]
  rw [hrefilled]
  refine ⟨fun hb hstream hr => ⟨fun x rest => feed_card_refills x rest hcard hb hstream hr, fun i hs he hfmt => ?row⟩,
    fun filler hbit7 hqueued => feed_card_queued filler s hcard hbit7 hqueued⟩
  obtain ⟨c, rest, hi, -⟩ := encode_card_starts hfmt
  exact exec_card_congr hs he hi (feed_card_refills (s := s.setOut []) c rest ⟨hwcap, hcmd⟩ hb hstream hr)

/-! ## An unexpected token (R137) -/

/-- A card whose capture is ended by an unexpected token (R137). -/
def State.aborted (s : State) (tx : Byte) : State :=
  { s with card := { s.card with wcap := .none }, log := s.log ++ [.cardUnexpectedToken tx] }

/-- A byte that is no token of the capture, taken while it waits for one, ends it with a log entry and is scanned (R137). -/
theorem cardCapture_unexpected {tx : Byte} {s : State} (hp : s.card.wphase = .waitToken) (hx : tx ≠ 0xFF)
    (ht : captureToken s.card.wcap tx = false) : cardCapture tx s = cardScan tx (s.aborted tx) := by
  simp only [cardCapture, hp, if_neg hx, ht, Bool.false_eq_true, if_false, State.aborted, State.setCard, State.addLog]

/-- A byte that is no token of the capture, sent while it waits for one, is exchanged with the card whose capture it has
ended, unless a refill would fall due there (R132, R137). -/
theorem cardExchange_unexpected {tx : Byte} {s : State} (hw : s.card.wcap ≠ .none) (hp : s.card.wphase = .waitToken)
    (hr : s.card.streaming = true → s.card.reply ≠ []) (hx : tx ≠ 0xFF) (ht : captureToken s.card.wcap tx = false) :
    cardExchange tx s = cardExchange tx (s.aborted tx) := by
  have hdue : ¬ ((s.aborted tx).card.streaming = true ∧ (s.aborted tx).card.reply = [] ∧ (s.aborted tx).card.cmd = []) :=
    fun ⟨hstream, hempty, _⟩ => hr hstream hempty
  rw [cardExchange_captures hw, cardExchange_scans rfl hdue, cardCapture_unexpected (by exact hp) hx (by exact ht)]
  rfl

/-- Bytes that begin with such a byte run as on the card whose capture it has ended (R137). -/
theorem feed_card_unexpected {tx : Byte} {s : State} (rest : List Byte) (hw : s.card.wcap ≠ .none)
    (hp : s.card.wphase = .waitToken) (hr : s.card.streaming = true → s.card.reply ≠ []) (hx : tx ≠ 0xFF)
    (ht : captureToken s.card.wcap tx = false) :
    feed .card (tx :: rest) s = feed .card (tx :: rest) (s.aborted tx) := by
  rw [feed_cons, feed_cons, exchange_card, exchange_card, cardExchange_unexpected hw hp hr hx ht]

/-- The byte a card between two frames takes first is skipped as filler or starts a frame (R133). -/
theorem feed_card_first {tx : Byte} {s : State} (hs : CardIdle s) (hr : s.card.streaming = true → s.card.reply ≠ [])
    (hb : 6 ≤ s.board.fifoCap) :
    feed .card [tx] s = .ok () ((s.setCard { s.card with
      cmd := if tx.getLsbD 7 = true then [] else [tx], reply := s.card.reply.tail }).addOut (s.card.reply.headD 0xFF)) := by
  have hdue : ¬ (s.card.streaming = true ∧ s.card.reply = [] ∧ s.card.cmd = []) := fun ⟨hstream, hempty, _⟩ =>
    hr hstream hempty
  have hscan : cardScan tx (s.setCard { s.card with reply := s.card.reply.tail }) = .ok () (s.setCard { s.card with
      cmd := if tx.getLsbD 7 = true then [] else [tx], reply := s.card.reply.tail }) := by
    by_cases h7 : tx.getLsbD 7 = true
    case pos =>
      rw [cardScan_filler (by exact hs.noFrame) h7, if_pos h7, ← hs.noFrame]
    case neg =>
      have hshort : s.card.cmd.length < 5 := by rw [hs.noFrame]; decide
      rw [cardScan_pending (s := s.setCard { s.card with reply := s.card.reply.tail })
        (.inr (Bool.eq_false_iff.2 h7)) hshort hb, State.setCard_card, hs.noFrame, if_neg h7]
      rfl
  rw [feed_cons, exchange_card, cardExchange_scans hs.notCapturing hdue, hscan]
  rfl

/-- A wrong token sent to a card with a capture armed: it ends the capture with a log entry and is scanned (R137, R146,
R147). -/
theorem feed_card_wrongToken {s : State} {w : Capture} {arg : BitVec 32} {x : Byte} (hs : CardReady s) (hw : w ≠ .none)
    (hx : x ≠ 0xFF) (ht : captureToken w x = false) :
    feed .card [x] (s.armed w arg) = .ok () { s with
      card := { s.card with
        wcap := .none
        wphase := .waitToken
        wpos := arg.toNat
        cmd := if x.getLsbD 7 = true then [] else [x]
        reply := (s.card.reply.drop 6 ++ [s.card.status]).tail }
      log := s.log ++ [.cardUnexpectedToken x]
      out := (popFifo s.card.reply 6).out ++ [(s.card.reply.drop 6 ++ [s.card.status]).headD 0xFF] } := by
  have hcap := Board.wf_fifoCap hs.board
  have hqueued : (s.armed w arg).card.reply ≠ [] := List.append_ne_nil_of_right_ne_nil _ (List.cons_ne_nil _ _)
  rw [feed_card_unexpected [] (by exact hw) rfl (fun _ => hqueued) hx ht,
    feed_card_first (s := (s.armed w arg).aborted x) ⟨rfl, hs.noFrame⟩ (fun _ => hqueued)
      (by change 6 ≤ s.board.fifoCap; omega)]
  rfl

/-- A byte other than 0xFC and 0xFD is no token of CD.WRITEN (R68). -/
theorem captureToken_multi_eq_false {x : Byte} (hfc : x ≠ 0xFC) (hfd : x ≠ 0xFD) : captureToken .multi x = false := by
  rw [captureToken, beq_eq_false_iff_ne.2 hfc, beq_eq_false_iff_ne.2 hfd]
  rfl

/-- A byte that starts a card frame is no token, and no filler (R67, R68). -/
theorem not_token_of_bit7 {c : Byte} (w : Capture) (h : c.getLsbD 7 = false) : c ≠ 0xFF ∧ captureToken w c = false := by
  have hne (v : Byte) (hv : v.getLsbD 7 = true) : c ≠ v := by
    rintro rfl
    rw [h] at hv
    cases hv
  refine ⟨hne 0xFF rfl, ?_⟩
  cases w with
  | none => rfl
  | single => exact beq_eq_false_iff_ne.2 (hne 0xFE rfl)
  | multi => exact captureToken_multi_eq_false (hne 0xFC rfl) (hne 0xFD rfl)

/-- Settles O45: the byte behind a write command's frame, or the first byte of a row, ends the capture and is scanned. -/
theorem unexpectedTokenAbortsTheCapture : Obligations.UnexpectedTokenAbortsTheCapture := by
  refine ⟨fun s f x i tokens hs hi hx htokens => ?token, fun s i c bytes hs he hw hp hcmd hr hi => ?row⟩
  case token =>
    obtain ⟨w, hexec, hw, ht⟩ : ∃ w, exec i s = .next (feed .card [x] (s.armed w f.arg)).state ∧ w ≠ .none ∧
        captureToken w x = false := by
      simp only [List.mem_cons, List.not_mem_nil, or_false, Prod.mk.injEq] at hi
      rcases hi with ⟨rfl, rfl⟩ | ⟨rfl, rfl⟩
      · exact ⟨.single, exec_card_write hs rfl fun _ => rfl, by decide,
          beq_eq_false_iff_ne.2 fun h => htokens (List.mem_singleton.2 h)⟩
      · simp only [List.mem_cons, List.not_mem_nil, or_false, not_or] at htokens
        exact ⟨.multi, exec_card_write hs rfl fun _ => rfl, by decide, captureToken_multi_eq_false htokens.1 htokens.2⟩
    rw [hexec, feed_card_wrongToken hs hw hx ht]
    rfl
  case row =>
    obtain ⟨c', rest, hi', h7⟩ := encode_card_starts (by rw [hi])
    obtain ⟨rfl, rfl⟩ : c = c' ∧ bytes = rest := by simpa using hi.symm.trans hi'
    obtain ⟨hx, ht⟩ := not_token_of_bit7 s.card.wcap h7
    exact exec_card_congr hs he hi (feed_card_unexpected (s := s.setOut []) bytes hw hp hr hx ht)

end Sys2Proof.Machine
end

section
/-! SUPPORT. The proofs of the statements about the MCU's echo, EEPROM and bootloader rows, with the lemmas they rest on. -/

namespace Sys2Proof.Machine

/-! ## MCU rows that only reply (R71, R152 to R157) -/

/-- A ready MCU when the last byte of a frame, with `n` bytes after its word, runs the command: the frame has popped the reply
FIFO, and all but the last of the popped bytes are returned (R150, R153). -/
def State.atMcuCommand (s : State) (n : Nat) : State :=
  { s with mcu := { s.mcu with reply := s.mcu.reply.drop (2 + n) }, out := (popFifo s.mcu.reply (1 + n)).out }

/-- A row on a ready MCU whose command sets the EEPROM mode and replies, where the reply fits: a reply byte is returned for
each byte of the row (R71, R152, R153). -/
theorem exec_mcu_reply {i : Instr} {c : McuOp} {arg : BitVec 9} {ext p : List Byte} {n : Nat} {mode : Byte} {s : State}
    (hs : McuReady s) (hi : encode s.board i = ⟨.mcu, mcuFrame (mcuCode s.board c) arg ++ ext⟩)
    (he : ext.length = mcuExtra c arg)
    (hc : mcuCommand c arg ext (s.atMcuCommand ext.length) =
      mcuReply n p ((s.atMcuCommand ext.length).setMcu { (s.atMcuCommand ext.length).mcu with eepromMode := mode }))
    (hroom : (s.mcu.reply.drop (2 + ext.length)).length + (2 + p.length) ≤ s.board.fifoCap) :
    exec i s = .next { s with
      mcu := { s.mcu with
        eepromMode := mode
        reply := s.mcu.reply.drop (2 + ext.length) ++ ([BitVec.ofNat 8 (2 * n), BitVec.ofNat 8 (2 * n / 256)] ++ p) }
      out := (popFifo s.mcu.reply (2 + ext.length)).out } := by
  have hpop : (popFifo s.mcu.reply (2 + ext.length)).out =
      (popFifo s.mcu.reply (1 + ext.length)).out ++ [s.mcu.reply.getD (1 + ext.length) 0xFF] := by
    rw [show 2 + ext.length = 1 + ext.length + 1 by omega, popFifo_out_snoc]
  rw [exec_mcu_ready hs hi he (hc.trans (mcuReply_fits (by exact hroom))), hpop, ← List.append_assoc]
  rfl

/-- Settles O46: each of the three commands is one reply. -/
theorem mcuEchoAndModeReplies : Obligations.McuEchoAndModeReplies := by
  intro s arg bytes hs n
  refine ⟨fun hlen hroom => ?echo, fun hroom => ?modeSet, fun hroom => ?modeGet⟩
  case echo =>
    rw [← hlen] at hroom ⊢
    rw [exec_mcu_reply (c := .echo) (n := countOf arg) (mode := s.mcu.eepromMode) hs rfl hlen rfl (by omega), hlen,
      ← List.append_assoc]
    rfl
  case modeSet =>
    exact exec_mcu_reply (i := .mcEemodeset arg) (c := .eemodeset) (ext := []) hs
      (congrArg (Frame.mk .mcu) (List.append_nil _).symm) rfl rfl hroom
  case modeGet =>
    exact exec_mcu_reply (i := .mcEemodeget arg) (c := .eemodeget) (ext := []) hs
      (congrArg (Frame.mk .mcu) (List.append_nil _).symm) rfl rfl hroom

/-- A word of an EEPROM of the board's size (R157). -/
theorem eepromWord_eq {s : State} (k : Nat) (h : s.mcu.eeprom.length = s.board.eepromWords) :
    eepromWord s k = s.mcu.eeprom.getD k 0xFFFF := by
  rw [eepromWord, ← h]
  split
  case isTrue hk => rw [List.getD_eq_getElem _ _ hk, List.getD_eq_getElem _ _ hk]
  case isFalse hk => rw [List.getD_eq_default _ _ (by omega)]

/-- A list of words sends two bytes for each (R157). -/
theorem flatMap_le16Bytes_length (f : Nat → Half) (l : List Nat) :
    (l.flatMap fun j => le16Bytes (f j)).length = 2 * l.length := by
  simp only [List.length_flatMap, le16Bytes, List.length_cons, List.length_nil, List.map_const', List.sum_replicate,
    smul_eq_mul]
  omega

/-- Settles O47: the command is one reply, of the words an EEPROM of the board's size holds. -/
theorem mcuEepromReadRepliesWords : Obligations.McuEepromReadRepliesWords := by
  intro s arg addr hs heeprom hroom
  have hwords (u : State) (hu : u.mcu.eeprom.length = u.board.eepromWords) :
      mcuCommand .eeread arg (le16Bytes addr) u = mcuReply (2 * arg.toNat)
        ((List.range arg.toNat).flatMap fun j => le16Bytes (u.mcu.eeprom.getD (addr.toNat + j) 0xFFFF)) u := by
    simp only [mcuCommand, mcuEepromRead, le16Bytes, byteOf_cons_zero, byteOf_cons_succ, le16_le16Bytes, eepromWord_eq _ hu]
  rw [exec_mcu_reply (c := .eeread) (mode := s.mcu.eepromMode) hs rfl rfl (hwords (s.atMcuCommand 2) heeprom)
    (by rw [flatMap_le16Bytes_length, List.length_range]; exact hroom), ← List.append_assoc,
    show 2 * (2 * arg.toNat) = 4 * arg.toNat by omega]
  rfl

/-! ## Bytes a bootloader ignores, and its acknowledgments (R150, R161 to R163, R168) -/

/-- An MCU in boot mode has room in its reply FIFO once a byte has been read from it (R12, R31). -/
theorem BootMode.room {s : State} (hs : BootMode s) {n : Nat} (hn : 0 < n) :
    (s.mcu.reply.drop n).length < s.board.fifoCap := by
  have hcap := Board.wf_fifoCap hs.board
  have hbound := hs.bounded
  rw [List.length_drop]
  omega

/-- A row sent to an MCU in boot mode, by the bytes it exchanges (R74, R99). -/
theorem exec_boot_mode {i : Instr} {bytes : List Byte} {s t : State} (hs : BootMode s)
    (hi : exec i s = operate s (sendFrame bytes)) (ht : feed .mcu bytes (s.setOut []) = .ok () t) : exec i s = .next t := by
  rw [hi, operate_sendFrame bytes hs.toRunning hs.toExchanging, operate_running _ _ hs.noFault, ht, Res.state_ok]

/-- The state in which a byte exchanged in boot mode takes effect: a reply byte popped (R150). -/
def State.popReply (s : State) : State := { s with mcu := { s.mcu with reply := s.mcu.reply.tail } }

/-- A byte exchanged in boot mode (R150). -/
theorem feed_boot_cons {tx : Byte} {rest : List Byte} {s : State} (hm : s.mcu.bootMode = true) :
    feed .mcu (tx :: rest) s =
      (blByte tx s.popReply).bind fun _ t => feed .mcu rest (t.addOut (s.mcu.reply.headD 0xFF)) := by
  rw [feed_cons, exchange_mcu, mcuExchange_boot hm, Res.bind_assoc]
  rfl

/-- A row of one byte sent to an MCU in boot mode, by what the byte does (R150, R161). -/
theorem exec_boot_byte {i : Instr} {tx : Byte} {s t : State} (hs : BootMode s)
    (hi : exec i s = operate s (sendFrame [tx]))
    (ht : blByte tx (s.setOut []).popReply = .ok () t) :
    exec i s = .next (t.addOut (s.mcu.reply.headD 0xFF)) :=
  exec_boot_mode hs hi (feed_mcu_boot (s := s.setOut []) hs.boot ht)

/-- The sync byte starts an unstarted bootloader and is acknowledged (R163). -/
theorem blByte_sync {s : State} (hw : s.mcu.waitingAck = false) (hs : s.mcu.started = false)
    (hroom : s.mcu.reply.length < s.board.fifoCap) :
    blByte 0x5A s =
      .ok () (s.setMcu { s.mcu with started := true, waitingAck := true, reply := s.mcu.reply ++ [0x79] }) := by
  rw [blByte, hw, hs, if_neg Bool.false_ne_true, if_pos rfl, blUnstarted, if_pos (by rfl),
    blAck_fits (s := s.setMcu { s.mcu with started := true }) hroom]
  rfl

/-- The bytes a bootloader ignores: all but 0x79 while an acknowledgment is awaited, all but 0x5A before the sync (R161). -/
theorem blByte_silent {tx : Byte} {s : State}
    (h : if s.mcu.waitingAck = true then tx ≠ 0x79 else s.mcu.started = false ∧ tx ≠ 0x5A) : blByte tx s = .ok () s := by
  split at h
  case isTrue hw => exact blByte_ignored hw h
  case isFalse hw =>
    rw [blByte, if_neg hw, if_pos h.1, blUnstarted, if_neg (by exact h.2)]
    rfl

/-- Bytes without 0x79 while an acknowledgment is awaited: each only returns a reply byte (R161). -/
theorem feed_mcu_awaited (bytes : List Byte) (s : State) (hm : s.mcu.bootMode = true) (hw : s.mcu.waitingAck = true)
    (hb : 0x79#8 ∉ bytes) :
    feed .mcu bytes s = .ok () { s with
      mcu := { s.mcu with reply := s.mcu.reply.drop bytes.length }
      out := s.out ++ (popFifo s.mcu.reply bytes.length).out } := by
  induction bytes generalizing s with
  | nil => rw [feed_nil, List.length_nil, popFifo_out_zero, List.append_nil]; rfl
  | cons tx rest ih =>
    obtain ⟨htx, hrest⟩ := List.ne_and_not_mem_of_not_mem_cons hb
    rw [feed_mcu_boot hm (blByte_ignored (by exact hw) htx.symm), ih _ (by exact hm) (by exact hw) hrest, List.length_cons,
      popFifo_out_succ]
    simp only [State.addOut_mcu, State.setMcu_mcu, State.addOut_out, List.drop_tail, List.append_assoc]
    rfl

/-- Settles O50: each row of one byte by what the byte does; a byte that is ignored only returns a reply byte. -/
theorem bootloaderSyncAndAcknowledge : Obligations.BootloaderSyncAndAcknowledge := by
  intro s hs
  refine ⟨fun hw hst => ⟨?sync, ?early⟩, fun hw hg => ?ack, fun hw hc hstep => ?exits,
    fun hw i bytes hi hrow hbytes => ?awaited, fun x hx => ?ignored⟩
  case sync =>
    have hroom : s.mcu.reply.tail.length < s.board.fifoCap := List.drop_one (l := s.mcu.reply) ▸ hs.room Nat.one_pos
    exact exec_boot_byte hs rfl (blByte_sync hw hst hroom)
  case early =>
    exact exec_boot_byte hs rfl (blByte_silent (by rw [if_neg (by exact ne_true_of_eq_false hw)]; exact ⟨hst, by decide⟩))
  case ack => exact exec_boot_byte hs rfl (blByte_acknowledged hw hg)
  case exits => exact exec_boot_byte hs rfl (blByte_exits hw ⟨hc, hstep⟩)
  case awaited =>
    have hsends : exec i s = operate s (sendFrame bytes) := by
      obtain rfl := congrArg Frame.bytes hi
      rcases hrow with rfl | ⟨op, rfl⟩ | ⟨op, par, rfl⟩ <;> rfl
    exact exec_boot_mode hs hsends (feed_mcu_awaited bytes (s.setOut []) hs.boot hw hbytes)
  case ignored => exact feed_mcu_boot hs.boot (blByte_silent (s := s.popReply) hx)

/-! ## Frames (R74, R164, R169, R170) -/

/-- The parity byte is the complement of the opcode (R74). -/
theorem bootParity_eq (op : Byte) : bootParity op = ~~~op := BitVec.xor_allOnes

/-- An opcode byte that is none of the three of R75 names no command. -/
theorem bootOpOf_eq_none {op : Byte} : bootOpOf op = none ↔ op ∉ [0x44#8, 0x31#8, 0x21#8] := by
  simp only [bootOpOf, bootOps, bootCode, List.find?_eq_none, List.mem_cons, List.not_mem_nil, or_false, beq_iff_eq,
    forall_eq_or_imp, forall_eq, not_or, eq_comm (a := op)]
  exact Iff.rfl

/-- The MCU in boot mode when the byte after `n` others takes effect: it and the others have each popped the reply FIFO, and
what the others popped is returned (R150). -/
def State.atByte (s : State) (n : Nat) : State :=
  { s with mcu := { s.mcu with reply := s.mcu.reply.drop (n + 1) }, out := s.out ++ (popFifo s.mcu.reply n).out }

/-- The MCU in boot mode with the bytes `pre` of a frame or step received, each exchanged for a reply byte (R150, R164). -/
def State.receiving (s : State) (pre : List Byte) : State :=
  { s with
    mcu := { s.mcu with cmd := pre, reply := s.mcu.reply.drop pre.length }
    out := s.out ++ (popFifo s.mcu.reply pre.length).out }

theorem State.receiving_nil {s : State} (h : s.mcu.cmd = []) : s.receiving [] = s := by
  rw [State.receiving, List.length_nil, popFifo_out_zero, List.append_nil]
  exact congrArg (fun cmd => { s with mcu := { s.mcu with cmd := cmd } }) h.symm

/-- The bytes received, taken from the command FIFO at the byte that completes them. -/
theorem State.receiving_taken {s : State} (pre : List Byte) (h : s.mcu.cmd = []) :
    (s.receiving pre).popReply.setMcu { (s.receiving pre).popReply.mcu with cmd := [] } = s.atByte pre.length := by
  simp only [State.receiving, State.popReply, State.atByte, List.tail_drop]
  exact congrArg (fun cmd => { s with
    mcu := { s.mcu with cmd := cmd, reply := s.mcu.reply.drop (pre.length + 1) }
    out := s.out ++ (popFifo s.mcu.reply pre.length).out }) h.symm

/-- The byte a pop returns after `n` others. -/
theorem headD_drop (l : List Byte) (n : Nat) : (l.drop n).headD 0xFF = l.getD n 0xFF := by
  rw [List.headD_eq_head?_getD, List.head?_drop, List.getD_eq_getElem?_getD]

/-- A byte that only joins the command FIFO, exchanged in boot mode. -/
theorem feed_boot_pending {tx : Byte} {pre rest : List Byte} {s : State} (hm : s.mcu.bootMode = true)
    (hx : blByte tx (s.receiving pre).popReply =
      .ok () ((s.receiving pre).popReply.setMcu { (s.receiving pre).popReply.mcu with cmd := pre ++ [tx] })) :
    feed .mcu (tx :: rest) (s.receiving pre) = feed .mcu rest (s.receiving (pre ++ [tx])) := by
  rw [feed_boot_cons (by exact hm), hx, Res.bind_ok]
  simp only [State.receiving, List.length_append, List.length_singleton, popFifo_out_snoc, ← headD_drop, ← List.tail_drop,
    ← List.append_assoc]
  rfl

/-- The byte that completes a frame or a step, exchanged in boot mode: the bytes before it are taken from the command FIFO. -/
theorem feed_boot_complete {f : State → Res Unit} {tx : Byte} {pre rest : List Byte} {s : State}
    (hm : s.mcu.bootMode = true) (hn : s.mcu.cmd = [])
    (hx : blByte tx (s.receiving pre).popReply =
      f ((s.receiving pre).popReply.setMcu { (s.receiving pre).popReply.mcu with cmd := [] })) :
    feed .mcu (tx :: rest) (s.receiving pre) =
      (f (s.atByte pre.length)).bind fun _ t => feed .mcu rest (t.addOut (s.mcu.reply.getD pre.length 0xFF)) := by
  rw [feed_boot_cons (by exact hm), hx, State.receiving_taken pre hn, ← headD_drop]
  rfl

/-- Readiness does not depend on what was returned. -/
theorem BootReady.setOut {s : State} (hs : BootReady s) (l : List Byte) : BootReady (s.setOut l) where
  noFault := hs.noFault
  board := hs.board
  reached := hs.reached
  notBusy := hs.notBusy
  clocked := hs.clocked
  selected := hs.selected
  boot := hs.boot
  bounded := hs.bounded
  started := hs.started
  settled := hs.settled
  between := hs.between
  noFrame := hs.noFrame

/-- A frame sent to a ready bootloader: a reply byte for each of its bytes, its opcode and parity byte decoded at the last
(R164). -/
theorem feed_boot_frame {s : State} (op par : Byte) (hs : BootReady s) :
    feed .mcu [bootStart, op, par] s =
      (blSelect op par (s.atByte 2)).bind fun _ t => .ok () (t.addOut (s.mcu.reply.getD 2 0xFF)) := by
  have hcap : 3 ≤ s.board.fifoCap := Nat.le_trans (by decide) (Board.wf_fifoCap hs.board)
  have hsync := blByte_framing (tx := bootStart) (s := (s.receiving []).popReply) hs.settled hs.started hs.between (.inr rfl)
    Nat.two_pos hcap
  have hop := blByte_framing (tx := op) (s := (s.receiving [bootStart]).popReply) hs.settled hs.started hs.between
    (.inl (List.cons_ne_nil _ _)) Nat.one_lt_two hcap
  have hpar := blByte_frame (b := bootStart) (op := op) (par := par) (s := (s.receiving [bootStart, op]).popReply)
    hs.settled hs.started hs.between rfl hcap
  calc feed .mcu [bootStart, op, par] s
    _ = feed .mcu [bootStart, op, par] (s.receiving []) := by rw [State.receiving_nil hs.noFrame]
    _ = feed .mcu [op, par] (s.receiving [bootStart]) := feed_boot_pending hs.boot hsync
    _ = feed .mcu [par] (s.receiving [bootStart, op]) := feed_boot_pending hs.boot hop
    _ = _ := feed_boot_complete hs.boot hs.noFrame hpar

/-- A frame with a wrong parity byte is only logged (R170). -/
theorem blSelect_parity {op par : Byte} (s : State) (h : par ≠ ~~~op) :
    blSelect op par s = .ok () (s.addLog .bootloaderParityError) := by
  rw [blSelect, if_pos (by rw [bootParity_eq]; exact h)]
  rfl

/-- A frame with an unknown opcode is answered NACK (R169). -/
theorem blSelect_unknown {op : Byte} (s : State) (h : bootOpOf op = none) : blSelect op (bootParity op) s = blNack s := by
  rw [blSelect, if_neg (not_not_intro rfl), h]

/-- A frame of a command starts it (R165). -/
theorem blSelect_command (c : BootOp) (s : State) :
    blSelect (bootCode c) (bootParity (bootCode c)) s =
      blAck (s.setMcu { s.mcu with blCmd := some c, step := 1, need := 4 }) := by
  rw [blSelect, if_neg (not_not_intro rfl), bootOpOf_bootCode]

/-- A row of one frame sent to a ready bootloader, by what the decoder of the frame answers (R164). -/
theorem exec_boot_frame {i : Instr} {op par : Byte} {s : State} {m : McuState} {log : List Event} (hs : BootReady s)
    (hi : exec i s = operate s (sendFrame [bootStart, op, par]))
    (hx : blSelect op par ((s.setOut []).atByte 2) = .ok () { (s.setOut []).atByte 2 with mcu := m, log := log }) :
    exec i s = .next { s with mcu := m, log := log, out := (popFifo s.mcu.reply 3).out } := by
  have hrun := feed_boot_frame op par (hs.setOut [])
  rw [hx, Res.bind_ok] at hrun
  rw [exec_boot_mode hs.toBootMode hi hrun, popFifo_out_snoc s.mcu.reply 2]
  rfl

/-- Settles O51: the frame's third byte decodes it, to a NACK or to a log entry. -/
theorem bootloaderRejectsFrames : Obligations.BootloaderRejectsFrames := by
  intro s op par hs
  refine ⟨fun hop => ?nack, fun hpar => ?parity⟩
  case nack =>
    exact exec_boot_frame hs rfl ((blSelect_unknown _ (bootOpOf_eq_none.2 hop)).trans
      (blNack_fits (s := (s.setOut []).atByte 2) (hs.room (by decide))))
  case parity => exact exec_boot_frame hs rfl (blSelect_parity _ hpar)

/-! ## The steps of a command (R161, R162, R165) -/

/-- The bootloader in step `k` of the command `c`, nothing to acknowledge (R165). -/
structure InStep (s : State) (c : BootOp) (k : Nat) : Prop where
  boot : s.mcu.bootMode = true
  started : s.mcu.started = true
  settled : s.mcu.waitingAck = false
  command : s.mcu.blCmd = some c
  step : s.mcu.step = k
  room : 1024 ≤ s.board.fifoCap

/-- The start of a step whose bytes are still to come, the replies drained. -/
structure StepReady (s : State) (c : BootOp) (k : Nat) : Prop extends InStep s c k where
  noFrame : s.mcu.cmd = []
  drained : s.mcu.reply = []

/-- Bytes received leave the step as it is. -/
theorem InStep.receiving {s : State} {c : BootOp} {k : Nat} (h : InStep s c k) (pre : List Byte) :
    InStep (s.receiving pre).popReply c k :=
  ⟨h.boot, h.started, h.settled, h.command, h.step, h.room⟩

/-- A byte in a step of a command (R161, R165). -/
theorem InStep.blByte_eq {s : State} {c : BootOp} {k : Nat} (h : InStep s c k) (tx : Byte) : blByte tx s = blStep c tx s := by
  rw [blByte, h.settled, h.started, h.command, if_neg Bool.false_ne_true, if_neg (by decide)]

/-- A byte in step 1 (R165). -/
theorem InStep.blByte_step1 {s : State} {c : BootOp} (h : InStep s c 1) (tx : Byte) : blByte tx s = blStepAddress c tx s := by
  rw [h.blByte_eq, blStep, h.step]
  rfl

/-- A byte in step 2 (R165). -/
theorem InStep.blByte_step2 {s : State} {c : BootOp} (h : InStep s c 2) (tx : Byte) : blByte tx s = blStepHeader c tx s := by
  rw [h.blByte_eq, blStep, h.step]
  rfl

/-- A byte of an address or of a header pushed into the command FIFO (R89, R165). -/
theorem InStep.push_cmd {s : State} {c : BootOp} {k : Nat} (h : InStep s c k) (tx : Byte) (hl : s.mcu.cmd.length < 4) :
    push .mcu .cmd [tx] s = .ok () (s.setMcu { s.mcu with cmd := s.mcu.cmd ++ [tx] }) :=
  push_fits (d := .mcu) (w := .cmd) (Nat.le_trans hl (Nat.le_trans (by decide) h.room))

/-- The address received: `dest` is kept; a jump is logged as a stub, the other commands go on with their header (R165). -/
def State.addressed (s : State) (c : BootOp) (dest : BitVec 32) : State :=
  match c with
  | .go => (s.addLog (.bootloaderStub .go)).setMcu { s.mcu with dest := dest, step := 0 }
  | .write => s.setMcu { s.mcu with dest := dest, step := 2, need := 1 }
  | .erase => s.setMcu { s.mcu with dest := dest, step := 2, need := 2 }

/-- A byte of an address that is not complete (R165). -/
theorem InStep.blByte_addressPending {s : State} {c : BootOp} (h : InStep s c 1) (tx : Byte) (hl : s.mcu.cmd.length < 3) :
    blByte tx s = .ok () (s.setMcu { s.mcu with cmd := s.mcu.cmd ++ [tx] }) := by
  rw [h.blByte_step1, blStepAddress, h.push_cmd tx (by omega), Res.bind_ok, if_pos (by simp; omega)]
  rfl

/-- The last byte of an address (R165). -/
theorem InStep.blByte_address {s : State} {c : BootOp} {b3 b2 b1 : Byte} (h : InStep s c 1) (b0 : Byte)
    (hl : s.mcu.cmd = [b3, b2, b1]) :
    blByte b0 s = blAck ((s.setMcu { s.mcu with cmd := [] }).addressed c (be32 b3 b2 b1 b0)) := by
  rw [h.blByte_step1, blStepAddress, h.push_cmd _ (by simp [hl]), Res.bind_ok, if_neg (by simp [hl])]
  simp only [State.setMcu_mcu, hl]
  cases c <;> rfl

/-- The first byte of an erase's count (R165, R166). -/
theorem InStep.blByte_countPending {s : State} {c : BootOp} (h : InStep s c 2) (tx : Byte) (hl : s.mcu.cmd = [])
    (hn : s.mcu.need = 2) : blByte tx s = .ok () (s.setMcu { s.mcu with cmd := [tx] }) := by
  rw [h.blByte_step2, blStepHeader, h.push_cmd _ (by simp [hl]), Res.bind_ok, if_pos (by simp [hl, hn])]
  simp only [hl]
  rfl

/-- The last byte of an erase's count: two payload bytes follow for each sector (R165, R166). -/
theorem InStep.blByte_count {s : State} {n1 : Byte} (h : InStep s .erase 2) (n0 : Byte) (hl : s.mcu.cmd = [n1])
    (hn : s.mcu.need = 2) :
    blByte n0 s = blPayload .erase (s.setMcu { s.mcu with
      cmd := [], eraseCount := be16 n1 n0, need := 2 * (be16 n1 n0).toNat, step := 3 }) := by
  rw [h.blByte_step2, blStepHeader, h.push_cmd _ (by simp [hl]), Res.bind_ok, if_neg (by simp [hl, hn])]
  simp only [State.setMcu_mcu, hl]
  rfl

/-- The length byte of a write: that many payload bytes follow (R165, R167). -/
theorem InStep.blByte_length {s : State} (h : InStep s .write 2) (n : Byte) (hl : s.mcu.cmd = []) (hn : s.mcu.need = 1) :
    blByte n s = blPayload .write (s.setMcu { s.mcu with cmd := [], need := n.toNat, step := 3 }) := by
  rw [h.blByte_step2, blStepHeader, h.push_cmd _ (by simp [hl]), Res.bind_ok, if_neg (by simp [hl, hn])]
  simp only [State.setMcu_mcu, hl]
  rfl

/-- A payload byte is counted and discarded (R165). -/
theorem InStep.blByte_payload {s : State} {c : BootOp} (h : InStep s c 3) (tx : Byte) :
    blByte tx s = blPayload c (s.setMcu { s.mcu with need := s.mcu.need - 1 }) := by
  rw [h.blByte_eq, blStep, h.step]
  rfl

/-! ## Bytes exchanged with the replies drained (R150, R162; log entry 10) -/

/-- With no reply queued, a byte pops nothing. -/
theorem State.popReply_drained {s : State} (h : s.mcu.reply = []) : s.popReply = s :=
  congrArg (fun reply => { s with mcu := { s.mcu with reply := reply } })
    (show s.mcu.reply.tail = s.mcu.reply by rw [h, List.tail_nil])

/-- With no reply queued, each byte returns 0xFF. -/
theorem State.atByte_drained {s : State} (n : Nat) (h : s.mcu.reply = []) :
    s.atByte n = s.setOut (s.out ++ List.replicate n 0xFF) := by
  rw [State.atByte, h, List.drop_nil, popFifo_out_nil]
  exact congrArg (fun reply => { s with
    mcu := { s.mcu with reply := reply }, out := s.out ++ List.replicate n 0xFF }) h.symm

/-- A byte exchanged in boot mode with no reply queued (R150). -/
theorem feed_boot_drained {tx : Byte} {rest : List Byte} {s : State} (hm : s.mcu.bootMode = true) (hr : s.mcu.reply = []) :
    feed .mcu (tx :: rest) s = (blByte tx s).bind fun _ t => feed .mcu rest (t.addOut 0xFF) := by
  rw [feed_boot_cons hm, State.popReply_drained hr, hr, List.headD_nil]

/-- The bootloader when the host has read its ACK with a dummy byte (R162). -/
def State.awaiting (s : State) : State :=
  { s with mcu := { s.mcu with waitingAck := true }, out := s.out ++ [0xFF, 0x79] }

/-- Bytes acknowledged by the bootloader with no other reply queued: the dummy byte reads the ACK, then 0x79 takes effect
(R162). -/
theorem feed_acknowledged {bytes : List Byte} {s v : State}
    (h : feed .mcu bytes s = (blAck v).bind fun _ t => .ok () (t.addOut 0xFF)) (hm : v.mcu.bootMode = true)
    (hr : v.mcu.reply = []) (hcap : 1024 ≤ v.board.fifoCap) :
    feed .mcu (acknowledged bytes) s =
      (blByte 0x79 v.awaiting).bind fun _ t => .ok () (t.addOut 0xFF) := by
  have hack : feed .mcu bytes s = .ok () { v with
      mcu := { v.mcu with waitingAck := true, reply := [0x79] }, out := v.out ++ [0xFF] } := by
    rw [h, blAck_fits (by rw [hr, List.length_nil]; omega), hr]
    rfl
  have hread : feed .mcu [0xFF, bootAck] { v with
      mcu := { v.mcu with waitingAck := true, reply := [0x79] }, out := v.out ++ [0xFF] } =
      feed .mcu [bootAck] v.awaiting := by
    rw [feed_boot_cons (by exact hm), blByte_ignored (by rfl) (by decide), Res.bind_ok]
    refine congrArg (feed .mcu [bootAck]) ?_
    simp only [State.popReply, State.addOut, List.tail_cons, List.headD_cons, List.append_assoc, List.singleton_append]
    exact congrArg (fun reply => { v with
      mcu := { v.mcu with waitingAck := true, reply := reply }, out := v.out ++ [0xFF, 0x79] }) hr.symm
  rw [acknowledged, feed_append, hack, Res.bind_ok, hread, feed_boot_drained (by exact hm) (by exact hr)]
  rfl

/-- A step that the command goes on after, its ACK read and acknowledged (R162, R165). -/
theorem feed_acknowledged_goesOn {bytes : List Byte} {s v : State}
    (h : feed .mcu bytes s = (blAck v).bind fun _ t => .ok () (t.addOut 0xFF)) (hm : v.mcu.bootMode = true)
    (hr : v.mcu.reply = []) (hcap : 1024 ≤ v.board.fifoCap) (hg : ¬ (v.mcu.blCmd = some .go ∧ v.mcu.step = 0)) :
    feed .mcu (acknowledged bytes) s = .ok () { v with
      mcu := { v.mcu with waitingAck := false }, out := v.out ++ [0xFF, 0x79, 0xFF] } := by
  have hout : v.out ++ [0xFF, 0x79, 0xFF] = v.awaiting.out ++ [0xFF] := (List.append_assoc v.out [0xFF, 0x79] [0xFF]).symm
  rw [feed_acknowledged h hm hr hcap, blByte_acknowledged (s := v.awaiting) rfl hg, hout]
  rfl

/-- The step of a jump, its ACK read and acknowledged: the MCU leaves boot mode (R168). -/
theorem feed_acknowledged_exits {bytes : List Byte} {s v : State}
    (h : feed .mcu bytes s = (blAck v).bind fun _ t => .ok () (t.addOut 0xFF)) (hm : v.mcu.bootMode = true)
    (hr : v.mcu.reply = []) (hcap : 1024 ≤ v.board.fifoCap) (hg : v.mcu.blCmd = some .go ∧ v.mcu.step = 0) :
    feed .mcu (acknowledged bytes) s = .ok () { v with
      mcu := { v.mcu with waitingAck := false, bootMode := false, started := false, blCmd := none, step := 0, need := 0 }
      out := v.out ++ [0xFF, 0x79, 0xFF] } := by
  have hout : v.out ++ [0xFF, 0x79, 0xFF] = v.awaiting.out ++ [0xFF] := (List.append_assoc v.out [0xFF, 0x79] [0xFF]).symm
  rw [feed_acknowledged h hm hr hcap, blByte_exits (s := v.awaiting) rfl hg, hout]
  rfl

/-! ## The steps of a row (R166 to R168; log entry 10) -/

/-- A ready bootloader that has received the frame of a command, its ACK read and acknowledged (R165). -/
def State.inCommand (s : State) (c : BootOp) : State :=
  { s with
    mcu := { s.mcu with blCmd := some c, step := 1, need := 4, waitingAck := false }
    out := s.out ++ [0xFF, 0xFF, 0xFF, 0x79, 0xFF] }

theorem State.inCommand_ready {s : State} (c : BootOp) (hs : BootReady s) (hr : s.mcu.reply = []) :
    StepReady (s.inCommand c) c 1 :=
  ⟨⟨hs.boot, hs.started, rfl, rfl, rfl, Board.wf_fifoCap hs.board⟩, hs.noFrame, hr⟩

/-- The frame of a command, acknowledged (R164, R165). -/
theorem feed_boot_command {s : State} (c : BootOp) (hs : BootReady s) (hr : s.mcu.reply = []) :
    feed .mcu (acknowledged (bootFrame (bootCode c))) s = .ok () (s.inCommand c) := by
  have hframe := feed_boot_frame (bootCode c) (bootParity (bootCode c)) hs
  rw [blSelect_command, State.atByte_drained 2 hr, hr] at hframe
  have hout : s.out ++ List.replicate 2 0xFF ++ [0xFF, 0x79, 0xFF] = (s.inCommand c).out :=
    List.append_assoc s.out [0xFF, 0xFF] [0xFF, 0x79, 0xFF]
  have hgoes : ¬ (some c = some .go ∧ 1 = 0) := fun h => Nat.one_ne_zero h.2
  rw [bootFrame, feed_acknowledged_goesOn hframe hs.boot hr (Board.wf_fifoCap hs.board) hgoes]
  exact congrArg (fun out => Res.ok () { s.inCommand c with out := out }) hout

/-- The address, exchanged in step 1 (R165). -/
theorem feed_boot_address {s : State} {c : BootOp} (dest : BitVec 32) (h : StepReady s c 1) :
    feed .mcu (be32Bytes dest) s =
      (blAck ((s.setOut (s.out ++ [0xFF, 0xFF, 0xFF])).addressed c dest)).bind fun _ t => .ok () (t.addOut 0xFF) := by
  obtain ⟨b3, b2, b1, b0, rfl⟩ : ∃ b3 b2 b1 b0, dest = be32 b3 b2 b1 b0 := ⟨_, _, _, _, (be32_be32Bytes dest).symm⟩
  have hfirst := (h.receiving []).blByte_addressPending b3 (by change 0 < 3; decide)
  have hsecond := (h.receiving [b3]).blByte_addressPending b2 (by change 1 < 3; decide)
  have hthird := (h.receiving [b3, b2]).blByte_addressPending b1 (by change 2 < 3; decide)
  have hlast := (h.receiving [b3, b2, b1]).blByte_address b0 rfl
  rw [be32Bytes_be32]
  calc feed .mcu [b3, b2, b1, b0] s
    _ = feed .mcu [b3, b2, b1, b0] (s.receiving []) := by rw [State.receiving_nil h.noFrame]
    _ = feed .mcu [b2, b1, b0] (s.receiving [b3]) := feed_boot_pending h.boot hfirst
    _ = feed .mcu [b1, b0] (s.receiving [b3, b2]) := feed_boot_pending h.boot hsecond
    _ = feed .mcu [b0] (s.receiving [b3, b2, b1]) := feed_boot_pending h.boot hthird
    _ = (blAck ((s.atByte 3).addressed c (be32 b3 b2 b1 b0))).bind
          fun _ t => feed .mcu [] (t.addOut (s.mcu.reply.getD 3 0xFF)) :=
      feed_boot_complete (f := fun t => blAck (t.addressed c (be32 b3 b2 b1 b0))) h.boot h.noFrame hlast
    _ = _ := by rw [State.atByte_drained 3 h.drained, h.drained]; rfl

/-- The payload, exchanged once the header is read: it is discarded, and its last byte ends the command (R165). -/
theorem feed_boot_payload {c : BootOp} (data : List Byte) (s : State) (h : InStep s c 3) (hr : s.mcu.reply = [])
    (hn : s.mcu.need = data.length) :
    ((blPayload c s).bind fun _ t => feed .mcu data (t.addOut 0xFF)) =
      (blDone c { s with
        mcu := { s.mcu with need := 0 }, out := s.out ++ List.replicate data.length 0xFF }).bind
        fun _ t => .ok () (t.addOut 0xFF) := by
  induction data generalizing s with
  | nil =>
    have hzero : s.mcu.need = 0 := hn
    rw [blPayload, if_pos hzero, List.length_nil, List.replicate_zero, List.append_nil, ← hzero]
    rfl
  | cons tx data ih =>
    have hmore : s.mcu.need ≠ 0 := hn ▸ Nat.succ_ne_zero _
    have hnext : InStep (s.addOut 0xFF) c 3 := ⟨h.boot, h.started, h.settled, h.command, h.step, h.room⟩
    have hrest := ih ((s.addOut 0xFF).setMcu { s.mcu with need := s.mcu.need - 1 })
      ⟨h.boot, h.started, h.settled, h.command, h.step, h.room⟩ hr (congrArg Nat.pred hn)
    have hout : s.out ++ List.replicate (data.length + 1) 0xFF = s.out ++ [0xFF] ++ List.replicate data.length 0xFF := by
      rw [List.replicate_succ, List.append_assoc, List.singleton_append]
    rw [blPayload, if_neg hmore, Res.bind_done, feed_boot_drained (by exact h.boot) (by exact hr), hnext.blByte_payload,
      List.length_cons, hout]
    exact hrest

/-- The last step of an erase or a write, acknowledged: its header is read, its payload discarded, the stub logged, and the
bootloader is ready again (R165). -/
theorem feed_acknowledged_payload {c : BootOp} {header data : List Byte} {s v : State}
    (hx : feed .mcu (header ++ data) s = (blPayload c v).bind fun _ t => feed .mcu data (t.addOut 0xFF))
    (h : InStep v c 3) (hr : v.mcu.reply = []) (hn : v.mcu.need = data.length) :
    feed .mcu (acknowledged (header ++ data)) s = .ok () { v with
      mcu := { v.mcu with need := 0, blCmd := none, step := 0, waitingAck := false }
      log := v.log ++ [.bootloaderStub c]
      out := v.out ++ List.replicate (data.length + 1) 0xFF ++ [0x79, 0xFF] } := by
  have hout : v.out ++ List.replicate (data.length + 1) 0xFF ++ [0x79, 0xFF] =
      v.out ++ List.replicate data.length 0xFF ++ [0xFF, 0x79, 0xFF] := by
    rw [List.replicate_succ', ← List.append_assoc, List.append_assoc _ [0xFF]]
    rfl
  have hgoes : ¬ (none = some BootOp.go ∧ 0 = 0) := fun hc => nomatch hc.1
  rw [feed_acknowledged_goesOn (hx.trans (feed_boot_payload data v h hr hn)) h.boot hr h.room hgoes, hout]
  rfl

/-- How many bytes the header of a command has: the count of an erase, the length of a write (R166, R167). -/
def headerLength : BootOp → Nat
  | .erase => 2
  | _ => 1

/-- A ready bootloader that has received the frame of a command and its address, their ACKs read and acknowledged (R165). -/
def State.inHeader (s : State) (c : BootOp) (dest : BitVec 32) : State :=
  { s with
    mcu := { s.mcu with dest := dest, blCmd := some c, step := 2, need := headerLength c, waitingAck := false }
    out := s.out ++ [0xFF, 0xFF, 0xFF, 0x79, 0xFF] ++ [0xFF, 0xFF, 0xFF, 0xFF, 0x79, 0xFF] }

theorem State.inHeader_ready {s : State} (c : BootOp) (dest : BitVec 32) (hs : BootReady s) (hr : s.mcu.reply = []) :
    StepReady (s.inHeader c dest) c 2 :=
  ⟨⟨hs.boot, hs.started, rfl, rfl, rfl, Board.wf_fifoCap hs.board⟩, hs.noFrame, hr⟩

/-- The frame and the address of an erase or a write, each acknowledged (R165). -/
theorem feed_boot_inHeader {s : State} {c : BootOp} (dest : BitVec 32) (hs : BootReady s) (hr : s.mcu.reply = [])
    (hc : c ≠ .go) :
    feed .mcu (acknowledged (bootFrame (bootCode c)) ++ acknowledged (be32Bytes dest)) s = .ok () (s.inHeader c dest) := by
  have hready := s.inCommand_ready c hs hr
  have haddressed (u : State) : u.addressed c dest =
      u.setMcu { u.mcu with dest := dest, step := 2, need := headerLength c } := by
    cases c with
    | erase => rfl
    | write => rfl
    | go => exact absurd rfl hc
  have haddress := feed_boot_address dest hready
  rw [haddressed] at haddress
  have hout : (s.inCommand c).out ++ [0xFF, 0xFF, 0xFF] ++ [0xFF, 0x79, 0xFF] = (s.inHeader c dest).out :=
    List.append_assoc (s.inCommand c).out [0xFF, 0xFF, 0xFF] [0xFF, 0x79, 0xFF]
  have hgoes : ¬ (some c = some .go ∧ 2 = 0) := fun h => (Nat.succ_ne_zero 1) h.2
  rw [feed_append, feed_boot_command c hs hr, Res.bind_ok,
    feed_acknowledged_goesOn haddress hready.boot hready.drained hready.room hgoes]
  exact congrArg (fun out => Res.ok () { s.inHeader c dest with out := out }) hout

/-- A row of an erase or a write: after the frame and the address, what its other bytes do (R165). -/
theorem feed_boot_headed {s t : State} {c : BootOp} {dest : BitVec 32} {last : List Byte} (hs : BootReady s)
    (hr : s.mcu.reply = []) (hc : c ≠ .go) (hlast : feed .mcu last (s.inHeader c dest) = .ok () t) :
    feed .mcu (acknowledged (bootFrame (bootCode c)) ++ acknowledged (be32Bytes dest) ++ last) s = .ok () t := by
  rw [feed_append, feed_boot_inHeader dest hs hr hc, Res.bind_ok, hlast]

/-- The length byte of a write, exchanged in step 2 (R165, R167). -/
theorem feed_boot_length {s : State} (n : Byte) (data : List Byte) (h : StepReady s .write 2) (hn : s.mcu.need = 1) :
    feed .mcu (n :: data) s =
      (blPayload .write (s.setMcu { s.mcu with need := n.toNat, step := 3 })).bind
        fun _ t => feed .mcu data (t.addOut 0xFF) := by
  rw [feed_boot_drained h.boot h.drained, h.blByte_length n h.noFrame hn, ← h.noFrame]

/-- The count of an erase, exchanged in step 2 (R165, R166). -/
theorem feed_boot_count {s : State} (n : Half) (data : List Byte) (h : StepReady s .erase 2) (hn : s.mcu.need = 2) :
    feed .mcu (be16Bytes n ++ data) s =
      (blPayload .erase ((s.setOut (s.out ++ [0xFF])).setMcu { s.mcu with
        eraseCount := n, need := 2 * n.toNat, step := 3 })).bind fun _ t => feed .mcu data (t.addOut 0xFF) := by
  obtain ⟨n1, n0, rfl⟩ : ∃ n1 n0, n = be16 n1 n0 := ⟨_, _, (be16_be16Bytes n).symm⟩
  have hfirst := (h.receiving []).blByte_countPending n1 rfl hn
  have hlast := (h.receiving [n1]).blByte_count n0 rfl hn
  rw [be16Bytes_be16]
  calc feed .mcu ([n1, n0] ++ data) s
    _ = feed .mcu (n1 :: n0 :: data) (s.receiving []) := by rw [State.receiving_nil h.noFrame]; rfl
    _ = feed .mcu (n0 :: data) (s.receiving [n1]) := feed_boot_pending h.boot hfirst
    _ = (blPayload .erase ((s.atByte 1).setMcu { (s.atByte 1).mcu with
          eraseCount := be16 n1 n0, need := 2 * (be16 n1 n0).toNat, step := 3 })).bind
          fun _ t => feed .mcu data (t.addOut (s.mcu.reply.getD 1 0xFF)) :=
      feed_boot_complete (f := fun t => blPayload .erase (t.setMcu { t.mcu with
        eraseCount := be16 n1 n0, need := 2 * (be16 n1 n0).toNat, step := 3 })) h.boot h.noFrame hlast
    _ = _ := by rw [State.atByte_drained 1 h.drained, h.drained]; rfl

/-- A row of a command sent to a ready bootloader, by the bytes it exchanges: when the command has ended, no command is
pending and nothing awaits an acknowledgment, as before the row (R165, R168). -/
theorem exec_boot_ended {i : Instr} {bytes out out' : List Byte} {log : List Event} {m : McuState} {s : State}
    (hs : BootReady s) (hi : exec i s = operate s (sendFrame bytes))
    (hrun : feed .mcu bytes (s.setOut []) =
      .ok () { s with mcu := { m with blCmd := none, waitingAck := false }, log := log, out := out })
    (hm : m = { m with blCmd := s.mcu.blCmd, waitingAck := s.mcu.waitingAck }) (hout : out = out') :
    exec i s = .next { s with mcu := m, log := log, out := out' } := by
  rw [exec_boot_mode hs.toBootMode hi hrun, hm, hs.between, hs.settled, hout]

/-- Settles O52: frame, address and payload of a row are each a step of the bootloader, acknowledged. -/
theorem bootloaderCommandsAreStubbed : Obligations.BootloaderCommandsAreStubbed := by
  intro s dest hs hr
  have hs0 := hs.setOut []
  refine ⟨fun indices hlen => ?erase, fun data hlen => ?write, ?go⟩
  case erase =>
    have hready := (s.setOut []).inHeader_ready .erase dest hs0 hr
    have hcount : (BitVec.ofNat 16 indices.length).toNat = indices.length := Nat.mod_eq_of_lt hlen
    have hpayload := feed_acknowledged_payload
      (feed_boot_count (BitVec.ofNat 16 indices.length) (indexBytes indices) hready rfl)
      ⟨hs.boot, hs.started, rfl, rfl, rfl, hready.room⟩ hr (by rw [indexBytes_length]; exact congrArg (2 * ·) hcount)
    have hreturned : List.replicate (2 + 2 * indices.length) (0xFF : Byte) =
        0xFF :: List.replicate ((indexBytes indices).length + 1) 0xFF := by
      rw [indexBytes_length, ← List.replicate_succ]
      congr 1
      omega
    exact exec_boot_ended hs rfl (feed_boot_headed hs0 hr (by decide) hpayload) rfl (by rw [hreturned]; rfl)
  case write =>
    have hready := (s.setOut []).inHeader_ready .write dest hs0 hr
    have hlength : (BitVec.ofNat 8 data.length).toNat = data.length := Nat.mod_eq_of_lt hlen
    have hpayload := feed_acknowledged_payload (header := [BitVec.ofNat 8 data.length])
      (feed_boot_length (BitVec.ofNat 8 data.length) data hready rfl)
      ⟨hs.boot, hs.started, rfl, rfl, rfl, hready.room⟩ hr hlength
    exact exec_boot_ended hs rfl (feed_boot_headed hs0 hr (by decide) hpayload) rfl
      (by rw [Nat.add_comm 1 data.length]; rfl)
  case go =>
    have hready := (s.setOut []).inCommand_ready .go hs0 hr
    have hexit := feed_acknowledged_exits (feed_boot_address dest hready) hready.boot hready.drained
      hready.room ⟨rfl, rfl⟩
    have hrow := feed_append .mcu (acknowledged (bootFrame (bootCode .go))) (acknowledged (be32Bytes dest)) (s.setOut [])
    rw [feed_boot_command .go hs0 hr, Res.bind_ok] at hrow
    exact exec_boot_ended hs rfl (hrow.trans hexit) rfl rfl

end Sys2Proof.Machine
end

section
/-! SUPPORT. The proofs of the statements about the legacy flash FSM, with the lemmas they rest on: what a console write in
the window of an active snoop does, and that nothing but such a write and a reset moves the FSM. -/

namespace Sys2Proof.Machine

/-! ## Writes in the window of an active snoop (R171, R175 to R180) -/

/-- The data bytes are those of `FastWrite` and `Write` (R171). -/
theorem fsmStores_iff {f : Legacy} : fsmStores f = true ↔ f = .fastWrite ∨ f = .write := by
  cases f <;> decide

/-- A byte that is no data byte only moves the FSM (R171). -/
theorem cartWrite_moves {s : State} {addr : BitVec 20} (v : Byte) (hs : snooped s addr = true)
    (hf : fsmStores s.fsm = false) : cartWrite addr v s = s.setFsm (fsmNext s.fsm v) := by
  rcases cartWrite_cases s addr v with ⟨hout, -⟩ | ⟨-, hdata, -⟩ | ⟨-, -, hmove⟩
  · exact absurd (hs.symm.trans hout) (by decide)
  · exact absurd (hdata.symm.trans hf) (by decide)
  · exact hmove

/-- A data byte is stored where the translator resolves the write and nowhere else, and the FSM moves (R171). -/
theorem cartWrite_stores {s : State} {addr : BitVec 20} (v : Byte) (hs : snooped s addr = true)
    (hf : fsmStores s.fsm = true) :
    ∃ arr, cartWrite addr v s = (s.setArrays arr).setFsm (fsmNext s.fsm v) ∧
      s.storesAt (s.setArrays arr) (s.placeOf addr true false) v := by
  obtain ⟨arr, hwrite, hstores⟩ := writeThrough_spec s addr v false
  rcases cartWrite_cases s addr v with ⟨hout, -⟩ | ⟨-, -, hstore⟩ | ⟨-, hmove, -⟩
  · exact absurd (hs.symm.trans hout) (by decide)
  · exact ⟨arr, by rw [hstore, hwrite], hstores⟩
  · exact absurd (hf.symm.trans hmove) (by decide)

section
variable {s : State} {i : Instr} {addr : BitVec 20} {f : Legacy}

/-- An operation that writes one byte in the window, no data byte: the FSM moves and nothing else changes. -/
theorem exec_window_moves (v : Byte) (hs : SnoopActive s) (hbank : addr.extractLsb' 16 4 = 1) (hfsm : s.fsm = f)
    (hi : exec i s = operate s fun s => done (cartWrite addr v s)) (hf : fsmStores f = false) :
    exec i s = .next { s with fsm := fsmNext f v, out := [] } := by
  subst hfsm
  have hin : snooped (s.setOut []) addr = true := (snooped_iff s addr hs.noFault).2 ⟨hs, hbank⟩
  rw [hi, operate_running _ _ hs.noFault, done_state, cartWrite_moves v hin hf]
  rfl

/-- An operation that writes one byte in the window, a data byte. -/
theorem exec_window_stores {v : Byte} (hs : SnoopActive s) (hbank : addr.extractLsb' 16 4 = 1)
    (hi : exec i s = operate s fun s => done (cartWrite addr v s)) (hf : fsmStores s.fsm = true) :
    ∃ t, exec i s = .next t ∧ t = { s with fsm := fsmNext s.fsm v, arrays := t.arrays, out := [] } ∧
      s.storesAt t (s.placeOf addr true false) v := by
  have hin : snooped (s.setOut []) addr = true := (snooped_iff s addr hs.noFault).2 ⟨hs, hbank⟩
  obtain ⟨arr, hwrite, hstores⟩ := cartWrite_stores v hin hf
  rw [hi, operate_running _ _ hs.noFault, done_state, hwrite]
  exact ⟨_, rfl, rfl, hstores⟩

/-- An operation that writes 0xA0 and a byte in the window, in a state where 0xA0 makes the next byte a data byte
(R177, R179). -/
theorem exec_window_arms {x : Byte} (hs : SnoopActive s) (hbank : addr.extractLsb' 16 4 = 1) (hfsm : s.fsm = f)
    (hi : exec i s = operate s fun s => done (cartWrite addr x (cartWrite addr 0xA0 s)))
    (hf : fsmStores f = false) (harmed : fsmStores (fsmNext f 0xA0) = true) :
    ∃ t, exec i s = .next t ∧ t = { s with fsm := fsmNext (fsmNext f 0xA0) x, arrays := t.arrays, out := [] } ∧
      s.storesAt t (s.placeOf addr true false) x := by
  subst hfsm
  have hin : snooped (s.setOut []) addr = true := (snooped_iff s addr hs.noFault).2 ⟨hs, hbank⟩
  obtain ⟨arr, hwrite, hstores⟩ :=
    cartWrite_stores (s := (s.setOut []).setFsm (fsmNext s.fsm 0xA0)) x hin harmed
  rw [hi, operate_running _ _ hs.noFault, done_state, cartWrite_moves 0xA0 hin hf]
  exact ⟨_, congrArg _ hwrite, rfl, hstores⟩

end

/-- Settles O53: the table is `fsmNext`, and the byte is data in `FastWrite` and `Write` only. -/
theorem snoopFollowsItsTable : Obligations.SnoopFollowsItsTable := by
  intro s addr v hs hbank next
  have hnext : next = fsmNext s.fsm v := rfl
  rw [hnext]
  refine ⟨fun hdata => ?stores, fun hfast hwrite => ?moves⟩
  case stores => exact exec_window_stores hs hbank rfl (fsmStores_iff.2 hdata)
  case moves =>
    have hf : fsmStores s.fsm = false :=
      Bool.eq_false_iff.2 fun hdata => (fsmStores_iff.1 hdata).elim hfast hwrite
    exact exec_window_moves v hs hbank rfl rfl hf

/-- Settles O54: each row is one or two writes in the window, and `fsmNext` gives where the FSM goes. -/
theorem legacyCommandsMoveTheFsm : Obligations.LegacyCommandsMoveTheFsm := by
  intro s o x b5 hs
  have hbank := windowAddr_bank o
  have herase : fsmNext .unlock2 (if b5 = 0 then 0x10 else 0x30) = .erase := by revert b5; decide
  refine ⟨fun hfsm => ?unlock1, fun hfsm => ?unlock2, fun hfsm => ?fast, fun hfsm => ?erase, fun hfsm => ?fastexit,
    fun hfsm => ?write, fun hfsm => ?fastwrite⟩
  case unlock1 => exact exec_window_moves 0xAA hs hbank hfsm rfl rfl
  case unlock2 => exact exec_window_moves 0x55 hs hbank hfsm rfl rfl
  case fast => exact exec_window_moves 0x20 hs hbank hfsm rfl rfl
  case erase => exact herase ▸ exec_window_moves (if b5 = 0 then 0x10 else 0x30) hs hbank hfsm rfl rfl
  case fastexit => exact exec_window_moves 0x90 hs hbank hfsm rfl rfl
  case write => exact exec_window_arms hs hbank hfsm rfl rfl rfl
  case fastwrite =>
    obtain ⟨t, hnext, ht, hstores⟩ := exec_window_arms (i := .lfFastwrite o x) hs hbank hfsm rfl rfl rfl
    have hback : fsmNext (fsmNext .fast 0xA0) x = s.fsm := hfsm.symm
    exact ⟨t, hnext, by rwa [hback] at ht, hstores⟩

/-! ## What leaves the FSM alone (R173, R174) -/

/-- A sequence leaves the FSM alone when both its pieces do. -/
theorem Res.bind_fsm {α β : Type} {f : Legacy} {r : Res α} {k : α → State → Res β} (hr : r.state.fsm = f)
    (hk : ∀ a t, (k a t).state.fsm = t.fsm) : (r.bind k).state.fsm = f :=
  Res.bind_keeps (P := (·.fsm = f)) hr fun a t ht => (hk a t).trans ht

theorem exchange_fsm (dev : BitVec 2) (tx : Byte) (s : State) : (exchange dev tx s).state.fsm = s.fsm :=
  congrArg Outside.fsm (exchange_outside dev tx s)

theorem exchangeAll_fsm (dev : BitVec 2) (bytes : List Byte) (s : State) : (exchangeAll dev bytes s).state.fsm = s.fsm := by
  induction bytes generalizing s with
  | nil => rfl
  | cons tx rest ih => exact Res.bind_fsm (exchange_fsm dev tx s) fun rx t => ih (t.addOut rx)

theorem sendFrame_fsm (bytes : List Byte) (s : State) : (sendFrame bytes s).state.fsm = s.fsm := by
  unfold sendFrame
  split
  · exact exchangeAll_fsm _ bytes s
  · rfl

theorem transferRx_fsm (mode : BitVec 2) (h : BitVec 1) (i : Nat) (rx : Byte) (s : State) :
    (transferRx mode h i rx s).fsm = s.fsm := by
  unfold transferRx
  split <;> rfl

theorem transferLoop_fsm (dev mode : BitVec 2) (h : BitVec 1) (k i : Nat) (s : State) :
    (transferLoop dev mode h k i s).state.fsm = s.fsm := by
  induction k generalizing i s with
  | zero => rfl
  | succ k ih => exact Res.bind_fsm (exchange_fsm ..) fun rx t => (ih _ _).trans (transferRx_fsm mode h i rx t)

theorem waitRead_fsm (dev : BitVec 2) (h : BitVec 1) (left skipped : Nat) (s : State) :
    (waitRead dev h left skipped s).state.fsm = s.fsm := by
  induction left generalizing skipped s with
  | zero => rfl
  | succ left ih =>
    refine Res.bind_fsm (exchange_fsm ..) fun rx t => ?_
    split
    · rfl
    · exact ih _ t

theorem transfer_fsm (s : State) : (transfer s).state.fsm = s.fsm := by
  simp only [transfer]
  split
  · refine Res.bind_fsm (waitRead_fsm ..) fun got t => ?_
    split
    · exact Res.bind_fsm (transferLoop_fsm ..) fun _ _ => rfl
    · rfl
  · exact Res.bind_fsm (transferLoop_fsm ..) fun _ _ => rfl

theorem deselect_fsm (old : BitVec 2) (s : State) : (deselect old s).fsm = s.fsm := by
  unfold deselect
  split <;> rfl

theorem runEngine_fsm (old : BitVec 2) (s : State) : (runEngine old s).state.fsm = s.fsm := by
  rw [runEngine_eq]
  split
  · rfl
  · split
    · exact (transfer_fsm _).trans (deselect_fsm old s)
    · exact deselect_fsm old s

theorem spiCntWrite_fsm (p : BytePort) (v : Byte) (s : State) : (spiCntWrite p v s).state.fsm = s.fsm := by
  cases hbusy : s.regs.busy with
  | true => rw [spiCntWrite_busy p v hbusy]; rfl
  | false =>
    cases p with
    | lo => rw [spiCntWrite_lo_idle v hbusy]; rfl
    | hi => rw [spiCntWrite_hi_idle v hbusy]; exact runEngine_fsm ..

theorem powWrite_fsm (v : Byte) (s : State) : (powWrite v s).fsm = s.fsm := by
  by_cases hreset : v.getLsbD s.board.powMcuReset = true
  · rw [powWrite_reset hreset]; rfl
  · rw [powWrite_noReset hreset]; rfl

theorem portWrite_fsm (p : RegPort) (v : Byte) (s : State) : (portWrite p v s).state.fsm = s.fsm := by
  cases p
  case spiCnt b => exact spiCntWrite_fsm b v s
  case powCnt => exact powWrite_fsm v s
  all_goals rfl

theorem regWrite_fsm (off v : Byte) (s : State) : (regWrite off v s).state.fsm = s.fsm := by
  unfold regWrite
  split
  · rfl
  · rfl
  · exact portWrite_fsm _ v s

theorem writeRegByte_fsm (p : RegPort) (v : Byte) (s : State) : (writeRegByte p v s).state.fsm = s.fsm := by
  unfold writeRegByte
  split
  · rfl
  · exact regWrite_fsm _ v s

theorem spiWordWrite_fsm (w : Half) (s : State) : (spiWordWrite w s).state.fsm = s.fsm :=
  Res.bind_fsm (writeRegByte_fsm ..) fun _ t => writeRegByte_fsm _ _ t

theorem regRead_fsm (off : Byte) (s : State) : (regRead off s).fsm = s.fsm := by
  unfold regRead
  split <;> rfl

theorem writeThrough_fsm (s : State) (addr : BitVec 20) (v : Byte) (p : Bool) : (writeThrough s addr v p).fsm = s.fsm := by
  obtain ⟨arr, hwrite, -⟩ := writeThrough_spec s addr v p
  rw [hwrite]; rfl

/-! ## The rows, by their format -/

/-- The bytes of a legacy row, written one after another at an offset of the window (R76). -/
def windowWrites (o : Half) (bytes : List Byte) (s : State) : State :=
  bytes.foldl (fun s v => cartWrite (windowAddr o) v s) s

/-- A legacy row writes its bytes in the window (R76; log entry 4). -/
theorem exec_legacy {i : Instr} {s : State} (h : (encode s.board i).fmt = .legacy) :
    ∃ o bytes, exec i s = operate s fun s => done (windowWrites o bytes s) := by
  cases i
  case lfUnlock1 o => exact ⟨o, [0xAA], rfl⟩
  case lfUnlock2 o => exact ⟨o, [0x55], rfl⟩
  case lfFast o => exact ⟨o, [0x20], rfl⟩
  case lfWrite o x => exact ⟨o, [0xA0, x], rfl⟩
  case lfErase o b5 => exact ⟨o, [if b5 = 0 then 0x10 else 0x30], rfl⟩
  case lfFastwrite o x => exact ⟨o, [0xA0, x], rfl⟩
  case lfFastexit o => exact ⟨o, [0x90], rfl⟩
  all_goals cases h

/-- Where the snoop takes no write, the bytes reach nothing but the arrays, so it takes none of those that follow (R81,
R87). -/
theorem windowWrites_unsnooped {s : State} (o : Half) (bytes : List Byte) (h : snooped s (windowAddr o) = false) :
    ∃ arr, windowWrites o bytes s = s.setArrays arr := by
  induction bytes generalizing s with
  | nil => exact ⟨s.arrays, rfl⟩
  | cons v rest ih =>
    obtain ⟨arr, hwrite, -⟩ := writeThrough_spec s (windowAddr o) v false
    obtain ⟨arr', hrest⟩ := ih (s := s.setArrays arr) h
    rw [windowWrites, List.foldl_cons, cartWrite_unsnooped v h, hwrite]
    exact ⟨arr', hrest⟩

section
variable {s t : State} {i : Instr}

/-- A row of a peripheral's format leaves the FSM alone (R174). -/
theorem exec_sends_fsm (hf : (encode s.board i).fmt ∈ [Format.flash, .card, .mcu, .boot]) (he : exec i s = .next t) :
    t.fsm = s.fsm := by
  obtain ⟨bytes, hrow⟩ := exec_sends hf
  obtain ⟨-, rfl⟩ := operate_next (hrow ▸ he)
  exact sendFrame_fsm bytes (s.setOut [])

/-- A control word leaves the FSM alone. -/
theorem exec_spicnt_fsm (hf : (encode s.board i).fmt = .spicnt) (he : exec i s = .next t) : t.fsm = s.fsm := by
  obtain ⟨lo, hi, hframe⟩ := encode_spicnt_bytes hf
  obtain ⟨-, rfl⟩ := operate_next (exec_spi hframe ▸ he)
  exact spiWordWrite_fsm (hi ++ lo) (s.setOut [])

/-- A legacy row moves the FSM under an active snoop only (R173). -/
theorem exec_legacy_fsm (hf : (encode s.board i).fmt = .legacy) (he : exec i s = .next t) (hmoved : t.fsm ≠ s.fsm) :
    SnoopActive s := by
  obtain ⟨o, bytes, hrow⟩ := exec_legacy hf
  obtain ⟨hfault, rfl⟩ := operate_next (hrow ▸ he)
  cases hsnoop : snooped (s.setOut []) (windowAddr o) with
  | true => exact ((snooped_iff s (windowAddr o) hfault).1 hsnoop).1
  | false =>
    obtain ⟨arr, hwrites⟩ := windowWrites_unsnooped o bytes hsnoop
    exact absurd (congrArg State.fsm hwrites) hmoved

/-- A CartWrite moves the FSM in the window of an active snoop only (R173). -/
theorem exec_busCartwrite_fsm {addr : BitVec 20} {v : Byte} (he : exec (.busCartwrite addr v) s = .next t)
    (hmoved : t.fsm ≠ s.fsm) : SnoopActive s ∧ addr.extractLsb' 16 4 = 1 := by
  obtain ⟨hfault, rfl⟩ := operate_next (f := fun s => done (cartWrite addr v s)) he
  cases hsnoop : snooped (s.setOut []) addr with
  | true => exact (snooped_iff s addr hfault).1 hsnoop
  | false =>
    rw [done_state, cartWrite_unsnooped v hsnoop] at hmoved
    exact absurd (writeThrough_fsm (s.setOut []) addr v false) hmoved

/-- A bus operation that moves the FSM is a reset, or a CartWrite in the window of an active snoop (R173). -/
theorem exec_bus_fsm (hf : (encode s.board i).fmt = .bus) (he : exec i s = .next t) (hmoved : t.fsm ≠ s.fsm) :
    i = .busWarmreset ∨ i = .busColdreset ∨
      (SnoopActive s ∧ ∃ addr v, i = .busCartwrite addr v ∧ addr.extractLsb' 16 4 = 1) := by
  have moves : ∀ f : State → Res Unit, exec i s = operate s f → (f (s.setOut [])).state.fsm ≠ s.fsm := by
    intro f hi
    obtain ⟨-, rfl⟩ := operate_next (hi ▸ he)
    exact hmoved
  cases i
  case busWarmreset => exact .inl rfl
  case busColdreset => exact .inr (.inl rfl)
  case busCartwrite addr v =>
    obtain ⟨hactive, hbank⟩ := exec_busCartwrite_fsm he hmoved
    exact .inr (.inr ⟨hactive, addr, v, rfl, hbank⟩)
  case busRegread off => exact absurd (regRead_fsm off _) (moves (fun s => done (regRead off s)) rfl)
  case busRegwrite off v => exact absurd (regWrite_fsm off v _) (moves (fun s => regWrite off v s) rfl)
  case busCartread addr => exact absurd rfl (moves (fun s => done (cartRead addr s)) rfl)
  case busProberead addr => exact absurd rfl (moves (fun s => done (probeRead addr s)) rfl)
  case busProbewrite addr v =>
    exact absurd (writeThrough_fsm _ addr v true) (moves (fun s => done (probeWrite addr v s)) rfl)
  all_goals cases hf

end

/-- Settles O55: by the format of the instruction's frame. -/
theorem onlyWindowWritesMoveTheFsm : Obligations.OnlyWindowWritesMoveTheFsm := by
  intro i s t he hmoved
  cases hfmt : (encode s.board i).fmt with
  | bus =>
    rcases exec_bus_fsm hfmt he hmoved with hwarm | hcold | ⟨hactive, hwrite⟩
    · exact .inl hwarm
    · exact .inr (.inl hcold)
    · exact .inr (.inr ⟨hactive, .inr hwrite⟩)
  | spicnt => exact absurd (exec_spicnt_fsm hfmt he) hmoved
  | legacy => exact .inr (.inr ⟨exec_legacy_fsm hfmt he hmoved, .inl rfl⟩)
  | flash | card | mcu | boot => exact absurd (exec_sends_fsm (by rw [hfmt]; decide) he) hmoved

end Sys2Proof.Machine
end

section
/-! SUPPORT. The proof of the statement about a halted block, with the lemmas about a step in which nothing is issued. -/

namespace Sys2Proof.Machine

/-- A halted block stays halted while nothing is issued (R181). -/
theorem idle_halted {s : State} {r : Fault} (h : s.fault = some r) : idle s = .fault r := by
  simp only [idle, h]

/-- Nothing happens between the operations of a running block (R185). -/
theorem idle_running {s : State} (h : s.fault = none) : idle s = .next s := by
  simp only [idle, h]

/-- A step with an empty script issues nothing (log entry 4). -/
theorem step_of_script_nil {s : State} (h : s.script = []) : step s = idle s := by
  simp only [step, issue, h]

/-- An instruction is one whole operation, which a halted block refuses (R181). -/
theorem exec_halted (i : Instr) {s : State} {r : Fault} (h : s.fault = some r) : exec i s = .fault r := by
  obtain ⟨f, hoperate⟩ := exec_is_operation i s
  rw [hoperate, operate_halted s f r h]

/-- Settles O5: every instruction is one whole operation, and the empty script leaves the block idle. -/
theorem haltedBlockRefusesEveryOperation : Obligations.HaltedBlockRefusesEveryOperation := by
  refine ⟨fun i s r hfault => ?issued, fun s r hfault hscript => ?idleHalted, fun s hfault hscript => ?idleRunning⟩
  case issued => exact exec_halted i hfault
  case idleHalted => exact (step_of_script_nil hscript).trans (idle_halted hfault)
  case idleRunning => exact (step_of_script_nil hscript).trans (idle_running hfault)

end Sys2Proof.Machine
end
